-- ==== Sys2Proof/Word.lean ====
section
/-! DEFINITION. The word types of the KZ4418: the byte of the host window and of a trunk slot, and the 16-bit
word of a cycle count. Positions, fills, lengths and addresses are plain `Nat`; their ranges are kept by the checks of
the rules that write them. -/

namespace Sys2Proof

/-- A byte: one host access (R149), one trunk slot (R1), one byte of buffer memory (R93). -/
abbrev Byte := BitVec 8

/-- A 16-bit value: a cycle count (R11, R34), a stamp (R135), the marker-error counter and its threshold (R46, R48). -/
abbrev Half := BitVec 16

/-- A channel number, 0 to 19 (section 3 of the scope file; R72). -/
abbrev Channel := Fin 20

end Sys2Proof
end

