-- ==== Sys2Proof/Syntax.lean ====
section
/-! DEFINITION. The commands of the KZ4418: one constructor of `Instr` for each row of spec/opcode_table.json, with
the operands the row's rule gives it. A command to the command location takes its operands from the operand registers
(R155), so it carries none here. A trunk event takes its bits from the received bits the aligner holds, so it carries
none either; only `receivedBitPosition` brings a bit in. -/

namespace Sys2Proof

/-- The wide items of the window (table of section 9.3). -/
inductive WideItem where
  | rxCycleCount | txCycleCount | cycleOffset | markerErrors | markerThreshold
  | segABase | segALength | segBBase | segBLength | watermark | position | fill
  | bufferAddress | headStamp
  deriving DecidableEq, Repr

/-- The three writable locations of the selected slot-map entry (R55). -/
inductive EntryField where
  | receive | transmit | constant
  deriving DecidableEq, Repr

/-- The two bytes of the kind-enable set (R140): kinds 1 to 8 and kinds 9 to 15. -/
inductive KindByte where
  | kinds1to8 | kinds9to15
  deriving DecidableEq, Repr

/-- The commands, in the order of spec/opcode_table.json. -/
inductive Instr where
  /-- POWER_ON (R158) -/
  | powerOn
  /-- POWER_ON_CLEARING_END (R158) -/
  | powerOnClearingEnd
  /-- PIN_RESET (R160) -/
  | pinReset
  /-- PIN_RESET_RELEASE (R161) -/
  | pinResetRelease
  /-- TRANSMIT_FRAME_START (R7) -/
  | transmitFrameStart
  /-- SLOT_DEMAND (R8) -/
  | slotDemand
  /-- ENTRY_TO_STOPPED (R9) -/
  | entryToStopped
  /-- SEARCH_BYTE_EXAMINATION (R22) -/
  | searchByteExamination
  /-- CONFIRM_MARKER_CHECK (R24) -/
  | confirmMarkerCheck
  /-- ALIGNED_MARKER_CHECK (R29) -/
  | alignedMarkerCheck
  /-- SLOT_ARRIVAL (R67) -/
  | slotArrival
  /-- FRAME_END (R86) -/
  | frameEnd
  /-- SILENCE_DECLARATION (R39) -/
  | silenceDeclaration
  /-- SILENCE_CLEARING (R40) -/
  | silenceClearing
  /-- SILENCE_WINDOW_FAILURE (R40) -/
  | silenceWindowFailure
  /-- HOLD_WINDOW_END (R42) -/
  | holdWindowEnd
  /-- TRANSMIT_ENABLE_WRITE (R5): page 0, location 01H -/
  | transmitEnableWrite (value : Byte)
  /-- RECEIVE_ENABLE_WRITE (R18): page 0, location 02H -/
  | receiveEnableWrite (value : Byte)
  /-- FRAME_LENGTH_WRITE (R14): page 0, location 03H -/
  | frameLengthWrite (value : Byte)
  /-- LOCAL_LOOP_WRITE (R16): page 0, location 06H -/
  | localLoopWrite (value : Byte)
  /-- PAGE_REGISTER_WRITE (R148): location 3FH of every page -/
  | pageRegisterWrite (value : Byte)
  /-- SUSPEND_FLAG_WRITE (R145): page 0, location 0EH -/
  | suspendFlagWrite (value : Byte)
  /-- KIND_ENABLE_WRITE (R140): page 0, location 10H or 11H -/
  | kindEnableWrite (which : KindByte) (value : Byte)
  /-- SLOT_MAP_ENTRY_WRITE (R55): page 3, location 02H, 03H or 04H -/
  | slotMapEntryWrite (field : EntryField) (value : Byte)
  /-- MODE_BYTE_WRITE (R73): page 2, location 01H -/
  | modeByteWrite (value : Byte)
  /-- TAG_WRITE (R73): page 2, location 02H -/
  | tagWrite (value : Byte)
  /-- TAG_TABLE_ENTRY_WRITE (R165): page 4, location 05H -/
  | tagTableEntryWrite (value : Byte)
  /-- WIDE_LOW_BYTE_WRITE (R152): the low location of a wide item -/
  | wideLowByteWrite (item : WideItem) (value : Byte)
  /-- WIDE_HIGH_BYTE_COMMIT (R152): the high location of a wide item -/
  | wideHighByteCommit (item : WideItem) (value : Byte)
  /-- BUFFER_DATA_READ (R154): page 4, location 02H -/
  | bufferDataRead
  /-- BUFFER_DATA_WRITE (R154): page 4, location 02H -/
  | bufferDataWrite (value : Byte)
  /-- WIDE_LOW_BYTE_READ (R151) -/
  | wideLowByteRead (item : WideItem)
  /-- WIDE_HIGH_BYTE_READ (R151) -/
  | wideHighByteRead (item : WideItem)
  /-- PORT_STATUS_READ (R157): page 0, location 0DH -/
  | portStatusRead
  /-- MISSED_SET_THIRD_BYTE_READ (R144): page 5, location 0AH -/
  | missedSetThirdByteRead
  /-- REGISTER_WRITE (R149): a location with no row of its own on the current page -/
  | registerWrite (location : BitVec 6) (value : Byte)
  /-- START (R77), command code 01H -/
  | cmdStart
  /-- STOP (R83), command code 02H -/
  | cmdStop
  /-- FINISH (R85), command code 03H -/
  | cmdFinish
  /-- GIVE (R109), command code 04H -/
  | cmdGive
  /-- ADVANCE (R112), command code 05H -/
  | cmdAdvance
  /-- SWITCH (R58), command code 06H -/
  | cmdSwitch
  /-- REALIGN (R33), command code 07H -/
  | cmdRealign
  /-- CLEAR_COUNTERS (R51), command code 08H -/
  | cmdClearCounters
  /-- REMOVE (R142), command code 09H -/
  | cmdRemove
  /-- FLUSH (R143), command code 0AH -/
  | cmdFlush
  /-- ENGINE_RESET (R162), command code 0BH -/
  | cmdEngineReset
  /-- BAD_COMMAND (R156): a code that names no command -/
  | badCommand (code : Byte)
  /-- RECEIVED_BIT_POSITION (R38): one bit position on RXD; under local loop the bit on TXD is taken instead -/
  | receivedBitPosition (bit : Bool)
  deriving DecidableEq, Repr

end Sys2Proof
end

