-- ==== Sys2Proof/WellFormed.lean ====
section
/-! DEFINITION. When a command is well formed: what its row's own words ask of its operands, whatever the state. -/

namespace Sys2Proof

/-- The wide items the host may write (table of section 9.3). -/
def WideItem.writable : WideItem → Bool
  | .markerThreshold | .segABase | .segALength | .segBBase | .segBLength | .watermark | .bufferAddress => true
  | .rxCycleCount | .txCycleCount | .cycleOffset | .markerErrors | .position | .fill | .headStamp => false

/-- The codes of the eleven commands, 01H to 0BH (section 10.2). -/
def namesCommand (code : Byte) : Bool := 1 ≤ code.toNat && code.toNat ≤ 11

/-- A command is well formed when its operands can stand in an access of its row: a low-byte write or a commit names a
writable wide item (R152; a write to a read-only item is a REGISTER_WRITE, R149), a REGISTER_WRITE does not name the
page register's location (R148 has a row of its own) and a BAD_COMMAND carries a code that names no command (R156). -/
def Instr.wellFormed : Instr → Bool
  | .wideLowByteWrite item _ => item.writable
  | .wideHighByteCommit item _ => item.writable
  | .registerWrite location _ => location != 0x3F#6
  | .badCommand code => !namesCommand code
  | .powerOn | .powerOnClearingEnd | .pinReset | .pinResetRelease => true
  | .transmitFrameStart | .slotDemand | .entryToStopped => true
  | .searchByteExamination | .confirmMarkerCheck | .alignedMarkerCheck | .slotArrival | .frameEnd => true
  | .silenceDeclaration | .silenceClearing | .silenceWindowFailure | .holdWindowEnd => true
  | .transmitEnableWrite _ | .receiveEnableWrite _ | .frameLengthWrite _ | .localLoopWrite _ => true
  | .pageRegisterWrite _ | .suspendFlagWrite _ | .kindEnableWrite _ _ | .slotMapEntryWrite _ _ => true
  | .modeByteWrite _ | .tagWrite _ | .tagTableEntryWrite _ => true
  | .bufferDataRead | .bufferDataWrite _ | .wideLowByteRead _ | .wideHighByteRead _ => true
  | .portStatusRead | .missedSetThirdByteRead => true
  | .cmdStart | .cmdStop | .cmdFinish | .cmdGive | .cmdAdvance | .cmdSwitch | .cmdRealign => true
  | .cmdClearCounters | .cmdRemove | .cmdFlush | .cmdEngineReset => true
  | .receivedBitPosition _ => true

end Sys2Proof
end

