-- ==== Sys2Proof/Decode.lean ====
section
/-! DEFINITION. The command a word spells by the bits of spec/opcode_table.json. The table gives no row any bits: every
row's list of fields is empty and no row has a fixed pattern, so no word spells a command. -/

namespace Sys2Proof

/-- The command whose row of the table has the bits `w`: none, since no row of the table has bits. -/
def decodeTableWord (_nbits _w : Nat) : Option Instr := none

end Sys2Proof
end

