-- ==== Sys2Proof/Config.lean ====
section
/-! DEFINITION. What is fixed for the part (sizes the spec states once) and the FREE VALUES: constants with no body, so
that nothing can be proved of the value they take. Each free value has a row of notes/assumptions. -/

namespace Sys2Proof

/-- Buffer memory holds 8192 bytes, addresses 0 to 8191 (R93). -/
def Config.memoryBytes : Nat := 8192

/-- The notification queue holds at most 32 records (R137). -/
def Config.queueCapacity : Nat := 32

/-- The repeat count of a record stays at 15 (R137). -/
def Config.maxRepeat : Nat := 15

/-- FREE VALUE (assumption 6): at a transmit cycle start, whether the grant of frame 0 is taken before the entry of the
ARMED channels to ACTIVE. R80 allows either order. The argument is the draw counter of the state. -/
opaque Config.grantBeforeEntry : Nat → Bool

/-- FREE VALUE (assumption 7): the key by which posts that one event makes, and to which no rule gives an order, are
put in order (R61, R117). The arguments are the draw counter of the state and the place of the post among those made. -/
opaque Config.postOrderKey : Nat → Nat → Nat

/-- FREE VALUE (assumption 8): what a byte of buffer memory holds between power-on and the end of the power-on
clearing (section 9.7: it holds no known values). The arguments are the count of power-ons and the address. -/
opaque Config.unclearedByte : Nat → Nat → Byte

end Sys2Proof
end

