-- ==== Sys2Proof/Machine/State.lean ====
section
/-! DEFINITION. The state of the KZ4418 as plain data, one structure for each block that owns it (the ownership table of
section 1.2), the reasons a step can stop, and the state right after power-on. -/

namespace Sys2Proof.Machine

/-! ### Channels (chapter 5) -/

/-- Direction of a channel (R72). -/
inductive Direction where
  | receive | transmit
  deriving DecidableEq, Repr

/-- Mode of a channel (R72). -/
inductive Mode where
  | single | ring | alternating
  deriving DecidableEq, Repr

/-- State of a channel (section 5.1). -/
inductive ChannelState where
  | idle | armed | active | ending | done
  deriving DecidableEq, Repr

/-- One of the two segments of a channel (R72). -/
inductive Segment where
  | segA | segB
  deriving DecidableEq, Repr

/-- Holder of a segment in ALTERNATING mode (R76). -/
inductive Owner where
  | device | host
  deriving DecidableEq, Repr

/-- A channel context: the nine programmed fields of R72 and the running fields of R76. -/
structure ChannelContext where
  direction : Direction
  mode : Mode
  poolMode : Bool
  tag : Byte
  baseA : Nat
  lengthA : Nat
  baseB : Nat
  lengthB : Nat
  watermark : Nat
  state : ChannelState
  active : Segment
  position : Nat
  fill : Nat
  ownerA : Owner
  ownerB : Owner
  stalled : Bool
  shortRun : Bool
  shortfalls : Byte
  deriving DecidableEq, Repr

/-- The context after power-on and pin reset (tables of sections 5.2 and 5.3; R91). -/
def ChannelContext.reset : ChannelContext where
  direction := .receive
  mode := .single
  poolMode := false
  tag := 1
  baseA := 0
  lengthA := 1
  baseB := 0
  lengthB := 1
  watermark := 0
  state := .idle
  active := .segA
  position := 0
  fill := 0
  ownerA := .device
  ownerB := .device
  stalled := false
  shortRun := false
  shortfalls := 0

/-! ### Notifications (chapter 8) -/

/-- The 15 kinds of record (R136). -/
inductive Kind where
  | segmentDone | channelEnded | shortfall | watermark | alignGained | alignLost
  | remoteFaultOn | remoteFaultOff | silenceOn | silenceOff | holdOn | holdOff
  | rxMapSwitched | txMapSwitched | markerThreshold
  deriving DecidableEq, Repr

/-- The channel field of a record: a channel or LINK (R135). -/
inductive RecordChannel where
  | channel (c : Channel) | link
  deriving DecidableEq, Repr

/-- The detail of a record (R136): none, the segment completed, how a run ended, or why alignment was lost. -/
inductive Detail where
  | none | segmentA | segmentB | completed | finished | markers | silence | hold | command
  deriving DecidableEq, Repr

/-- What a block hands to the Notification Queue: the four fixed fields of a record (R136). -/
structure Post where
  kind : Kind
  channel : RecordChannel
  detail : Detail
  stamp : Half
  deriving DecidableEq, Repr

/-- A record of the queue (R135): a post and its repeat count. -/
structure QueueRecord where
  post : Post
  count : Nat
  deriving DecidableEq, Repr

/-- The Notification Queue (section 8.1). Bit `c` of `missed` is channel `c` and bit 20 is LINK (R139, section 10.7);
bit `k - 1` of `enabled` is kind number `k` (R140, section 10.2). INTN is a function of these (R146). -/
structure Notifications where
  queue : List QueueRecord
  missed : BitVec 21
  enabled : BitVec 15
  suspend : Bool
  deriving DecidableEq, Repr

/-! ### Slot maps (chapter 4) -/

/-- One of the two banks (R53). -/
inductive Bank where
  | bankA | bankB
  deriving DecidableEq, Repr

/-- Kind of a receive entry (R53). -/
inductive RxKind where
  | discard | channel | pool
  deriving DecidableEq, Repr

/-- Kind of a transmit entry (R53). -/
inductive TxKind where
  | idle | constant | channel | pool
  deriving DecidableEq, Repr

/-- A receive entry (R53). -/
structure RxEntry where
  kind : RxKind
  channel : Channel
  deriving DecidableEq, Repr

/-- A transmit entry (R53). -/
structure TxEntry where
  kind : TxKind
  channel : Channel
  constant : Byte
  deriving DecidableEq, Repr

/-- The 63 receive and 63 transmit entries of one bank; entry `s` of a map stands at index `s - 1` (R53). -/
structure BankMaps where
  rx : Vector RxEntry 63
  tx : Vector TxEntry 63
  deriving DecidableEq, Repr

/-- The Slot Map Unit (section 4.1). -/
structure SlotMaps where
  bankA : BankMaps
  bankB : BankMaps
  rxActive : Bank
  txActive : Bank
  rxPending : Bool
  txPending : Bool
  deriving DecidableEq, Repr

/-! ### Pool Unit (chapter 7) -/

/-- The transmit burst record (section 7.1): the pool slot count of the frame, the granted channel, the tag recorded at
the grant, the committed length and the number of data slots answered. The capacity P is `poolSlots - 2` (R119). -/
structure TxBurst where
  poolSlots : Nat
  granted : Option Channel
  tag : Byte
  length : Nat
  answered : Nat
  deriving DecidableEq, Repr

/-- The phase of the receive parser (section 7.6). -/
inductive ParsePhase where
  | noBurst | awaitTag | awaitLength | data | skip
  deriving DecidableEq, Repr

/-- The receive burst record (section 7.1). The capacity P is `poolSlots - 2` (R119). -/
structure RxBurst where
  poolSlots : Nat
  phase : ParsePhase
  target : Option Channel
  length : Nat
  received : Nat
  deriving DecidableEq, Repr

/-- The Pool Unit: the rotation list, head first (R120), the transmit burst record, the tag table with tag `t` at index
`t - 1` (R132), and the receive burst record. -/
structure PoolUnit where
  rotation : List Channel
  txBurst : TxBurst
  tagTable : Vector (Option Channel) 31
  rxBurst : RxBurst
  deriving DecidableEq, Repr

/-! ### Trunk Transmitter (chapter 1) -/

/-- State of the transmitter (section 1.4). -/
inductive TxState where
  | stopped | running | stopping
  deriving DecidableEq, Repr

/-- The Trunk Transmitter and the link controls it owns. `begun` says that a frame has begun since the transmitter left
STOPPED (R6). `slotByte` is the byte of the slot being sent and `nextByte` the byte fixed for the slot after it by its
answered demand, if it has been answered (R8). -/
structure Transmitter where
  enable : Bool
  frameLength : Nat
  idleByte : Byte
  forceRemoteFault : Bool
  state : TxState
  begun : Bool
  frameIndex : Nat
  slotIndex : Nat
  bitIndex : Nat
  slotByte : Byte
  nextByte : Option Byte
  cycleCount : Half
  deriving DecidableEq, Repr

/-! ### Receive Aligner (chapter 2) -/

/-- State of the aligner (section 2.1). -/
inductive AlignerState where
  | off | hunt | confirm | aligned
  deriving DecidableEq, Repr

/-- The Receive Aligner and the link controls it owns. `bits` holds the received bits the aligner has not finished with,
oldest first: in HUNT its head is the first bit of the next search byte (R21), in CONFIRM it is the stored history, whose
head is the candidate's first bit (R23), and in ALIGNED its head is the first bit of the next slot (R27).
`expectedPlace` is the number of bit positions from that head to the first bit of the next expected marker.
`lateBit` is set when a bit has come since the last stored bits were examined, while the aligner was behind the line (R23,
assumption 23). `frameEndDue` is set between the slot arrival of slot F-1 and the frame end handed on after it (R28). -/
structure Aligner where
  enable : Bool
  localLoop : Bool
  state : AlignerState
  bits : List Bool
  lateBit : Bool
  candidate : Option Nat
  expectedPlace : Nat
  expectedPosition : Nat
  confirmations : Nat
  badMarkers : Nat
  frameEndDue : Bool
  remoteFault : Bool
  faultRun : Nat
  cycleCount : Half
  cycleOffset : Half
  deriving DecidableEq, Repr

/-! ### Line Monitor (chapter 3) -/

/-- An open silence window (R40). -/
structure SilenceWindow where
  position : Nat
  ones : Nat
  deriving DecidableEq, Repr

/-- The Line Monitor with the link counter set (section 3.1). `silenceWindow` is `none` while the window is closed.
`holdWindowDone` is set between the bit at window position 1023 and the evaluation made at it (R41). `holdRestart` is set
between a change of local loop and the first bit of the newly selected source, at which a new window begins (R45). -/
structure LineMonitor where
  silence : Bool
  zeroRun : Nat
  silenceWindow : Option SilenceWindow
  hold : Bool
  holdPosition : Nat
  holdZeros : Nat
  holdWindowDone : Bool
  lowWindows : Nat
  holdRestart : Bool
  markerErrors : Half
  alignmentLosses : Byte
  formatErrors : Byte
  poolDiscards : Byte
  threshold : Half
  deriving DecidableEq, Repr

/-! ### Host Port (chapter 9) -/

/-- The name a holder's byte carries: a wide item, and for an item of page 2 the channel select in force (R153). -/
structure WideKey where
  item : WideItem
  channel : Option Channel
  deriving DecidableEq, Repr

/-- The byte a holder holds and the item it is tagged with (R151, R152). -/
structure Holder where
  key : WideKey
  byte : Byte
  deriving DecidableEq, Repr

/-- The result codes (R156). -/
inductive ResultCode where
  | none | ok | busy | badChannel | badState | badSegment | badAmount | badTag | badCommand | notReady
  deriving DecidableEq, Repr

/-- The Host Port. `rstnLow` is the level of the input RSTN (R161). `dataOut` is the byte the last read returned on
D[7:0]. -/
structure HostPort where
  page : Fin 6
  channelSelect : Channel
  tagSelect : Fin 32
  bankSelect : Bank
  entryIndex : Byte
  readHolder : Option Holder
  writeHolder : Option Holder
  operand0 : Byte
  amountLow : Byte
  amountHigh : Byte
  result : ResultCode
  init : Bool
  accessError : Bool
  bufferAddress : BitVec 13
  rstnLow : Bool
  dataOut : Byte
  deriving DecidableEq, Repr

/-! ### The whole part -/

/-- Buffer memory: the bytes that are not 00H, as pairs of address and byte in rising order of address (R93). -/
abbrev Memory := List Host.Cell

/-- Why the part stops. -/
inductive Fault where
  /-- A channel's next byte would lie outside the 8192 bytes of buffer memory (assumption 13). Raised by SLOT_ARRIVAL
  and SLOT_DEMAND. R95 says that this does not come about, so no run from reset raises it. Safe. -/
  | addressOutsideMemory
  deriving DecidableEq, Repr

/-- Why a command is rejected. -/
inductive Refusal where
  /-- The row of the table has no meaning yet. Raised by no arm of this model. Safe. -/
  | notModelled (mnemonic : String)
  deriving DecidableEq, Repr

end Sys2Proof.Machine

namespace Sys2Proof.Machine

/-- The KZ4418. `pending` is the queue of commands that wait, first in, first out. `draws` counts the free values drawn
so far and `powerOns` the power-ons taken; both are the model's own and only feed the free values of Config. -/
structure State where
  port : HostPort
  transmitter : Transmitter
  aligner : Aligner
  monitor : LineMonitor
  maps : SlotMaps
  channels : Vector ChannelContext 20
  memory : Memory
  pool : PoolUnit
  notifications : Notifications
  pending : List Instr
  draws : Nat
  powerOns : Nat
  deriving DecidableEq, Repr

/-- The Host Port after power-on (R158, section 9.11). -/
def HostPort.reset : HostPort where
  page := 0
  channelSelect := 0
  tagSelect := 0
  bankSelect := .bankA
  entryIndex := 0
  readHolder := none
  writeHolder := none
  operand0 := 0
  amountLow := 0
  amountHigh := 0
  result := .none
  init := true
  accessError := false
  bufferAddress := 0
  rstnLow := false
  dataOut := 0

/-- The transmitter after power-on and pin reset (R4, section 1.10). -/
def Transmitter.reset : Transmitter where
  enable := false
  frameLength := 40
  idleByte := 0xFF
  forceRemoteFault := false
  state := .stopped
  begun := false
  frameIndex := 0
  slotIndex := 0
  bitIndex := 0
  slotByte := 0xFF
  nextByte := none
  cycleCount := 0

/-- The aligner after power-on and pin reset (R19, section 2.9). -/
def Aligner.reset : Aligner where
  enable := false
  localLoop := false
  state := .off
  bits := []
  lateBit := false
  candidate := none
  expectedPlace := 0
  expectedPosition := 0
  confirmations := 0
  badMarkers := 0
  frameEndDue := false
  remoteFault := false
  faultRun := 0
  cycleCount := 0
  cycleOffset := 0xFFFF

/-- The Line Monitor after power-on (R52, section 3.10). -/
def LineMonitor.reset : LineMonitor where
  silence := false
  zeroRun := 0
  silenceWindow := none
  hold := false
  holdPosition := 0
  holdZeros := 0
  holdWindowDone := false
  lowWindows := 0
  holdRestart := false
  markerErrors := 0
  alignmentLosses := 0
  formatErrors := 0
  poolDiscards := 0
  threshold := 0xFFFF

/-- A bank after power-on and pin reset (R53). -/
def BankMaps.reset : BankMaps where
  rx := Vector.replicate 63 ⟨.discard, 0⟩
  tx := Vector.replicate 63 ⟨.idle, 0, 0⟩

/-- The Slot Map Unit after power-on and pin reset (R57, section 4.6). -/
def SlotMaps.reset : SlotMaps where
  bankA := .reset
  bankB := .reset
  rxActive := .bankA
  txActive := .bankA
  rxPending := false
  txPending := false

/-- The cleared transmit burst record (R126). -/
def TxBurst.cleared : TxBurst where
  poolSlots := 0
  granted := none
  tag := 0
  length := 0
  answered := 0

/-- The receive burst record with no burst being parsed (R131). -/
def RxBurst.cleared : RxBurst where
  poolSlots := 0
  phase := .noBurst
  target := none
  length := 0
  received := 0

/-- The Pool Unit after power-on and pin reset (R126, R131, R132). -/
def PoolUnit.reset : PoolUnit where
  rotation := []
  txBurst := .cleared
  tagTable := Vector.replicate 31 none
  rxBurst := .cleared

/-- The Notification Queue after power-on and pin reset (R147). -/
def Notifications.reset : Notifications where
  queue := []
  missed := 0
  enabled := 0
  suspend := true

/-- The part right after power-on: every block at its power-on values, INIT set and the clearing of buffer memory begun
(R158). -/
def State.reset : State where
  port := .reset
  transmitter := .reset
  aligner := .reset
  monitor := .reset
  maps := .reset
  channels := Vector.replicate 20 .reset
  memory := []
  pool := .reset
  notifications := .reset
  pending := []
  draws := 0
  powerOns := 0

end Sys2Proof.Machine
end

