-- ==== Sys2Proof/Machine/Ops.lean ====
section
/-! DEFINITION. The named operations the meanings are built from: buffer memory, channel contexts, counters, the trunk
marker, posting to the Notification Queue, and the gates of the Host Port. -/

namespace Sys2Proof.Machine

/-! ### Buffer memory (R93, R94) -/

/-- The byte a memory holds at an address; an address that is not listed holds 00H (R93). -/
def Memory.read : Memory → Nat → Byte
  | [], _ => 0
  | (a, b) :: rest, k => if a = k then b else Memory.read rest k

/-- Write one byte. The list stays in rising order of address and lists no byte that is 00H. -/
def Memory.write : Memory → Nat → Byte → Memory
  | [], k, v => if v = 0 then [] else [(k, v)]
  | (a, b) :: rest, k, v =>
    if k < a then
      if v = 0 then (a, b) :: rest else (k, v) :: (a, b) :: rest
    else if k = a then
      if v = 0 then rest else (k, v) :: rest
    else (a, b) :: Memory.write rest k v

/-- The canonical form: addresses strictly rising and inside the memory, and no byte listed that is 00H. -/
abbrev Memory.wf (m : Memory) : Prop :=
  m.Pairwise (fun x y => x.1 < y.1) ∧ ∀ c ∈ m, c.2 ≠ 0 ∧ c.1 < Config.memoryBytes

/-- The byte of buffer memory at an address. While INIT is set, the clearing is in progress and the byte is a free value
(section 9.7, assumption 8). -/
def State.byteAt (s : State) (address : Nat) : Byte :=
  if s.port.init then Config.unclearedByte s.powerOns address else s.memory.read address

/-! ### Counters -/

/-- A saturating increment: a counter at its maximum stays there (section 4 of the scope file). -/
def saturatingInc {w : Nat} (x : BitVec w) : BitVec w := if x = BitVec.allOnes w then x else x + 1

/-! ### The trunk -/

/-- The byte that eight received bits form, the first being the most significant (R1). -/
def byteOfBits (bits : List Bool) : Byte :=
  (bits.take 8).foldl (fun acc b => acc * 2 + (if b then 1 else 0)) 0

/-- Bit `i` of a byte in order of sending: index 0 is the most significant bit (R1). -/
def sentBit (b : Byte) (i : Nat) : Bool := b.getLsbD (7 - i)

/-- The position field of a marker byte (section 10.8). -/
def markerPosition (b : Byte) : Nat := (b.extractLsb' 0 4).toNat

/-- The remote-fault flag of a marker byte (section 10.8). -/
def markerFlag (b : Byte) : Bool := b.getLsbD 4

/-- A byte is a well-formed marker when its code is 101 binary and its position is 0 to 11 (R2). -/
def wellFormedMarker (b : Byte) : Bool := b.extractLsb' 5 3 = 5#3 && markerPosition b < 12

/-- The marker byte of a code 101 binary, a remote-fault flag and a position (R10, section 10.8). -/
def composeMarker (flag : Bool) (position : Nat) : Byte :=
  5#3 ++ (BitVec.ofBool flag ++ BitVec.ofNat 4 position)

/-- The pool data capacity of a frame with `k` pool slots (R119). -/
def poolCapacity (k : Nat) : Nat := k - 2

/-! ### Slot maps (R53, R66) -/

/-- The entry of payload slot `s` of a receive map. -/
def BankMaps.rxEntry (m : BankMaps) (s : Nat) : RxEntry := (m.rx[s - 1]?).getD ⟨.discard, 0⟩

/-- The entry of payload slot `s` of a transmit map. -/
def BankMaps.txEntry (m : BankMaps) (s : Nat) : TxEntry := (m.tx[s - 1]?).getD ⟨.idle, 0, 0⟩

/-- The bank other than the given one. -/
def Bank.other : Bank → Bank
  | .bankA => .bankB
  | .bankB => .bankA

/-- The contents of a bank. -/
def SlotMaps.bank (m : SlotMaps) : Bank → BankMaps
  | .bankA => m.bankA
  | .bankB => m.bankB

/-- Replace the contents of a bank. -/
def SlotMaps.setBank (m : SlotMaps) (b : Bank) (x : BankMaps) : SlotMaps :=
  match b with
  | .bankA => { m with bankA := x }
  | .bankB => { m with bankB := x }

/-- The payload slots 1 to `last` whose entry in the active receive bank is POOL, in increasing order (R66). -/
def SlotMaps.rxPoolSlots (m : SlotMaps) (last : Nat) : List Nat :=
  (List.range last).filterMap fun i =>
    if ((m.bank m.rxActive).rxEntry (i + 1)).kind = .pool then some (i + 1) else none

/-- The payload slots 1 to `last` whose entry in the active transmit bank is POOL, in increasing order (R66). -/
def SlotMaps.txPoolSlots (m : SlotMaps) (last : Nat) : List Nat :=
  (List.range last).filterMap fun i =>
    if ((m.bank m.txActive).txEntry (i + 1)).kind = .pool then some (i + 1) else none

/-! ### Channel contexts -/

/-- The context of a channel. -/
def State.channel (s : State) (c : Channel) : ChannelContext := s.channels[c]

/-- Replace the context of a channel. -/
def State.setChannel (s : State) (c : Channel) (x : ChannelContext) : State :=
  { s with channels := s.channels.set c.val x }

/-- Change every context at once. -/
def State.mapChannels (s : State) (f : Channel → ChannelContext → ChannelContext) : State :=
  { s with channels := Vector.ofFn fun c => f c s.channels[c] }

/-- Base of a segment. -/
def ChannelContext.base (x : ChannelContext) : Segment → Nat
  | .segA => x.baseA
  | .segB => x.baseB

/-- Length of a segment. -/
def ChannelContext.length (x : ChannelContext) : Segment → Nat
  | .segA => x.lengthA
  | .segB => x.lengthB

/-- Owner of a segment. -/
def ChannelContext.owner (x : ChannelContext) : Segment → Owner
  | .segA => x.ownerA
  | .segB => x.ownerB

/-- Change the owner of a segment. -/
def ChannelContext.setOwner (x : ChannelContext) (g : Segment) (o : Owner) : ChannelContext :=
  match g with
  | .segA => { x with ownerA := o }
  | .segB => { x with ownerB := o }

/-- The other segment. -/
def Segment.other : Segment → Segment
  | .segA => .segB
  | .segB => .segA

/-- A segment fits when its base plus its length is at most 8192 (R77, R109). -/
def ChannelContext.fits (x : ChannelContext) (g : Segment) : Bool :=
  x.base g + x.length g ≤ Config.memoryBytes

/-- The channel is in ACTIVE or ENDING. -/
def ChannelContext.running (x : ChannelContext) : Bool := x.state = .active || x.state = .ending

/-- The channel is in IDLE or DONE. -/
def ChannelContext.atRest (x : ChannelContext) : Bool := x.state = .idle || x.state = .done

/-- The segment a byte is moved in: A in SINGLE and RING, the active segment in ALTERNATING (R95). -/
def ChannelContext.segmentInUse (x : ChannelContext) : Segment :=
  match x.mode with
  | .single | .ring => .segA
  | .alternating => x.active

/-- The address of the next byte the channel moves (R95). -/
def ChannelContext.address (x : ChannelContext) : Nat := x.base x.segmentInUse + x.position

/-- The channel takes byte arrivals: a receive channel in ACTIVE or ENDING (R90). -/
def ChannelContext.takesArrivals (x : ChannelContext) : Bool := x.direction = .receive && x.running

/-- The channel answers byte demands: a transmit channel in ACTIVE or ENDING (R90). -/
def ChannelContext.answersDemands (x : ChannelContext) : Bool := x.direction = .transmit && x.running

/-- A running channel can move a byte: a SINGLE channel always (R96), a RING channel with room or with bytes (R100,
R102), an ALTERNATING channel that is not stalled (R107). Otherwise the byte is a shortfall (R115). -/
def ChannelContext.canMove (x : ChannelContext) : Bool :=
  match x.mode, x.direction with
  | .single, _ => true
  | .ring, .receive => x.fill < x.lengthA
  | .ring, .transmit => 0 < x.fill
  | .alternating, _ => !x.stalled

/-- The bytes a member of the rotation list has available at a grant (R121). -/
def ChannelContext.available (x : ChannelContext) : Nat :=
  match x.mode with
  | .single => x.lengthA - x.position
  | .ring => x.fill
  | .alternating => if x.stalled then 0 else x.length x.active - x.position

/-! ### Posting (R137 to R139) -/

/-- The number of a kind (R136). -/
def Kind.number : Kind → Nat
  | .segmentDone => 1
  | .channelEnded => 2
  | .shortfall => 3
  | .watermark => 4
  | .alignGained => 5
  | .alignLost => 6
  | .remoteFaultOn => 7
  | .remoteFaultOff => 8
  | .silenceOn => 9
  | .silenceOff => 10
  | .holdOn => 11
  | .holdOff => 12
  | .rxMapSwitched => 13
  | .txMapSwitched => 14
  | .markerThreshold => 15

/-- The kind is in the kind-enable set (R140). -/
def Notifications.enables (n : Notifications) (k : Kind) : Bool := n.enabled.getLsbD (k.number - 1)

/-- The bit of a missed-set member (R144, section 10.7). -/
def RecordChannel.missedBit : RecordChannel → Nat
  | .channel c => c.val
  | .link => 20

/-- A record has the kind and the channel of a post (R137, case 2). -/
def QueueRecord.matches (r : QueueRecord) (p : Post) : Bool := r.post.kind = p.kind && r.post.channel = p.channel

/-- Raise a repeat count, which stays at 15 (R137, case 2). -/
def QueueRecord.bump (r : QueueRecord) : QueueRecord := { r with count := min Config.maxRepeat (r.count + 1) }

/-- One post taken at the Notification Queue: the four cases of R137 in order. -/
def Notifications.take (n : Notifications) (p : Post) : Notifications :=
  if !n.enables p.kind then n
  else if n.queue.any (·.matches p) then
    { n with queue := n.queue.map fun r => if r.matches p then r.bump else r }
  else if n.queue.length < Config.queueCapacity then { n with queue := n.queue ++ [⟨p, 1⟩] }
  else { n with missed := n.missed ||| BitVec.twoPow 21 p.channel.missedBit }

/-- Hand one post to the Notification Queue (R136). -/
def State.post (s : State) (p : Post) : State := { s with notifications := s.notifications.take p }

/-- The stamp of a channel's records: the cycle count of its direction (R135). -/
def State.channelStamp (s : State) (c : Channel) : Half :=
  match (s.channel c).direction with
  | .receive => s.aligner.cycleCount
  | .transmit => s.transmitter.cycleCount

/-- A post of a channel kind (R135). -/
def State.channelPost (s : State) (c : Channel) (k : Kind) (d : Detail) : Post :=
  ⟨k, .channel c, d, s.channelStamp c⟩

/-- A LINK post stamped with the receive cycle count (R135). -/
def State.rxLinkPost (s : State) (k : Kind) (d : Detail) : Post := ⟨k, .link, d, s.aligner.cycleCount⟩

/-- Put one numbered post where its key belongs among posts already in order. -/
def insertByKey (key : Nat → Nat) (x : Nat × Post) : List (Nat × Post) → List (Nat × Post)
  | [] => [x]
  | y :: rest => if key x.1 ≤ key y.1 then x :: y :: rest else y :: insertByKey key x rest

/-- Some order of the posts, fixed by the free keys of one draw: every order is possible. -/
def anyOrder (draw : Nat) (posts : List Post) : List Post :=
  ((posts.zipIdx.map fun (p, i) => (i, p)).foldr (insertByKey (Config.postOrderKey draw)) []).map (·.2)

/-- Hand over posts whose order no rule states (R61, R117, R138). The order is a free value (assumption 7). Fewer than two
posts need no order, and then nothing is drawn. -/
def State.postInAnyOrder (s : State) : List Post → State
  | [] => s
  | [p] => s.post p
  | posts => { (anyOrder s.draws posts).foldl State.post s with draws := s.draws + 1 }

/-! ### The Host Port's gates (R148, R156, R159, R161) -/

/-- What a host write does before it reaches the item's owner: it is ignored while RSTN is low (R161) and while INIT is
set (R159). On another page the strobe is not an access to this item (assumption 3). -/
def State.hostWrite (s : State) (page : Fin 6) (act : State → State) : State :=
  if s.port.rstnLow then s
  else if s.port.init then s
  else if s.port.page = page then act s
  else s

/-- Put a byte on D[7:0] for a read. -/
def State.returnByte (s : State) (b : Byte) : State := { s with port := { s.port with dataOut := b } }

/-- What a host read with a side effect does before it reaches the item: it returns 00H with no side effect while RSTN is
low (R161) and while INIT is set (R159). -/
def State.hostRead (s : State) (page : Fin 6) (act : State → State) : State :=
  if s.port.rstnLow then s.returnByte 0
  else if s.port.init then s.returnByte 0
  else if s.port.page = page then act s
  else s

/-- A refused register write sets ACCESS_ERROR and changes nothing else (R157). -/
def State.refuseWrite (s : State) : State := { s with port := { s.port with accessError := true } }

/-- Store a result code (R156). -/
def State.setResult (s : State) (r : ResultCode) : State := { s with port := { s.port with result := r } }

/-- A write of the command location, on page 0: ignored while RSTN is low (R161), answered NOT_READY while INIT is set,
and otherwise decided by the owning block, whose result code is stored (R156). -/
def State.command (s : State) (act : State → State × ResultCode) : State :=
  if s.port.rstnLow then s
  else if s.port.page ≠ 0 then s
  else if s.port.init then s.setResult .notReady
  else
    let (t, r) := act s
    t.setResult r

/-- The amount, 0 to 65535 (R155). -/
def HostPort.amount (p : HostPort) : Nat := p.amountHigh.toNat * 256 + p.amountLow.toNat

/-- The channel that operand 0 names, if it is 0 to 19 (R77, R83, R85, R109, R112). -/
def HostPort.operandChannel (p : HostPort) : Option Channel :=
  if h : p.operand0.toNat < 20 then some ⟨p.operand0.toNat, h⟩ else none

/-- A command that acts on the channel operand 0 names; a number above 19 gives BAD_CHANNEL. -/
def State.onChannel (s : State) (act : Channel → State × ResultCode) : State × ResultCode :=
  match s.port.operandChannel with
  | some c => act c
  | none => (s, .badChannel)

/-- Empty both holders (R148, R162). -/
def State.emptyHolders (s : State) : State :=
  { s with port := { s.port with readHolder := none, writeHolder := none } }

/-- Run the rest of a meaning on an answer, and hand on a fault or a refusal. -/
def thenNext {α : Type} (o : Host.Outcome α Fault Refusal) (f : α → State) : Host.Outcome State Fault Refusal :=
  match o with
  | .next a => .next (f a)
  | .fault r => .fault r
  | .refused r => .refused r

end Sys2Proof.Machine
end

