-- ==== Sys2Proof/Machine/Flags.lean ====
section
/-! DEFINITION. What is computed from the state and never stored: the outputs INTN and TXD, the flag bytes and code bytes
of the window (chapter 10), and when a trunk event is due. -/

namespace Sys2Proof.Machine

/-! ### Outputs -/

/-- INTN is active exactly when suspend is clear and the queue or the missed set is non-empty (R146). -/
def Notifications.interrupt (n : Notifications) : Bool := !n.suspend && (!n.queue.isEmpty || n.missed != 0)

/-- INTN of the part (R146). -/
def State.intnActive (s : State) : Bool := s.notifications.interrupt

/-- The bit on TXD: one while no frame has begun (R4, R6), else the bit of the slot being sent (R1). -/
def Transmitter.line (t : Transmitter) : Bool := if t.begun then sentBit t.slotByte t.bitIndex else true

/-! ### Codes (section 10.9) -/

/-- The byte of a single-bit control (section 10.2). -/
def flagByte (b : Bool) : Byte := if b then 1 else 0

/-- Code of a channel state (section 10.4). -/
def ChannelState.code : ChannelState → Byte
  | .idle => 0
  | .armed => 1
  | .active => 2
  | .ending => 3
  | .done => 4

/-- Code of a transmitter state (section 10.3). -/
def TxState.code : TxState → Byte
  | .stopped => 0
  | .running => 1
  | .stopping => 2

/-- Code of an aligner state (section 10.3). -/
def AlignerState.code : AlignerState → Byte
  | .off => 0
  | .hunt => 1
  | .confirm => 2
  | .aligned => 3

/-- Code of a result (section 10.2). -/
def ResultCode.code : ResultCode → Byte
  | .none => 0
  | .ok => 1
  | .busy => 2
  | .badChannel => 3
  | .badState => 4
  | .badSegment => 5
  | .badAmount => 6
  | .badTag => 7
  | .badCommand => 8
  | .notReady => 9

/-- Code of a detail (section 10.7). -/
def Detail.code : Detail → Byte
  | .none => 0
  | .segmentA => 1
  | .segmentB => 2
  | .completed => 1
  | .finished => 2
  | .markers => 1
  | .silence => 2
  | .hold => 3
  | .command => 4

/-- Code of a record's channel field: 00H to 13H, or 80H for LINK (section 10.7). -/
def RecordChannel.code : RecordChannel → Byte
  | .channel c => BitVec.ofNat 8 c.val
  | .link => 0x80

/-- Mode bits of the mode byte (section 10.4). -/
def Mode.code : Mode → BitVec 2
  | .single => 0
  | .ring => 1
  | .alternating => 2

/-- The mode a code names; 11 binary names none (section 10.4). -/
def Mode.ofCode (b : BitVec 2) : Option Mode :=
  match b.toNat with
  | 0 => some .single
  | 1 => some .ring
  | 2 => some .alternating
  | _ => none

/-- Bit of a bank (section 10.9). -/
def Bank.bit : Bank → Bool
  | .bankA => false
  | .bankB => true

/-- Bit of an owner (section 10.9). -/
def Owner.bit : Owner → Bool
  | .device => false
  | .host => true

/-- Bit of a segment (section 10.4). -/
def Segment.bit : Segment → Bool
  | .segA => false
  | .segB => true

/-- Bit of a direction (section 10.4). -/
def Direction.bit : Direction → Bool
  | .receive => false
  | .transmit => true

/-! ### Bytes of several fields (R163, R164) -/

/-- Up to eight bits as a byte, the least significant first; the bits not given are 0 (R163). -/
def bitsToByte : List Bool → Byte
  | [] => 0
  | b :: rest => flagByte b + bitsToByte rest * 2

/-- The port status: ACCESS_ERROR in bit 1, INIT in bit 0 (section 10.2). -/
def HostPort.statusByte (p : HostPort) : Byte := bitsToByte [p.init, p.accessError]

/-- Line conditions (section 10.3). -/
def State.lineConditions (s : State) : Byte :=
  bitsToByte [s.monitor.silence, s.monitor.hold, s.aligner.remoteFault]

/-- Active banks and pending flags (section 10.3). -/
def SlotMaps.banksByte (m : SlotMaps) : Byte :=
  bitsToByte [m.rxActive.bit, m.txActive.bit, m.rxPending, m.txPending]

/-- The mode byte (section 10.4). -/
def ChannelContext.modeByte (x : ChannelContext) : Byte :=
  bitsToByte [x.direction.bit, x.mode.code.getLsbD 0, x.mode.code.getLsbD 1, x.poolMode]

/-- The running flags (section 10.4). -/
def ChannelContext.flagsByte (x : ChannelContext) : Byte :=
  bitsToByte [x.active.bit, x.ownerA.bit, x.ownerB.bit, x.stalled, x.shortRun]

/-- Kind code of a receive entry (section 10.5). -/
def RxKind.code : RxKind → BitVec 3
  | .discard => 0
  | .channel => 1
  | .pool => 2

/-- Kind code of a transmit entry (section 10.5). -/
def TxKind.code : TxKind → BitVec 3
  | .idle => 0
  | .constant => 1
  | .channel => 2
  | .pool => 3

/-- The receive kind a code names (section 10.5). -/
def RxKind.ofCode (b : BitVec 3) : Option RxKind :=
  match b.toNat with
  | 0 => some .discard
  | 1 => some .channel
  | 2 => some .pool
  | _ => none

/-- The transmit kind a code names (section 10.5). -/
def TxKind.ofCode (b : BitVec 3) : Option TxKind :=
  match b.toNat with
  | 0 => some .idle
  | 1 => some .constant
  | 2 => some .channel
  | 3 => some .pool
  | _ => none

/-- A channel number of five bits, if it is 0 to 19. -/
def channelOfBits (b : BitVec 5) : Option Channel :=
  if h : b.toNat < 20 then some ⟨b.toNat, h⟩ else none

/-- The kind and channel byte of a receive entry (section 10.5). -/
def RxEntry.byte (e : RxEntry) : Byte := e.kind.code ++ BitVec.ofNat 5 e.channel.val

/-- The kind and channel byte of a transmit entry (section 10.5). -/
def TxEntry.byte (e : TxEntry) : Byte := e.kind.code ++ BitVec.ofNat 5 e.channel.val

/-- The byte of a tag table entry: 80H plus the channel, or 00H for none (R165). -/
def tagEntryByte : Option Channel → Byte
  | some c => 0x80 + BitVec.ofNat 8 c.val
  | none => 0

/-! ### When an event is due (assumption 2) -/

/-- The transmitter is RUNNING or STOPPING. -/
def Transmitter.sending (t : Transmitter) : Bool := t.state = .running || t.state = .stopping

/-- The bit being sent is the last bit of slot F-1, so that the frame ends with it (R7). -/
def Transmitter.frameComplete (t : Transmitter) : Bool :=
  t.begun && t.frameLength ≤ t.slotIndex + 1 && 7 ≤ t.bitIndex

/-- A frame start is due: the first frame after an enable (R6), or the next one back to back (R7), except after frame 11
in STOPPING (R9). -/
def Transmitter.frameStartDue (t : Transmitter) : Bool :=
  t.sending && (!t.begun || (t.frameComplete && !(t.state = .stopping && t.frameIndex = 11)))

/-- A slot demand is due: the slot after the one being sent is a payload slot of the frame and has no byte yet (R8). -/
def Transmitter.demandDue (t : Transmitter) : Bool :=
  t.sending && t.begun && t.nextByte.isNone && t.slotIndex + 1 < t.frameLength

/-- The entry to STOPPED is due: the last bit of slot F-1 of frame 11 has been reached in STOPPING (R9). -/
def Transmitter.stopDue (t : Transmitter) : Bool :=
  t.state = .stopping && t.frameComplete && t.frameIndex = 11

/-- An examination is due in HUNT: the search byte has its eight bits (R21). -/
def Aligner.examinationDue (a : Aligner) : Bool := a.state = .hunt && 8 ≤ a.bits.length

/-- A marker check is due in CONFIRM: the eight bits at the expected place are there (R24). -/
def Aligner.confirmCheckDue (a : Aligner) : Bool :=
  a.state = .confirm && a.expectedPlace + 8 ≤ a.bits.length

/-- A marker check is due in ALIGNED: the expected place is reached and its eight bits are there (R29). The frame end of
the frame before it comes first (R28). -/
def Aligner.markerCheckDue (a : Aligner) : Bool :=
  a.state = .aligned && a.expectedPlace = 0 && !a.frameEndDue && 8 ≤ a.bits.length

/-- A slot arrival is due: the eight bits of a payload slot are there (R27). -/
def Aligner.arrivalDue (a : Aligner) : Bool :=
  a.state = .aligned && 8 ≤ a.expectedPlace && 8 ≤ a.bits.length

/-- The index of the payload slot that arrives next, counted back from the next marker of a frame of `f` slots (R27). -/
def Aligner.nextSlot (a : Aligner) (f : Nat) : Nat := f - a.expectedPlace / 8

/-- A frame end is due: slot F-1 of a frame followed in ALIGNED has arrived (R28). -/
def Aligner.frameEndReady (a : Aligner) : Bool := a.state = .aligned && a.frameEndDue

/-- Receive is enabled: the aligner is in HUNT, CONFIRM or ALIGNED (R38). -/
def Aligner.receiving (a : Aligner) : Bool := a.state != .off

/-- The declaration of SILENCE is due (R39). -/
def LineMonitor.silenceDue (m : LineMonitor) : Bool := !m.silence && m.zeroRun = 160

/-- The clearing of SILENCE is due: the open window has its sixteenth one (R40). -/
def LineMonitor.silenceClearDue (m : LineMonitor) : Bool :=
  match m.silenceWindow with
  | some w => m.silence && w.ones = 16
  | none => false

/-- The failure of the silence window is due: position 128 with fewer than 16 ones (R40). -/
def LineMonitor.windowFailureDue (m : LineMonitor) : Bool :=
  match m.silenceWindow with
  | some w => m.silence && w.position = 128 && w.ones < 16
  | none => false

/-- An event of the aligner is due: the bits it needs are there. -/
def Aligner.eventDue (a : Aligner) : Bool :=
  a.examinationDue || a.confirmCheckDue || a.markerCheckDue || a.arrivalDue || a.frameEndReady

/-- The aligner examines stored bits behind the line (R23): bits stand behind those that its examination or its marker
check in CONFIRM takes. -/
def Aligner.behind (a : Aligner) : Bool :=
  (a.state = .hunt && 8 < a.bits.length) || (a.state = .confirm && a.expectedPlace + 8 < a.bits.length)

/-- The stored history has its 16 F + 8 bits (R23). -/
def Aligner.historyFull (a : Aligner) (f : Nat) : Bool :=
  (a.state = .hunt || a.state = .confirm) && 16 * f + 8 ≤ a.bits.length

/-- The next received bit has not come as far as the aligner is concerned: the history is full, or an event is due and the
aligner is level with the line, or it is behind the line and a bit has come since it last examined stored bits, which it
does faster than the line delivers new ones (R23, assumptions 4, 5 and 23). -/
def Aligner.bitHeld (a : Aligner) (f : Nat) : Bool :=
  a.historyFull f || (a.eventDue && (!a.behind || a.lateBit))

/-- An event of the monitor is due at the present bit position, so the next bit position has not come (assumption 4). -/
def LineMonitor.eventDue (m : LineMonitor) : Bool :=
  m.silenceDue || m.silenceClearDue || m.windowFailureDue || m.holdWindowDone

/-- An event is due on the receive side at the bit position reached, so the next received bit has not come
(assumption 4). -/
def State.bitHeld (s : State) : Bool := s.monitor.eventDue || s.aligner.bitHeld s.transmitter.frameLength

/-- The receive side takes the transmit bit stream: local loop is set and receive is enabled (R16, R38). -/
def State.looped (s : State) : Bool := s.aligner.localLoop && s.aligner.receiving

/-- The next TXCLK bit position would bring the receive side a bit that has not come yet (R16, assumption 4). -/
def State.loopHeld (s : State) : Bool := s.looped && s.bitHeld

/-- A transmit frame start can be taken now: it is due, and the bit position it falls on has come (R6, R7). -/
def State.frameStartReady (s : State) : Bool := s.transmitter.frameStartDue && !s.loopHeld

end Sys2Proof.Machine
end

