-- ==== Sys2Proof/Machine/Operands.lean ====
section
/-! DEFINITION. The items of the window: where each wide item lies, its live value, its holder tag, the value a commit
carries, and what a read of any location returns (R149 to R153, chapter 10). -/

namespace Sys2Proof.Machine

/-! ### Wide items (section 9.3) -/

/-- The page of a wide item. -/
def widePage : WideItem → Fin 6
  | .rxCycleCount | .txCycleCount | .cycleOffset | .markerErrors | .markerThreshold => 1
  | .segABase | .segALength | .segBBase | .segBLength | .watermark | .position | .fill => 2
  | .bufferAddress => 4
  | .headStamp => 5

/-- The location of the low byte of a wide item; its high byte is at the next location (section 10.1). -/
def wideLocation : WideItem → Nat
  | .rxCycleCount => 0x04
  | .txCycleCount => 0x06
  | .cycleOffset => 0x08
  | .markerErrors => 0x0A
  | .markerThreshold => 0x10
  | .segABase => 0x04
  | .segALength => 0x06
  | .segBBase => 0x08
  | .segBLength => 0x0A
  | .watermark => 0x0C
  | .position => 0x12
  | .fill => 0x14
  | .bufferAddress => 0x00
  | .headStamp => 0x05

/-- The host may write the wide item (table of section 9.3). -/
def wideWritable : WideItem → Bool
  | .markerThreshold | .segABase | .segALength | .segBBase | .segBLength | .watermark | .bufferAddress => true
  | .rxCycleCount | .txCycleCount | .cycleOffset | .markerErrors | .position | .fill | .headStamp => false

/-- The code names one of the eleven commands, 01H to 0BH (section 10.2). -/
def codeNamesCommand (code : Byte) : Bool := 1 ≤ code.toNat && code.toNat ≤ 11

/-- The context the channel select names (R150). -/
def State.selected (s : State) : ChannelContext := s.channel s.port.channelSelect

/-- The tag of an access to a wide item: for an item of page 2 it carries the channel select in force (R153). -/
def State.wideKey (s : State) (i : WideItem) : WideKey :=
  ⟨i, if widePage i = 2 then some s.port.channelSelect else none⟩

/-- The live value of a wide item. -/
def State.wideValue (s : State) : WideItem → Half
  | .rxCycleCount => s.aligner.cycleCount
  | .txCycleCount => s.transmitter.cycleCount
  | .cycleOffset => s.aligner.cycleOffset
  | .markerErrors => s.monitor.markerErrors
  | .markerThreshold => s.monitor.threshold
  | .segABase => BitVec.ofNat 16 s.selected.baseA
  | .segALength => BitVec.ofNat 16 s.selected.lengthA
  | .segBBase => BitVec.ofNat 16 s.selected.baseB
  | .segBLength => BitVec.ofNat 16 s.selected.lengthB
  | .watermark => BitVec.ofNat 16 s.selected.watermark
  | .position => BitVec.ofNat 16 s.selected.position
  | .fill => BitVec.ofNat 16 s.selected.fill
  | .bufferAddress => s.port.bufferAddress.setWidth 16
  | .headStamp =>
    match s.notifications.queue with
    | [] => 0
    | r :: _ => r.post.stamp

/-- The live low byte of a wide item. -/
def State.wideLow (s : State) (i : WideItem) : Byte := (s.wideValue i).extractLsb' 0 8

/-- The live high byte of a wide item. -/
def State.wideHigh (s : State) (i : WideItem) : Byte := (s.wideValue i).extractLsb' 8 8

/-- The byte a read of a high location returns: the held byte when the read capture holder holds the item, else the live
one (R151). -/
def State.readHigh (s : State) (i : WideItem) : Byte :=
  match s.port.readHolder with
  | some h => if h.key = s.wideKey i then h.byte else s.wideHigh i
  | none => s.wideHigh i

/-- The write holder holds the item (R152). -/
def State.writeHeld (s : State) (i : WideItem) : Bool :=
  match s.port.writeHolder with
  | some h => h.key = s.wideKey i
  | none => false

/-- The low byte a commit takes: the held one when the write holder holds the item, else the live one (R152). -/
def State.commitLow (s : State) (i : WideItem) : Byte :=
  match s.port.writeHolder with
  | some h => if h.key = s.wideKey i then h.byte else s.wideLow i
  | none => s.wideLow i

/-- The 16-bit value a commit carries (R152). -/
def State.commitHalf (s : State) (i : WideItem) (high : Byte) : Half := high ++ s.commitLow i

/-- The 13-bit value a commit carries: the three upper bits of the high byte are ignored (section 9.3). -/
def State.commit13 (s : State) (i : WideItem) (high : Byte) : BitVec 13 := (s.commitHalf i high).setWidth 13

/-! ### Reads of the window (R149) -/

/-- The slot-map entry index is 1 to 63 (R54). -/
def HostPort.entryIndexValid (p : HostPort) : Bool := 1 ≤ p.entryIndex.toNat && p.entryIndex.toNat ≤ 63

/-- The tag table entry that the tag select names; none while it holds no tag (R132). -/
def State.selectedTagEntry (s : State) : Option Channel :=
  if s.port.tagSelect = 0 then none else (s.pool.tagTable[s.port.tagSelect.val - 1]?).getD none

/-- A byte of the head record; 00H when the queue is empty (R141). -/
def Notifications.head (n : Notifications) (f : QueueRecord → Byte) : Byte :=
  match n.queue with
  | [] => 0
  | r :: _ => f r

/-- Page 0: control (section 10.2). -/
def State.readPage0 (s : State) : Nat → Byte
  | 0x00 => 0x44
  | 0x01 => flagByte s.transmitter.enable
  | 0x02 => flagByte s.aligner.enable
  | 0x03 => BitVec.ofNat 8 s.transmitter.frameLength
  | 0x04 => s.transmitter.idleByte
  | 0x05 => flagByte s.transmitter.forceRemoteFault
  | 0x06 => flagByte s.aligner.localLoop
  | 0x09 => s.port.operand0
  | 0x0A => s.port.amountLow
  | 0x0B => s.port.amountHigh
  | 0x0C => s.port.result.code
  | 0x0D => s.port.statusByte
  | 0x0E => flagByte s.notifications.suspend
  | 0x10 => s.notifications.enabled.extractLsb' 0 8
  | 0x11 => (s.notifications.enabled.extractLsb' 8 7).setWidth 8
  | _ => 0

/-- Page 1: link status (section 10.3). -/
def State.readPage1 (s : State) : Nat → Byte
  | 0x00 => s.transmitter.state.code
  | 0x01 => s.aligner.state.code
  | 0x02 => s.lineConditions
  | 0x03 => s.maps.banksByte
  | 0x04 => s.wideLow .rxCycleCount
  | 0x05 => s.readHigh .rxCycleCount
  | 0x06 => s.wideLow .txCycleCount
  | 0x07 => s.readHigh .txCycleCount
  | 0x08 => s.wideLow .cycleOffset
  | 0x09 => s.readHigh .cycleOffset
  | 0x0A => s.wideLow .markerErrors
  | 0x0B => s.readHigh .markerErrors
  | 0x0C => s.monitor.alignmentLosses
  | 0x0D => s.monitor.formatErrors
  | 0x0E => s.monitor.poolDiscards
  | 0x10 => s.wideLow .markerThreshold
  | 0x11 => s.readHigh .markerThreshold
  | _ => 0

/-- Page 2: the selected channel (section 10.4). -/
def State.readPage2 (s : State) : Nat → Byte
  | 0x00 => BitVec.ofNat 8 s.port.channelSelect.val
  | 0x01 => s.selected.modeByte
  | 0x02 => s.selected.tag
  | 0x04 => s.wideLow .segABase
  | 0x05 => s.readHigh .segABase
  | 0x06 => s.wideLow .segALength
  | 0x07 => s.readHigh .segALength
  | 0x08 => s.wideLow .segBBase
  | 0x09 => s.readHigh .segBBase
  | 0x0A => s.wideLow .segBLength
  | 0x0B => s.readHigh .segBLength
  | 0x0C => s.wideLow .watermark
  | 0x0D => s.readHigh .watermark
  | 0x10 => s.selected.state.code
  | 0x11 => s.selected.flagsByte
  | 0x12 => s.wideLow .position
  | 0x13 => s.readHigh .position
  | 0x14 => s.wideLow .fill
  | 0x15 => s.readHigh .fill
  | 0x16 => s.selected.shortfalls
  | _ => 0

/-- Page 3: the selected slot-map entry (section 10.5). The entry locations read 00H while the index is 0 or above 63
(R54). -/
def State.readPage3 (s : State) : Nat → Byte
  | 0x00 => flagByte s.port.bankSelect.bit
  | 0x01 => s.port.entryIndex
  | 0x02 =>
    if s.port.entryIndexValid then ((s.maps.bank s.port.bankSelect).rxEntry s.port.entryIndex.toNat).byte else 0
  | 0x03 =>
    if s.port.entryIndexValid then ((s.maps.bank s.port.bankSelect).txEntry s.port.entryIndex.toNat).byte else 0
  | 0x04 =>
    if s.port.entryIndexValid then ((s.maps.bank s.port.bankSelect).txEntry s.port.entryIndex.toNat).constant else 0
  | _ => 0

/-- Page 4: buffer port and tag table (section 10.6). -/
def State.readPage4 (s : State) : Nat → Byte
  | 0x00 => s.wideLow .bufferAddress
  | 0x01 => s.readHigh .bufferAddress
  | 0x02 => s.byteAt s.port.bufferAddress.toNat
  | 0x04 => BitVec.ofNat 8 s.port.tagSelect.val
  | 0x05 => tagEntryByte s.selectedTagEntry
  | _ => 0

/-- Page 5: notification (section 10.7). -/
def State.readPage5 (s : State) : Nat → Byte
  | 0x00 => BitVec.ofNat 8 s.notifications.queue.length
  | 0x01 => s.notifications.head fun r => BitVec.ofNat 8 r.post.kind.number
  | 0x02 => s.notifications.head fun r => r.post.channel.code
  | 0x03 => s.notifications.head fun r => BitVec.ofNat 8 r.count
  | 0x04 => s.notifications.head fun r => r.post.detail.code
  | 0x05 => s.wideLow .headStamp
  | 0x06 => s.readHigh .headStamp
  | 0x08 => s.notifications.missed.extractLsb' 0 8
  | 0x09 => s.notifications.missed.extractLsb' 8 8
  | 0x0A => (s.notifications.missed.extractLsb' 16 5).setWidth 8
  | _ => 0

/-- What a read of a location of the current page returns outside the gates (R149); 3FH is the page register on every page
(R148). -/
def State.windowByte (s : State) (location : BitVec 6) : Byte :=
  if location = 0x3F then BitVec.ofNat 8 s.port.page.val
  else
    match s.port.page.val with
    | 0 => s.readPage0 location.toNat
    | 1 => s.readPage1 location.toNat
    | 2 => s.readPage2 location.toNat
    | 3 => s.readPage3 location.toNat
    | 4 => s.readPage4 location.toNat
    | _ => s.readPage5 location.toNat

/-- What a read of any location returns: 00H while RSTN is low (R161); while INIT is set, the port status at its own
location and 00H elsewhere (R159); otherwise the item the current page places there (R149). -/
def State.busRead (s : State) (location : BitVec 6) : Byte :=
  if s.port.rstnLow then 0
  else if s.port.init then
    if s.port.page = 0 ∧ location = 0x0D then s.port.statusByte else 0
  else s.windowByte location

/-! ### Which writes have a row of their own (assumption 3) -/

/-- The location of the current page belongs to another row of the table than REGISTER_WRITE. -/
def locationHasOwnRow (page : Fin 6) (location : Nat) : Bool :=
  location = 0x3F ||
    match page.val with
    | 0 => [0x01, 0x02, 0x03, 0x06, 0x08, 0x0E, 0x10, 0x11].contains location
    | 1 => [0x10, 0x11].contains location
    | 2 => [0x01, 0x02, 0x04, 0x05, 0x06, 0x07, 0x08, 0x09, 0x0A, 0x0B, 0x0C, 0x0D].contains location
    | 3 => [0x02, 0x03, 0x04].contains location
    | 4 => [0x00, 0x01, 0x02, 0x05].contains location
    | _ => false

end Sys2Proof.Machine
end

