-- ==== Sys2Proof/Machine/Channels.lean ====
section
/-! DEFINITION. The Channel Engine: how a byte moves in a running channel (chapter 6), entry to DONE, the channel commands
(chapters 5 and 6) and the writes of programmed fields (R73 to R75). -/

namespace Sys2Proof.Machine

/-! ### Entry to DONE (R89) -/

/-- A channel leaves the rotation list; the members that remain keep their order (R120). -/
def State.leaveRotation (s : State) (c : Channel) : State :=
  { s with pool := { s.pool with rotation := s.pool.rotation.filter (· ≠ c) } }

/-- The channel's context goes to DONE and it leaves the rotation list (R89). -/
def State.toDone (s : State) (c : Channel) : State :=
  (s.setChannel c { s.channel c with state := .done }).leaveRotation c

/-- A channel enters DONE and posts CHANNEL_ENDED (R89). -/
def State.enterDone (s : State) (c : Channel) (d : Detail) : State :=
  (s.post (s.channelPost c .channelEnded d)).toDone c

/-! ### Shortfall (R115) -/

/-- A shortfall: the count rises, and the first of a run posts SHORTFALL and sets the short-run flag (R115). -/
def State.shortfall (s : State) (c : Channel) : State :=
  let x := s.channel c
  let t := s.setChannel c { x with shortfalls := saturatingInc x.shortfalls, shortRun := true }
  if x.shortRun then t else t.post (s.channelPost c .shortfall .none)

/-! ### A byte moved (R96 to R106) -/

/-- SINGLE: the position advances, and the byte that reaches the length ends the run (R96 to R98). -/
def State.movedSingle (s : State) (c : Channel) : State :=
  let x := s.channel c
  let t := s.setChannel c { x with shortRun := false, position := x.position + 1 }
  if x.position + 1 = x.lengthA then t.enterDone c .completed else t

/-- RING: the position wraps at the length, the fill moves by one, the watermark is tested, and a transmit channel in
ENDING that is now empty ends (R99, R101, R104). -/
def State.movedRing (s : State) (c : Channel) : State :=
  let x := s.channel c
  let fill :=
    match x.direction with
    | .receive => x.fill + 1
    | .transmit => x.fill - 1
  let t := s.setChannel c
    { x with shortRun := false, position := (x.position + 1) % x.lengthA, fill := fill }
  let u := if x.watermark ≠ 0 ∧ fill = x.watermark then t.post (t.channelPost c .watermark .none) else t
  if x.direction = .transmit ∧ x.state = .ending ∧ fill = 0 then u.enterDone c .finished else u

/-- ALTERNATING, the byte that completes the active segment: the segment goes to the host with SEGMENT_DONE, and then the
run ends in ENDING, or the other segment becomes active and the channel stalls if that one is the host's (R106). -/
def State.handOver (s : State) (c : Channel) : State :=
  let x := s.channel c
  let y := { x.setOwner x.active .host with shortRun := false, position := 0 }
  let detail : Detail :=
    match x.active with
    | .segA => .segmentA
    | .segB => .segmentB
  let t := s.post (s.channelPost c .segmentDone detail)
  if x.state = .ending then (t.setChannel c y).enterDone c .finished
  else t.setChannel c
    { y with active := x.active.other, stalled := x.owner x.active.other = .host }

/-- ALTERNATING: the position advances, and the byte that reaches the active segment's length hands it over (R105). -/
def State.movedAlternating (s : State) (c : Channel) : State :=
  let x := s.channel c
  if x.position + 1 = x.length x.active then s.handOver c
  else s.setChannel c { x with shortRun := false, position := x.position + 1 }

/-- What a byte moved for a channel does to its context and posts, by its mode. -/
def State.byteMoved (s : State) (c : Channel) : State :=
  match (s.channel c).mode with
  | .single => s.movedSingle c
  | .ring => s.movedRing c
  | .alternating => s.movedAlternating c

/-! ### Byte arrivals and byte demands (R90) -/

/-- A byte arrival at a channel: discarded when it is not the channel's (R90), a shortfall when the channel cannot take it
(R100, R107), else written at the channel's address (R95). -/
def State.byteArrival (s : State) (c : Channel) (b : Byte) : Host.Outcome State Fault Refusal :=
  let x := s.channel c
  if !x.takesArrivals then .next s
  else if !x.canMove then .next (s.shortfall c)
  else if Config.memoryBytes ≤ x.address then .fault .addressOutsideMemory
  else .next ({ s with memory := s.memory.write x.address b }.byteMoved c)

/-- A byte demand at a channel, from a CHANNEL slot or (`pooled`) from a pool burst: the idle byte when the demand is not
the channel's (R90) or is a shortfall (R102, R107), else the byte read at the channel's address (R95). -/
def State.byteDemand (s : State) (c : Channel) (pooled : Bool) : Host.Outcome (State × Byte) Fault Refusal :=
  let x := s.channel c
  if !x.answersDemands || (x.poolMode && !pooled) then .next (s, s.transmitter.idleByte)
  else if !x.canMove then .next (s.shortfall c, s.transmitter.idleByte)
  else if Config.memoryBytes ≤ x.address then .fault .addressOutsideMemory
  else .next (s.byteMoved c, s.byteAt x.address)

/-! ### ARMED to ACTIVE (R79, R80) -/

/-- At a receive cycle start every receive channel in ARMED enters ACTIVE (R79). -/
def State.activateReceive (s : State) : State :=
  s.mapChannels fun _ x =>
    if x.direction = .receive ∧ x.state = .armed then { x with state := .active } else x

/-- The pool-mode transmit channels in ARMED, in increasing order of channel number (R80). -/
def State.poolJoiners (s : State) : List Channel :=
  (List.finRange 20).filter fun c =>
    (s.channel c).direction = .transmit && (s.channel c).state = .armed && (s.channel c).poolMode

/-- At a transmit cycle start every transmit channel in ARMED enters ACTIVE, and those in pool mode join the tail of the
rotation list (R80). -/
def State.activateTransmit (s : State) : State :=
  let t := s.mapChannels fun _ x =>
    if x.direction = .transmit ∧ x.state = .armed then { x with state := .active } else x
  { t with pool := { t.pool with rotation := t.pool.rotation ++ s.poolJoiners } }

/-! ### Frame end and leaving of alignment (R86) -/

/-- The RING receive channels in ENDING (R86). -/
def State.endingRings (s : State) : List Channel :=
  (List.finRange 20).filter fun c =>
    (s.channel c).direction = .receive && (s.channel c).mode = .ring && (s.channel c).state = .ending

/-- The posts of the RING receive channels that end together (R86, R89). -/
def State.endingPosts (s : State) : List Post :=
  s.endingRings.map fun c => s.channelPost c .channelEnded .finished

/-- Every RING receive channel in ENDING goes to DONE (R86). -/
def State.endRings (s : State) : State := s.endingRings.foldl State.toDone s

/-! ### START (R77, R78) -/

/-- The tag of a channel about to start is in use: another channel on the rotation list, or another pool-mode transmit
channel in ARMED, carries it (R77, check 5). -/
def State.tagInUse (s : State) (c : Channel) : Bool :=
  (List.finRange 20).any fun d =>
    d ≠ c && (s.channel d).tag = (s.channel c).tag &&
      (s.pool.rotation.contains d ||
        ((s.channel d).direction = .transmit && (s.channel d).poolMode && (s.channel d).state = .armed))

/-- The checks of START in their order (R77). -/
def State.startCheck (s : State) (c : Channel) : ResultCode :=
  let x := s.channel c
  if !x.atRest then .badState
  else if !x.fits .segA || (x.mode = .alternating && !x.fits .segB) then .badSegment
  else if x.direction = .transmit && x.poolMode && s.tagInUse c then .badTag
  else if x.direction = .transmit && x.mode = .ring && x.lengthA < s.port.amount then .badAmount
  else .ok

/-- The context after a START that is taken (R78). -/
def ChannelContext.started (x : ChannelContext) (amount : Nat) : ChannelContext :=
  { x with
    state := .armed
    active := .segA
    position := 0
    fill := if x.direction = .transmit ∧ x.mode = .ring then amount else 0
    ownerA := .device
    ownerB := .device
    stalled := false
    shortRun := false }

/-- START (R77, R78). -/
def execStart (s : State) : Host.Outcome State Fault Refusal :=
  .next (s.command fun s => s.onChannel fun c =>
    match s.startCheck c with
    | .ok => (s.setChannel c ((s.channel c).started s.port.amount), .ok)
    | r => (s, r))

/-! ### STOP (R83) -/

/-- The context after a STOP: IDLE, with the position at 0 if the channel was in DONE (R83). -/
def ChannelContext.stopped (x : ChannelContext) : ChannelContext :=
  { x with state := .idle, position := if x.state = .done then 0 else x.position }

/-- STOP (R83). -/
def execStop (s : State) : Host.Outcome State Fault Refusal :=
  .next (s.command fun s => s.onChannel fun c =>
    if (s.channel c).state = .idle then (s, .badState)
    else ((s.setChannel c (s.channel c).stopped).leaveRotation c, .ok))

/-! ### FINISH (R85 to R88) -/

/-- A FINISH that is taken: the channel enters DONE at once or goes to ENDING, by its mode and direction (R86 to R88). -/
def State.finish (s : State) (c : Channel) : State :=
  let x := s.channel c
  let ending := s.setChannel c { x with state := .ending }
  match x.mode, x.direction with
  | .alternating, _ =>
    if x.stalled then (s.setChannel c { x with position := 0 }).enterDone c .finished else ending
  | .ring, .receive => if s.aligner.state = .aligned then ending else s.enterDone c .finished
  | .ring, .transmit => if x.fill = 0 then s.enterDone c .finished else ending
  | .single, _ => s

/-- FINISH (R85 to R88). -/
def execFinish (s : State) : Host.Outcome State Fault Refusal :=
  .next (s.command fun s => s.onChannel fun c =>
    if (s.channel c).state ≠ .active then (s, .badState)
    else if (s.channel c).mode = .single then (s, .badState)
    else (s.finish c, .ok))

/-! ### GIVE (R109, R110) -/

/-- The segment an amount names (R109). -/
def segmentOfAmount (n : Nat) : Option Segment :=
  match n with
  | 0 => some .segA
  | 1 => some .segB
  | _ => none

/-- The context after a GIVE that is taken (R110). -/
def ChannelContext.given (x : ChannelContext) (g : Segment) : ChannelContext :=
  { x.setOwner g .device with stalled := x.stalled && x.active ≠ g }

/-- GIVE (R109, R110). -/
def execGive (s : State) : Host.Outcome State Fault Refusal :=
  .next (s.command fun s => s.onChannel fun c =>
    let x := s.channel c
    if x.atRest then (s, .badState)
    else if x.mode ≠ .alternating then (s, .badState)
    else
      match segmentOfAmount s.port.amount with
      | none => (s, .badAmount)
      | some g =>
        if x.owner g ≠ .host then (s, .badState)
        else if !x.fits g then (s, .badSegment)
        else (s.setChannel c (x.given g), .ok))

/-! ### ADVANCE (R112, R113) -/

/-- ADVANCE (R112, R113). -/
def execAdvance (s : State) : Host.Outcome State Fault Refusal :=
  .next (s.command fun s => s.onChannel fun c =>
    let x := s.channel c
    let n := s.port.amount
    if x.atRest then (s, .badState)
    else if x.mode ≠ .ring then (s, .badState)
    else if n = 0 then (s, .badAmount)
    else
      match x.direction with
      | .receive =>
        if x.fill < n then (s, .badAmount)
        else (s.setChannel c { x with fill := x.fill - n }, .ok)
      | .transmit =>
        if x.lengthA < x.fill + n then (s, .badAmount)
        else (s.setChannel c { x with fill := x.fill + n }, .ok))

/-! ### Writes of the programmed fields (R73 to R75) -/

/-- A mode byte write or a segment A write in IDLE or DONE sets position and fill to 0 and the active segment to A (R75). -/
def ChannelContext.replanned (x : ChannelContext) : ChannelContext :=
  { x with position := 0, fill := 0, active := .segA }

/-- Change the context the channel select names. -/
def State.setSelected (s : State) (x : ChannelContext) : State := s.setChannel s.port.channelSelect x

/-- MODE_BYTE_WRITE (R73, R75): direction in bit 0, mode in bits 2 and 1, pool mode in bit 3 (section 10.4). -/
def execModeByteWrite (v : Byte) (s : State) : Host.Outcome State Fault Refusal :=
  .next (s.hostWrite 2 fun s =>
    if !s.selected.atRest then s.refuseWrite
    else
      match Mode.ofCode (v.extractLsb' 1 2) with
      | none => s.refuseWrite
      | some m =>
        s.setSelected
          { s.selected.replanned with
            direction := if v.getLsbD 0 then .transmit else .receive
            mode := m
            poolMode := v.getLsbD 3 })

/-- TAG_WRITE (R73): 1 to 31, in IDLE or DONE. -/
def execTagWrite (v : Byte) (s : State) : Host.Outcome State Fault Refusal :=
  .next (s.hostWrite 2 fun s =>
    if !s.selected.atRest then s.refuseWrite
    else if 1 ≤ v.toNat ∧ v.toNat ≤ 31 then s.setSelected { s.selected with tag := v }
    else s.refuseWrite)

/-- The write permission of a segment field (R74). -/
def ChannelContext.segmentWritable (x : ChannelContext) (g : Segment) : Bool :=
  x.atRest || (x.mode = .alternating && x.owner g = .host)

/-- The selected channel after a taken commit of segment A base (R73, R75). -/
def ChannelContext.withBaseA (x : ChannelContext) (n : Nat) : ChannelContext :=
  if x.atRest then { x.replanned with baseA := n } else { x with baseA := n }

/-- The selected channel after a taken commit of segment A length (R73, R75). -/
def ChannelContext.withLengthA (x : ChannelContext) (n : Nat) : ChannelContext :=
  if x.atRest then { x.replanned with lengthA := n } else { x with lengthA := n }

/-- A commit of segment B in IDLE or DONE sets the position to 0 when B is the active segment (R75). -/
def ChannelContext.replannedB (x : ChannelContext) : ChannelContext :=
  if x.atRest ∧ x.active = .segB then { x with position := 0 } else x

/-- The segment length range, 1 to 4096 (R73). -/
def lengthInRange (n : Nat) : Bool := 1 ≤ n && n ≤ 4096

end Sys2Proof.Machine
end

