-- ==== Sys2Proof/Machine/MapUnit.lean ====
section
/-! DEFINITION. The Slot Map Unit: completion of a switch, SWITCH, and the writes of entries (chapter 4). -/

namespace Sys2Proof.Machine

/-! ### Completion of a switch (R59) -/

/-- The other bank becomes the active receive bank and the pending flag clears (R59). -/
def State.switchRxBank (s : State) : State :=
  { s with maps := { s.maps with rxActive := s.maps.rxActive.other, rxPending := false } }

/-- The other bank becomes the active transmit bank and the pending flag clears (R59). -/
def State.switchTxBank (s : State) : State :=
  { s with maps := { s.maps with txActive := s.maps.txActive.other, txPending := false } }

/-- The record of a receive completion (R59). -/
def State.rxSwitchedPost (s : State) : Post := s.rxLinkPost .rxMapSwitched .none

/-- The record of a transmit completion, stamped with the transmit cycle count (R59). -/
def State.txSwitchedPost (s : State) : Post := ⟨.txMapSwitched, .link, .none, s.transmitter.cycleCount⟩

/-- A receive switch completes and posts its record (R59). -/
def State.completeRxSwitch (s : State) : State := s.switchRxBank.post s.rxSwitchedPost

/-- A transmit switch completes and posts its record (R59). -/
def State.completeTxSwitch (s : State) : State := s.switchTxBank.post s.txSwitchedPost

/-- A completing event of the transmit direction: it acts only when the pending flag is set (R62, R63). -/
def State.txSwitchEvent (s : State) : State := if s.maps.txPending then s.completeTxSwitch else s

/-! ### SWITCH (R58) -/

/-- The receive half of a taken SWITCH: it pends while the aligner is ALIGNED and else completes at once (R58). -/
def State.requestRxSwitch (s : State) : State :=
  if s.aligner.state = .aligned then { s with maps := { s.maps with rxPending := true } } else s.completeRxSwitch

/-- The transmit half of a taken SWITCH: it completes at once while the transmitter is STOPPED and else pends (R58). -/
def State.requestTxSwitch (s : State) : State :=
  if s.transmitter.state = .stopped then s.completeTxSwitch else { s with maps := { s.maps with txPending := true } }

/-- SWITCH (R58): operand 0 bit 0 names receive and bit 1 transmit. -/
def execSwitch (s : State) : Host.Outcome State Fault Refusal :=
  .next (s.command fun s =>
    let rx := s.port.operand0.getLsbD 0
    let tx := s.port.operand0.getLsbD 1
    if !rx && !tx then (s, .badAmount)
    else if (rx && s.maps.rxPending) || (tx && s.maps.txPending) then (s, .busy)
    else
      let t := if rx then s.requestRxSwitch else s
      (if tx then t.requestTxSwitch else t, .ok))

/-! ### Entry writes (R55, R56) -/

/-- The edit permission of a bank: it is the active bank of neither direction and no switch is pending (R56). -/
def SlotMaps.editable (m : SlotMaps) (b : Bank) : Bool :=
  m.rxActive ≠ b && m.txActive ≠ b && !m.rxPending && !m.txPending

/-- Replace receive entry `n` of a bank. -/
def BankMaps.setRx (m : BankMaps) (n : Nat) (e : RxEntry) : BankMaps := { m with rx := m.rx.setIfInBounds (n - 1) e }

/-- Replace transmit entry `n` of a bank. -/
def BankMaps.setTx (m : BankMaps) (n : Nat) (e : TxEntry) : BankMaps := { m with tx := m.tx.setIfInBounds (n - 1) e }

/-- Replace the contents of the bank the bank select names. -/
def State.setSelectedBank (s : State) (x : BankMaps) : State :=
  { s with maps := s.maps.setBank s.port.bankSelect x }

/-- A write of a receive kind and channel byte: the kind code and the channel number are checked (R55). -/
def State.writeRxEntry (s : State) (v : Byte) : State :=
  match RxKind.ofCode (v.extractLsb' 5 3), channelOfBits (v.extractLsb' 0 5) with
  | some k, some c => s.setSelectedBank ((s.maps.bank s.port.bankSelect).setRx s.port.entryIndex.toNat ⟨k, c⟩)
  | _, _ => s.refuseWrite

/-- A write of a transmit kind and channel byte: the kind code and the channel number are checked (R55). -/
def State.writeTxEntry (s : State) (v : Byte) : State :=
  let m := s.maps.bank s.port.bankSelect
  match TxKind.ofCode (v.extractLsb' 5 3), channelOfBits (v.extractLsb' 0 5) with
  | some k, some c =>
    s.setSelectedBank (m.setTx s.port.entryIndex.toNat ⟨k, c, (m.txEntry s.port.entryIndex.toNat).constant⟩)
  | _, _ => s.refuseWrite

/-- A write of a constant byte: every value is taken (R55). -/
def State.writeConstant (s : State) (v : Byte) : State :=
  let m := s.maps.bank s.port.bankSelect
  s.setSelectedBank (m.setTx s.port.entryIndex.toNat { m.txEntry s.port.entryIndex.toNat with constant := v })

/-- SLOT_MAP_ENTRY_WRITE (R55): the index, the edit permission, then the byte's own checks. -/
def execSlotMapEntryWrite (f : EntryField) (v : Byte) (s : State) : Host.Outcome State Fault Refusal :=
  .next (s.hostWrite 3 fun s =>
    if !s.port.entryIndexValid then s.refuseWrite
    else if !s.maps.editable s.port.bankSelect then s.refuseWrite
    else
      match f with
      | .receive => s.writeRxEntry v
      | .transmit => s.writeTxEntry v
      | .constant => s.writeConstant v)

end Sys2Proof.Machine
end

