-- ==== Sys2Proof/Machine/Burst.lean ====
section
/-! DEFINITION. The Pool Unit: the grant, the answer to a pool slot, the parsing of a received burst, and the tag table
(chapter 7). -/

namespace Sys2Proof.Machine

/-! ### The grant (R121, R122) -/

/-- The first member of the rotation list with a byte available (R121). -/
def State.firstEligible (s : State) : Option Channel :=
  s.pool.rotation.find? fun c => 0 < (s.channel c).available

/-- The frame start at the arbiter: the pool slots of the frame are counted, and with 3 or more of them the first eligible
member is granted the smaller of P and its available bytes and goes to the tail (R119, R121, R122). -/
def State.grant (s : State) : State :=
  let k := (s.maps.txPoolSlots (s.transmitter.frameLength - 1)).length
  let empty : TxBurst := { TxBurst.cleared with poolSlots := k }
  match if 3 ≤ k then s.firstEligible else none with
  | none => { s with pool := { s.pool with txBurst := empty } }
  | some c =>
    { s with pool := { s.pool with
        txBurst :=
          { poolSlots := k
            granted := some c
            tag := (s.channel c).tag
            length := min (poolCapacity k) (s.channel c).available
            answered := 0 }
        rotation := s.pool.rotation.filter (· ≠ c) ++ [c] } }

/-! ### The answer to a pool slot (R123, R124) -/

/-- A burst withdrawn at its tag slot: from then on it is an empty burst (R123). -/
def TxBurst.withdrawn (b : TxBurst) : TxBurst := { TxBurst.cleared with poolSlots := b.poolSlots }

/-- The tag slot: the recorded tag if the granted channel still runs, else the burst is withdrawn and 0 is sent (R123). -/
def State.answerTagSlot (s : State) : State × Byte :=
  match s.pool.txBurst.granted with
  | none => (s, 0)
  | some c =>
    if (s.channel c).answersDemands then (s, s.pool.txBurst.tag)
    else ({ s with pool := { s.pool with txBurst := s.pool.txBurst.withdrawn } }, 0)

/-- A slot after the length slot: a data slot while fewer than n have been answered, which raises one byte demand at the
granted channel, and else the idle byte (R123, R124). -/
def State.answerDataSlot (s : State) : Host.Outcome (State × Byte) Fault Refusal :=
  match s.pool.txBurst.granted with
  | none => .next (s, s.transmitter.idleByte)
  | some c =>
    if s.pool.txBurst.answered < s.pool.txBurst.length then
      { s with pool := { s.pool with
          txBurst := { s.pool.txBurst with answered := s.pool.txBurst.answered + 1 } } }.byteDemand c true
    else .next (s, s.transmitter.idleByte)

/-- The answer to the pool slot with a given ordinal among the frame's pool slots (R123). With fewer than 3 pool slots it
is the idle byte (R71, R119). -/
def State.answerPoolSlot (s : State) (ordinal : Nat) : Host.Outcome (State × Byte) Fault Refusal :=
  if s.pool.txBurst.poolSlots < 3 then .next (s, s.transmitter.idleByte)
  else if ordinal = 1 then .next s.answerTagSlot
  else if ordinal = 2 then .next (s, BitVec.ofNat 8 s.pool.txBurst.length)
  else s.answerDataSlot

/-! ### Parsing a received burst (R127 to R130) -/

/-- The frame start at the parser: a new receive burst record with the pool slots of the bank in force (R127). -/
def State.beginParse (s : State) : State :=
  let k := (s.maps.rxPoolSlots (s.transmitter.frameLength - 1)).length
  { s with pool := { s.pool with
      rxBurst := { RxBurst.cleared with poolSlots := k, phase := if 3 ≤ k then .awaitTag else .noBurst } } }

/-- Change the receive burst record. -/
def State.setRxBurst (s : State) (b : RxBurst) : State := { s with pool := { s.pool with rxBurst := b } }

/-- The target that a tag names: a receive channel in ACTIVE or ENDING that its tag table entry holds, else none (R128). -/
def State.burstTarget (s : State) (tag : Byte) : Option Channel :=
  if 1 ≤ tag.toNat ∧ tag.toNat ≤ 31 then
    match (s.pool.tagTable[tag.toNat - 1]?).getD none with
    | some c => if (s.channel c).takesArrivals then some c else none
    | none => none
  else none

/-- The tag slot (R128). -/
def State.parseTag (s : State) (b : Byte) : State :=
  if b = 0 then s.setRxBurst { s.pool.rxBurst with phase := .skip }
  else s.setRxBurst { s.pool.rxBurst with phase := .awaitLength, target := s.burstTarget b }

/-- One more pool format error (R129, R134). -/
def State.countFormatError (s : State) : State :=
  { s with monitor := { s.monitor with formatErrors := saturatingInc s.monitor.formatErrors } }

/-- One more pool discard (R129, R134). -/
def State.countPoolDiscard (s : State) : State :=
  { s with monitor := { s.monitor with poolDiscards := saturatingInc s.monitor.poolDiscards } }

/-- The length slot (R129). -/
def State.parseLength (s : State) (b : Byte) : State :=
  let r := s.pool.rxBurst
  if poolCapacity r.poolSlots < b.toNat then (s.setRxBurst { r with phase := .skip }).countFormatError
  else if b = 0 then s.setRxBurst { r with phase := .skip }
  else if r.target = none then (s.setRxBurst { r with phase := .skip }).countPoolDiscard
  else s.setRxBurst { r with phase := .data, length := b.toNat }

/-- A data byte of the burst: it is counted and handed to the target as a byte arrival (R130). -/
def State.parseData (s : State) (b : Byte) : Host.Outcome State Fault Refusal :=
  let r := s.pool.rxBurst
  let t := s.setRxBurst
    { r with received := r.received + 1, phase := if r.received + 1 = r.length then .skip else .data }
  match r.target with
  | some c => t.byteArrival c b
  | none => .next t

/-- A pool byte at the parser, by its phase (section 7.6). -/
def State.parsePoolByte (s : State) (b : Byte) : Host.Outcome State Fault Refusal :=
  match s.pool.rxBurst.phase with
  | .noBurst | .skip => .next s
  | .awaitTag => .next (s.parseTag b)
  | .awaitLength => .next (s.parseLength b)
  | .data => s.parseData b

/-- The leaving of alignment ends the burst being parsed, with nothing counted (R131). -/
def State.endParse (s : State) : State := s.setRxBurst { RxBurst.cleared with poolSlots := s.pool.rxBurst.poolSlots }

/-! ### The tag table (R132, R165) -/

/-- Replace the tag table entry the tag select names. -/
def State.setTagEntry (s : State) (e : Option Channel) : State :=
  { s with pool := { s.pool with tagTable := s.pool.tagTable.setIfInBounds (s.port.tagSelect.val - 1) e } }

/-- TAG_TABLE_ENTRY_WRITE (R165): bit 7 clear sets none, bit 7 set names the channel of bits 4 to 0. -/
def execTagTableEntryWrite (v : Byte) (s : State) : Host.Outcome State Fault Refusal :=
  .next (s.hostWrite 4 fun s =>
    if s.port.tagSelect = 0 then s.refuseWrite
    else if !v.getLsbD 7 then s.setTagEntry none
    else
      match channelOfBits (v.extractLsb' 0 5) with
      | some c => s.setTagEntry (some c)
      | none => s.refuseWrite)

end Sys2Proof.Machine
end

