-- ==== Sys2Proof/Machine/Positions.lean ====
section
/-! DEFINITION. The bit positions of the two sides: the transmitter's place moved on by one TXCLK bit position (R1, R7), one
bit taken by the Line Monitor and the aligner (R38 to R41), and the two joined under local loop (R16). -/

namespace Sys2Proof.Machine

/-! ### One received bit (R38 to R41, R45) -/

/-- The zero-run count after a bit (R39). -/
def LineMonitor.nextZeroRun (m : LineMonitor) (bit : Bool) : Nat := if bit then 0 else min 160 (m.zeroRun + 1)

/-- The silence window after a bit, while SILENCE is declared (R40). -/
def LineMonitor.nextWindow (m : LineMonitor) (bit : Bool) : Option SilenceWindow :=
  if !m.silence then m.silenceWindow
  else
    match m.silenceWindow, bit with
    | none, false => none
    | none, true => some ⟨1, 1⟩
    | some w, false => some ⟨w.position + 1, w.ones⟩
    | some w, true => some ⟨w.position + 1, w.ones + 1⟩

/-- The HOLD detector as a bit finds it: at the first bit after a change of local loop a new window begins, with the
low-window count at 0 and the HOLD condition kept (R45). -/
def LineMonitor.atFirstBit (m : LineMonitor) : LineMonitor :=
  if m.holdRestart then { m with holdPosition := 0, holdZeros := 0, lowWindows := 0, holdRestart := false } else m

/-- One bit counted in the HOLD window (R41). -/
def LineMonitor.countHold (m : LineMonitor) (bit : Bool) : LineMonitor :=
  { m with
    holdZeros := if bit then m.holdZeros else min 3 (m.holdZeros + 1)
    holdPosition := if m.holdPosition = 1023 then 1023 else m.holdPosition + 1
    holdWindowDone := m.holdPosition = 1023 }

/-- One bit at the SILENCE detector and at the HOLD detector (R39 to R41). -/
def LineMonitor.takeBit (m : LineMonitor) (bit : Bool) : LineMonitor :=
  { m.atFirstBit.countHold bit with zeroRun := m.nextZeroRun bit, silenceWindow := m.nextWindow bit }

/-- One bit received: both detectors take it, and it joins the bits the aligner holds (R38), late if the aligner is behind
the line (R23). -/
def State.takeBit (s : State) (bit : Bool) : State :=
  { s with
    monitor := s.monitor.takeBit bit
    aligner := { s.aligner with bits := s.aligner.bits ++ [bit], lateBit := s.aligner.behind } }

/-! ### One TXCLK bit position (R1, R4, R6, R7) -/

/-- The transmitter one TXCLK bit position on: the next bit of the slot, or the first bit of the next slot, whose byte its
demand has fixed. STOPPED, it keeps its place (R4). None, where the next bit position is a frame start (R6, R7) or stands
behind the entry to STOPPED (R9), and where the next slot's demand has not been answered yet (R8). -/
def Transmitter.advance (t : Transmitter) : Option Transmitter :=
  if t.state = .stopped then some t
  else if !t.begun then none
  else if t.bitIndex < 7 then some { t with bitIndex := t.bitIndex + 1 }
  else
    match t.nextByte with
    | some b => some { t with slotIndex := t.slotIndex + 1, bitIndex := 0, slotByte := b, nextByte := none }
    | none => none

/-- Under local loop, the bit now on TXD is the received bit of this TXCLK bit position (R16). -/
def State.takeLooped (s : State) : State := if s.looped then s.takeBit s.transmitter.line else s

/-- One TXCLK bit position that is no frame start: the transmitter moves on, and under local loop the receive side takes
the bit then sent (R1, R16). The state stays where the bit position has not come yet (assumption 1). -/
def State.txBitPosition (s : State) : State :=
  if s.loopHeld then s
  else
    match s.transmitter.advance with
    | some t => { s with transmitter := t }.takeLooped
    | none => s

end Sys2Proof.Machine
end

