-- ==== Sys2Proof/Machine/Transmit.lean ====
section
/-! DEFINITION. The Trunk Transmitter (chapter 1): frame starts, slot demands, the entry to STOPPED, the cycle offset, and
the link controls it owns. -/

namespace Sys2Proof.Machine

/-! ### Frame start (R7, R10 to R12) -/

/-- The remote-fault flag of the marker composed now (R10). -/
def State.markerFault (s : State) : Bool :=
  s.transmitter.forceRemoteFault || s.aligner.state = .hunt || s.aligner.state = .confirm

/-- The frame index of the frame that starts now: 0 for the first frame after an enable (R6), else one more, going from 11
to 0 (R7). -/
def Transmitter.nextFrame (t : Transmitter) : Nat := if t.begun then (t.frameIndex + 1) % 12 else 0

/-- The transmitter at a frame start: the marker goes out in slot 0, and a cycle start is counted (R7, R10, R11). -/
def State.beginFrame (s : State) : State :=
  let f := s.transmitter.nextFrame
  { s with transmitter :=
      { s.transmitter with
        begun := true
        frameIndex := f
        slotIndex := 0
        bitIndex := 0
        slotByte := composeMarker s.markerFault f
        nextByte := none
        cycleCount := if f = 0 then s.transmitter.cycleCount + 1 else s.transmitter.cycleCount } }

/-- The entry of ARMED transmit channels to ACTIVE and the grant of frame 0, at a cycle start. Where a pool-mode channel
joins the list, R80 leaves the order of the two open: it is a free value (assumption 6). -/
def State.enterAndGrant (s : State) : State :=
  if s.poolJoiners.isEmpty then s.activateTransmit.grant
  else
    let t := { s with draws := s.draws + 1 }
    if Config.grantBeforeEntry s.draws then t.grant.activateTransmit else t.activateTransmit.grant

/-- What a frame start hands to the other blocks (R12): at frame index 0 the cycle start with a pending switch and the entry
to ACTIVE (R62, R80), and the grant (R121). -/
def State.frameStartEvents (s : State) : State :=
  if s.transmitter.frameIndex = 0 then s.txSwitchEvent.enterAndGrant else s.grant

/-- TRANSMIT_FRAME_START (R7): the marker and the events of the frame start. It is the TXCLK bit position of the marker's
first bit, which the receive side takes under local loop (R6, R7, R16). -/
def execTransmitFrameStart (s : State) : Host.Outcome State Fault Refusal :=
  .next (if s.frameStartReady then s.beginFrame.frameStartEvents.takeLooped else s)

/-! ### Slot demand (R8) -/

/-- The byte of a payload slot, by the kind of its entry in the active transmit bank (R69 to R71). -/
def State.resolveDemand (s : State) (slot : Nat) : Host.Outcome (State × Byte) Fault Refusal :=
  let e := (s.maps.bank s.maps.txActive).txEntry slot
  match e.kind with
  | .idle => .next (s, s.transmitter.idleByte)
  | .constant => .next (s, e.constant)
  | .channel => s.byteDemand e.channel false
  | .pool => s.answerPoolSlot (s.maps.txPoolSlots slot).length

/-- The answer fixes the byte of the slot (R8). -/
def State.fixNextByte (s : State) (b : Byte) : State :=
  { s with transmitter := { s.transmitter with nextByte := some b } }

/-- SLOT_DEMAND (R8): the demand for the next payload slot is answered while the slot before it is being sent. -/
def execSlotDemand (s : State) : Host.Outcome State Fault Refusal :=
  if s.transmitter.demandDue then
    thenNext (s.resolveDemand (s.transmitter.slotIndex + 1)) fun (t, b) => t.fixNextByte b
  else .next s

/-! ### Entry to STOPPED (R9) -/

/-- The transmitter in STOPPED with its indexes at 0 (R9). -/
def Transmitter.halted (t : Transmitter) : Transmitter :=
  { t with
    state := .stopped
    begun := false
    frameIndex := 0
    slotIndex := 0
    bitIndex := 0
    slotByte := 0xFF
    nextByte := none }

/-- ENTRY_TO_STOPPED (R9): a pending transmit switch completes there (R63). -/
def execEntryToStopped (s : State) : Host.Outcome State Fault Refusal :=
  if s.transmitter.stopDue then .next { s with transmitter := s.transmitter.halted }.txSwitchEvent
  else .next s

/-! ### The cycle offset (R1, R35) -/

/-- The cycle bit position of the bit being sent (R1). -/
def Transmitter.cycleBit (t : Transmitter) : Nat := (t.frameIndex * t.frameLength + t.slotIndex) * 8 + t.bitIndex

/-- The cycle offset as it is taken: 65535 while no frame has begun, else the cycle bit position (R35). -/
def Transmitter.offset (t : Transmitter) : Half :=
  if t.state = .stopped ∨ !t.begun then 0xFFFF else BitVec.ofNat 16 t.cycleBit

/-! ### Link controls (R5, R14) -/

/-- A write of transmit enable at the transmitter (R5, R6). -/
def Transmitter.writeEnable (t : Transmitter) (on : Bool) : Transmitter :=
  match t.state, on with
  | .stopped, true =>
    { t with enable := on, state := .running, begun := false, frameIndex := 0, slotIndex := 0, bitIndex := 0 }
  | .running, false => { t with enable := on, state := .stopping }
  | .stopping, true => { t with enable := on, state := .running }
  | _, _ => { t with enable := on }

/-- TRANSMIT_ENABLE_WRITE (R5): bit 0 of the byte (R163). -/
def execTransmitEnableWrite (v : Byte) (s : State) : Host.Outcome State Fault Refusal :=
  .next (s.hostWrite 0 fun s => { s with transmitter := s.transmitter.writeEnable (v.getLsbD 0) })

/-- FRAME_LENGTH_WRITE (R14). -/
def execFrameLengthWrite (v : Byte) (s : State) : Host.Outcome State Fault Refusal :=
  .next (s.hostWrite 0 fun s =>
    if s.transmitter.state = .stopped ∧ s.aligner.state = .off ∧ 16 ≤ v.toNat ∧ v.toNat ≤ 64 then
      { s with transmitter := { s.transmitter with frameLength := v.toNat } }
    else s.refuseWrite)

end Sys2Proof.Machine
end

