-- ==== Sys2Proof/Machine/Receive.lean ====
section
/-! DEFINITION. The Receive Aligner (chapter 2): the search, the confirmation, the following of frames, the leaving of
alignment, slot arrivals and frame ends, and the link controls it owns. -/

namespace Sys2Proof.Machine

/-! ### Leaving alignment (R30) -/

/-- Why alignment is lost (R30). -/
inductive LossCause where
  | markers | silence | hold | command
  deriving DecidableEq, Repr

/-- The detail of ALIGN_LOST (R136). -/
def LossCause.detail : LossCause → Detail
  | .markers => .markers
  | .silence => .silence
  | .hold => .hold
  | .command => .command

/-- A loss is counted and posted (R30, step 2). -/
def State.countLoss (s : State) (cause : LossCause) : State :=
  { s with monitor := { s.monitor with alignmentLosses := saturatingInc s.monitor.alignmentLosses } }.post
    (s.rxLinkPost .alignLost cause.detail)

/-- The reports of a leaving (R30, step 3): a pending receive switch completes (R61), RING receive channels in ENDING go to
DONE (R86) and the burst being parsed ends (R131). No rule orders the posts of the first two (assumption 7). -/
def State.reportLeaving (s : State) : State :=
  let posts := (if s.maps.rxPending then [s.rxSwitchedPost] else []) ++ s.endingPosts
  let t := if s.maps.rxPending then s.switchRxBank else s
  (t.endRings.endParse).postInAnyOrder posts

/-- What a leaving clears in the aligner (R30, steps 4 and 5; R37), and the state it goes to. -/
def Aligner.left (a : Aligner) (next : AlignerState) : Aligner :=
  { a with
    state := next
    bits := []
    lateBit := false
    candidate := none
    expectedPlace := 0
    expectedPosition := 0
    badMarkers := 0
    frameEndDue := false
    remoteFault := false
    faultRun := 0 }

/-- A loss of alignment: the aligner leaves ALIGNED for HUNT and starts a fresh search (R30). -/
def State.loseAlignment (s : State) (cause : LossCause) : State :=
  let t := (s.countLoss cause).reportLeaving
  { t with aligner := t.aligner.left .hunt }

/-- A fresh search: nothing is held of the stream (R21). -/
def Aligner.freshSearch (a : Aligner) : Aligner :=
  { a with
    state := .hunt
    bits := []
    lateBit := false
    candidate := none
    expectedPlace := 0
    expectedPosition := 0
    confirmations := 0 }

/-- The Line Monitor's request to go to HUNT (R25, R32, R43). -/
def State.requestHunt (s : State) (cause : LossCause) : State :=
  match s.aligner.state with
  | .off | .hunt => s
  | .confirm => { s with aligner := s.aligner.freshSearch }
  | .aligned => s.loseAlignment cause

/-! ### Frame and cycle starts (R28, R34 to R36) -/

/-- One good marker's flag at the remote-fault detector (R36). -/
def Aligner.readFlag (a : Aligner) (flag : Bool) : Aligner :=
  if flag = a.remoteFault then { a with faultRun := 0 }
  else if a.faultRun + 1 = 3 then { a with remoteFault := flag, faultRun := 0 }
  else { a with faultRun := a.faultRun + 1 }

/-- The kind that a change of REMOTE_FAULT posts (R36). -/
def remoteFaultKind (declared : Bool) : Kind := if declared then .remoteFaultOn else .remoteFaultOff

/-- The cycle start at the aligner: the count rises and the offset is taken (R34, R35). -/
def State.countRxCycle (s : State) : State :=
  { s with aligner :=
      { s.aligner with
        cycleCount := s.aligner.cycleCount + 1
        cycleOffset := s.transmitter.offset } }

/-- A receive cycle start, without its posts: the count, the offset, a pending switch and the entry to ACTIVE (R34, R60,
R79). -/
def State.rxCycleStart (s : State) : State :=
  let t := s.countRxCycle
  (if t.maps.rxPending then t.switchRxBank else t).activateReceive

/-- A receive frame start at a marker place. `flag` is the remote-fault flag of a good marker and `none` for a bad one.
The cycle start comes first (R34), the parser begins its record with the bank then in force (R66, R127), the next place is
one frame on (R29), and the flag is read (R36). The posts of the switch and of the detector are in no stated order
(assumption 7). -/
def State.frameStart (s : State) (flag : Option Bool) : State :=
  let cycle := s.aligner.expectedPosition = 0
  let t := if cycle then s.rxCycleStart else s
  let a := match flag with
    | some f => t.aligner.readFlag f
    | none => t.aligner
  let switched := if cycle ∧ s.maps.rxPending then [t.rxSwitchedPost] else []
  let fault :=
    if a.remoteFault ≠ t.aligner.remoteFault then [t.rxLinkPost (remoteFaultKind a.remoteFault) .none] else []
  { t.beginParse with aligner :=
      { a with
        expectedPosition := (a.expectedPosition + 1) % 12
        expectedPlace := (s.transmitter.frameLength - 1) * 8 } }.postInAnyOrder (switched ++ fault)

/-! ### HUNT (R21, R22) -/

/-- SEARCH_BYTE_EXAMINATION (R22): the first eight bits held are the search byte. An accepted candidate starts the stored
history at its first bit, and else the search moves on by one bit position. -/
def execSearchByteExamination (s : State) : Host.Outcome State Fault Refusal :=
  if s.aligner.examinationDue then
    let b := byteOfBits s.aligner.bits
    if wellFormedMarker b ∧ !s.monitor.silence ∧ !s.monitor.hold then
      .next { s with aligner :=
        { s.aligner with
          state := .confirm
          lateBit := false
          candidate := some (markerPosition b)
          expectedPlace := s.transmitter.frameLength * 8
          expectedPosition := (markerPosition b + 1) % 12
          confirmations := 0 } }
    else .next { s with aligner := { s.aligner with bits := s.aligner.bits.tail, lateBit := false } }
  else .next s

/-! ### CONFIRM (R24 to R26) -/

/-- A marker is good when it is well formed and carries the expected position (R24, R29). -/
def Aligner.goodMarker (a : Aligner) (b : Byte) : Bool :=
  wellFormedMarker b && markerPosition b = a.expectedPosition

/-- A rejected candidate: back to HUNT, the search going on at the bit after the candidate's first bit (R23, R25). -/
def Aligner.rejectCandidate (a : Aligner) : Aligner :=
  { a with
    state := .hunt
    bits := a.bits.tail
    lateBit := false
    candidate := none
    expectedPlace := 0
    expectedPosition := 0
    confirmations := 0 }

/-- The first good marker after the candidate (R24). -/
def Aligner.confirmOnce (a : Aligner) (f : Nat) : Aligner :=
  { a with
    lateBit := false
    confirmations := 1
    expectedPlace := a.expectedPlace + f * 8
    expectedPosition := (a.expectedPosition + 1) % 12 }

/-- The aligner enters ALIGNED: the stored history, which ends with the confirming marker, is discarded, and the remote-fault
detector starts clear (R23, R26, R37, assumption 5). -/
def Aligner.aligning (a : Aligner) : Aligner :=
  { a with
    state := .aligned
    bits := []
    lateBit := false
    candidate := none
    confirmations := 2
    badMarkers := 0
    frameEndDue := false
    remoteFault := false
    faultRun := 0 }

/-- Entry to ALIGNED at the second confirming marker, which is the first frame start (R26). -/
def State.enterAligned (s : State) (flag : Bool) : State :=
  let t := { s with aligner := s.aligner.aligning }.frameStart (some flag)
  t.post (t.rxLinkPost .alignGained .none)

/-- CONFIRM_MARKER_CHECK (R24): the eight bits at the expected place. -/
def execConfirmMarkerCheck (s : State) : Host.Outcome State Fault Refusal :=
  if s.aligner.confirmCheckDue then
    let b := byteOfBits (s.aligner.bits.drop s.aligner.expectedPlace)
    if s.aligner.goodMarker b then
      if s.aligner.confirmations = 0 then
        .next { s with aligner := s.aligner.confirmOnce s.transmitter.frameLength }
      else .next (s.enterAligned (markerFlag b))
    else .next { s with aligner := s.aligner.rejectCandidate }
  else .next s

/-! ### ALIGNED (R29, R31) -/

/-- The marker-error increment: the step onto a threshold that is not 0 posts MARKER_THRESHOLD (R46, R49). -/
def State.countMarkerError (s : State) : State :=
  let n := saturatingInc s.monitor.markerErrors
  let t := { s with monitor := { s.monitor with markerErrors := n } }
  if n ≠ s.monitor.markerErrors ∧ n = s.monitor.threshold then t.post (s.rxLinkPost .markerThreshold .none) else t

/-- Drop the eight bits that have been taken. -/
def Aligner.takeByte (a : Aligner) : Aligner := { a with bits := a.bits.drop 8 }

/-- A bad marker while ALIGNED (R29). A fourth in a row ends alignment at its frame start (R31). -/
def State.badMarker (s : State) : State :=
  let t := s.countMarkerError
  if t.aligner.badMarkers + 1 = 4 then t.loseAlignment .markers
  else { t with aligner := { t.aligner with badMarkers := t.aligner.badMarkers + 1 } }.frameStart none

/-- ALIGNED_MARKER_CHECK (R29). -/
def execAlignedMarkerCheck (s : State) : Host.Outcome State Fault Refusal :=
  if s.aligner.markerCheckDue then
    let b := byteOfBits s.aligner.bits
    let t := { s with aligner := s.aligner.takeByte }
    if s.aligner.goodMarker b then
      .next ({ t with aligner := { t.aligner with badMarkers := 0 } }.frameStart (some (markerFlag b)))
    else .next t.badMarker
  else .next s

/-! ### Slot arrivals and frame ends (R27, R28, R67) -/

/-- The aligner has handed on one slot byte; after slot F-1 the frame end is due (R27, R28). -/
def Aligner.handOnSlot (a : Aligner) : Aligner :=
  { a.takeByte with expectedPlace := a.expectedPlace - 8, frameEndDue := a.expectedPlace - 8 = 0 }

/-- Where a received slot byte goes, by the kind of its entry in the active receive bank (R67, R68). -/
def State.resolveArrival (s : State) (slot : Nat) (b : Byte) : Host.Outcome State Fault Refusal :=
  let e := (s.maps.bank s.maps.rxActive).rxEntry slot
  match e.kind with
  | .discard => .next s
  | .channel => s.byteArrival e.channel b
  | .pool => s.parsePoolByte b

/-- SLOT_ARRIVAL (R67): the first eight bits held are the byte of the next payload slot. -/
def execSlotArrival (s : State) : Host.Outcome State Fault Refusal :=
  if s.aligner.arrivalDue then
    { s with aligner := s.aligner.handOnSlot }.resolveArrival
      (s.aligner.nextSlot s.transmitter.frameLength) (byteOfBits s.aligner.bits)
  else .next s

/-- FRAME_END (R86): the RING receive channels in ENDING go to DONE. -/
def execFrameEnd (s : State) : Host.Outcome State Fault Refusal :=
  if s.aligner.frameEndReady then
    .next ({ s with aligner := { s.aligner with frameEndDue := false } }.endRings.postInAnyOrder s.endingPosts)
  else .next s

/-! ### Receive enable, REALIGN and local loop (R16, R18, R20, R33) -/

/-- What entry to OFF and the resets leave of the monitor's run and window state (R44). -/
def LineMonitor.idle (m : LineMonitor) : LineMonitor :=
  { m with
    silence := false
    zeroRun := 0
    silenceWindow := none
    hold := false
    holdPosition := 0
    holdZeros := 0
    holdWindowDone := false
    lowWindows := 0
    holdRestart := false }

/-- Entry to OFF: from ALIGNED it is a leaving of alignment that is neither counted nor posted (R20, R30). -/
def State.toOff (s : State) : State :=
  let t := if s.aligner.state = .aligned then s.reportLeaving else s
  { t with
    aligner := { t.aligner.left .off with confirmations := 0 }
    monitor := t.monitor.idle }

/-- RECEIVE_ENABLE_WRITE (R18): bit 0 of the byte (R163). -/
def execReceiveEnableWrite (v : Byte) (s : State) : Host.Outcome State Fault Refusal :=
  .next (s.hostWrite 0 fun s =>
    let on := v.getLsbD 0
    let t := { s with aligner := { s.aligner with enable := on } }
    if on then
      if s.aligner.state = .off then { t with aligner := t.aligner.freshSearch } else t
    else if s.aligner.state = .off then t
    else t.toOff)

/-- REALIGN (R33). -/
def execRealign (s : State) : Host.Outcome State Fault Refusal :=
  .next (s.command fun s =>
    match s.aligner.state with
    | .off => (s, .badState)
    | .hunt | .confirm => ({ s with aligner := s.aligner.freshSearch }, .ok)
    | .aligned => (s.loseAlignment .command, .ok))

/-- A change of local loop while receive is enabled: the HOLD window begins anew at the first bit of the newly selected
source (R45, assumption 22). -/
def LineMonitor.loopChanged (m : LineMonitor) : LineMonitor := { m with holdRestart := true }

/-- LOCAL_LOOP_WRITE (R16, R45): bit 0 of the byte (R163). -/
def execLocalLoopWrite (v : Byte) (s : State) : Host.Outcome State Fault Refusal :=
  .next (s.hostWrite 0 fun s =>
    let on := v.getLsbD 0
    if on = s.aligner.localLoop then s
    else
      { s with
        aligner := { s.aligner with localLoop := on }
        monitor := if s.aligner.receiving then s.monitor.loopChanged else s.monitor })

end Sys2Proof.Machine
end

