-- ==== Sys2Proof/Machine/Monitor.lean ====
section
/-! DEFINITION. The Line Monitor (chapter 3): one received bit position, the SILENCE and HOLD events, and
CLEAR_COUNTERS. -/

namespace Sys2Proof.Machine

/-! ### One received bit (R16, R38) -/

/-- RECEIVED_BIT_POSITION (R38): while receive is enabled, the bit of RXD is taken by both detectors and joins the bits the
aligner holds. Under local loop the received bit positions are those of TXCLK and RXD is not used (R16): one TXCLK bit
position goes by, and its bit is the received bit. -/
def execReceivedBitPosition (rxd : Bool) (s : State) : Host.Outcome State Fault Refusal :=
  .next (
    if s.looped then s.txBitPosition
    else if s.aligner.receiving && !s.bitHeld then s.takeBit rxd
    else s)

/-! ### SILENCE (R39, R40) -/

/-- SILENCE_DECLARATION (R39, R43). -/
def execSilenceDeclaration (s : State) : Host.Outcome State Fault Refusal :=
  if s.aligner.receiving && s.monitor.silenceDue then
    .next (({ s with monitor := { s.monitor with silence := true, silenceWindow := none } }.post
      (s.rxLinkPost .silenceOn .none)).requestHunt .silence)
  else .next s

/-- SILENCE_CLEARING (R40). -/
def execSilenceClearing (s : State) : Host.Outcome State Fault Refusal :=
  if s.aligner.receiving && s.monitor.silenceClearDue then
    .next ({ s with monitor := { s.monitor with silence := false, silenceWindow := none } }.post
      (s.rxLinkPost .silenceOff .none))
  else .next s

/-- SILENCE_WINDOW_FAILURE (R40). -/
def execSilenceWindowFailure (s : State) : Host.Outcome State Fault Refusal :=
  if s.aligner.receiving && s.monitor.windowFailureDue then
    .next { s with monitor := { s.monitor with silenceWindow := none } }
  else .next s

/-! ### HOLD (R42) -/

/-- The next HOLD window begins (R41). -/
def LineMonitor.nextHoldWindow (m : LineMonitor) : LineMonitor :=
  { m with holdPosition := 0, holdZeros := 0, holdWindowDone := false }

/-- A window with 3 zeros: the low-window count goes to 0, and a declared HOLD clears with HOLD_OFF (R42). -/
def State.holdWindowLive (s : State) : State :=
  let t := { s with monitor := { s.monitor.nextHoldWindow with lowWindows := 0, hold := false } }
  if s.monitor.hold then t.post (s.rxLinkPost .holdOff .none) else t

/-- A window with fewer than 3 zeros: the second in a row declares HOLD, posts HOLD_ON and hands the declaration to the
aligner (R42, R43). With HOLD still declared over a loop change the low-window count has gone to 0 (R45), where R42's "stays
2" does not hold: it is counted up to 2 like any other, and decides nothing until HOLD clears (assumption 28). -/
def State.holdWindowLow (s : State) : State :=
  let n := min 2 (s.monitor.lowWindows + 1)
  let t := { s with monitor := { s.monitor.nextHoldWindow with lowWindows := n } }
  if !s.monitor.hold ∧ n = 2 then
    ({ t with monitor := { t.monitor with hold := true } }.post (s.rxLinkPost .holdOn .none)).requestHunt .hold
  else t

/-- HOLD_WINDOW_END (R42). -/
def execHoldWindowEnd (s : State) : Host.Outcome State Fault Refusal :=
  if s.aligner.receiving && s.monitor.holdWindowDone then
    if s.monitor.holdZeros = 3 then .next s.holdWindowLive else .next s.holdWindowLow
  else .next s

/-! ### CLEAR_COUNTERS (R50, R51) -/

/-- The link counters at 0 (R51). -/
def LineMonitor.clearCounters (m : LineMonitor) : LineMonitor :=
  { m with markerErrors := 0, alignmentLosses := 0, formatErrors := 0, poolDiscards := 0 }

/-- The shortfall count of every channel at 0 (R51). -/
def State.clearShortfalls (s : State) : State := s.mapChannels fun _ x => { x with shortfalls := 0 }

/-- CLEAR_COUNTERS (R50, R51): operand 0 bit 0 selects the link counters and bit 1 the channel counters. -/
def execClearCounters (s : State) : Host.Outcome State Fault Refusal :=
  .next (s.command fun s =>
    let link := s.port.operand0.getLsbD 0
    let chan := s.port.operand0.getLsbD 1
    if !link && !chan then (s, .badAmount)
    else
      let t := if link then { s with monitor := s.monitor.clearCounters } else s
      (if chan then t.clearShortfalls else t, .ok))

end Sys2Proof.Machine
end

