-- ==== Sys2Proof/Machine/Notify.lean ====
section
/-! DEFINITION. The Notification Queue's own commands and accesses (chapter 8): REMOVE, FLUSH, the suspend flag, the
kind-enable set and the read of the third missed-set byte. -/

namespace Sys2Proof.Machine

/-- REMOVE (R142). -/
def execRemove (s : State) : Host.Outcome State Fault Refusal :=
  .next (s.command fun s =>
    match s.notifications.queue with
    | [] => (s, .badState)
    | _ :: rest => ({ s with notifications := { s.notifications with queue := rest } }, .ok))

/-- FLUSH (R143). -/
def execFlush (s : State) : Host.Outcome State Fault Refusal :=
  .next (s.command fun s => ({ s with notifications := { s.notifications with queue := [] } }, .ok))

/-- SUSPEND_FLAG_WRITE (R145): bit 0 of the byte (R163). -/
def execSuspendFlagWrite (v : Byte) (s : State) : Host.Outcome State Fault Refusal :=
  .next (s.hostWrite 0 fun s => { s with notifications := { s.notifications with suspend := v.getLsbD 0 } })

/-- The kind-enable set after a write of one of its bytes; bit 7 of the second byte stands for no kind (R140). -/
def Notifications.writeEnables (n : Notifications) (w : KindByte) (v : Byte) : Notifications :=
  match w with
  | .kinds1to8 => { n with enabled := n.enabled.extractLsb' 8 7 ++ v }
  | .kinds9to15 => { n with enabled := v.extractLsb' 0 7 ++ n.enabled.extractLsb' 0 8 }

/-- KIND_ENABLE_WRITE (R140). -/
def execKindEnableWrite (w : KindByte) (v : Byte) (s : State) : Host.Outcome State Fault Refusal :=
  .next (s.hostWrite 0 fun s => { s with notifications := s.notifications.writeEnables w v })

/-- MISSED_SET_THIRD_BYTE_READ (R144): the byte is returned, and then the whole missed set is emptied. -/
def execMissedSetThirdByteRead (s : State) : Host.Outcome State Fault Refusal :=
  .next (s.hostRead 5 fun s =>
    { s.returnByte (s.readPage5 0x0A) with notifications := { s.notifications with missed := 0 } })

end Sys2Proof.Machine
end

