-- ==== Sys2Proof/Machine/PortAccess.lean ====
section
/-! DEFINITION. The Host Port's own accesses (chapter 9): the page register, wide values, the buffer port, the port status,
the plain registers and a code that names no command. -/

namespace Sys2Proof.Machine

/-! ### Page register (R148) -/

/-- A page change empties both holders; a write of the page already held changes nothing (R148). -/
def State.turnPage (s : State) (p : Fin 6) : State :=
  if p = s.port.page then s else { s with port := { s.port with page := p, readHolder := none, writeHolder := none } }

/-- PAGE_REGISTER_WRITE (R148): taken on every page and under the INIT gate (R159), ignored while RSTN is low (R161). -/
def execPageRegisterWrite (v : Byte) (s : State) : Host.Outcome State Fault Refusal :=
  .next (
    if s.port.rstnLow then s
    else if h : v.toNat < 6 then s.turnPage ⟨v.toNat, h⟩
    else s.refuseWrite)

/-! ### Wide values (R151, R152) -/

/-- WIDE_LOW_BYTE_READ (R151): the live low byte is returned and the high byte is captured. -/
def execWideLowByteRead (i : WideItem) (s : State) : Host.Outcome State Fault Refusal :=
  .next (s.hostRead (widePage i) fun s =>
    let t := s.returnByte (s.wideLow i)
    { t with port := { t.port with readHolder := some ⟨s.wideKey i, s.wideHigh i⟩ } })

/-- The read capture holder holds the item (R151). -/
def State.readHeld (s : State) (i : WideItem) : Bool :=
  match s.port.readHolder with
  | some h => h.key = s.wideKey i
  | none => false

/-- WIDE_HIGH_BYTE_READ (R151): the held byte is returned and the holder emptied, or the live byte is returned. -/
def execWideHighByteRead (i : WideItem) (s : State) : Host.Outcome State Fault Refusal :=
  .next (s.hostRead (widePage i) fun s =>
    let t := s.returnByte (s.readHigh i)
    if s.readHeld i then { t with port := { t.port with readHolder := none } } else t)

/-- WIDE_LOW_BYTE_WRITE (R152): the byte goes into the write holder and nothing is checked. The low byte of a read-only
item is a read-only location (R149). -/
def execWideLowByteWrite (i : WideItem) (v : Byte) (s : State) : Host.Outcome State Fault Refusal :=
  .next (s.hostWrite (widePage i) fun s =>
    if wideWritable i then { s with port := { s.port with writeHolder := some ⟨s.wideKey i, v⟩ } } else s.refuseWrite)

/-- The item after a commit that its owner's checks let through, or none when they refuse it (R152; R48, R73, R74, R154).
A read-only item refuses every write (R149). -/
def State.commitItem (s : State) (i : WideItem) (v : Byte) : Option State :=
  let n := (s.commit13 i v).toNat
  let x := s.selected
  match i with
  | .markerThreshold => some { s with monitor := { s.monitor with threshold := s.commitHalf i v } }
  | .bufferAddress => some { s with port := { s.port with bufferAddress := s.commit13 i v } }
  | .segABase => if x.segmentWritable .segA then some (s.setSelected (x.withBaseA n)) else none
  | .segALength =>
    if x.segmentWritable .segA && lengthInRange n then some (s.setSelected (x.withLengthA n)) else none
  | .segBBase =>
    if x.segmentWritable .segB then some (s.setSelected { x.replannedB with baseB := n }) else none
  | .segBLength =>
    if x.segmentWritable .segB && lengthInRange n then some (s.setSelected { x.replannedB with lengthB := n })
    else none
  | .watermark => if n ≤ 4096 then some (s.setSelected { x with watermark := n }) else none
  | .rxCycleCount | .txCycleCount | .cycleOffset | .markerErrors | .position | .fill | .headStamp => none

/-- Empty the write holder. -/
def State.emptyWriteHolder (s : State) : State := { s with port := { s.port with writeHolder := none } }

/-- WIDE_HIGH_BYTE_COMMIT (R152): a taken commit empties the holder if it used it; a refused one sets ACCESS_ERROR and
empties the holder whatever it held. A write of a read-only item is no commit: it is refused as a write of a read-only
location, which leaves the holder (R149). -/
def execWideHighByteCommit (i : WideItem) (v : Byte) (s : State) : Host.Outcome State Fault Refusal :=
  .next (s.hostWrite (widePage i) fun s =>
    if !wideWritable i then s.refuseWrite
    else
      match s.commitItem i v with
      | some t => if s.writeHeld i then t.emptyWriteHolder else t
      | none => s.refuseWrite.emptyWriteHolder)

/-! ### Buffer port (R154) -/

/-- The buffer address advances, going from 1FFFH to 0000H (R154). -/
def State.advanceBuffer (s : State) : State :=
  { s with port := { s.port with bufferAddress := s.port.bufferAddress + 1 } }

/-- BUFFER_DATA_READ (R154). -/
def execBufferDataRead (s : State) : Host.Outcome State Fault Refusal :=
  .next (s.hostRead 4 fun s => (s.returnByte (s.byteAt s.port.bufferAddress.toNat)).advanceBuffer)

/-- BUFFER_DATA_WRITE (R154). -/
def execBufferDataWrite (v : Byte) (s : State) : Host.Outcome State Fault Refusal :=
  .next (s.hostWrite 4 fun s =>
    { s with memory := s.memory.write s.port.bufferAddress.toNat v }.advanceBuffer)

/-! ### Port status (R157) -/

/-- PORT_STATUS_READ (R157): both flags are returned and ACCESS_ERROR clears, also under the INIT gate (R159). -/
def execPortStatusRead (s : State) : Host.Outcome State Fault Refusal :=
  .next (
    if s.port.rstnLow then s.returnByte 0
    else if s.port.page = 0 then
      let t := s.returnByte s.port.statusByte
      { t with port := { t.port with accessError := false } }
    else if s.port.init then s.returnByte 0
    else s)

/-! ### Registers with no row of their own (R149) -/

/-- Page 0: the idle byte (R3), force remote fault (R15) and the three operand registers (R155). -/
def State.writePage0 (s : State) (location : Nat) (v : Byte) : State :=
  match location with
  | 0x04 => { s with transmitter := { s.transmitter with idleByte := v } }
  | 0x05 => { s with transmitter := { s.transmitter with forceRemoteFault := v.getLsbD 0 } }
  | 0x09 => { s with port := { s.port with operand0 := v } }
  | 0x0A => { s with port := { s.port with amountLow := v } }
  | 0x0B => { s with port := { s.port with amountHigh := v } }
  | _ => s.refuseWrite

/-- Page 2: the channel select (R150). -/
def State.writePage2 (s : State) (location : Nat) (v : Byte) : State :=
  match location with
  | 0x00 =>
    if h : v.toNat < 20 then { s with port := { s.port with channelSelect := ⟨v.toNat, h⟩ } } else s.refuseWrite
  | _ => s.refuseWrite

/-- Page 3: the bank select and the entry index (R54). -/
def State.writePage3 (s : State) (location : Nat) (v : Byte) : State :=
  match location with
  | 0x00 =>
    match v.toNat with
    | 0 => { s with port := { s.port with bankSelect := .bankA } }
    | 1 => { s with port := { s.port with bankSelect := .bankB } }
    | _ => s.refuseWrite
  | 0x01 => { s with port := { s.port with entryIndex := v } }
  | _ => s.refuseWrite

/-- Page 4: the tag select (R150). -/
def State.writePage4 (s : State) (location : Nat) (v : Byte) : State :=
  match location with
  | 0x04 =>
    if h : 1 ≤ v.toNat ∧ v.toNat < 32 then { s with port := { s.port with tagSelect := ⟨v.toNat, h.2⟩ } }
    else s.refuseWrite
  | _ => s.refuseWrite

/-- A write of a location that no other row covers: the item's owner takes it, and a read-only or unassigned location
refuses it (R149). Pages 1 and 5 hold no such writable item. -/
def State.writePlain (s : State) (location : Nat) (v : Byte) : State :=
  match s.port.page.val with
  | 0 => s.writePage0 location v
  | 2 => s.writePage2 location v
  | 3 => s.writePage3 location v
  | 4 => s.writePage4 location v
  | _ => s.refuseWrite

/-- REGISTER_WRITE (R149). A location that another row of the table covers on the current page is not written by this
row (assumption 3). -/
def execRegisterWrite (location : BitVec 6) (v : Byte) (s : State) : Host.Outcome State Fault Refusal :=
  .next (s.hostWrite s.port.page fun s =>
    if locationHasOwnRow s.port.page location.toNat then s else s.writePlain location.toNat v)

/-! ### A code that names no command (R156) -/

/-- BAD_COMMAND (R156). A code that names a command is not this row's (assumption 3). -/
def execBadCommand (code : Byte) (s : State) : Host.Outcome State Fault Refusal :=
  .next (if codeNamesCommand code then s else s.command fun s => (s, .badCommand))

end Sys2Proof.Machine
end

