-- ==== Sys2Proof/Machine/Resets.lean ====
section
/-! DEFINITION. The three reset kinds (section 4 of the scope file): power-on with its clearing of buffer memory (R158), pin
reset (R160, R161) and engine reset (R162). -/

namespace Sys2Proof.Machine

/-! ### Power-on (R158) -/

/-- POWER_ON (R158): every block takes its power-on values. The commands waiting outside, the level of RSTN and the
counters of the free values are not the part's own (assumptions 9 and 11). -/
def execPowerOn (s : State) : Host.Outcome State Fault Refusal :=
  .next { State.reset with
    port := { HostPort.reset with rstnLow := s.port.rstnLow }
    pending := s.pending
    draws := s.draws
    powerOns := s.powerOns + 1 }

/-- POWER_ON_CLEARING_END (R93, R158): every byte of buffer memory is 00H and INIT clears. -/
def execPowerOnClearingEnd (s : State) : Host.Outcome State Fault Refusal :=
  if s.port.init then .next { s with memory := [], port := { s.port with init := false } }
  else .next s

/-! ### Pin reset (R160, R161) -/

/-- The Line Monitor after a pin reset: its power-on values, but for the four link counters, which are kept (R44, R52). -/
def LineMonitor.pinReset (m : LineMonitor) : LineMonitor :=
  { LineMonitor.reset with
    markerErrors := m.markerErrors
    alignmentLosses := m.alignmentLosses
    formatErrors := m.formatErrors
    poolDiscards := m.poolDiscards }

/-- PIN_RESET (R160): every block takes its pin reset values; buffer memory, the link counters and INIT are kept. -/
def execPinReset (s : State) : Host.Outcome State Fault Refusal :=
  .next { State.reset with
    port := { HostPort.reset with init := s.port.init, rstnLow := true }
    monitor := s.monitor.pinReset
    memory := s.memory
    pending := s.pending
    draws := s.draws
    powerOns := s.powerOns }

/-- PIN_RESET_RELEASE (R161): RSTN goes high and the part runs from the values it has. -/
def execPinResetRelease (s : State) : Host.Outcome State Fault Refusal :=
  .next { s with port := { s.port with rstnLow := false } }

/-! ### Engine reset (R162) -/

/-- A channel context after an engine reset (R92). -/
def ChannelContext.engineReset (x : ChannelContext) : ChannelContext :=
  { x with
    state := .idle
    active := .segA
    position := 0
    fill := 0
    ownerA := .device
    ownerB := .device
    stalled := false
    shortRun := false }

/-- The channel side of every block (R162): channels to IDLE (R92), the rotation list emptied (R126), pending switches
cancelled (R65), queue and missed set emptied with suspend set (R147), and both holders emptied. -/
def State.engineReset (s : State) : State :=
  { (s.mapChannels fun _ x => x.engineReset).emptyHolders with
    pool := { s.pool with rotation := [] }
    maps := { s.maps with rxPending := false, txPending := false }
    notifications := { s.notifications with queue := [], missed := 0, suspend := true } }

/-- ENGINE_RESET (R162). -/
def execEngineReset (s : State) : Host.Outcome State Fault Refusal :=
  .next (s.command fun s => (s.engineReset, .ok))

end Sys2Proof.Machine
end

