-- ==== Sys2Proof/Machine/Dispatch.lean ====
section
/-! DEFINITION. The meaning of each command: one arm for each constructor, in the order of spec/opcode_table.json. -/

namespace Sys2Proof.Machine

def exec (i : Instr) (s : State) : Host.Outcome State Fault Refusal :=
  match i with
  -- POWER_ON
  | .powerOn => Sys2Proof.Machine.execPowerOn s
  -- POWER_ON_CLEARING_END
  | .powerOnClearingEnd => Sys2Proof.Machine.execPowerOnClearingEnd s
  -- PIN_RESET
  | .pinReset => Sys2Proof.Machine.execPinReset s
  -- PIN_RESET_RELEASE
  | .pinResetRelease => Sys2Proof.Machine.execPinResetRelease s
  -- TRANSMIT_FRAME_START
  | .transmitFrameStart => Sys2Proof.Machine.execTransmitFrameStart s
  -- SLOT_DEMAND
  | .slotDemand => Sys2Proof.Machine.execSlotDemand s
  -- ENTRY_TO_STOPPED
  | .entryToStopped => Sys2Proof.Machine.execEntryToStopped s
  -- SEARCH_BYTE_EXAMINATION
  | .searchByteExamination => Sys2Proof.Machine.execSearchByteExamination s
  -- CONFIRM_MARKER_CHECK
  | .confirmMarkerCheck => Sys2Proof.Machine.execConfirmMarkerCheck s
  -- ALIGNED_MARKER_CHECK
  | .alignedMarkerCheck => Sys2Proof.Machine.execAlignedMarkerCheck s
  -- SLOT_ARRIVAL
  | .slotArrival => Sys2Proof.Machine.execSlotArrival s
  -- FRAME_END
  | .frameEnd => Sys2Proof.Machine.execFrameEnd s
  -- SILENCE_DECLARATION
  | .silenceDeclaration => Sys2Proof.Machine.execSilenceDeclaration s
  -- SILENCE_CLEARING
  | .silenceClearing => Sys2Proof.Machine.execSilenceClearing s
  -- SILENCE_WINDOW_FAILURE
  | .silenceWindowFailure => Sys2Proof.Machine.execSilenceWindowFailure s
  -- HOLD_WINDOW_END
  | .holdWindowEnd => Sys2Proof.Machine.execHoldWindowEnd s
  -- TRANSMIT_ENABLE_WRITE
  | .transmitEnableWrite v => Sys2Proof.Machine.execTransmitEnableWrite v s
  -- RECEIVE_ENABLE_WRITE
  | .receiveEnableWrite v => Sys2Proof.Machine.execReceiveEnableWrite v s
  -- FRAME_LENGTH_WRITE
  | .frameLengthWrite v => Sys2Proof.Machine.execFrameLengthWrite v s
  -- LOCAL_LOOP_WRITE
  | .localLoopWrite v => Sys2Proof.Machine.execLocalLoopWrite v s
  -- PAGE_REGISTER_WRITE
  | .pageRegisterWrite v => Sys2Proof.Machine.execPageRegisterWrite v s
  -- SUSPEND_FLAG_WRITE
  | .suspendFlagWrite v => Sys2Proof.Machine.execSuspendFlagWrite v s
  -- KIND_ENABLE_WRITE
  | .kindEnableWrite w v => Sys2Proof.Machine.execKindEnableWrite w v s
  -- SLOT_MAP_ENTRY_WRITE
  | .slotMapEntryWrite f v => Sys2Proof.Machine.execSlotMapEntryWrite f v s
  -- MODE_BYTE_WRITE
  | .modeByteWrite v => Sys2Proof.Machine.execModeByteWrite v s
  -- TAG_WRITE
  | .tagWrite v => Sys2Proof.Machine.execTagWrite v s
  -- TAG_TABLE_ENTRY_WRITE
  | .tagTableEntryWrite v => Sys2Proof.Machine.execTagTableEntryWrite v s
  -- WIDE_LOW_BYTE_WRITE
  | .wideLowByteWrite item v => Sys2Proof.Machine.execWideLowByteWrite item v s
  -- WIDE_HIGH_BYTE_COMMIT
  | .wideHighByteCommit item v => Sys2Proof.Machine.execWideHighByteCommit item v s
  -- BUFFER_DATA_READ
  | .bufferDataRead => Sys2Proof.Machine.execBufferDataRead s
  -- BUFFER_DATA_WRITE
  | .bufferDataWrite v => Sys2Proof.Machine.execBufferDataWrite v s
  -- WIDE_LOW_BYTE_READ
  | .wideLowByteRead item => Sys2Proof.Machine.execWideLowByteRead item s
  -- WIDE_HIGH_BYTE_READ
  | .wideHighByteRead item => Sys2Proof.Machine.execWideHighByteRead item s
  -- PORT_STATUS_READ
  | .portStatusRead => Sys2Proof.Machine.execPortStatusRead s
  -- MISSED_SET_THIRD_BYTE_READ
  | .missedSetThirdByteRead => Sys2Proof.Machine.execMissedSetThirdByteRead s
  -- REGISTER_WRITE
  | .registerWrite l v => Sys2Proof.Machine.execRegisterWrite l v s
  -- START
  | .cmdStart => Sys2Proof.Machine.execStart s
  -- STOP
  | .cmdStop => Sys2Proof.Machine.execStop s
  -- FINISH
  | .cmdFinish => Sys2Proof.Machine.execFinish s
  -- GIVE
  | .cmdGive => Sys2Proof.Machine.execGive s
  -- ADVANCE
  | .cmdAdvance => Sys2Proof.Machine.execAdvance s
  -- SWITCH
  | .cmdSwitch => Sys2Proof.Machine.execSwitch s
  -- REALIGN
  | .cmdRealign => Sys2Proof.Machine.execRealign s
  -- CLEAR_COUNTERS
  | .cmdClearCounters => Sys2Proof.Machine.execClearCounters s
  -- REMOVE
  | .cmdRemove => Sys2Proof.Machine.execRemove s
  -- FLUSH
  | .cmdFlush => Sys2Proof.Machine.execFlush s
  -- ENGINE_RESET
  | .cmdEngineReset => Sys2Proof.Machine.execEngineReset s
  -- BAD_COMMAND
  | .badCommand k => Sys2Proof.Machine.execBadCommand k s
  -- RECEIVED_BIT_POSITION
  | .receivedBitPosition b => Sys2Proof.Machine.execReceivedBitPosition b s

end Sys2Proof.Machine
end

