-- ==== Sys2Proof/Safety.lean ====
section
/-! DEFINITION. The terms the statements use: the classes of commands, what a byte moved for a channel leaves, the values
after a reset, and what counts as a safe state of the part: the ranges and laws the spec states of what each block owns,
each a decidable proposition. -/

namespace Sys2Proof

/-! ### Classes of commands -/

/-- A write of the command location (R156). -/
def Instr.isCommandCode : Instr → Bool
  | .cmdStart | .cmdStop | .cmdFinish | .cmdGive | .cmdAdvance | .cmdSwitch | .cmdRealign | .cmdClearCounters
  | .cmdRemove | .cmdFlush | .cmdEngineReset | .badCommand _ => true
  | .powerOn | .powerOnClearingEnd | .pinReset | .pinResetRelease | .transmitFrameStart | .slotDemand
  | .entryToStopped | .searchByteExamination | .confirmMarkerCheck | .alignedMarkerCheck | .slotArrival | .frameEnd
  | .silenceDeclaration | .silenceClearing | .silenceWindowFailure | .holdWindowEnd | .transmitEnableWrite _
  | .receiveEnableWrite _ | .frameLengthWrite _ | .localLoopWrite _ | .pageRegisterWrite _ | .suspendFlagWrite _
  | .kindEnableWrite _ _ | .slotMapEntryWrite _ _ | .modeByteWrite _ | .tagWrite _ | .tagTableEntryWrite _
  | .wideLowByteWrite _ _ | .wideHighByteCommit _ _ | .bufferDataRead | .bufferDataWrite _ | .wideLowByteRead _
  | .wideHighByteRead _ | .portStatusRead | .missedSetThirdByteRead | .registerWrite _ _
  | .receivedBitPosition _ => false

/-- A write of a location other than the page register and the command location: held back at the INIT gate (R159). -/
def Instr.isItemWrite : Instr → Bool
  | .transmitEnableWrite _ | .receiveEnableWrite _ | .frameLengthWrite _ | .localLoopWrite _ | .suspendFlagWrite _
  | .kindEnableWrite _ _ | .slotMapEntryWrite _ _ | .modeByteWrite _ | .tagWrite _ | .tagTableEntryWrite _
  | .wideLowByteWrite _ _ | .wideHighByteCommit _ _ | .bufferDataWrite _ | .registerWrite _ _ => true
  | .powerOn | .powerOnClearingEnd | .pinReset | .pinResetRelease | .transmitFrameStart | .slotDemand
  | .entryToStopped | .searchByteExamination | .confirmMarkerCheck | .alignedMarkerCheck | .slotArrival | .frameEnd
  | .silenceDeclaration | .silenceClearing | .silenceWindowFailure | .holdWindowEnd | .pageRegisterWrite _
  | .bufferDataRead | .wideLowByteRead _ | .wideHighByteRead _ | .portStatusRead | .missedSetThirdByteRead
  | .cmdStart | .cmdStop | .cmdFinish | .cmdGive | .cmdAdvance | .cmdSwitch | .cmdRealign | .cmdClearCounters
  | .cmdRemove | .cmdFlush | .cmdEngineReset | .badCommand _ | .receivedBitPosition _ => false

/-- A read with a side effect of a location other than the port status: held back at the INIT gate (R149, R159). -/
def Instr.isItemRead : Instr → Bool
  | .bufferDataRead | .wideLowByteRead _ | .wideHighByteRead _ | .missedSetThirdByteRead => true
  | .powerOn | .powerOnClearingEnd | .pinReset | .pinResetRelease | .transmitFrameStart | .slotDemand
  | .entryToStopped | .searchByteExamination | .confirmMarkerCheck | .alignedMarkerCheck | .slotArrival | .frameEnd
  | .silenceDeclaration | .silenceClearing | .silenceWindowFailure | .holdWindowEnd | .transmitEnableWrite _
  | .receiveEnableWrite _ | .frameLengthWrite _ | .localLoopWrite _ | .pageRegisterWrite _ | .suspendFlagWrite _
  | .kindEnableWrite _ _ | .slotMapEntryWrite _ _ | .modeByteWrite _ | .tagWrite _ | .tagTableEntryWrite _
  | .wideLowByteWrite _ _ | .wideHighByteCommit _ _ | .bufferDataWrite _ | .portStatusRead | .registerWrite _ _
  | .cmdStart | .cmdStop | .cmdFinish | .cmdGive | .cmdAdvance | .cmdSwitch | .cmdRealign | .cmdClearCounters
  | .cmdRemove | .cmdFlush | .cmdEngineReset | .badCommand _ | .receivedBitPosition _ => false

/-- Power-on or pin reset: the two resets that set the whole part (section 4 of the scope file). -/
def Instr.isWholeReset (i : Instr) : Bool := i = .powerOn || i = .pinReset

end Sys2Proof

namespace Sys2Proof.Machine

/-! ### What a byte moved for a channel leaves (chapter 6) -/

/-- The fill after a byte moved in RING mode (R99, R101). -/
def ChannelContext.fillAfterByte (x : ChannelContext) : Nat :=
  match x.direction with
  | .receive => x.fill + 1
  | .transmit => x.fill - 1

/-- The byte moved now completes the segment it is moved in (R96 to R98, R105). -/
def ChannelContext.completesSegment (x : ChannelContext) : Bool := x.position + 1 = x.length x.segmentInUse

/-- The byte moved now empties a RING transmit channel in ENDING (R101). -/
def ChannelContext.emptiesEnding (x : ChannelContext) : Bool :=
  x.direction = .transmit && x.state = .ending && x.fillAfterByte = 0

/-- The context after a byte moved for the channel: R96 to R98 in SINGLE, R99 and R101 in RING, R105 and R106 in
ALTERNATING; the short-run flag clears (R116). -/
def ChannelContext.afterByte (x : ChannelContext) : ChannelContext :=
  match x.mode with
  | .single =>
    { x with shortRun := false, position := x.position + 1, state := if x.completesSegment then .done else x.state }
  | .ring =>
    { x with
      shortRun := false
      position := (x.position + 1) % x.lengthA
      fill := x.fillAfterByte
      state := if x.emptiesEnding then .done else x.state }
  | .alternating =>
    if x.completesSegment then
      if x.state = .ending then { x.setOwner x.active .host with shortRun := false, position := 0, state := .done }
      else
        { x.setOwner x.active .host with
          shortRun := false
          position := 0
          active := x.active.other
          stalled := x.owner x.active.other = .host }
    else { x with shortRun := false, position := x.position + 1 }

/-- The kinds and details a byte moved for the channel posts, in order (R98, R101, R104, R106, R117). -/
def ChannelContext.byteRecords (x : ChannelContext) : List (Kind × Detail) :=
  match x.mode with
  | .single => if x.completesSegment then [(.channelEnded, .completed)] else []
  | .ring =>
    (if x.watermark ≠ 0 ∧ x.fillAfterByte = x.watermark then [(.watermark, .none)] else []) ++
      (if x.emptiesEnding then [(.channelEnded, .finished)] else [])
  | .alternating =>
    if x.completesSegment then
      (.segmentDone, if x.active = .segA then .segmentA else .segmentB) ::
        (if x.state = .ending then [(.channelEnded, .finished)] else [])
    else []

/-- The posts a byte moved for channel `c` hands over, in order. -/
def State.bytePosts (s : State) (c : Channel) : List Post :=
  (s.channel c).byteRecords.map fun r => s.channelPost c r.1 r.2

/-- The context after a shortfall (R115). -/
def ChannelContext.afterShortfall (x : ChannelContext) : ChannelContext :=
  { x with shortfalls := saturatingInc x.shortfalls, shortRun := true }

/-- The posts of a shortfall: SHORTFALL at the first of a run (R115). -/
def State.shortfallPosts (s : State) (c : Channel) : List Post :=
  if (s.channel c).shortRun then [] else [s.channelPost c .shortfall .none]

/-- The rotation list once a channel that is in DONE has left it (R89). -/
def leftIfDone (l : List Channel) (c : Channel) (x : ChannelContext) : List Channel :=
  if x.state = .done then l.filter (· ≠ c) else l

/-- The host position of a RING channel (R118). -/
def ChannelContext.hostPosition (x : ChannelContext) : Int :=
  match x.direction with
  | .receive => ((x.position : Int) - x.fill) % x.lengthA
  | .transmit => ((x.position : Int) + x.fill) % x.lengthA

/-! ### Wide values (sections 9.3 and 10.1) -/

/-- Each wide item with its page, the location of its low byte and its live value (table of section 9.3; sections 10.3, 10.4,
10.6 and 10.7). The items of page 2 are those of the channel that the channel select names (R150). -/
def State.wideTable (s : State) : List (WideItem × Fin 6 × BitVec 6 × Half) :=
  let x := s.channel s.port.channelSelect
  [(.rxCycleCount, 1, 0x04, s.aligner.cycleCount),
   (.txCycleCount, 1, 0x06, s.transmitter.cycleCount),
   (.cycleOffset, 1, 0x08, s.aligner.cycleOffset),
   (.markerErrors, 1, 0x0A, s.monitor.markerErrors),
   (.markerThreshold, 1, 0x10, s.monitor.threshold),
   (.segABase, 2, 0x04, BitVec.ofNat 16 x.baseA),
   (.segALength, 2, 0x06, BitVec.ofNat 16 x.lengthA),
   (.segBBase, 2, 0x08, BitVec.ofNat 16 x.baseB),
   (.segBLength, 2, 0x0A, BitVec.ofNat 16 x.lengthB),
   (.watermark, 2, 0x0C, BitVec.ofNat 16 x.watermark),
   (.position, 2, 0x12, BitVec.ofNat 16 x.position),
   (.fill, 2, 0x14, BitVec.ofNat 16 x.fill),
   (.bufferAddress, 4, 0x00, s.port.bufferAddress.setWidth 16),
   (.headStamp, 5, 0x05, (s.notifications.queue.head?.map fun r => r.post.stamp).getD 0)]

/-! ### The grant (R119 to R122) -/

/-- The grant of a frame with `k` pool slots over a rotation list leaves a list and a burst record: with 3 or more pool slots
the first member with a byte available is granted the smaller of P and its bytes, with its tag, and goes to the tail; else
the record is that of an empty burst and the list stays (R119, R121, R122). -/
structure State.GrantLeaves (s : State) (k : Nat) (list after : List Channel) (b : TxBurst) : Prop where
  empty : (k < 3 ∨ ∀ c ∈ list, (s.channel c).available = 0) →
    after = list ∧ b = { poolSlots := k, granted := none, tag := 0, length := 0, answered := 0 }
  granted : ∀ (front back : List Channel) (c : Channel), 3 ≤ k → list = front ++ c :: back →
    (∀ d ∈ front, (s.channel d).available = 0) → 0 < (s.channel c).available →
    after = front ++ back ++ [c] ∧
    b =
      { poolSlots := k, granted := some c, tag := (s.channel c).tag
        length := min (k - 2) (s.channel c).available, answered := 0 }

/-! ### What a leaving of alignment posts (R30) -/

/-- The posts that the reports of a leaving make: the completion of a pending receive switch (R61) and the end of each RING
receive channel in ENDING (R86). No rule orders them among themselves (assumption 7). -/
def State.leavingPosts (s : State) : List Post :=
  (if s.maps.rxPending then [s.rxSwitchedPost] else []) ++ s.endingPosts

/-- The slot maps after a leaving of alignment (R61). -/
def SlotMaps.afterLeaving (m : SlotMaps) : SlotMaps :=
  if m.rxPending then { m with rxActive := m.rxActive.other, rxPending := false } else m

/-- A channel context when every RING receive channel in ENDING ends (R86). -/
def ChannelContext.afterFrameEnd (x : ChannelContext) : ChannelContext :=
  if x.direction = .receive ∧ x.mode = .ring ∧ x.state = .ending then { x with state := .done } else x

/-! ### Values after a reset -/

/-- What power-on and pin reset both leave, but for the link counters, INIT, buffer memory and the level of RSTN (R4, R19,
R44, R57, R91, R126, R131, R132, R147, R158, R160). -/
structure State.ResetValues (s : State) : Prop where
  page : s.port.page = 0
  channelSelect : s.port.channelSelect = 0
  tagSelect : s.port.tagSelect = 0
  bankSelect : s.port.bankSelect = .bankA
  entryIndex : s.port.entryIndex = 0
  bufferAddress : s.port.bufferAddress = 0
  operands : s.port.operand0 = 0 ∧ s.port.amountLow = 0 ∧ s.port.amountHigh = 0
  holders : s.port.readHolder = none ∧ s.port.writeHolder = none
  result : s.port.result = .none
  accessError : s.port.accessError = false
  transmitter : s.transmitter.state = .stopped ∧ s.transmitter.enable = false ∧ s.transmitter.frameIndex = 0 ∧
    s.transmitter.slotIndex = 0 ∧ s.transmitter.bitIndex = 0 ∧ s.transmitter.cycleCount = 0 ∧
    s.transmitter.begun = false ∧ s.transmitter.nextByte = none
  line : s.transmitter.line = true
  linkControls : s.transmitter.frameLength = 40 ∧ s.transmitter.idleByte = 0xFF ∧
    s.transmitter.forceRemoteFault = false ∧ s.aligner.enable = false ∧ s.aligner.localLoop = false
  aligner : s.aligner.state = .off ∧ s.aligner.bits = [] ∧ s.aligner.lateBit = false ∧
    s.aligner.frameEndDue = false ∧ s.aligner.candidate = none ∧ s.aligner.expectedPlace = 0 ∧
    s.aligner.expectedPosition = 0 ∧ s.aligner.confirmations = 0 ∧ s.aligner.badMarkers = 0 ∧
    s.aligner.remoteFault = false ∧ s.aligner.faultRun = 0 ∧ s.aligner.cycleCount = 0 ∧ s.aligner.cycleOffset = 0xFFFF
  monitor : s.monitor.silence = false ∧ s.monitor.zeroRun = 0 ∧ s.monitor.silenceWindow = none ∧ s.monitor.hold = false ∧
    s.monitor.holdPosition = 0 ∧ s.monitor.holdZeros = 0 ∧ s.monitor.lowWindows = 0 ∧
    s.monitor.holdWindowDone = false ∧ s.monitor.holdRestart = false ∧ s.monitor.threshold = 0xFFFF
  banks : s.maps.rxActive = .bankA ∧ s.maps.txActive = .bankA ∧ s.maps.rxPending = false ∧ s.maps.txPending = false
  entries : ∀ b : Bank, (s.maps.bank b).rx = Vector.replicate 63 ⟨.discard, 0⟩ ∧
    (s.maps.bank b).tx = Vector.replicate 63 ⟨.idle, 0, 0⟩
  channels : ∀ c : Channel, s.channel c =
    { direction := .receive, mode := .single, poolMode := false, tag := 1, baseA := 0, lengthA := 1, baseB := 0,
      lengthB := 1, watermark := 0, state := .idle, active := .segA, position := 0, fill := 0, ownerA := .device,
      ownerB := .device, stalled := false, shortRun := false, shortfalls := 0 }
  pool : s.pool.rotation = [] ∧ s.pool.tagTable = Vector.replicate 31 none
  txBurst : s.pool.txBurst = { poolSlots := 0, granted := none, tag := 0, length := 0, answered := 0 }
  rxBurst : s.pool.rxBurst = { poolSlots := 0, phase := .noBurst, target := none, length := 0, received := 0 }
  queue : s.notifications.queue = [] ∧ s.notifications.missed = 0 ∧ s.notifications.enabled = 0 ∧
    s.notifications.suspend = true
  interrupt : s.intnActive = false

/-- The link counters are 0 (R52). -/
abbrev LineMonitor.CountersClear (m : LineMonitor) : Prop :=
  m.markerErrors = 0 ∧ m.alignmentLosses = 0 ∧ m.formatErrors = 0 ∧ m.poolDiscards = 0

/-! ### Laws -/

/-- The host's accesses reach the part: RSTN is high (R161) and power-on initialisation is complete (R159). -/
abbrev State.hostReady (s : State) : Prop := s.port.rstnLow = false ∧ s.port.init = false

/-- A command code written now is decided by its block: the host's accesses reach the part and page 0, which holds the
command location, is selected (R156, R148). -/
abbrev State.commandReady (s : State) : Prop := s.hostReady ∧ s.port.page = 0

/-- The programmed fields are in their ranges (table of section 5.2). -/
abbrev ChannelContext.Programmed (x : ChannelContext) : Prop :=
  (1 ≤ x.tag.toNat ∧ x.tag.toNat ≤ 31) ∧ x.baseA < 8192 ∧ x.baseB < 8192 ∧
  (1 ≤ x.lengthA ∧ x.lengthA ≤ 4096) ∧ (1 ≤ x.lengthB ∧ x.lengthB ≤ 4096) ∧ x.watermark ≤ 4096

/-- The law of the position (R98): never above the length of the active segment, and equal to it only in DONE after a
SINGLE completion. The active segment is A in SINGLE and RING (R76). -/
abbrev ChannelContext.PositionLaw (x : ChannelContext) : Prop :=
  x.position ≤ x.length x.active ∧
  (x.position = x.length x.active → x.state = .done ∧ x.mode = .single) ∧
  (x.mode ≠ .alternating → x.active = .segA)

/-- The law of the fill (R103): at most the length in RING, 0 in the other modes, above 0 in a RING transmit channel in
ENDING (R102), and 0 in a RING receive channel in ARMED (R78). -/
abbrev ChannelContext.FillLaw (x : ChannelContext) : Prop :=
  (x.mode = .ring → x.fill ≤ x.lengthA) ∧ (x.mode ≠ .ring → x.fill = 0) ∧
  (x.mode = .ring → x.direction = .transmit → x.state = .ending → 0 < x.fill) ∧
  (x.mode = .ring → x.direction = .receive → x.state = .armed → x.fill = 0)

/-- The law of the owners of a channel that is not at rest: in ALTERNATING it is stalled exactly when its active segment is
the host's, with the position at 0, and never in ENDING (R107, R88); in the other modes both segments are the device's
(R76); in ARMED too (R78). A SINGLE channel does not enter ENDING (R96). -/
abbrev ChannelContext.OwnerLaw (x : ChannelContext) : Prop :=
  x.atRest = false →
    (x.mode = .alternating → (x.stalled = true ↔ x.owner x.active = .host)) ∧
    (x.stalled = true → x.position = 0 ∧ x.state ≠ .ending) ∧
    (x.mode ≠ .alternating → x.ownerA = .device ∧ x.ownerB = .device ∧ x.stalled = false) ∧
    (x.state = .armed → x.ownerA = .device ∧ x.ownerB = .device ∧ x.stalled = false ∧ x.position = 0) ∧
    (x.mode = .single → x.state ≠ .ending)

/-- Every segment that a channel not at rest may move bytes in lies within buffer memory (R95, R108). -/
abbrev ChannelContext.SegmentLaw (x : ChannelContext) : Prop :=
  x.atRest = false →
    (x.mode ≠ .alternating → x.fits .segA = true) ∧
    (x.mode = .alternating → ∀ g ∈ [Segment.segA, Segment.segB], x.owner g = .device → x.fits g = true)

/-- A channel context that the rules can produce. -/
abbrev ChannelContext.Ok (x : ChannelContext) : Prop :=
  x.Programmed ∧ x.PositionLaw ∧ x.FillLaw ∧ x.OwnerLaw ∧ x.SegmentLaw

/-- The transmitter's ranges (R4, R5, R6, R14). -/
abbrev Transmitter.Ok (t : Transmitter) : Prop :=
  (16 ≤ t.frameLength ∧ t.frameLength ≤ 64) ∧ t.frameIndex ≤ 11 ∧ t.slotIndex < t.frameLength ∧ t.bitIndex ≤ 7 ∧
  (t.nextByte ≠ none → t.slotIndex + 1 < t.frameLength) ∧
  (t.begun = false → t.frameIndex = 0 ∧ t.slotIndex = 0 ∧ t.bitIndex = 0 ∧ t.nextByte = none) ∧
  (t.state = .stopped → t.begun = false) ∧ (t.state = .running ↔ t.enable = true)

/-- The aligner's ranges for a frame of `f` slots (sections 2.1 to 2.7): in the search it holds at most the 16 F + 8 bits of
the stored history, and in ALIGNED at most the byte it is taking (R23). -/
abbrev Aligner.Ok (a : Aligner) (f : Nat) : Prop :=
  (a.state = .off ↔ a.enable = false) ∧ (a.state = .off → a.bits = []) ∧ a.expectedPosition < 12 ∧
  (a.state = .hunt ∨ a.state = .confirm → a.bits.length ≤ 16 * f + 8) ∧ (a.state = .aligned → a.bits.length ≤ 8) ∧
  (a.state = .confirm → a.confirmations ≤ 1 ∧ a.expectedPlace = (a.confirmations + 1) * (f * 8)) ∧
  (a.state = .aligned → a.expectedPlace ≤ (f - 1) * 8 ∧ a.expectedPlace % 8 = 0) ∧
  (a.frameEndDue = true → a.state = .aligned ∧ a.expectedPlace = 0 ∧ a.bits = []) ∧
  a.badMarkers ≤ 3 ∧ a.faultRun ≤ 2 ∧
  (a.state ≠ .aligned → a.badMarkers = 0 ∧ a.remoteFault = false ∧ a.faultRun = 0)

/-- The monitor's ranges (table of section 3.1), and its starting values while receive is disabled (R38). -/
abbrev LineMonitor.Ok (m : LineMonitor) (receiving : Bool) : Prop :=
  m.zeroRun ≤ 160 ∧ m.holdPosition ≤ 1023 ∧ m.holdZeros ≤ 3 ∧ m.lowWindows ≤ 2 ∧
  (m.holdWindowDone = true → m.holdPosition = 1023) ∧
  (∀ w ∈ m.silenceWindow, m.silence = true ∧ 1 ≤ w.ones ∧ w.ones ≤ 16 ∧ w.ones ≤ w.position ∧ w.position ≤ 128) ∧
  (receiving = false → m = m.idle)

/-- A switch is pending only while its direction is in traffic (R57). -/
abbrev State.PendingLaw (s : State) : Prop :=
  (s.maps.rxPending = true → s.aligner.state = .aligned) ∧
  (s.maps.txPending = true → s.transmitter.state ≠ .stopped)

/-- The law of the queue (R137): at most 32 records, no two with the same kind and channel, every repeat count 1 to 15. -/
abbrev Notifications.Ok (n : Notifications) : Prop :=
  n.queue.length ≤ 32 ∧
  n.queue.Pairwise (fun r q => ¬(r.post.kind = q.post.kind ∧ r.post.channel = q.post.channel)) ∧
  ∀ r ∈ n.queue, 1 ≤ r.count ∧ r.count ≤ 15

/-- A transmit channel in pool mode. -/
abbrev ChannelContext.poolSender (x : ChannelContext) : Prop := x.direction = .transmit ∧ x.poolMode = true

/-- The channel is on the rotation list, or is a pool-mode transmit channel in ARMED: it holds its tag (R77, R120). -/
abbrev State.holdsTag (s : State) (c : Channel) : Prop :=
  c ∈ s.pool.rotation ∨ ((s.channel c).poolSender ∧ (s.channel c).state = .armed)

/-- The law of the rotation list (R120): each channel at most once, only pool-mode transmit channels in ACTIVE or ENDING,
and no two holders of one tag. -/
abbrev State.RotationLaw (s : State) : Prop :=
  s.pool.rotation.Nodup ∧
  (∀ c ∈ s.pool.rotation, (s.channel c).poolSender ∧ (s.channel c).running = true) ∧
  ∀ c d : Channel, s.holdsTag c → s.holdsTag d → (s.channel c).tag = (s.channel d).tag → c = d

/-- The law of the granted burst (R122): its length is at most P, and while its channel runs, the channel has a byte for
every data slot still to be answered. -/
abbrev State.BurstLaw (s : State) : Prop :=
  s.pool.txBurst.length ≤ poolCapacity s.pool.txBurst.poolSlots ∧
  s.pool.txBurst.answered ≤ s.pool.txBurst.length ∧
  ∀ c ∈ s.pool.txBurst.granted, (s.channel c).answersDemands = true →
    (s.channel c).poolMode = true ∧
    s.pool.txBurst.length - s.pool.txBurst.answered ≤ (s.channel c).available

/-- The law of the parser: in DATA there is a target and a byte to come (R129, R130), none has come before (R127), and no
burst is being parsed while the aligner is not ALIGNED (R131). -/
abbrev State.ParserLaw (s : State) : Prop :=
  (s.pool.rxBurst.phase = .data →
    s.pool.rxBurst.target ≠ none ∧ s.pool.rxBurst.received < s.pool.rxBurst.length) ∧
  (s.pool.rxBurst.phase = .awaitTag ∨ s.pool.rxBurst.phase = .awaitLength → s.pool.rxBurst.received = 0) ∧
  (s.aligner.state ≠ .aligned → s.pool.rxBurst.phase = .noBurst)

/-- While INIT is set (R159) or RSTN is low (R161), the trunk side and the channels are as a reset left them. -/
abbrev State.QuietLaw (s : State) : Prop :=
  (s.port.init = true ∨ s.port.rstnLow = true) →
    s.transmitter = .reset ∧ s.aligner = .reset ∧ s.notifications = .reset ∧ s.maps = .reset ∧ s.pool = .reset ∧
    ∀ c : Channel, s.channel c = .reset

/-- What every step keeps. -/
structure State.Good (s : State) : Prop where
  memory : s.memory.wf
  transmitter : s.transmitter.Ok
  aligner : s.aligner.Ok s.transmitter.frameLength
  monitor : s.monitor.Ok s.aligner.receiving
  pending : s.PendingLaw
  queue : s.notifications.Ok
  channels : ∀ c : Channel, (s.channel c).Ok
  rotation : s.RotationLaw
  burst : s.BurstLaw
  parser : s.ParserLaw
  quiet : s.QuietLaw

end Sys2Proof.Machine
end

