-- ==== Sys2Proof/Certificates/Slice0/Obligations.lean ====
section
/-! DEFINITION. The statements for the provers. Each docstring names the rules or sections of spec/ it formalises; where a
statement rests on a choice of the model, the docstring names the assumption log's entry. That an event of the trunk side is
`due` is the model's word for the place where its rule puts it (assumptions 2 and 4). -/

open Sys2Proof Sys2Proof.Machine

/-! ### The queue of commands and the resets -/

/-- A step takes the command at the front of the queue whole, with the rest of the queue left waiting (section 4 of the scope
file, "Events at one owner"). -/
def Obligations.StepRunsFrontCommand : Prop :=
  ∀ (c : Instr) (rest : List Instr) (s : State),
    step { s with pending := c :: rest } = exec c { s with pending := rest }

/-- POWER_ON, and the state the machine starts in: every block takes its power-on values, the link counters are 0 and INIT is
set (section 9.7); RSTN keeps its level, which is outside the part (assumption 9), and so are the commands that still wait,
which are kept; the machine starts with none (assumption 11). POWER_ON_CLEARING_END: every byte from 0000H to 1FFFH is 00H and
INIT clears; INTN does not change and nothing else does; once INIT has cleared there is no clearing to end (sections 6.1 and
9.7). -/
def Obligations.PowerOnSetsValuesAndItsClearingEnds : Prop :=
  ((State.reset.ResetValues ∧ State.reset.monitor.CountersClear ∧ State.reset.port.init = true ∧
      State.reset.pending = []) ∧
   ∀ s : State, ∃ t, exec .powerOn s = .next t ∧ t.ResetValues ∧ t.monitor.CountersClear ∧ t.port.init = true ∧
     t.port.rstnLow = s.port.rstnLow ∧ t.pending = s.pending) ∧
  (∀ s : State,
     (s.port.init = true →
       ∃ t, exec .powerOnClearingEnd s = .next t ∧
         t = { s with memory := t.memory, port := { s.port with init := false } } ∧
         (∀ a, t.byteAt a = 0) ∧ t.intnActive = s.intnActive) ∧
     (s.port.init = false → exec .powerOnClearingEnd s = .next s))

/-- PIN_RESET: every block takes its pin reset values; every byte of buffer memory, the four link counters and INIT are kept
(sections 3.10, 6.13 and 9.8), and RSTN is low from then on; the commands that still wait outside the part are kept
(assumption 11). PIN_RESET_RELEASE: RSTN goes high and the part runs from the values it has (section 9.8). -/
def Obligations.PinResetKeepsMemoryCountersAndInit : Prop :=
  (∀ s : State, ∃ t, exec .pinReset s = .next t ∧ t.ResetValues ∧ t.port.rstnLow = true ∧ t.port.init = s.port.init ∧
     t.pending = s.pending ∧
     (∀ a, t.byteAt a = s.byteAt a) ∧
     t.monitor.markerErrors = s.monitor.markerErrors ∧ t.monitor.alignmentLosses = s.monitor.alignmentLosses ∧
     t.monitor.formatErrors = s.monitor.formatErrors ∧ t.monitor.poolDiscards = s.monitor.poolDiscards) ∧
  (∀ s : State, exec .pinResetRelease s = .next { s with port := { s.port with rstnLow := false } })

/-- ENGINE_RESET acts on the channel side of each block and on nothing of the link side; INTN is inactive from it and stays so
whatever is posted, since suspend is set; under INIT it is answered NOT_READY and nothing changes (R162; R65, R92, R126,
R147). -/
def Obligations.EngineResetActsOnChannelSide : Prop :=
  (∀ s : State, s.commandReady →
    ∃ t, exec .cmdEngineReset s = .next t ∧
      t = { s with
        port := { s.port with result := .ok, readHolder := none, writeHolder := none }
        maps := { s.maps with rxPending := false, txPending := false }
        pool := { s.pool with rotation := [] }
        notifications := { s.notifications with queue := [], missed := 0, suspend := true }
        channels := t.channels } ∧
      (∀ c : Channel, t.channel c =
        { s.channel c with
          state := .idle, active := .segA, position := 0, fill := 0, ownerA := .device, ownerB := .device,
          stalled := false, shortRun := false }) ∧
      (∀ a, t.byteAt a = s.byteAt a) ∧
      ∀ posts : List Post, (posts.foldl State.post t).intnActive = false) ∧
  ∀ s : State, s.port.rstnLow = false → s.port.page = 0 → s.port.init = true →
    exec .cmdEngineReset s = .next (s.setResult .notReady)

/-! ### The gates of the host port -/

/-- While RSTN is low, host reads return 00H and host writes are ignored, those of the page register and of the command
location too (section 9.8). The INIT gate (section 9.7): while INIT is set, a read other than that of the port status returns
00H with no side effect, a write other than those of the page register and the command location is ignored, and any command
code on page 0 is answered NOT_READY with nothing else changed. Outside the gates, a row whose item stands on another page
than the one selected changes nothing (the model's choice, assumption 3). -/
def Obligations.GatesHoldHostAccessesBack : Prop :=
  (∀ (c : Instr) (s : State), s.port.rstnLow = true →
     ((c.isItemWrite = true ∨ c.isCommandCode = true ∨ ∃ v, c = .pageRegisterWrite v) → exec c s = .next s) ∧
     ((c.isItemRead = true ∨ c = .portStatusRead) → exec c s = .next (s.returnByte 0)) ∧
     ∀ location : BitVec 6, s.busRead location = 0) ∧
  (∀ (c : Instr) (s : State), s.port.rstnLow = false → s.port.init = true →
     (c.isItemWrite = true → exec c s = .next s) ∧
     (c.isItemRead = true → exec c s = .next (s.returnByte 0)) ∧
     (c.isCommandCode = true → c.wellFormed = true → s.port.page = 0 → exec c s = .next (s.setResult .notReady)) ∧
     ∀ location : BitVec 6, ¬(s.port.page = 0 ∧ location = 0x0D) → s.busRead location = 0) ∧
  (∀ (s : State) (b : Byte), s.returnByte b = { s with port := { s.port with dataOut := b } }) ∧
  ∀ s : State, s.hostReady →
    (s.port.page ≠ 0 → ∀ c : Instr, c.isCommandCode = true ∨ c = .portStatusRead → exec c s = .next s) ∧
    (∀ (v : Byte) (w : KindByte) (f : EntryField) (c : Instr) (p : Fin 6), (c, p) ∈
        [(Instr.transmitEnableWrite v, 0), (.receiveEnableWrite v, 0), (.frameLengthWrite v, 0), (.localLoopWrite v, 0),
         (.suspendFlagWrite v, 0), (.kindEnableWrite w v, 0), (.modeByteWrite v, 2), (.tagWrite v, 2),
         (.slotMapEntryWrite f v, 3), (.tagTableEntryWrite v, 4), (.bufferDataRead, 4), (.bufferDataWrite v, 4),
         (.missedSetThirdByteRead, 5)] →
      s.port.page ≠ p → exec c s = .next s) ∧
    ∀ (i : WideItem) (p : Fin 6) (l : BitVec 6) (x : Half) (v : Byte), (i, p, l, x) ∈ s.wideTable → s.port.page ≠ p →
      ∀ c ∈ [Instr.wideLowByteRead i, .wideHighByteRead i, .wideLowByteWrite i v, .wideHighByteCommit i v],
        exec c s = .next s

/-- ACCESS_ERROR is sticky: no command but a read of the port status, power-on or a pin reset clears it. A refused write sets
it and changes nothing else, in every statement. PORT_STATUS_READ: INIT in bit 0 and ACCESS_ERROR in bit 1 are returned as
they stood, and ACCESS_ERROR clears, under the INIT gate as at any other time (section 9.6). -/
def Obligations.AccessErrorIsSticky : Prop :=
  (∀ (c : Instr) (s t : State), c ≠ .portStatusRead → c.isWholeReset = false → exec c s = .next t →
    s.port.accessError = true → t.port.accessError = true) ∧
  (∀ s : State, s.refuseWrite = { s with port := { s.port with accessError := true } }) ∧
  ∀ s : State, s.port.rstnLow = false → s.port.page = 0 →
    ∃ b : Byte, exec .portStatusRead s = .next { s with port := { s.port with dataOut := b, accessError := false } } ∧
      b.toNat = s.port.init.toNat + 2 * s.port.accessError.toNat

/-- Commands at the host port (sections 9.2 and 9.5): a command leaves the operands, the selects, the buffer address and
ACCESS_ERROR as they were, and the holders too but for an engine reset; the result code is written by a write of the command
location and by the two whole resets alone; on page 0, outside the gates, a code that names no command, 00H or 0CH to FFH,
stores BAD_COMMAND and changes nothing else. Storing a result code changes, in every statement, that code alone. -/
def Obligations.CommandsWriteTheResultCodeAlone : Prop :=
  (∀ (c : Instr) (s t : State), c.isCommandCode = true → exec c s = .next t →
     t.port = { s.port with
       result := t.port.result, readHolder := t.port.readHolder, writeHolder := t.port.writeHolder } ∧
     (c ≠ .cmdEngineReset → t.port.readHolder = s.port.readHolder ∧ t.port.writeHolder = s.port.writeHolder)) ∧
  (∀ (c : Instr) (s t : State), c.isCommandCode = false → c.isWholeReset = false → exec c s = .next t →
     t.port.result = s.port.result) ∧
  (∀ (k : Byte) (s : State), s.commandReady → k = 0 ∨ 12 ≤ k.toNat →
     exec (.badCommand k) s = .next { s with port := { s.port with result := .badCommand } }) ∧
  ∀ (s : State) (r : ResultCode), s.setResult r = { s with port := { s.port with result := r } }

/-! ### The host port's own registers -/

/-- PAGE_REGISTER_WRITE (section 9.1): 0 to 5 is taken, a page change empties both holders, the page already held changes
nothing, a value above 5 is refused, the rule holds under the INIT gate too, and a read of 3FH shows the page; power-on and
pin reset set page 0 and engine reset keeps the page. -/
def Obligations.PageRegisterWriteTurnsThePage : Prop :=
  (∀ (v : Byte) (s : State), s.port.rstnLow = false →
    (∀ p : Fin 6, v.toNat = p.val → p ≠ s.port.page →
      exec (.pageRegisterWrite v) s =
        .next { s with port := { s.port with page := p, readHolder := none, writeHolder := none } }) ∧
    (v.toNat = s.port.page.val → exec (.pageRegisterWrite v) s = .next s) ∧
    (6 ≤ v.toNat →
      exec (.pageRegisterWrite v) s = .next { s with port := { s.port with accessError := true } })) ∧
  (∀ s : State, s.hostReady → s.busRead 0x3F = BitVec.ofNat 8 s.port.page.val) ∧
  (∀ s t : State, exec .powerOn s = .next t ∨ exec .pinReset s = .next t → t.port.page = 0) ∧
  ∀ s t : State, exec .cmdEngineReset s = .next t → t.port.page = s.port.page

/-- REGISTER_WRITE: each plain writable item takes the value its rule allows and changes nothing else (sections 1.3, 1.6, 4.1,
9.2 and 9.5): the idle byte, force remote fault and the operands on page 0, the channel select, the bank select and entry
index, and the tag select. A write of a read-only location or of a location with no item sets ACCESS_ERROR and changes
nothing else (section 9.1). -/
def Obligations.RegisterWriteReachesItsItemOrIsRefused : Prop :=
  (∀ (v : Byte) (s : State), s.hostReady →
     (s.port.page = 0 →
       exec (.registerWrite 0x04 v) s = .next { s with transmitter := { s.transmitter with idleByte := v } } ∧
       exec (.registerWrite 0x05 v) s =
         .next { s with transmitter := { s.transmitter with forceRemoteFault := v.getLsbD 0 } } ∧
       exec (.registerWrite 0x09 v) s = .next { s with port := { s.port with operand0 := v } } ∧
       exec (.registerWrite 0x0A v) s = .next { s with port := { s.port with amountLow := v } } ∧
       exec (.registerWrite 0x0B v) s = .next { s with port := { s.port with amountHigh := v } }) ∧
     (s.port.page = 2 →
       (∀ c : Channel, v.toNat = c.val →
         exec (.registerWrite 0x00 v) s = .next { s with port := { s.port with channelSelect := c } }) ∧
       (20 ≤ v.toNat → exec (.registerWrite 0x00 v) s = .next s.refuseWrite)) ∧
     (s.port.page = 3 →
       (v = 0 → exec (.registerWrite 0x00 v) s = .next { s with port := { s.port with bankSelect := .bankA } }) ∧
       (v = 1 → exec (.registerWrite 0x00 v) s = .next { s with port := { s.port with bankSelect := .bankB } }) ∧
       (2 ≤ v.toNat → exec (.registerWrite 0x00 v) s = .next s.refuseWrite) ∧
       exec (.registerWrite 0x01 v) s = .next { s with port := { s.port with entryIndex := v } }) ∧
     (s.port.page = 4 →
       (∀ t : Fin 32, t ≠ 0 → v.toNat = t.val →
         exec (.registerWrite 0x04 v) s = .next { s with port := { s.port with tagSelect := t } }) ∧
       (v = 0 ∨ 32 ≤ v.toNat → exec (.registerWrite 0x04 v) s = .next s.refuseWrite))) ∧
  (∀ (location : BitVec 6) (v : Byte) (s : State), s.hostReady →
     (s.port.page = 0 ∧ (location.toNat ∈ [0x00, 0x07, 0x0C, 0x0D, 0x0F] ∨ (0x12 ≤ location.toNat ∧ location.toNat ≤ 0x3E)) ∨
      s.port.page = 1 ∧ location.toNat ≠ 0x10 ∧ location.toNat ≠ 0x11 ∧ location.toNat ≤ 0x3E ∨
      s.port.page = 2 ∧ (location.toNat = 0x03 ∨ (0x0E ≤ location.toNat ∧ location.toNat ≤ 0x3E)) ∨
      s.port.page = 3 ∧ 0x05 ≤ location.toNat ∧ location.toNat ≤ 0x3E ∨
      s.port.page = 4 ∧ (location.toNat = 0x03 ∨ (0x06 ≤ location.toNat ∧ location.toNat ≤ 0x3E)) ∨
      s.port.page = 5 ∧ location.toNat ≤ 0x3E) →
     exec (.registerWrite location v) s = .next { s with port := { s.port with accessError := true } })

/-- What a read of the window returns outside the gates (sections 9.1, 9.2 and 10.2 to 10.7): on the page the page register
holds, each location returns the item that chapter 10 places there, its fields as they stand at that read; a wide value's
low byte is the live one and its high byte the held one when the read capture holder holds that item of that channel (page
2) and the live one otherwise; a slot-map entry reads 00H while the index is 0 or above 63; the head fields and the record
count are those of the queue, 00H when it is empty; a location with no item reads 00H; and 3FH shows the page on every
page. The tag table entry of page 4 has its own statement. -/
def Obligations.WindowShowsThePagesItems : Prop :=
  ∀ s : State, s.hostReady →
    let r := s.busRead
    let x := s.channel s.port.channelSelect
    let bits := fun (location : BitVec 6) (fields : List Bool) => ∀ i, (r location).getLsbD i = fields.getD i false
    let bank := if s.port.bankSelect = .bankA then s.maps.bankA else s.maps.bankB
    let n := s.notifications
    (r 0x3F).toNat = s.port.page.val ∧
    (∀ (i : WideItem) (p : Fin 6) (l : BitVec 6) (v : Half), (i, p, l, v) ∈ s.wideTable → s.port.page = p →
      r l = v.extractLsb' 0 8 ∧
      (∀ b : Byte, s.port.readHolder = some ⟨⟨i, if p = 2 then some s.port.channelSelect else none⟩, b⟩ →
        r (l + 1) = b) ∧
      ((∀ b : Byte, s.port.readHolder ≠ some ⟨⟨i, if p = 2 then some s.port.channelSelect else none⟩, b⟩) →
        r (l + 1) = v.extractLsb' 8 8)) ∧
    (s.port.page = 0 →
      r 0x00 = 0x44 ∧ bits 0x01 [s.transmitter.enable] ∧ bits 0x02 [s.aligner.enable] ∧
      r 0x03 = BitVec.ofNat 8 s.transmitter.frameLength ∧ r 0x04 = s.transmitter.idleByte ∧
      bits 0x05 [s.transmitter.forceRemoteFault] ∧ bits 0x06 [s.aligner.localLoop] ∧
      r 0x09 = s.port.operand0 ∧ r 0x0A = s.port.amountLow ∧ r 0x0B = s.port.amountHigh ∧
      (∀ k, (k, (r 0x0C).toNat) ∈ [(ResultCode.none, 0), (.ok, 1), (.busy, 2), (.badChannel, 3), (.badState, 4),
          (.badSegment, 5), (.badAmount, 6), (.badTag, 7), (.badCommand, 8), (.notReady, 9)] ↔ k = s.port.result) ∧
      bits 0x0D [s.port.init, s.port.accessError] ∧ bits 0x0E [n.suspend] ∧
      (∀ i, i < 8 → (r 0x10).getLsbD i = n.enabled.getLsbD i) ∧
      (∀ i, i < 8 → (r 0x11).getLsbD i = n.enabled.getLsbD (8 + i)) ∧
      ∀ l : BitVec 6, (l.toNat ∈ [0x07, 0x08, 0x0F] ∨ 0x12 ≤ l.toNat ∧ l.toNat ≤ 0x3E) → r l = 0) ∧
    (s.port.page = 1 →
      (∀ k, (k, (r 0x00).toNat) ∈ [(TxState.stopped, 0), (.running, 1), (.stopping, 2)] ↔ k = s.transmitter.state) ∧
      (∀ k, (k, (r 0x01).toNat) ∈ [(AlignerState.off, 0), (.hunt, 1), (.confirm, 2), (.aligned, 3)] ↔
        k = s.aligner.state) ∧
      bits 0x02 [s.monitor.silence, s.monitor.hold, s.aligner.remoteFault] ∧
      bits 0x03 [s.maps.rxActive = .bankB, s.maps.txActive = .bankB, s.maps.rxPending, s.maps.txPending] ∧
      r 0x0C = s.monitor.alignmentLosses ∧ r 0x0D = s.monitor.formatErrors ∧ r 0x0E = s.monitor.poolDiscards ∧
      ∀ l : BitVec 6, (l.toNat = 0x0F ∨ 0x12 ≤ l.toNat ∧ l.toNat ≤ 0x3E) → r l = 0) ∧
    (s.port.page = 2 →
      (r 0x00).toNat = s.port.channelSelect.val ∧
      bits 0x01 [x.direction = .transmit, x.mode = .ring, x.mode = .alternating, x.poolMode] ∧ r 0x02 = x.tag ∧
      (∀ k, (k, (r 0x10).toNat) ∈ [(ChannelState.idle, 0), (.armed, 1), (.active, 2), (.ending, 3), (.done, 4)] ↔
        k = x.state) ∧
      bits 0x11 [x.active = .segB, x.ownerA = .host, x.ownerB = .host, x.stalled, x.shortRun] ∧
      r 0x16 = x.shortfalls ∧
      ∀ l : BitVec 6, (l.toNat ∈ [0x03, 0x0E, 0x0F] ∨ 0x17 ≤ l.toNat ∧ l.toNat ≤ 0x3E) → r l = 0) ∧
    (s.port.page = 3 →
      bits 0x00 [s.port.bankSelect = .bankB] ∧ r 0x01 = s.port.entryIndex ∧
      (s.port.entryIndex = 0 ∨ 64 ≤ s.port.entryIndex.toNat → r 0x02 = 0 ∧ r 0x03 = 0 ∧ r 0x04 = 0) ∧
      (∀ e : Fin 63, s.port.entryIndex.toNat = e.val + 1 →
        (∃ k, (bank.rx[e].kind, k) ∈ [(RxKind.discard, 0), (.channel, 1), (.pool, 2)] ∧
          (r 0x02).toNat = 32 * k + bank.rx[e].channel.val) ∧
        (∃ k, (bank.tx[e].kind, k) ∈ [(TxKind.idle, 0), (.constant, 1), (.channel, 2), (.pool, 3)] ∧
          (r 0x03).toNat = 32 * k + bank.tx[e].channel.val) ∧
        r 0x04 = bank.tx[e].constant) ∧
      ∀ l : BitVec 6, 0x05 ≤ l.toNat → l.toNat ≤ 0x3E → r l = 0) ∧
    (s.port.page = 4 →
      r 0x02 = s.byteAt s.port.bufferAddress.toNat ∧ (r 0x04).toNat = s.port.tagSelect.val ∧
      ∀ l : BitVec 6, (l.toNat = 0x03 ∨ 0x06 ≤ l.toNat ∧ l.toNat ≤ 0x3E) → r l = 0) ∧
    (s.port.page = 5 →
      r 0x00 = BitVec.ofNat 8 n.queue.length ∧
      (n.queue = [] → r 0x01 = 0 ∧ r 0x02 = 0 ∧ r 0x03 = 0 ∧ r 0x04 = 0) ∧
      (∀ (q : QueueRecord) (rest : List QueueRecord), n.queue = q :: rest →
        (q.post.kind, (r 0x01).toNat) ∈ [(Kind.segmentDone, 1), (.channelEnded, 2), (.shortfall, 3), (.watermark, 4),
          (.alignGained, 5), (.alignLost, 6), (.remoteFaultOn, 7), (.remoteFaultOff, 8), (.silenceOn, 9),
          (.silenceOff, 10), (.holdOn, 11), (.holdOff, 12), (.rxMapSwitched, 13), (.txMapSwitched, 14),
          (.markerThreshold, 15)] ∧
        (∀ c, q.post.channel = .channel c → (r 0x02).toNat = c.val) ∧ (q.post.channel = .link → r 0x02 = 0x80) ∧
        r 0x03 = BitVec.ofNat 8 q.count ∧
        (q.post.detail, (r 0x04).toNat) ∈ [(Detail.none, 0), (.segmentA, 1), (.segmentB, 2), (.completed, 1),
          (.finished, 2), (.markers, 1), (.silence, 2), (.hold, 3), (.command, 4)]) ∧
      (∀ i, i < 8 → (r 0x08).getLsbD i = n.missed.getLsbD i ∧ (r 0x09).getLsbD i = n.missed.getLsbD (8 + i) ∧
        (r 0x0A).getLsbD i = n.missed.getLsbD (16 + i)) ∧
      ∀ l : BitVec 6, (l.toNat = 0x07 ∨ 0x0B ≤ l.toNat ∧ l.toNat ≤ 0x3E) → r l = 0)

/-- The read capture holder: a low-byte read returns the live low byte and captures the high byte; a high-byte read of the held
item returns the held byte and empties the holder; any other high-byte read returns the live byte and leaves the holder.
The holder's tag is the item and, for an item of page 2, the channel select in force, so a holder filled for one item or
one channel serves no other (section 9.3). Every wide item stands on the page of the table of section 9.3. -/
def Obligations.WideReadCapturesTheHighByte : Prop :=
  (∀ (s : State) (i : WideItem), ∃ p l v, (i, p, l, v) ∈ s.wideTable) ∧
  ∀ (s : State) (i : WideItem) (p : Fin 6) (l : BitVec 6) (v : Half), (i, p, l, v) ∈ s.wideTable →
    s.hostReady → s.port.page = p →
    let tag : WideKey := ⟨i, if p = 2 then some s.port.channelSelect else none⟩
    exec (.wideLowByteRead i) s = .next { s with port :=
      { s.port with dataOut := v.extractLsb' 0 8, readHolder := some ⟨tag, v.extractLsb' 8 8⟩ } } ∧
    (∀ b : Byte, s.port.readHolder = some ⟨tag, b⟩ →
      exec (.wideHighByteRead i) s = .next { s with port := { s.port with dataOut := b, readHolder := none } }) ∧
    ((∀ b : Byte, s.port.readHolder ≠ some ⟨tag, b⟩) →
      exec (.wideHighByteRead i) s = .next { s with port := { s.port with dataOut := v.extractLsb' 8 8 } })

/-- A wide value read low byte first belongs to one moment: whatever one other command does between the two reads, if it is
neither an access to a wide value nor a page change nor a reset, the two bytes read form the value as it stood at the
low-byte read, as long as the channel select names the same channel (sections 9.3 and 8.6). -/
def Obligations.WideReadPairBelongsToOneMoment : Prop :=
  ∀ (i : WideItem) (p : Fin 6) (l : BitVec 6) (v : Half) (c : Instr) (s t u w : State), (i, p, l, v) ∈ s.wideTable →
    s.hostReady → s.port.page = p →
    (∀ j, c ≠ .wideLowByteRead j) → (∀ j, c ≠ .wideHighByteRead j) → (∀ v, c ≠ .pageRegisterWrite v) →
    c.isWholeReset = false → c ≠ .cmdEngineReset →
    exec (.wideLowByteRead i) s = .next t → exec c t = .next u → u.port.channelSelect = s.port.channelSelect →
    exec (.wideHighByteRead i) u = .next w →
    t.port.dataOut = v.extractLsb' 0 8 ∧ w.port.dataOut = v.extractLsb' 8 8

/-- WIDE_LOW_BYTE_WRITE: the byte goes into the write holder, tagged with the item and, for an item of page 2, the channel
select in force; the item does not change and nothing is checked; a low-byte write and a commit of a read-only item are both
refused with ACCESS_ERROR and leave the write holder, read by inference from sections 9.1 and 9.3 (assumption 26).
WIDE_HIGH_BYTE_COMMIT of the items that take every value: the value committed is the written high byte with the held low byte
when the holder holds that item, and with the live low byte otherwise; a commit that used the holder empties it and one that
did not leaves it (sections 3.8, 9.3 and 9.4). -/
def Obligations.CommitTakesHeldOrLiveLowByte : Prop :=
  (∀ (s : State) (i : WideItem) (p : Fin 6) (l : BitVec 6) (live : Half) (v : Byte), (i, p, l, live) ∈ s.wideTable →
     s.hostReady → s.port.page = p →
     (i ∈ [.markerThreshold, .segABase, .segALength, .segBBase, .segBLength, .watermark, .bufferAddress] →
       exec (.wideLowByteWrite i v) s = .next { s with port :=
         { s.port with writeHolder := some ⟨⟨i, if p = 2 then some s.port.channelSelect else none⟩, v⟩ } }) ∧
     (i ∈ [.rxCycleCount, .txCycleCount, .cycleOffset, .markerErrors, .position, .fill, .headStamp] →
       exec (.wideLowByteWrite i v) s = .next s.refuseWrite ∧
       exec (.wideHighByteCommit i v) s = .next s.refuseWrite)) ∧
  (∀ (v : Byte) (s : State), s.hostReady →
     (s.port.page = 1 →
       (∀ low : Byte, s.port.writeHolder = some ⟨⟨.markerThreshold, none⟩, low⟩ →
         exec (.wideHighByteCommit .markerThreshold v) s = .next { s with
           monitor := { s.monitor with threshold := v ++ low }, port := { s.port with writeHolder := none } }) ∧
       ((∀ low : Byte, s.port.writeHolder ≠ some ⟨⟨.markerThreshold, none⟩, low⟩) →
         exec (.wideHighByteCommit .markerThreshold v) s = .next { s with
           monitor := { s.monitor with threshold := v ++ s.monitor.threshold.extractLsb' 0 8 } })) ∧
     (s.port.page = 4 →
       (∀ low : Byte, s.port.writeHolder = some ⟨⟨.bufferAddress, none⟩, low⟩ →
         exec (.wideHighByteCommit .bufferAddress v) s = .next { s with port :=
           { s.port with bufferAddress := v.extractLsb' 0 5 ++ low, writeHolder := none } }) ∧
       ((∀ low : Byte, s.port.writeHolder ≠ some ⟨⟨.bufferAddress, none⟩, low⟩) →
         exec (.wideHighByteCommit .bufferAddress v) s = .next { s with port :=
           { s.port with bufferAddress := v.extractLsb' 0 5 ++ s.port.bufferAddress.extractLsb' 0 8 } })))

/-- WIDE_HIGH_BYTE_COMMIT of the segment fields and the watermark of the selected channel: the write permission and then the
range are checked, the value has the held low byte when the holder holds that field of that channel and the live low byte
otherwise, a taken commit in IDLE or DONE acts on position, fill and active segment, a refused one sets
ACCESS_ERROR and empties the holder (sections 5.2, 5.3 and 9.3). MODE_BYTE_WRITE and TAG_WRITE (sections 5.2 and 10.4):
only in IDLE or DONE; the mode byte sets direction, mode and pool mode together, with position and fill 0 and segment A
active, and a bad mode code is refused whole; a tag is 1 to 31 and leaves the running fields. -/
def Obligations.ProgrammedFieldWritesCheckPermissionAndRange : Prop :=
  (∀ (v : Byte) (s : State), s.hostReady → s.port.page = 2 →
     let x := s.channel s.port.channelSelect
     let held := fun i : WideItem => s.port.writeHolder.map (·.key) = some ⟨i, some s.port.channelSelect⟩
     let value := fun (i : WideItem) (live : Nat) =>
       let low : Byte := if held i then (s.port.writeHolder.map (·.byte)).getD 0 else BitVec.ofNat 8 live
       ((v.extractLsb' 0 5 ++ low : BitVec 13)).toNat
     let put := fun y : ChannelContext => s.setChannel s.port.channelSelect y
     let taken := fun (i : WideItem) (y : ChannelContext) =>
       if held i then ({ put y with port := { s.port with writeHolder := none } } : State) else put y
     let refused : State := { s with port := { s.port with accessError := true, writeHolder := none } }
     let permitted := fun g : Segment => x.atRest = true ∨ (x.mode = .alternating ∧ x.owner g = .host)
     exec (.wideHighByteCommit .segABase v) s = .next (
       if permitted .segA then
         if x.atRest then
           taken .segABase { x with baseA := value .segABase x.baseA, position := 0, fill := 0, active := .segA }
         else taken .segABase { x with baseA := value .segABase x.baseA }
       else refused) ∧
     exec (.wideHighByteCommit .segALength v) s = .next (
       if permitted .segA ∧ 1 ≤ value .segALength x.lengthA ∧ value .segALength x.lengthA ≤ 4096 then
         if x.atRest then
           taken .segALength { x with lengthA := value .segALength x.lengthA, position := 0, fill := 0, active := .segA }
         else taken .segALength { x with lengthA := value .segALength x.lengthA }
       else refused) ∧
     exec (.wideHighByteCommit .segBBase v) s = .next (
       if permitted .segB then
         if x.atRest ∧ x.active = .segB then taken .segBBase { x with baseB := value .segBBase x.baseB, position := 0 }
         else taken .segBBase { x with baseB := value .segBBase x.baseB }
       else refused) ∧
     exec (.wideHighByteCommit .segBLength v) s = .next (
       if permitted .segB ∧ 1 ≤ value .segBLength x.lengthB ∧ value .segBLength x.lengthB ≤ 4096 then
         if x.atRest ∧ x.active = .segB then taken .segBLength { x with lengthB := value .segBLength x.lengthB, position := 0 }
         else taken .segBLength { x with lengthB := value .segBLength x.lengthB }
       else refused) ∧
     exec (.wideHighByteCommit .watermark v) s = .next (
       if value .watermark x.watermark ≤ 4096 then
         taken .watermark { x with watermark := value .watermark x.watermark }
       else refused)) ∧
  (∀ (v : Byte) (s : State), s.hostReady → s.port.page = 2 →
     let x := s.channel s.port.channelSelect
     (¬(x.state = .idle ∨ x.state = .done) →
       exec (.modeByteWrite v) s = .next s.refuseWrite ∧ exec (.tagWrite v) s = .next s.refuseWrite) ∧
     (x.state = .idle ∨ x.state = .done →
       (v.extractLsb' 1 2 = 3 → exec (.modeByteWrite v) s = .next s.refuseWrite) ∧
       (∀ m : Mode, (m, (v.extractLsb' 1 2).toNat) ∈ [(Mode.single, 0), (.ring, 1), (.alternating, 2)] →
         exec (.modeByteWrite v) s = .next (s.setChannel s.port.channelSelect
           { x with
             direction := if v.getLsbD 0 then .transmit else .receive
             mode := m, poolMode := v.getLsbD 3, position := 0, fill := 0, active := .segA })) ∧
       (1 ≤ v.toNat ∧ v.toNat ≤ 31 →
         exec (.tagWrite v) s = .next (s.setChannel s.port.channelSelect { x with tag := v })) ∧
       (v.toNat = 0 ∨ 32 ≤ v.toNat → exec (.tagWrite v) s = .next s.refuseWrite)))

/-- The buffer port (section 9.4): a data read returns the byte at the address and changes no byte, a data write stores at the
address and changes that one byte alone, and each advances the address by 1, from 1FFFH to 0000H. Outside the clearing a byte
reads as the memory list holds it, and one that the list does not hold as 00H (the form of the list is the model's own,
assumption 15). -/
def Obligations.BufferPortMovesOneByte : Prop :=
  (∀ s : State, s.hostReady → s.port.page = 4 →
    exec .bufferDataRead s = .next { s with port :=
      { s.port with dataOut := s.byteAt s.port.bufferAddress.toNat, bufferAddress := s.port.bufferAddress + 1 } }) ∧
  (∀ (s : State) (a : Nat), s.port.init = false → s.byteAt a = s.memory.read a) ∧
  (∀ (m : List Host.Cell) (a : Nat), Memory.wf m →
    (∀ b, (a, b) ∈ m → Memory.read m a = b) ∧ ((∀ b, (a, b) ∉ m) → Memory.read m a = 0)) ∧
  ∀ (v : Byte) (s : State), s.hostReady → s.port.page = 4 → s.memory.wf →
    ∃ t, exec (.bufferDataWrite v) s = .next t ∧
      t = { s with memory := t.memory, port := { s.port with bufferAddress := s.port.bufferAddress + 1 } } ∧
      ∀ a, t.byteAt a = if a = s.port.bufferAddress.toNat then v else s.byteAt a

/-! ### Notifications -/

/-- Each post is decided by the four cases in order, and with any posts the queue holds at most 32 records, no two with the
same kind and channel, each with a repeat count of 1 to 15 (R137). In every statement a kind has its number of section 8.2 and
its enable bit at that number less 1, and the missed set has channel c at bit c and LINK at bit 20 (section 10.7). -/
def Obligations.PostIsDecidedByFourCases : Prop :=
  (∀ (n : Notifications) (p : Post),
    (n.enabled.getLsbD (p.kind.number - 1) = false → n.take p = n) ∧
    (n.enabled.getLsbD (p.kind.number - 1) = true →
      (∀ (before after : List QueueRecord) (r : QueueRecord), n.Ok → n.queue = before ++ r :: after →
        r.post.kind = p.kind → r.post.channel = p.channel →
        n.take p = { n with queue := before ++ { r with count := min 15 (r.count + 1) } :: after }) ∧
      ((∀ r ∈ n.queue, ¬(r.post.kind = p.kind ∧ r.post.channel = p.channel)) →
        (n.queue.length < 32 → n.take p = { n with queue := n.queue ++ [{ post := p, count := 1 }] }) ∧
        (32 ≤ n.queue.length →
          n.take p = { n with missed := n.missed ||| BitVec.twoPow 21 p.channel.missedBit })))) ∧
  (∀ (n : Notifications) (p : Post), n.Ok → (n.take p).Ok) ∧
  (∀ c : Channel, (RecordChannel.channel c).missedBit = c.val) ∧ RecordChannel.link.missedBit = 20 ∧
  ∀ k : Kind, (k, k.number) ∈ [(Kind.segmentDone, 1), (.channelEnded, 2), (.shortfall, 3), (.watermark, 4), (.alignGained, 5),
    (.alignLost, 6), (.remoteFaultOn, 7), (.remoteFaultOff, 8), (.silenceOn, 9), (.silenceOff, 10), (.holdOn, 11),
    (.holdOff, 12), (.rxMapSwitched, 13), (.txMapSwitched, 14), (.markerThreshold, 15)]

/-- Every command keeps the law of the queue, in every state: at most 32 records, keys distinct, repeat counts 1 to 15
(section 8.3). -/
def Obligations.EveryCommandKeepsTheQueueLaw : Prop :=
  ∀ (c : Instr) (s t : State), s.notifications.Ok → exec c s = .next t → t.notifications.Ok

/-- A member of the missed set stays until the read of the third byte, an engine reset, a pin reset or power-on: no other
command takes one out (section 8.4). -/
def Obligations.MissedMembersStay : Prop :=
  ∀ (c : Instr) (s t : State), c ≠ .missedSetThirdByteRead → c ≠ .cmdEngineReset → c.isWholeReset = false →
    exec c s = .next t → ∀ i, s.notifications.missed.getLsbD i = true → t.notifications.missed.getLsbD i = true

/-- INTN is active exactly when suspend is clear and the queue or the missed set is non-empty, and it is inactive from any
reset (section 8.8). -/
def Obligations.InterruptFollowsQueueMissedAndSuspend : Prop :=
  (∀ s : State, s.intnActive = true ↔
    s.notifications.suspend = false ∧ (s.notifications.queue ≠ [] ∨ ∃ i < 21, s.notifications.missed.getLsbD i = true)) ∧
  (∀ s t : State, exec .powerOn s = .next t ∨ exec .pinReset s = .next t → t.intnActive = false) ∧
  ∀ s : State, s.commandReady → ∀ t, exec .cmdEngineReset s = .next t → t.intnActive = false

/-- REMOVE (R142): under INIT it is answered NOT_READY; with the queue empty it is refused with BAD_STATE; otherwise the head
leaves with its repeat count, the rest keeps its order and the missed set is kept. Of a post that comes together with it: one
of the head's kind and channel coalesces into the head if it is taken first and is appended with repeat 1 if the REMOVE is; a
new one at a full queue joins the missed set or is appended in the freed place; at an empty queue it is appended and removed,
or the REMOVE is refused and it is appended. A post changes, in every statement, the queue's own fields alone. -/
def Obligations.RemoveTakesTheHead : Prop :=
  (∀ s : State, s.port.rstnLow = false → s.port.page = 0 → s.port.init = true →
    exec .cmdRemove s = .next { s with port := { s.port with result := .notReady } }) ∧
  (∀ s : State, s.commandReady → s.notifications.queue = [] →
    exec .cmdRemove s = .next { s with port := { s.port with result := .badState } }) ∧
  (∀ (s : State) (r : QueueRecord) (rest : List QueueRecord), s.commandReady → s.notifications.queue = r :: rest →
    exec .cmdRemove s = .next { s with
      notifications := { s.notifications with queue := rest }, port := { s.port with result := .ok } }) ∧
  (∀ (s : State) (p : Post), s.post p = { s with notifications := s.notifications.take p }) ∧
  ∀ (s t u : State) (p : Post), s.commandReady → s.notifications.Ok →
    s.notifications.enabled.getLsbD (p.kind.number - 1) = true →
    exec .cmdRemove (s.post p) = .next t → exec .cmdRemove s = .next u →
    (∀ r rest, s.notifications.queue = r :: rest → p.kind = r.post.kind → p.channel = r.post.channel →
      t.notifications = { s.notifications with queue := rest } ∧
      (u.post p).notifications = { s.notifications with queue := rest ++ [{ post := p, count := 1 }] }) ∧
    (∀ r rest, s.notifications.queue = r :: rest → s.notifications.queue.length = 32 →
      (∀ q ∈ s.notifications.queue, ¬(q.post.kind = p.kind ∧ q.post.channel = p.channel)) →
      t.notifications = { s.notifications with
        queue := rest, missed := s.notifications.missed ||| BitVec.twoPow 21 p.channel.missedBit } ∧
      (u.post p).notifications = { s.notifications with queue := rest ++ [{ post := p, count := 1 }] }) ∧
    (s.notifications.queue = [] →
      t.notifications = s.notifications ∧ t.port.result = .ok ∧ u.port.result = .badState ∧
      (u.post p).notifications = { s.notifications with queue := [{ post := p, count := 1 }] })

/-- FLUSH: every record leaves the queue, whether or not it holds any, and the rest is kept (section 8.7). KIND_ENABLE_WRITE: the
byte at 10H sets the bits of kinds 1 to 8 and the byte at 11H those of kinds 9 to 15; the other byte's kinds are kept and
bit 7 of the second byte is ignored (section 8.5). SUSPEND_FLAG_WRITE takes bit 0 (section 8.8).
MISSED_SET_THIRD_BYTE_READ returns channels 16 to 19 in bits 0 to 3 and LINK in bit 4 and empties the whole missed set
(section 8.7). -/
def Obligations.QueueAccessesActOnTheirOwnField : Prop :=
  (∀ s : State, s.commandReady →
     exec .cmdFlush s = .next { s with
       notifications := { s.notifications with queue := [] }, port := { s.port with result := .ok } }) ∧
  (∀ (v : Byte) (s : State), s.hostReady → s.port.page = 0 →
     (∃ e : BitVec 15,
       exec (.kindEnableWrite .kinds1to8 v) s = .next { s with notifications := { s.notifications with enabled := e } } ∧
       ∀ i, i < 15 → e.getLsbD i = if i < 8 then v.getLsbD i else s.notifications.enabled.getLsbD i) ∧
     ∃ e : BitVec 15,
       exec (.kindEnableWrite .kinds9to15 v) s = .next { s with notifications := { s.notifications with enabled := e } } ∧
       ∀ i, i < 15 → e.getLsbD i = if i < 8 then s.notifications.enabled.getLsbD i else v.getLsbD (i - 8)) ∧
  ((∀ (v : Byte) (s : State), s.hostReady → s.port.page = 0 →
     exec (.suspendFlagWrite v) s = .next { s with notifications := { s.notifications with suspend := v.getLsbD 0 } }) ∧
   ∀ s : State, s.hostReady → s.port.page = 5 →
     ∃ b : Byte, exec .missedSetThirdByteRead s = .next { s with
         port := { s.port with dataOut := b }, notifications := { s.notifications with missed := 0 } } ∧
       ∀ i, b.getLsbD i = if i < 5 then s.notifications.missed.getLsbD (16 + i) else false)

/-! ### Slot maps -/

/-- SWITCH (section 4.3): neither flag gives BAD_AMOUNT; a named direction already pending gives BUSY and sets no flag;
otherwise it is taken, the receive switch pends while ALIGNED and else completes at once, and the transmit switch completes at
once while STOPPED and else pends; RX_MAP_SWITCHED stands before TX_MAP_SWITCHED. A switch goes, in every statement, from bank
A to bank B and from bank B to bank A. -/
def Obligations.SwitchPendsOrCompletes : Prop :=
  (∀ s : State, s.commandReady →
     let rx := s.port.operand0.getLsbD 0
     let tx := s.port.operand0.getLsbD 1
     let m := s.maps
     let rxNow := rx = true ∧ s.aligner.state ≠ .aligned
     let txNow := tx = true ∧ s.transmitter.state = .stopped
     (rx = false ∧ tx = false → exec .cmdSwitch s = .next (s.setResult .badAmount)) ∧
     ((rx = true ∧ m.rxPending = true) ∨ (tx = true ∧ m.txPending = true) →
       exec .cmdSwitch s = .next (s.setResult .busy)) ∧
     (rx = true ∨ tx = true → (rx = true → m.rxPending = false) → (tx = true → m.txPending = false) →
       exec .cmdSwitch s = .next { s with
         port := { s.port with result := .ok }
         maps := { m with
           rxActive := if rxNow then m.rxActive.other else m.rxActive
           rxPending := if rxNow then false else (m.rxPending || rx)
           txActive := if txNow then m.txActive.other else m.txActive
           txPending := if txNow then false else (m.txPending || tx) }
         notifications :=
           ((if rxNow then [(⟨.rxMapSwitched, .link, .none, s.aligner.cycleCount⟩ : Post)] else []) ++
             (if txNow then [(⟨.txMapSwitched, .link, .none, s.transmitter.cycleCount⟩ : Post)] else [])).foldl
             Notifications.take s.notifications })) ∧
  Bank.bankA.other = .bankB ∧ Bank.bankB.other = .bankA ∧
  ∀ m : SlotMaps, m.bank .bankA = m.bankA ∧ m.bank .bankB = m.bankB

/-- SLOT_MAP_ENTRY_WRITE: with the index from 1 to 63 and the selected bank in force for neither direction and no switch
pending, a legal kind and channel byte replaces kind and channel, a constant byte replaces the constant, and no other entry
changes, in that bank or in the other; every other write is refused with ACCESS_ERROR (R55 and R56). -/
def Obligations.EntryWriteNeedsAnEditableBank : Prop :=
  ∀ (v : Byte) (s : State), s.hostReady → s.port.page = 3 →
    let n := s.port.entryIndex.toNat
    let b := s.port.bankSelect
    let old := if b = .bankA then s.maps.bankA else s.maps.bankB
    let put := fun o : BankMaps => ({ s with maps := { s.maps with
      bankA := if b = .bankA then o else s.maps.bankA
      bankB := if b = .bankB then o else s.maps.bankB } } : State)
    let editable := 1 ≤ n ∧ n ≤ 63 ∧ s.maps.rxActive ≠ b ∧ s.maps.txActive ≠ b ∧ s.maps.rxPending = false ∧
      s.maps.txPending = false
    (∀ f, ¬editable → exec (.slotMapEntryWrite f v) s = .next s.refuseWrite) ∧
    (editable → (3 ≤ (v.extractLsb' 5 3).toNat ∨ 20 ≤ (v.extractLsb' 0 5).toNat) →
      exec (.slotMapEntryWrite .receive v) s = .next s.refuseWrite) ∧
    (editable → (4 ≤ (v.extractLsb' 5 3).toNat ∨ 20 ≤ (v.extractLsb' 0 5).toNat) →
      exec (.slotMapEntryWrite .transmit v) s = .next s.refuseWrite) ∧
    (∀ (k : RxKind) (c : Channel), editable →
      (k, (v.extractLsb' 5 3).toNat) ∈ [(RxKind.discard, 0), (.channel, 1), (.pool, 2)] →
      (v.extractLsb' 0 5).toNat = c.val →
      exec (.slotMapEntryWrite .receive v) s = .next (put { old with rx := old.rx.setIfInBounds (n - 1) ⟨k, c⟩ })) ∧
    (∀ (k : TxKind) (c : Channel), editable →
      (k, (v.extractLsb' 5 3).toNat) ∈ [(TxKind.idle, 0), (.constant, 1), (.channel, 2), (.pool, 3)] →
      (v.extractLsb' 0 5).toNat = c.val →
      exec (.slotMapEntryWrite .transmit v) s =
        .next (put { old with tx := old.tx.setIfInBounds (n - 1) ⟨k, c, (old.txEntry n).constant⟩ })) ∧
    (editable → exec (.slotMapEntryWrite .constant v) s =
      .next (put { old with tx := old.tx.setIfInBounds (n - 1) { old.txEntry n with constant := v } }))

/-- The entries of the bank in force for a direction do not change while it is in force: no command but power-on and pin reset
changes an entry of either active bank (section 4.4). -/
def Obligations.BankInForceIsNotEdited : Prop :=
  ∀ (c : Instr) (s t : State), c.isWholeReset = false → exec c s = .next t →
    t.maps.bank s.maps.rxActive = s.maps.bank s.maps.rxActive ∧
    t.maps.bank s.maps.txActive = s.maps.bank s.maps.txActive

/-! ### Channel commands -/

/-- START (sections 5.4 and 9.5): a number above 19, a channel that is not at rest, a segment past the end of memory, a tag in
use and a RING transmit amount above the length are refused in that order; otherwise the channel is ARMED with its running
fields set, and nothing else changes. STOP (section 5.6): a channel in IDLE is refused with BAD_STATE; in any other state it
enters IDLE, from DONE with its position at 0, it leaves the rotation list, the other members keep their order, and nothing
else changes. A change of one context leaves, in every statement, the other contexts and the other blocks as they were. -/
def Obligations.StartArmsAndStopEntersIdle : Prop :=
  (∀ s : State, s.commandReady →
     (20 ≤ s.port.operand0.toNat → exec .cmdStart s = .next (s.setResult .badChannel)) ∧
     ∀ c : Channel, s.port.operand0.toNat = c.val →
       let x := s.channel c
       exec .cmdStart s = .next (
         if ¬(x.state = .idle ∨ x.state = .done) then s.setResult .badState
         else if 8192 < x.baseA + x.lengthA ∨ (x.mode = .alternating ∧ 8192 < x.baseB + x.lengthB) then
           s.setResult .badSegment
         else if x.poolSender ∧ ∃ d : Channel, d ≠ c ∧ (s.channel d).tag = x.tag ∧ s.holdsTag d then s.setResult .badTag
         else if x.direction = .transmit ∧ x.mode = .ring ∧ x.lengthA < s.port.amount then s.setResult .badAmount
         else
           (s.setChannel c
             { x with
               state := .armed, active := .segA, position := 0
               fill := if x.direction = .transmit ∧ x.mode = .ring then s.port.amount else 0
               ownerA := .device, ownerB := .device, stalled := false, shortRun := false }).setResult .ok)) ∧
  (∀ s : State, s.commandReady →
     (20 ≤ s.port.operand0.toNat → exec .cmdStop s = .next (s.setResult .badChannel)) ∧
     ∀ c : Channel, s.port.operand0.toNat = c.val →
       ((s.channel c).state = .idle → exec .cmdStop s = .next (s.setResult .badState)) ∧
       ((s.channel c).state ≠ .idle →
         ∃ t, exec .cmdStop s = .next t ∧
           t = { s with
             port := { s.port with result := .ok }
             channels := t.channels
             pool := { s.pool with rotation := s.pool.rotation.filter (· ≠ c) } } ∧
           t.channel c = { s.channel c with
             state := .idle, position := if (s.channel c).state = .done then 0 else (s.channel c).position } ∧
           ∀ d, d ≠ c → t.channel d = s.channel d)) ∧
  ∀ (s : State) (c : Channel) (x : ChannelContext),
    s.setChannel c x = { s with channels := (s.setChannel c x).channels } ∧ (s.setChannel c x).channel c = x ∧
    ∀ d : Channel, s.channel d = s.channels[d] ∧ (d ≠ c → (s.setChannel c x).channel d = s.channel d)

/-- FINISH (sections 5.7 and 5.8): refused with BAD_STATE unless the channel is ACTIVE in RING or ALTERNATING mode; a RING
receive channel goes to ENDING while ALIGNED, a RING transmit channel while it holds bytes, an ALTERNATING channel while not
stalled; the others enter DONE at once with CHANNEL_ENDED, FINISHED, off the rotation list. The stalled one enters DONE with
its position at 0, which is read from sections 6.2 and 6.5 by inference (assumption 21). The record of a channel names it and
is stamped, in every statement, with the receive cycle count for a receive channel and the transmit cycle count for a transmit
channel (section 8.2). -/
def Obligations.FinishEndsOrGoesToEnding : Prop :=
  (∀ s : State, s.commandReady →
     (20 ≤ s.port.operand0.toNat → exec .cmdFinish s = .next (s.setResult .badChannel)) ∧
     ∀ c : Channel, s.port.operand0.toNat = c.val →
       let x := s.channel c
       let waits := (x.mode = .ring ∧ x.direction = .receive ∧ s.aligner.state = .aligned) ∨
         (x.mode = .ring ∧ x.direction = .transmit ∧ 0 < x.fill) ∨ (x.mode = .alternating ∧ x.stalled = false)
       (x.state ≠ .active ∨ x.mode = .single → exec .cmdFinish s = .next (s.setResult .badState)) ∧
       (x.state = .active → x.mode ≠ .single → waits →
         exec .cmdFinish s = .next ((s.setChannel c { x with state := .ending }).setResult .ok)) ∧
       (x.state = .active → x.mode ≠ .single → ¬waits →
         ∃ t, exec .cmdFinish s = .next t ∧
           t = { s with
             port := { s.port with result := .ok }
             channels := t.channels
             notifications := s.notifications.take (s.channelPost c .channelEnded .finished)
             pool := { s.pool with rotation := s.pool.rotation.filter (· ≠ c) } } ∧
           t.channel c = { x with
             state := .done, position := if x.mode = .alternating then 0 else x.position } ∧
           ∀ d, d ≠ c → t.channel d = s.channel d)) ∧
  ∀ (s : State) (c : Channel) (k : Kind) (d : Detail),
    ((s.channel c).direction = .receive → s.channelPost c k d = ⟨k, .channel c, d, s.aligner.cycleCount⟩) ∧
    ((s.channel c).direction = .transmit → s.channelPost c k d = ⟨k, .channel c, d, s.transmitter.cycleCount⟩)

/-- GIVE (sections 6.6 and 9.5): the checks of the channel number, the state, the mode, the amount, the owner and the end of
memory in that order; a taken GIVE makes the segment the device's, ends the stall if it is the active one, and changes
nothing else. -/
def Obligations.GiveReturnsASegment : Prop :=
  ∀ s : State, s.commandReady →
    (20 ≤ s.port.operand0.toNat → exec .cmdGive s = .next (s.setResult .badChannel)) ∧
    ∀ c : Channel, s.port.operand0.toNat = c.val →
      let x := s.channel c
      (x.state = .idle ∨ x.state = .done ∨ x.mode ≠ .alternating → exec .cmdGive s = .next (s.setResult .badState)) ∧
      (x.state ≠ .idle → x.state ≠ .done → x.mode = .alternating →
        (2 ≤ s.port.amount → exec .cmdGive s = .next (s.setResult .badAmount)) ∧
        (s.port.amount = 0 → exec .cmdGive s = .next (
          if x.ownerA = .device then s.setResult .badState
          else if 8192 < x.baseA + x.lengthA then s.setResult .badSegment
          else (s.setChannel c { x with
            ownerA := .device, stalled := x.stalled && x.active ≠ .segA }).setResult .ok)) ∧
        (s.port.amount = 1 → exec .cmdGive s = .next (
          if x.ownerB = .device then s.setResult .badState
          else if 8192 < x.baseB + x.lengthB then s.setResult .badSegment
          else (s.setChannel c { x with
            ownerB := .device, stalled := x.stalled && x.active ≠ .segB }).setResult .ok)))

/-- ADVANCE (R112): the six checks in order, each refusal with its result code and no change to any channel; a channel in its
ranges refuses every amount above 4096, and a receive channel in ARMED refuses every amount. A taken ADVANCE moves the fill by
the amount and changes nothing else. The amount is, in every statement, the amount high byte times 256 plus the amount low
byte (section 9.5). -/
def Obligations.AdvanceChecksThenMovesTheFill : Prop :=
  (∀ s : State, s.port.rstnLow = false → s.port.page = 0 → s.port.init = true →
    exec .cmdAdvance s = .next (s.setResult .notReady)) ∧
  (∀ p : HostPort, p.amount = p.amountHigh.toNat * 256 + p.amountLow.toNat) ∧
  ∀ s : State, s.commandReady →
    (20 ≤ s.port.operand0.toNat → exec .cmdAdvance s = .next (s.setResult .badChannel)) ∧
    ∀ c : Channel, s.port.operand0.toNat = c.val →
      let x := s.channel c
      let n := s.port.amount
      exec .cmdAdvance s = .next (
        if ¬(x.state = .armed ∨ x.state = .active ∨ x.state = .ending) then s.setResult .badState
        else if x.mode ≠ .ring then s.setResult .badState
        else if n = 0 then s.setResult .badAmount
        else if x.direction = .receive then
          if n ≤ x.fill then (s.setChannel c { x with fill := x.fill - n }).setResult .ok else s.setResult .badAmount
        else
          if x.fill + n ≤ x.lengthA then (s.setChannel c { x with fill := x.fill + n }).setResult .ok
          else s.setResult .badAmount) ∧
      (x.Ok → (x.state = .armed ∨ x.state = .active ∨ x.state = .ending) → x.mode = .ring →
        4096 < n → exec .cmdAdvance s = .next (s.setResult .badAmount)) ∧
      (x.Ok → x.state = .armed → x.mode = .ring → x.direction = .receive →
        exec .cmdAdvance s = .next (s.setResult .badAmount))

/-- A channel that is not at rest keeps its direction, mode, pool mode and tag, and the base and length of every segment that
is not the host's in ALTERNATING mode, through every command but power-on and pin reset (sections 5.2 and 6.1). A channel is
at rest, in every statement, in IDLE and DONE, and the fields of segment A and segment B are its base, length and owner of
that segment (section 5.1). -/
def Obligations.RunningPlanIsKept : Prop :=
  (∀ (c : Instr) (s t : State) (d : Channel), c.isWholeReset = false → exec c s = .next t →
     (s.channel d).atRest = false →
     (t.channel d).direction = (s.channel d).direction ∧ (t.channel d).mode = (s.channel d).mode ∧
     (t.channel d).poolMode = (s.channel d).poolMode ∧ (t.channel d).tag = (s.channel d).tag ∧
     ∀ g : Segment, (s.channel d).mode ≠ .alternating ∨ (s.channel d).owner g = .device →
       (t.channel d).base g = (s.channel d).base g ∧ (t.channel d).length g = (s.channel d).length g) ∧
  ∀ x : ChannelContext,
    (x.atRest = true ↔ x.state = .idle ∨ x.state = .done) ∧
    (x.running = true ↔ x.state = .active ∨ x.state = .ending) ∧
    x.base .segA = x.baseA ∧ x.base .segB = x.baseB ∧ x.length .segA = x.lengthA ∧ x.length .segB = x.lengthB ∧
    x.owner .segA = x.ownerA ∧ x.owner .segB = x.ownerB

/-! ### Bytes moved -/

/-- SLOT_ARRIVAL of a DISCARD slot, and of a CHANNEL slot whose channel is not a receive channel in ACTIVE or ENDING: the byte
is dropped, and nothing changes but the aligner's place in the stream. SLOT_DEMAND of an IDLE or a CONSTANT slot, and of a
CHANNEL slot whose channel is not a transmit channel in ACTIVE or ENDING with pool mode off: the idle byte or the constant is
fixed for the slot behind the one being sent, and nothing else changes, the transmitter's place in the frame neither. While
the aligner is not ALIGNED, and before the eighth bit of a slot, SLOT_ARRIVAL changes nothing; while the transmitter is
STOPPED, has begun no frame, has its next byte fixed or is at slot F-1, SLOT_DEMAND changes nothing (assumption 2). What an
arrival carries, in every statement: the byte of eight received bits, the first the most significant, and the slot index j
where F - j slots are still to come before the next marker, so 1 behind a marker and F-1 at the last slot; its entry is entry
j of the active bank (sections 1.3, 1.4, 2.4, 4.1, 4.4 and 5.9). -/
def Obligations.SlotsOfNoRunningChannel : Prop :=
  (∀ s : State, s.aligner.arrivalDue = true →
     let e := (s.maps.bank s.maps.rxActive).rxEntry (s.aligner.nextSlot s.transmitter.frameLength)
     (e.kind = .discard ∨
       (e.kind = .channel ∧ ¬((s.channel e.channel).direction = .receive ∧
         ((s.channel e.channel).state = .active ∨ (s.channel e.channel).state = .ending)))) →
     exec .slotArrival s = .next { s with aligner :=
       { s.aligner with
         bits := s.aligner.bits.drop 8
         expectedPlace := s.aligner.expectedPlace - 8
         frameEndDue := s.aligner.expectedPlace = 8 } }) ∧
  (∀ s : State, s.transmitter.demandDue = true →
     let e := (s.maps.bank s.maps.txActive).txEntry (s.transmitter.slotIndex + 1)
     let x := s.channel e.channel
     let fixed := fun b : Byte =>
       ({ s with transmitter := { s.transmitter with nextByte := some b } } : State)
     (e.kind = .idle → exec .slotDemand s = .next (fixed s.transmitter.idleByte)) ∧
     (e.kind = .constant → exec .slotDemand s = .next (fixed e.constant)) ∧
     (e.kind = .channel →
       ¬(x.direction = .transmit ∧ (x.state = .active ∨ x.state = .ending) ∧ x.poolMode = false) →
       exec .slotDemand s = .next (fixed s.transmitter.idleByte))) ∧
  (∀ s : State,
    (s.aligner.arrivalDue = true ↔
      s.aligner.state = .aligned ∧ 8 ≤ s.aligner.expectedPlace ∧ 8 ≤ s.aligner.bits.length) ∧
    (s.aligner.state ≠ .aligned ∨ s.aligner.expectedPlace < 8 ∨ s.aligner.bits.length < 8 →
      exec .slotArrival s = .next s) ∧
    (s.transmitter.demandDue = true ↔
      s.transmitter.state ≠ .stopped ∧ s.transmitter.begun = true ∧ s.transmitter.nextByte = none ∧
        s.transmitter.slotIndex + 1 < s.transmitter.frameLength) ∧
    (s.transmitter.state = .stopped ∨ s.transmitter.begun = false ∨ s.transmitter.nextByte ≠ none ∨
        s.transmitter.frameLength ≤ s.transmitter.slotIndex + 1 →
      exec .slotDemand s = .next s)) ∧
  (∀ a : Aligner, 8 ≤ a.expectedPlace → a.handOnSlot = { a with
    bits := a.bits.drop 8, expectedPlace := a.expectedPlace - 8, frameEndDue := a.expectedPlace = 8 }) ∧
  (∀ bits : List Bool, 8 ≤ bits.length → ∀ i, i < 8 → (byteOfBits bits).getLsbD (7 - i) = bits.getD i false) ∧
  (∀ (a : Aligner) (f j : Nat), 1 ≤ j → j < f → a.expectedPlace = (f - j) * 8 → a.nextSlot f = j) ∧
  ∀ (m : SlotMaps) (i : Fin 63), m.bank .bankA = m.bankA ∧ m.bank .bankB = m.bankB ∧
    (∀ b : Bank, (m.bank b).rxEntry (i.val + 1) = (m.bank b).rx[i] ∧ (m.bank b).txEntry (i.val + 1) = (m.bank b).tx[i])

/-- A CHANNEL slot at a running channel that can move the byte. SLOT_ARRIVAL stores the byte at base plus position and changes
no other byte of memory; SLOT_DEMAND fixes the byte at base plus position for the slot and changes no byte of memory. The
context becomes what the rules of its mode leave, its records are posted in order, a channel that enters DONE leaves the
rotation list, and nothing else changes but the aligner's place in the stream (sections 1.4, 4.4 and 6.1 to 6.5). The base is,
in every statement, that of segment A, or of the active segment in ALTERNATING; a channel runs in ACTIVE and ENDING; a SINGLE
channel can always move a byte, a RING one with room to receive or bytes to send, an ALTERNATING one while not stalled. The
rules of the mode: the position goes on, and in SINGLE the last byte ends the run with CHANNEL_ENDED, COMPLETED; in RING it
wraps, the fill moves by one, WATERMARK is posted at the watermark, and the byte that empties a transmit channel in ENDING
ends it; in ALTERNATING the completed segment becomes the host's with SEGMENT_DONE, the other one becomes active, stalled if
it is the host's, and in ENDING the run ends instead. An address outside the memory, which section 6.1 says does not come
about, stops the part (the model's choice, assumption 13). -/
def Obligations.BytesMoveAtBasePlusPosition : Prop :=
  (∀ (s : State) (c : Channel), s.aligner.arrivalDue = true → s.port.init = false → s.memory.wf →
     (s.maps.bank s.maps.rxActive).rxEntry (s.aligner.nextSlot s.transmitter.frameLength) = ⟨.channel, c⟩ →
     (s.channel c).takesArrivals = true → (s.channel c).canMove = true → (s.channel c).address < 8192 →
     ∃ t, exec .slotArrival s = .next t ∧
       t = { s with
         aligner := s.aligner.handOnSlot
         memory := t.memory
         channels := t.channels
         notifications := (s.bytePosts c).foldl Notifications.take s.notifications
         pool := { s.pool with rotation := leftIfDone s.pool.rotation c (s.channel c).afterByte } } ∧
       (∀ a, t.byteAt a = if a = (s.channel c).address then byteOfBits s.aligner.bits else s.byteAt a) ∧
       t.channel c = (s.channel c).afterByte ∧ ∀ d, d ≠ c → t.channel d = s.channel d) ∧
  (∀ (s : State) (c : Channel), s.transmitter.demandDue = true →
     ((s.maps.bank s.maps.txActive).txEntry (s.transmitter.slotIndex + 1)).kind = .channel →
     ((s.maps.bank s.maps.txActive).txEntry (s.transmitter.slotIndex + 1)).channel = c →
     (s.channel c).answersDemands = true → (s.channel c).poolMode = false → (s.channel c).canMove = true →
     (s.channel c).address < 8192 →
     ∃ t, exec .slotDemand s = .next t ∧
       t = { s with
         transmitter := { s.transmitter with nextByte := some (s.byteAt (s.channel c).address) }
         channels := t.channels
         notifications := (s.bytePosts c).foldl Notifications.take s.notifications
         pool := { s.pool with rotation := leftIfDone s.pool.rotation c (s.channel c).afterByte } } ∧
       t.channel c = (s.channel c).afterByte ∧ ∀ d, d ≠ c → t.channel d = s.channel d) ∧
  (∀ (s : State) (c : Channel), s.aligner.arrivalDue = true →
     (s.maps.bank s.maps.rxActive).rxEntry (s.aligner.nextSlot s.transmitter.frameLength) = ⟨.channel, c⟩ →
     (s.channel c).takesArrivals = true → (s.channel c).canMove = true → 8192 ≤ (s.channel c).address →
     exec .slotArrival s = .fault .addressOutsideMemory) ∧
  (∀ (s : State) (c : Channel), s.transmitter.demandDue = true →
     ((s.maps.bank s.maps.txActive).txEntry (s.transmitter.slotIndex + 1)).kind = .channel →
     ((s.maps.bank s.maps.txActive).txEntry (s.transmitter.slotIndex + 1)).channel = c →
     (s.channel c).answersDemands = true → (s.channel c).poolMode = false → (s.channel c).canMove = true →
     8192 ≤ (s.channel c).address → exec .slotDemand s = .fault .addressOutsideMemory) ∧
  (∀ x : ChannelContext,
    let ends := x.state = .ending
    (x.mode = .single →
      x.afterByte = { x with
        shortRun := false, position := x.position + 1
        state := if x.position + 1 = x.lengthA then .done else x.state } ∧
      x.byteRecords = if x.position + 1 = x.lengthA then [(.channelEnded, .completed)] else []) ∧
    (x.mode = .ring → ∀ fill, fill = (if x.direction = .receive then x.fill + 1 else x.fill - 1) →
      let emptied := x.direction = .transmit ∧ ends ∧ fill = 0
      x.afterByte = { x with
        shortRun := false, position := (x.position + 1) % x.lengthA, fill := fill
        state := if emptied then .done else x.state } ∧
      x.byteRecords = (if x.watermark ≠ 0 ∧ fill = x.watermark then [(.watermark, .none)] else []) ++
        (if emptied then [(.channelEnded, .finished)] else [])) ∧
    (x.mode = .alternating → x.position + 1 ≠ (if x.active = .segA then x.lengthA else x.lengthB) →
      x.afterByte = { x with shortRun := false, position := x.position + 1 } ∧ x.byteRecords = []) ∧
    (x.mode = .alternating → x.active = .segA → x.position + 1 = x.lengthA →
      x.afterByte = { x with
        shortRun := false, position := 0, ownerA := .host
        state := if ends then .done else x.state
        active := if ends then .segA else .segB
        stalled := if ends then x.stalled else x.ownerB = .host } ∧
      x.byteRecords = (.segmentDone, .segmentA) :: if ends then [(.channelEnded, .finished)] else []) ∧
    (x.mode = .alternating → x.active = .segB → x.position + 1 = x.lengthB →
      x.afterByte = { x with
        shortRun := false, position := 0, ownerB := .host
        state := if ends then .done else x.state
        active := if ends then .segB else .segA
        stalled := if ends then x.stalled else x.ownerA = .host } ∧
      x.byteRecords = (.segmentDone, .segmentB) :: if ends then [(.channelEnded, .finished)] else [])) ∧
  ∀ x : ChannelContext,
    x.address = (if x.mode = .alternating ∧ x.active = .segB then x.baseB else x.baseA) + x.position ∧
    (x.takesArrivals = true ↔ x.direction = .receive ∧ (x.state = .active ∨ x.state = .ending)) ∧
    (x.answersDemands = true ↔ x.direction = .transmit ∧ (x.state = .active ∨ x.state = .ending)) ∧
    (x.canMove = true ↔ x.mode = .single ∨ (x.mode = .ring ∧ x.direction = .receive ∧ x.fill < x.lengthA) ∨
      (x.mode = .ring ∧ x.direction = .transmit ∧ 0 < x.fill) ∨ (x.mode = .alternating ∧ x.stalled = false))

/-- A CHANNEL slot at a running channel that cannot move the byte: a receive channel with a full RING segment or a stall loses
it, a transmit channel with an empty RING segment or a stall sends the idle byte. No byte of memory changes, the count rises
to at most 255, and SHORTFALL is posted at the first of a run (sections 6.3, 6.5 and 6.8). -/
def Obligations.ShortfallIsCountedAndPostedOnce : Prop :=
  (∀ (s : State) (c : Channel), s.aligner.arrivalDue = true →
     (s.maps.bank s.maps.rxActive).rxEntry (s.aligner.nextSlot s.transmitter.frameLength) = ⟨.channel, c⟩ →
     (s.channel c).takesArrivals = true →
     ((s.channel c).mode = .ring ∧ (s.channel c).lengthA ≤ (s.channel c).fill ∨
       (s.channel c).mode = .alternating ∧ (s.channel c).stalled = true) →
     ∃ t, exec .slotArrival s = .next t ∧
       t = { s with
         aligner := s.aligner.handOnSlot
         channels := t.channels
         notifications := (s.shortfallPosts c).foldl Notifications.take s.notifications } ∧
       t.channel c = { s.channel c with
         shortRun := true, shortfalls := BitVec.ofNat 8 (min 255 ((s.channel c).shortfalls.toNat + 1)) } ∧
       ∀ d, d ≠ c → t.channel d = s.channel d) ∧
  (∀ (s : State) (c : Channel), s.transmitter.demandDue = true →
     ((s.maps.bank s.maps.txActive).txEntry (s.transmitter.slotIndex + 1)).kind = .channel →
     ((s.maps.bank s.maps.txActive).txEntry (s.transmitter.slotIndex + 1)).channel = c →
     (s.channel c).answersDemands = true → (s.channel c).poolMode = false →
     ((s.channel c).mode = .ring ∧ (s.channel c).fill = 0 ∨
       (s.channel c).mode = .alternating ∧ (s.channel c).stalled = true) →
     ∃ t, exec .slotDemand s = .next t ∧
       t = { s with
         transmitter := { s.transmitter with nextByte := some s.transmitter.idleByte }
         channels := t.channels
         notifications := (s.shortfallPosts c).foldl Notifications.take s.notifications } ∧
       t.channel c = { s.channel c with
         shortRun := true, shortfalls := BitVec.ofNat 8 (min 255 ((s.channel c).shortfalls.toNat + 1)) } ∧
       ∀ d, d ≠ c → t.channel d = s.channel d)

/-- The host position of a RING channel (section 6.10): a byte moved and a shortfall leave it where it is; a taken ADVANCE moves it
on by the amount, modulo the length; START sets it to 0 for a receive channel and to the amount modulo the length for a
transmit channel; a taken mode byte or segment A write in IDLE or DONE, and an engine reset, set it to 0. -/
def Obligations.HostPositionFollowsStartAndAdvance : Prop :=
  (∀ x : ChannelContext, x.mode = .ring → 1 ≤ x.lengthA → x.canMove = true →
    x.afterByte.hostPosition = x.hostPosition) ∧
  (∀ x : ChannelContext, x.afterShortfall.hostPosition = x.hostPosition) ∧
  (∀ (s t : State) (c : Channel), s.commandReady → s.port.operand0.toNat = c.val → exec .cmdAdvance s = .next t →
    t.port.result = .ok →
    (t.channel c).hostPosition =
      ((s.channel c).hostPosition + s.port.amount) % ((s.channel c).lengthA : Int)) ∧
  (∀ (s t : State) (c : Channel), s.commandReady → s.port.operand0.toNat = c.val → (s.channel c).mode = .ring →
    exec .cmdStart s = .next t → t.port.result = .ok →
    (t.channel c).hostPosition =
      if (s.channel c).direction = .receive then 0 else (s.port.amount : Int) % ((s.channel c).lengthA : Int)) ∧
  (∀ (s t : State) (v : Byte) (c : Instr), s.hostReady → s.port.page = 2 →
    c ∈ [Instr.modeByteWrite v, .wideHighByteCommit .segABase v, .wideHighByteCommit .segALength v] →
    (s.channel s.port.channelSelect).atRest = true → s.port.accessError = false →
    exec c s = .next t → t.port.accessError = false → (t.channel s.port.channelSelect).hostPosition = 0) ∧
  ∀ (s t : State) (c : Channel), s.commandReady → exec .cmdEngineReset s = .next t → (t.channel c).hostPosition = 0

/-- Buffer memory changes by the data write of the buffer port, by slot arrivals, and by power-on and its clearing: every
other command leaves every byte as it was (section 6.1). -/
def Obligations.NothingElseWritesMemory : Prop :=
  ∀ (c : Instr) (s t : State), c ≠ .powerOn → c ≠ .powerOnClearingEnd → c ≠ .slotArrival →
    (∀ v, c ≠ .bufferDataWrite v) → exec c s = .next t → ∀ a, t.byteAt a = s.byteAt a

/-! ### Pool bursts -/

/-- TRANSMIT_FRAME_START at a frame index other than 0 (sections 1.4, 7.2 and 7.4): the marker of the next index goes out, the
cycle count stays, and the grant goes to the first member of the rotation list with a byte available: it takes the smaller of
P and those bytes, records the tag, and the member goes to the tail. With fewer than 3 pool slots, or with no such member, the
frame has an empty burst and the list stays. The marker's first bit goes out, and the receive side takes it under local loop
(section 1.7). The index of the frame that starts is, in every statement, 0 for the first frame behind an enable, else one
more than the last, from 11 to 0. A frame starts behind an enable and behind the last bit of slot F-1, but not behind frame 11
in STOPPING, and at no other time does the event change anything (assumption 2); under local loop it waits while an event of
the looped bits is due (assumption 4). The bytes available are, in every statement, segment A's length less the position in
SINGLE, the fill in RING, and the active segment's length less the position in ALTERNATING, 0 while stalled. The pool slots
counted are the slot indexes 1 to F-1, in increasing order, whose entry in the direction's active bank is POOL (section 4.4),
here and at the parser. -/
def Obligations.FrameStartGrantsTheFirstReadyMember : Prop :=
  (∀ s : State, s.frameStartReady = true → s.transmitter.nextFrame ≠ 0 →
     let k := (s.maps.txPoolSlots (s.transmitter.frameLength - 1)).length
     let sent := fun u : PoolUnit =>
       ({ s with
         transmitter :=
           { s.transmitter with
             begun := true
             frameIndex := s.transmitter.nextFrame
             slotIndex := 0
             bitIndex := 0
             slotByte := composeMarker s.markerFault s.transmitter.nextFrame
             nextByte := none }
         pool := u } : State).takeLooped
     ((k < 3 ∨ ∀ c ∈ s.pool.rotation, (s.channel c).available = 0) →
       exec .transmitFrameStart s = .next (sent { s.pool with
         txBurst := { poolSlots := k, granted := none, tag := 0, length := 0, answered := 0 } })) ∧
     ∀ (before after : List Channel) (c : Channel), 3 ≤ k → s.pool.rotation.Nodup →
       s.pool.rotation = before ++ c :: after → (∀ d ∈ before, (s.channel d).available = 0) →
       0 < (s.channel c).available →
       exec .transmitFrameStart s = .next (sent { s.pool with
         rotation := before ++ after ++ [c]
         txBurst :=
           { poolSlots := k, granted := some c, tag := (s.channel c).tag
             length := min (k - 2) (s.channel c).available, answered := 0 } })) ∧
  (∀ x : Transmitter,
    (x.begun = false → x.nextFrame = 0) ∧ (x.begun = true → x.nextFrame = (x.frameIndex + 1) % 12)) ∧
  (∀ s : State,
    (s.frameStartReady = true ↔
      (s.transmitter.begun = false ∧ s.transmitter.state ≠ .stopped ∨
        s.transmitter.begun = true ∧ s.transmitter.frameLength ≤ s.transmitter.slotIndex + 1 ∧
          7 ≤ s.transmitter.bitIndex ∧
          (s.transmitter.state = .running ∨ s.transmitter.state = .stopping ∧ s.transmitter.frameIndex ≠ 11)) ∧
      ¬(s.aligner.localLoop = true ∧ s.aligner.state ≠ .off ∧ s.bitHeld = true)) ∧
    (s.frameStartReady = false → exec .transmitFrameStart s = .next s)) ∧
  (∀ x : ChannelContext, x.available =
    match x.mode with
    | .single => x.lengthA - x.position
    | .ring => x.fill
    | .alternating =>
      if x.stalled then 0
      else if x.active = .segA then x.lengthA - x.position
      else x.lengthB - x.position) ∧
  ∀ (m : SlotMaps) (last : Nat),
    m.txPoolSlots last =
      ((List.finRange 63).filter fun i =>
        i.val + 1 ≤ last ∧ (if m.txActive = .bankA then m.bankA else m.bankB).tx[i].kind = .pool).map (·.val + 1) ∧
    m.rxPoolSlots last =
      ((List.finRange 63).filter fun i =>
        i.val + 1 ≤ last ∧ (if m.rxActive = .bankA then m.bankA else m.bankB).rx[i].kind = .pool).map (·.val + 1)

/-- SLOT_DEMAND of a POOL slot that sends no data byte: the tag or 0 at the first pool slot, the committed length at the second,
and the idle byte behind the data bytes and in a frame with fewer than 3 pool slots; a burst whose channel no longer runs
at the tag slot is withdrawn (sections 4.4, 7.2 and 7.4). -/
def Obligations.PoolSlotSendsTagLengthOrIdle : Prop :=
  ∀ s : State, s.transmitter.demandDue = true →
    ((s.maps.bank s.maps.txActive).txEntry (s.transmitter.slotIndex + 1)).kind = .pool →
    let ordinal := (s.maps.txPoolSlots (s.transmitter.slotIndex + 1)).length
    let b := s.pool.txBurst
    let fixed := fun (v : Byte) (w : TxBurst) =>
      ({ s with
        transmitter := { s.transmitter with nextByte := some v }
        pool := { s.pool with txBurst := w } } : State)
    (b.poolSlots < 3 → exec .slotDemand s = .next (fixed s.transmitter.idleByte b)) ∧
    (3 ≤ b.poolSlots → ordinal = 1 →
      (b.granted = none → exec .slotDemand s = .next (fixed 0 b)) ∧
      (∀ c, b.granted = some c → (s.channel c).answersDemands = true → exec .slotDemand s = .next (fixed b.tag b)) ∧
      (∀ c, b.granted = some c → (s.channel c).answersDemands = false →
        exec .slotDemand s = .next (fixed 0
          { poolSlots := b.poolSlots, granted := none, tag := 0, length := 0, answered := 0 }))) ∧
    (3 ≤ b.poolSlots → ordinal = 2 → exec .slotDemand s = .next (fixed (BitVec.ofNat 8 b.length) b)) ∧
    (3 ≤ b.poolSlots → 3 ≤ ordinal → (b.granted = none ∨ b.length ≤ b.answered) →
      exec .slotDemand s = .next (fixed s.transmitter.idleByte b)) ∧
    ∀ c, 3 ≤ b.poolSlots → 3 ≤ ordinal → b.granted = some c → b.answered < b.length →
      (s.channel c).answersDemands = false →
      exec .slotDemand s = .next (fixed s.transmitter.idleByte { b with answered := b.answered + 1 })

/-- A burst has no shortfall while its channel runs: in a good state, every data slot of the burst sends a byte read from the
granted channel's segment, and the shortfall count stays (section 7.4). The slot counts as answered, the context becomes what
the rules of its mode leave, the byte's records are posted in order, a channel that enters DONE leaves the rotation list
(section 5.8), and nothing else changes, every byte of memory included (sections 6.1 to 6.3 and 6.5). -/
def Obligations.RunningBurstHasNoShortfall : Prop :=
  ∀ (s : State) (c : Channel), s.Good → s.transmitter.demandDue = true →
    ((s.maps.bank s.maps.txActive).txEntry (s.transmitter.slotIndex + 1)).kind = .pool →
    3 ≤ s.pool.txBurst.poolSlots → 3 ≤ (s.maps.txPoolSlots (s.transmitter.slotIndex + 1)).length →
    s.pool.txBurst.granted = some c → s.pool.txBurst.answered < s.pool.txBurst.length →
    (s.channel c).answersDemands = true →
    ∃ t, exec .slotDemand s = .next t ∧
      t = { s with
        transmitter := { s.transmitter with nextByte := some (s.memory.read (s.channel c).address) }
        channels := t.channels
        notifications := (s.bytePosts c).foldl Notifications.take s.notifications
        pool := { s.pool with
          rotation := leftIfDone s.pool.rotation c (s.channel c).afterByte
          txBurst := { s.pool.txBurst with answered := s.pool.txBurst.answered + 1 } } } ∧
      t.channel c = (s.channel c).afterByte ∧ (t.channel c).shortfalls = (s.channel c).shortfalls ∧
      ∀ d, d ≠ c → t.channel d = s.channel d

/-- SLOT_ARRIVAL of a POOL slot (section 7.6). Outside a burst the byte is dropped; a tag of 0 is an empty burst; another tag sets
the target to a running receive channel of its tag table entry or to none; a length above P counts a pool format error, a
length of 0 nothing, and data without a taker one pool discard. In the data, the byte is a byte arrival at the target, the
data count rises, and at the last byte the phase becomes SKIP: at a running target that can take it the byte is stored at
base plus position and no other byte changes; at one that cannot it is a shortfall; at a target that no longer runs it is
discarded and not counted. -/
def Obligations.ParserReadsTagLengthAndData : Prop :=
  (∀ s : State, s.aligner.arrivalDue = true →
     ((s.maps.bank s.maps.rxActive).rxEntry (s.aligner.nextSlot s.transmitter.frameLength)).kind = .pool →
     let b := byteOfBits s.aligner.bits
     let r := s.pool.rxBurst
     let parsed := fun (w : RxBurst) (m : LineMonitor) =>
       ({ s with aligner := s.aligner.handOnSlot, pool := { s.pool with rxBurst := w }, monitor := m } : State)
     (r.phase = .noBurst ∨ r.phase = .skip → exec .slotArrival s = .next (parsed r s.monitor)) ∧
     (r.phase = .awaitTag →
       (b = 0 → exec .slotArrival s = .next (parsed { r with phase := .skip } s.monitor)) ∧
       (∀ (i : Fin 31) (c : Channel), b.toNat = i.val + 1 → s.pool.tagTable[i] = some c →
         (s.channel c).takesArrivals = true →
         exec .slotArrival s = .next (parsed { r with phase := .awaitLength, target := some c } s.monitor)) ∧
       (∀ (i : Fin 31) (c : Channel), b.toNat = i.val + 1 → s.pool.tagTable[i] = some c →
         (s.channel c).takesArrivals = false →
         exec .slotArrival s = .next (parsed { r with phase := .awaitLength, target := none } s.monitor)) ∧
       (∀ i : Fin 31, b.toNat = i.val + 1 → s.pool.tagTable[i] = none →
         exec .slotArrival s = .next (parsed { r with phase := .awaitLength, target := none } s.monitor)) ∧
       (32 ≤ b.toNat →
         exec .slotArrival s = .next (parsed { r with phase := .awaitLength, target := none } s.monitor))) ∧
     (r.phase = .awaitLength →
       exec .slotArrival s = .next (
         if r.poolSlots - 2 < b.toNat then
           parsed { r with phase := .skip } { s.monitor with
             formatErrors := BitVec.ofNat 8 (min 255 (s.monitor.formatErrors.toNat + 1)) }
         else if b = 0 then parsed { r with phase := .skip } s.monitor
         else if r.target = none then
           parsed { r with phase := .skip } { s.monitor with
             poolDiscards := BitVec.ofNat 8 (min 255 (s.monitor.poolDiscards.toNat + 1)) }
         else parsed { r with phase := .data, length := b.toNat } s.monitor))) ∧
  (∀ (s : State) (c : Channel), s.aligner.arrivalDue = true → s.port.init = false → s.memory.wf →
     ((s.maps.bank s.maps.rxActive).rxEntry (s.aligner.nextSlot s.transmitter.frameLength)).kind = .pool →
     s.pool.rxBurst.phase = .data → s.pool.rxBurst.target = some c →
     let r := s.pool.rxBurst
     let w : RxBurst :=
       { r with received := r.received + 1, phase := if r.received + 1 = r.length then .skip else .data }
     ((s.channel c).takesArrivals = false →
       exec .slotArrival s =
         .next { s with aligner := s.aligner.handOnSlot, pool := { s.pool with rxBurst := w } }) ∧
     ((s.channel c).takesArrivals = true → (s.channel c).canMove = true → (s.channel c).address < 8192 →
       ∃ t, exec .slotArrival s = .next t ∧
         t = { s with
           aligner := s.aligner.handOnSlot
           memory := t.memory
           channels := t.channels
           notifications := (s.bytePosts c).foldl Notifications.take s.notifications
           pool := { s.pool with
             rxBurst := w, rotation := leftIfDone s.pool.rotation c (s.channel c).afterByte } } ∧
         (∀ a, t.byteAt a = if a = (s.channel c).address then byteOfBits s.aligner.bits else s.byteAt a) ∧
         t.channel c = (s.channel c).afterByte ∧ ∀ d, d ≠ c → t.channel d = s.channel d) ∧
     ((s.channel c).takesArrivals = true → (s.channel c).canMove = false →
       ∃ t, exec .slotArrival s = .next t ∧
         t = { s with
           aligner := s.aligner.handOnSlot
           channels := t.channels
           notifications := (s.shortfallPosts c).foldl Notifications.take s.notifications
           pool := { s.pool with rxBurst := w } } ∧
         t.channel c = (s.channel c).afterShortfall ∧ ∀ d, d ≠ c → t.channel d = s.channel d))

/-- TAG_TABLE_ENTRY_WRITE (R165): bit 7 clear sets the selected entry to none, bit 7 set with a channel of 0 to 19 names it, 20 to
31 is refused, and so is every write while the tag select holds no tag; a read shows 80H plus the channel, 00H for none, and
00H while the tag select holds no tag; every entry holds none at reset. A burst past its tag slot keeps its target. -/
def Obligations.TagTableEntryIsDecidedByBit7 : Prop :=
  (∀ i : Fin 31, State.reset.pool.tagTable[i] = none) ∧
  ∀ (v : Byte) (s : State), s.hostReady → s.port.page = 4 →
    (s.port.tagSelect = 0 → exec (.tagTableEntryWrite v) s = .next s.refuseWrite ∧ s.busRead 0x05 = 0) ∧
    ∀ i : Fin 31, s.port.tagSelect.val = i.val + 1 →
      (v.getLsbD 7 = false → exec (.tagTableEntryWrite v) s =
        .next { s with pool := { s.pool with tagTable := s.pool.tagTable.set i none } }) ∧
      (∀ c : Channel, v.getLsbD 7 = true → (v.extractLsb' 0 5).toNat = c.val → exec (.tagTableEntryWrite v) s =
        .next { s with pool := { s.pool with tagTable := s.pool.tagTable.set i (some c) } }) ∧
      (v.getLsbD 7 = true → 20 ≤ (v.extractLsb' 0 5).toNat →
        exec (.tagTableEntryWrite v) s = .next s.refuseWrite) ∧
      (s.pool.tagTable[i] = none → s.busRead 0x05 = 0) ∧
      ∀ c : Channel, s.pool.tagTable[i] = some c → (s.busRead 0x05).toNat = 128 + c.val

/-! ### The Trunk Transmitter -/

/-- The marker (sections 1.2 and 1.4): the well-formed marker values are A0H to ABH and B0H to BBH and no others, with the
position in bits 3 to 0 and the remote-fault flag in bit 4, and every frame start sends a well-formed one that carries its
frame index, and the flag of the force control or of an enabled aligner that is not ALIGNED. -/
def Obligations.MarkersSentAreWellFormed : Prop :=
  (∀ b : Byte, wellFormedMarker b = true ↔
    (0xA0 ≤ b.toNat ∧ b.toNat ≤ 0xAB) ∨ (0xB0 ≤ b.toNat ∧ b.toNat ≤ 0xBB)) ∧
  (∀ b : Byte, markerPosition b = b.toNat % 16 ∧ markerFlag b = b.getLsbD 4) ∧
  (∀ (flag : Bool) (p : Fin 12), (composeMarker flag p.val).toNat = 160 + (if flag then 16 else 0) + p.val) ∧
  ∀ s t : State, s.frameStartReady = true → exec .transmitFrameStart s = .next t →
    wellFormedMarker t.transmitter.slotByte = true ∧ markerPosition t.transmitter.slotByte = t.transmitter.frameIndex ∧
    (markerFlag t.transmitter.slotByte = true ↔
      s.transmitter.forceRemoteFault = true ∨ s.aligner.state = .hunt ∨ s.aligner.state = .confirm)

/-- The bits on TXD (sections 1.2, 1.4 and 1.7). TXD is one while no frame has begun, and else the bit of the slot being sent,
the most significant bit first. A step with no command waiting is one TXCLK bit position (the model's choice, assumption 1):
the next bit of the slot, or behind its eighth bit the first bit of the next slot, whose byte its demand has fixed; STOPPED
keeps its place. Seven such steps send the other seven bits of a slot, and an eighth begins the next slot. A frame start and
the entry to STOPPED wait for the last bit of slot F-1. Under local loop the receive side takes each bit as it is sent, and
otherwise nothing else changes; a step waits while an event of the looped bits is due (assumption 4), while a demand is not
answered and while a frame start is next (assumption 1). -/
def Obligations.BitsGoOutMostSignificantFirst : Prop :=
  (∀ t : Transmitter, t.begun = false → t.line = true) ∧
  (∀ t : Transmitter, t.begun = true → t.line = t.slotByte.getLsbD (7 - t.bitIndex)) ∧
  (∀ s : State, s.takeLooped =
    if s.aligner.localLoop = true ∧ s.aligner.state ≠ .off then s.takeBit s.transmitter.line else s) ∧
  (∀ s : State, s.loopHeld = true ↔ s.aligner.localLoop = true ∧ s.aligner.state ≠ .off ∧ s.bitHeld = true) ∧
  (∀ s : State, step { s with pending := [] } = .next ({ s with pending := [] } : State).txBitPosition ∧
    s.txBitPosition = { ({ s with pending := [] } : State).txBitPosition with pending := s.pending }) ∧
  (∀ s : State, s.pending = [] → s.loopHeld = true → step s = .next s) ∧
  (∀ s : State, s.pending = [] → s.loopHeld = false →
    let moved := fun t : Transmitter => ({ s with transmitter := t } : State).takeLooped
    (s.transmitter.state = .stopped → step s = .next s.takeLooped) ∧
    (s.transmitter.state ≠ .stopped → s.transmitter.begun = false → step s = .next s) ∧
    (s.transmitter.state ≠ .stopped → s.transmitter.begun = true →
      (s.transmitter.bitIndex < 7 →
        step s = .next (moved { s.transmitter with bitIndex := s.transmitter.bitIndex + 1 })) ∧
      (7 ≤ s.transmitter.bitIndex → ∀ b, s.transmitter.nextByte = some b →
        step s = .next (moved { s.transmitter with
          slotIndex := s.transmitter.slotIndex + 1, bitIndex := 0, slotByte := b, nextByte := none })) ∧
      (7 ≤ s.transmitter.bitIndex → s.transmitter.nextByte = none → step s = .next s))) ∧
  (∀ s : State, s.aligner.localLoop = false → s.transmitter.state ≠ .stopped → s.transmitter.begun = true →
    s.transmitter.bitIndex = 0 →
    (∀ n, n < 8 → (State.txBitPosition^[n] s).transmitter.line = s.transmitter.slotByte.getLsbD (7 - n)) ∧
    ∀ b, s.transmitter.nextByte = some b → State.txBitPosition^[8] s = { s with transmitter :=
      { s.transmitter with slotIndex := s.transmitter.slotIndex + 1, slotByte := b, nextByte := none } }) ∧
  ∀ s : State, s.transmitter.begun = true →
    (s.transmitter.slotIndex + 1 < s.transmitter.frameLength ∨ s.transmitter.bitIndex < 7) →
    exec .transmitFrameStart s = .next s ∧ exec .entryToStopped s = .next s

/-- TRANSMIT_FRAME_START at frame index 0 is a transmit cycle start (sections 1.4, 4.3, 5.5 and 7.2 to 7.4): the cycle count rises
by 1 and wraps, a pending switch completes with TX_MAP_SWITCHED stamped with the raised count, every transmit channel in
ARMED enters ACTIVE, those in pool mode join the tail of the rotation list in increasing channel number, and the grant of
frame 0 is made with the pool slots of the bank then in force. Whether the entry to ACTIVE or the grant comes first is free
(assumption 6): the grant is over the list with the joining channels, or over the list as it stood, and they join behind
it. The link side but for the looped bit (section 1.7), the host port and buffer memory are unchanged. -/
def Obligations.TransmitCycleStartActivatesAndSwitches : Prop :=
  ∀ s : State, s.RotationLaw → s.frameStartReady = true → s.transmitter.nextFrame = 0 →
    let joiners := (List.finRange 20).filter fun c =>
      (s.channel c).direction = .transmit && (s.channel c).state = .armed && (s.channel c).poolMode
    let maps := if s.maps.txPending then
      { s.maps with txActive := s.maps.txActive.other, txPending := false } else s.maps
    let k := (maps.txPoolSlots (s.transmitter.frameLength - 1)).length
    ∃ t : State, exec .transmitFrameStart s = .next t.takeLooped ∧
      t = { s with
        transmitter :=
          { s.transmitter with
            begun := true, frameIndex := 0, slotIndex := 0, bitIndex := 0
            slotByte := composeMarker s.markerFault 0, nextByte := none
            cycleCount := s.transmitter.cycleCount + 1 }
        maps := maps
        notifications := if s.maps.txPending then
            s.notifications.take ⟨.txMapSwitched, .link, .none, s.transmitter.cycleCount + 1⟩ else s.notifications
        channels := t.channels
        draws := t.draws
        pool := { s.pool with rotation := t.pool.rotation, txBurst := t.pool.txBurst } } ∧
      (∀ c : Channel, t.channel c =
        if (s.channel c).direction = .transmit ∧ (s.channel c).state = .armed then
          { s.channel c with state := .active } else s.channel c) ∧
      (s.GrantLeaves k (s.pool.rotation ++ joiners) t.pool.rotation t.pool.txBurst ∨
        ∃ list, s.GrantLeaves k s.pool.rotation list t.pool.txBurst ∧ t.pool.rotation = list ++ joiners)

/-- TRANSMIT_ENABLE_WRITE (section 1.4): from STOPPED an enable of 1 makes the transmitter RUNNING with its indexes at 0, from
RUNNING a 0 makes it STOPPING, from STOPPING a 1 makes it RUNNING with the cycle going on, and the other writes change
the control alone. -/
def Obligations.TransmitEnableWriteActsByState : Prop :=
  ∀ (v : Byte) (s : State), s.hostReady → s.port.page = 0 →
    ∃ x : Transmitter, exec (.transmitEnableWrite v) s = .next { s with transmitter := x } ∧ x.enable = v.getLsbD 0 ∧
      (s.transmitter.state = .stopped → v.getLsbD 0 = true →
        x = { s.transmitter with
          enable := true, state := .running, begun := false, frameIndex := 0, slotIndex := 0, bitIndex := 0 }) ∧
      (s.transmitter.state = .running → v.getLsbD 0 = false →
        x = { s.transmitter with enable := false, state := .stopping }) ∧
      (s.transmitter.state = .stopping → v.getLsbD 0 = true →
        x = { s.transmitter with enable := true, state := .running }) ∧
      (s.transmitter.state = .stopped ∧ v.getLsbD 0 = false ∨ s.transmitter.state = .running ∧ v.getLsbD 0 = true ∨
        s.transmitter.state = .stopping ∧ v.getLsbD 0 = false → x = { s.transmitter with enable := v.getLsbD 0 })

/-- ENTRY_TO_STOPPED (sections 1.4 and 4.3): behind the last bit of slot F-1 of frame 11 in STOPPING the transmitter is
STOPPED with its indexes at 0 and TXD at one, a pending transmit switch completes with the count of the cycle just ended, and
transmit channels keep their states; before that bit, in another frame and in another state, nothing happens. No further frame
is begun behind that bit. -/
def Obligations.StoppingEndsAfterFrame11 : Prop :=
  (∀ s : State, s.transmitter.stopDue = true →
    ∃ t, exec .entryToStopped s = .next t ∧
      t = { s with
        transmitter := t.transmitter
        maps := if s.maps.txPending then
            { s.maps with txActive := s.maps.txActive.other, txPending := false } else s.maps
        notifications := if s.maps.txPending then
            s.notifications.take ⟨.txMapSwitched, .link, .none, s.transmitter.cycleCount⟩ else s.notifications } ∧
      t.transmitter.state = .stopped ∧ t.transmitter.line = true ∧ t.transmitter.frameIndex = 0 ∧
      t.transmitter.slotIndex = 0 ∧ t.transmitter.bitIndex = 0 ∧ t.transmitter.cycleCount = s.transmitter.cycleCount ∧
      t.transmitter.enable = s.transmitter.enable ∧ t.transmitter.frameLength = s.transmitter.frameLength ∧
      t.transmitter.idleByte = s.transmitter.idleByte ∧
      t.transmitter.forceRemoteFault = s.transmitter.forceRemoteFault) ∧
  (∀ s : State, (s.transmitter.state ≠ .stopping ∨ s.transmitter.frameIndex ≠ 11 ∨
      s.transmitter.slotIndex + 1 < s.transmitter.frameLength ∨ s.transmitter.bitIndex < 7) →
    exec .entryToStopped s = .next s) ∧
  ∀ s : State,
    (s.transmitter.stopDue = true ↔ s.transmitter.state = .stopping ∧ s.transmitter.begun = true ∧
      s.transmitter.frameIndex = 11 ∧ s.transmitter.frameLength ≤ s.transmitter.slotIndex + 1 ∧
      7 ≤ s.transmitter.bitIndex) ∧
    (s.transmitter.stopDue = true → exec .transmitFrameStart s = .next s)

/-- FRAME_LENGTH_WRITE: a value of 16 to 64 is taken while the transmitter is STOPPED and the aligner OFF; every other write is
refused with ACCESS_ERROR; the maps, the channels and the tag table do not change (section 1.5). LOCAL_LOOP_WRITE (sections
1.7 and 3.4): the control takes bit 0; a change while receive is enabled is marked for the HOLD detector, which begins a new
window at the first bit of the new source (assumption 22), and leaves the rest of the monitor as it is; a write of the value
held changes nothing. -/
def Obligations.FrameLengthAndLocalLoopWrites : Prop :=
  (∀ (v : Byte) (s : State), s.hostReady → s.port.page = 0 →
     exec (.frameLengthWrite v) s = .next (
       if s.transmitter.state = .stopped ∧ s.aligner.state = .off ∧ 16 ≤ v.toNat ∧ v.toNat ≤ 64 then
         { s with transmitter := { s.transmitter with frameLength := v.toNat } }
       else { s with port := { s.port with accessError := true } })) ∧
  (∀ (v : Byte) (s : State), s.hostReady → s.port.page = 0 →
     (v.getLsbD 0 = s.aligner.localLoop → exec (.localLoopWrite v) s = .next s) ∧
     (v.getLsbD 0 ≠ s.aligner.localLoop → s.aligner.state = .off →
       exec (.localLoopWrite v) s = .next { s with aligner := { s.aligner with localLoop := v.getLsbD 0 } }) ∧
     (v.getLsbD 0 ≠ s.aligner.localLoop → s.aligner.state ≠ .off →
       exec (.localLoopWrite v) s = .next { s with
         aligner := { s.aligner with localLoop := v.getLsbD 0 }
         monitor := { s.monitor with holdRestart := true } }))

/-! ### The Receive Aligner -/

/-- RECEIVE_ENABLE_WRITE (sections 2.1, 2.5 and 3.4): the control takes bit 0; from OFF a 1 starts a fresh search in HUNT; in the
other states a 1 changes nothing but the control; a 0 in OFF changes the control alone; a 0 in HUNT or CONFIRM moves the
aligner to OFF, clears the candidate, the stored bits and the counts and both conditions with every run and window count,
posts nothing and counts nothing, and the cycle count and the offset stay; a 0 in ALIGNED does the same and is reported as a
leaving, whose posts come in some order (assumption 7), with no ALIGN_LOST and no loss counted. -/
def Obligations.ReceiveEnableWriteActsByState : Prop :=
  ∀ (v : Byte) (s : State), s.hostReady → s.port.page = 0 →
    (s.aligner.state = .off → v.getLsbD 0 = true →
      exec (.receiveEnableWrite v) s = .next { s with aligner := { s.aligner with
        enable := true, state := .hunt, bits := [], lateBit := false, candidate := none
        expectedPlace := 0, expectedPosition := 0
        confirmations := 0 } }) ∧
    (s.aligner.state ≠ .off ∧ v.getLsbD 0 = true ∨ s.aligner.state = .off ∧ v.getLsbD 0 = false →
      exec (.receiveEnableWrite v) s = .next { s with aligner := { s.aligner with enable := v.getLsbD 0 } }) ∧
    (s.aligner.state = .hunt ∨ s.aligner.state = .confirm → v.getLsbD 0 = false →
      exec (.receiveEnableWrite v) s = .next { s with
        aligner := { s.aligner with
          enable := false, state := .off, bits := [], lateBit := false, candidate := none
          expectedPlace := 0, expectedPosition := 0
          confirmations := 0, badMarkers := 0, frameEndDue := false, remoteFault := false, faultRun := 0 }
        monitor := { s.monitor with
          silence := false, zeroRun := 0, silenceWindow := none, hold := false, holdPosition := 0, holdZeros := 0
          holdWindowDone := false, lowWindows := 0, holdRestart := false } }) ∧
    (s.aligner.state = .aligned → v.getLsbD 0 = false →
      ∃ (t : State) (posts : List Post), exec (.receiveEnableWrite v) s = .next t ∧ posts.Perm s.leavingPosts ∧
        t = { s with
          aligner := { s.aligner with
            enable := false, state := .off, bits := [], lateBit := false, candidate := none
            expectedPlace := 0, expectedPosition := 0
            confirmations := 0, badMarkers := 0, frameEndDue := false, remoteFault := false, faultRun := 0 }
          monitor := { s.monitor with
            silence := false, zeroRun := 0, silenceWindow := none, hold := false, holdPosition := 0, holdZeros := 0
            holdWindowDone := false, lowWindows := 0, holdRestart := false }
          maps := s.maps.afterLeaving
          channels := t.channels
          draws := t.draws
          pool := { s.pool with
            rotation := s.pool.rotation.filter fun c => c ∉ s.endingRings
            rxBurst :=
              { poolSlots := s.pool.rxBurst.poolSlots, phase := .noBurst, target := none, length := 0, received := 0 } }
          notifications := posts.foldl Notifications.take s.notifications } ∧
        ∀ c : Channel, t.channel c = (s.channel c).afterFrameEnd)

/-- SEARCH_BYTE_EXAMINATION (section 2.2): a well-formed search byte with neither SILENCE nor HOLD declared becomes the
candidate, the next marker is expected F times 8 bit positions on with the next position, and the aligner is in CONFIRM; any
other search byte is passed over by one bit position. CONFIRM_MARKER_CHECK that does not reach ALIGNED (section 2.3): the
first good marker raises the confirmation count to 1 and moves the expected place and position on; a bad one returns to HUNT,
where the search goes on at the bit behind the candidate's first bit within the stored history. Nothing is posted or counted.
An examination is due in HUNT with eight bits there, a marker check in CONFIRM with the eight bits at the expected place; at
no other time does the event change anything (assumption 2). -/
def Obligations.CandidateIsFoundThenCheckedAtItsPlaces : Prop :=
  (∀ s : State, s.aligner.examinationDue = true →
     let b := byteOfBits s.aligner.bits
     (wellFormedMarker b = true → s.monitor.silence = false → s.monitor.hold = false →
       exec .searchByteExamination s = .next { s with aligner := { s.aligner with
         state := .confirm, lateBit := false, candidate := some (markerPosition b), expectedPlace := s.transmitter.frameLength * 8
         expectedPosition := (markerPosition b + 1) % 12, confirmations := 0 } }) ∧
     (wellFormedMarker b = false ∨ s.monitor.silence = true ∨ s.monitor.hold = true →
       exec .searchByteExamination s = .next { s with aligner := { s.aligner with
         bits := s.aligner.bits.tail, lateBit := false } })) ∧
  (∀ s : State, s.aligner.confirmCheckDue = true →
     let b := byteOfBits (s.aligner.bits.drop s.aligner.expectedPlace)
     let good := wellFormedMarker b = true ∧ markerPosition b = s.aligner.expectedPosition
     (good → s.aligner.confirmations = 0 →
       exec .confirmMarkerCheck s = .next { s with aligner := { s.aligner with
         lateBit := false, confirmations := 1, expectedPlace := s.aligner.expectedPlace + s.transmitter.frameLength * 8
         expectedPosition := (s.aligner.expectedPosition + 1) % 12 } }) ∧
     (¬good →
       exec .confirmMarkerCheck s = .next { s with aligner := { s.aligner with
         state := .hunt, bits := s.aligner.bits.tail, lateBit := false, candidate := none
         expectedPlace := 0, expectedPosition := 0
         confirmations := 0 } })) ∧
  ∀ s : State,
    (s.aligner.examinationDue = true ↔ s.aligner.state = .hunt ∧ 8 ≤ s.aligner.bits.length) ∧
    (s.aligner.confirmCheckDue = true ↔
      s.aligner.state = .confirm ∧ s.aligner.expectedPlace + 8 ≤ s.aligner.bits.length) ∧
    (s.aligner.examinationDue = false → exec .searchByteExamination s = .next s) ∧
    (s.aligner.confirmCheckDue = false → exec .confirmMarkerCheck s = .next s)

/-- CONFIRM_MARKER_CHECK at the second confirming marker (sections 2.4, 2.6, 2.7 and 7.6): the aligner is ALIGNED, that marker
is the first frame start and, at position 0, a cycle start; the next place is one frame on; the detector has read its flag;
ALIGN_GAINED is posted with the count as it then stands; the parser is ready for the frame, and nothing else changes. The
stored history is discarded, and in the aligner's ranges it ends with that marker, whose last bit is its bit 16 F + 8, so that
no bit received is lost (section 2.2, read by inference, assumption 5). That the candidate is cleared and the confirmation
count stands at 2 from then on is the model's choice (assumption 25). -/
def Obligations.SecondConfirmingMarkerGainsAlignment : Prop :=
  (∀ s : State, s.aligner.confirmCheckDue = true → s.aligner.confirmations = 1 → s.PendingLaw →
     let b := byteOfBits (s.aligner.bits.drop s.aligner.expectedPlace)
     let cycle := s.aligner.expectedPosition = 0
     let count := if cycle then s.aligner.cycleCount + 1 else s.aligner.cycleCount
     let k := (s.maps.rxPoolSlots (s.transmitter.frameLength - 1)).length
     wellFormedMarker b = true → markerPosition b = s.aligner.expectedPosition →
     ∃ t, exec .confirmMarkerCheck s = .next t ∧
       t = { s with
         aligner :=
           { s.aligner with
             state := .aligned
             bits := []
             lateBit := false
             candidate := none
             expectedPlace := (s.transmitter.frameLength - 1) * 8
             expectedPosition := (s.aligner.expectedPosition + 1) % 12
             confirmations := 2
             badMarkers := 0
             frameEndDue := false
             remoteFault := false
             faultRun := if markerFlag b then 1 else 0
             cycleCount := count
             cycleOffset := if cycle then s.transmitter.offset else s.aligner.cycleOffset }
         channels := t.channels
         pool := { s.pool with rxBurst :=
           { poolSlots := k, phase := if 3 ≤ k then .awaitTag else .noBurst, target := none, length := 0, received := 0 } }
         notifications := s.notifications.take ⟨.alignGained, .link, .none, count⟩ } ∧
       ∀ c : Channel, t.channel c =
         if cycle ∧ (s.channel c).direction = .receive ∧ (s.channel c).state = .armed then
           { s.channel c with state := .active } else s.channel c) ∧
  ∀ s : State, s.aligner.confirmCheckDue = true → s.aligner.confirmations = 1 →
    s.aligner.Ok s.transmitter.frameLength →
    s.aligner.bits.length = 16 * s.transmitter.frameLength + 8 ∧ s.aligner.bits.length = s.aligner.expectedPlace + 8

/-- ALIGNED_MARKER_CHECK of a good marker (sections 2.4 to 2.7, 4.3, 5.5 and 7.6): the bad-marker count is 0; the next place
is one frame on; at position 0 the cycle count rises, the offset is taken, a pending switch completes and receive channels in
ARMED enter ACTIVE; the parser begins a record with the bank then in force; the detector changes its condition at the third
differing flag in a row. The offset taken, in every statement, is 65535 while the transmitter is STOPPED or has begun no
frame, else (frame index * F + slot index) * 8 + bit index, which in the transmitter's ranges is below 96 * F. The posts of
the switch and of the detector come in some order (assumption 7). The check is due in ALIGNED at the expected place, behind
the frame end of the frame before, and at no other time does it change anything (assumption 2). -/
def Obligations.GoodMarkerStartsAFrame : Prop :=
  (∀ s : State, s.aligner.markerCheckDue = true →
     let b := byteOfBits s.aligner.bits
     let cycle := s.aligner.expectedPosition = 0
     let count := if cycle then s.aligner.cycleCount + 1 else s.aligner.cycleCount
     let switches := cycle ∧ s.maps.rxPending = true
     let maps := if switches then { s.maps with rxActive := s.maps.rxActive.other, rxPending := false } else s.maps
     let k := (maps.rxPoolSlots (s.transmitter.frameLength - 1)).length
     let differs := markerFlag b ≠ s.aligner.remoteFault
     let changes := differs ∧ s.aligner.faultRun = 2
     wellFormedMarker b = true → markerPosition b = s.aligner.expectedPosition →
     ∃ (t : State) (posts : List Post), exec .alignedMarkerCheck s = .next t ∧
       posts.Perm
         ((if switches then [(⟨.rxMapSwitched, .link, .none, count⟩ : Post)] else []) ++
           (if changes then
             [(⟨if markerFlag b then .remoteFaultOn else .remoteFaultOff, .link, .none, count⟩ : Post)] else [])) ∧
       t = { s with
         aligner :=
           { s.aligner with
             bits := s.aligner.bits.drop 8
             expectedPlace := (s.transmitter.frameLength - 1) * 8
             expectedPosition := (s.aligner.expectedPosition + 1) % 12
             badMarkers := 0
             remoteFault := if changes then markerFlag b else s.aligner.remoteFault
             faultRun := if differs ∧ s.aligner.faultRun ≠ 2 then s.aligner.faultRun + 1 else 0
             cycleCount := count
             cycleOffset := if cycle then s.transmitter.offset else s.aligner.cycleOffset }
         maps := maps
         channels := t.channels
         draws := t.draws
         pool := { s.pool with rxBurst :=
           { poolSlots := k, phase := if 3 ≤ k then .awaitTag else .noBurst, target := none, length := 0, received := 0 } }
         notifications := posts.foldl Notifications.take s.notifications } ∧
       ∀ c : Channel, t.channel c =
         if cycle ∧ (s.channel c).direction = .receive ∧ (s.channel c).state = .armed then
           { s.channel c with state := .active } else s.channel c) ∧
  (∀ s : State,
    (s.aligner.markerCheckDue = true ↔ s.aligner.state = .aligned ∧ s.aligner.expectedPlace = 0 ∧
      s.aligner.frameEndDue = false ∧ 8 ≤ s.aligner.bits.length) ∧
    (s.aligner.markerCheckDue = false → exec .alignedMarkerCheck s = .next s)) ∧
  ∀ x : Transmitter,
    (x.state = .stopped ∨ x.begun = false → x.offset = 65535) ∧
    (x.state ≠ .stopped → x.begun = true →
      x.offset = BitVec.ofNat 16 ((x.frameIndex * x.frameLength + x.slotIndex) * 8 + x.bitIndex) ∧
      (x.Ok → x.offset.toNat = (x.frameIndex * x.frameLength + x.slotIndex) * 8 + x.bitIndex ∧
        x.offset.toNat < 96 * x.frameLength))

/-- ALIGNED_MARKER_CHECK of a bad marker (sections 2.4 to 2.6, 3.7, 3.8, 4.3, 5.5 and 7.6): the marker-error counter rises to
at most 65535, and the step onto a threshold posts MARKER_THRESHOLD first. The first three in a row keep ALIGNED and are frame
starts like any other, cycle starts at position 0 among them, but leave the detector alone. The fourth loses alignment with
cause MARKERS and is no cycle start: the loss is counted, ALIGN_LOST stands ahead of the posts of the leaving, which come in
some order (assumption 7), and a fresh search begins (section 2.2). The confirmation count is kept over the loss (assumption
25). Nothing else changes. -/
def Obligations.FourthBadMarkerLosesAlignment : Prop :=
  ∀ s : State, s.aligner.markerCheckDue = true →
    let b := byteOfBits s.aligner.bits
    let counted := { s.monitor with markerErrors := BitVec.ofNat 16 (min 65535 (s.monitor.markerErrors.toNat + 1)) }
    let first := if s.monitor.markerErrors.toNat + 1 = s.monitor.threshold.toNat then
      [(⟨.markerThreshold, .link, .none, s.aligner.cycleCount⟩ : Post)] else []
    let cycle := s.aligner.expectedPosition = 0
    let count := if cycle then s.aligner.cycleCount + 1 else s.aligner.cycleCount
    let switches := cycle ∧ s.maps.rxPending = true
    let maps := if switches then { s.maps with rxActive := s.maps.rxActive.other, rxPending := false } else s.maps
    let k := (maps.rxPoolSlots (s.transmitter.frameLength - 1)).length
    ¬(wellFormedMarker b = true ∧ markerPosition b = s.aligner.expectedPosition) →
    (s.aligner.badMarkers ≠ 3 →
      ∃ t : State, exec .alignedMarkerCheck s = .next t ∧
        t = { s with
          monitor := counted
          aligner :=
            { s.aligner with
              bits := s.aligner.bits.drop 8
              expectedPlace := (s.transmitter.frameLength - 1) * 8
              expectedPosition := (s.aligner.expectedPosition + 1) % 12
              badMarkers := s.aligner.badMarkers + 1
              cycleCount := count
              cycleOffset := if cycle then s.transmitter.offset else s.aligner.cycleOffset }
          maps := maps
          channels := t.channels
          draws := t.draws
          pool := { s.pool with rxBurst :=
            { poolSlots := k, phase := if 3 ≤ k then .awaitTag else .noBurst, target := none, length := 0, received := 0 } }
          notifications :=
            (first ++ if switches then [(⟨.rxMapSwitched, .link, .none, count⟩ : Post)] else []).foldl
              Notifications.take s.notifications } ∧
        ∀ c : Channel, t.channel c =
          if cycle ∧ (s.channel c).direction = .receive ∧ (s.channel c).state = .armed then
            { s.channel c with state := .active } else s.channel c) ∧
    (s.aligner.badMarkers = 3 →
      ∃ (t : State) (posts : List Post), exec .alignedMarkerCheck s = .next t ∧ posts.Perm s.leavingPosts ∧
        t = { s with
          monitor := { counted with
            alignmentLosses := BitVec.ofNat 8 (min 255 (s.monitor.alignmentLosses.toNat + 1)) }
          aligner := { s.aligner with
            state := .hunt, bits := [], lateBit := false, candidate := none
            expectedPlace := 0, expectedPosition := 0
            badMarkers := 0, frameEndDue := false, remoteFault := false, faultRun := 0 }
          maps := s.maps.afterLeaving
          channels := t.channels
          draws := t.draws
          pool := { s.pool with
            rotation := s.pool.rotation.filter fun c => c ∉ s.endingRings
            rxBurst :=
              { poolSlots := s.pool.rxBurst.poolSlots, phase := .noBurst, target := none, length := 0, received := 0 } }
          notifications :=
            (first ++ ⟨.alignLost, .link, .markers, s.aligner.cycleCount⟩ :: posts).foldl
              Notifications.take s.notifications } ∧
        ∀ c : Channel, t.channel c = (s.channel c).afterFrameEnd)

/-- REALIGN (section 2.5): in OFF it is refused with BAD_STATE; in HUNT and CONFIRM it starts a fresh search; in ALIGNED the
loss is counted, ALIGN_LOST with cause COMMAND is posted, and then the posts of the leaving come in some order (assumption 7):
a pending receive switch completes, the RING receive channels in ENDING go to DONE and off the rotation list, the burst being
parsed ends, REMOTE_FAULT clears without a post, and the cycle count and the offset stay. The confirmation count is kept over
the loss (the model's choice, assumption 25). -/
def Obligations.RealignLeavesAlignment : Prop :=
  ∀ s : State, s.commandReady →
    (s.aligner.state = .off → exec .cmdRealign s = .next (s.setResult .badState)) ∧
    (s.aligner.state = .hunt ∨ s.aligner.state = .confirm →
      exec .cmdRealign s = .next { s with
        aligner := { s.aligner with
          state := .hunt, bits := [], lateBit := false, candidate := none
          expectedPlace := 0, expectedPosition := 0, confirmations := 0 }
        port := { s.port with result := .ok } }) ∧
    (s.aligner.state = .aligned →
      ∃ (t : State) (posts : List Post), exec .cmdRealign s = .next t ∧ posts.Perm s.leavingPosts ∧
        t = { s with
          port := { s.port with result := .ok }
          aligner := { s.aligner with
            state := .hunt, bits := [], lateBit := false, candidate := none
            expectedPlace := 0, expectedPosition := 0, badMarkers := 0
            frameEndDue := false, remoteFault := false, faultRun := 0 }
          monitor := { s.monitor with
            alignmentLosses := BitVec.ofNat 8 (min 255 (s.monitor.alignmentLosses.toNat + 1)) }
          maps := s.maps.afterLeaving
          channels := t.channels
          draws := t.draws
          pool := { s.pool with
            rotation := s.pool.rotation.filter fun c => c ∉ s.endingRings
            rxBurst :=
              { poolSlots := s.pool.rxBurst.poolSlots, phase := .noBurst, target := none, length := 0, received := 0 } }
          notifications :=
            (⟨.alignLost, .link, .command, s.aligner.cycleCount⟩ :: posts).foldl Notifications.take s.notifications } ∧
        ∀ c : Channel, t.channel c = (s.channel c).afterFrameEnd)

/-- FRAME_END (section 5.7): the RING receive channels in ENDING go to DONE with CHANNEL_ENDED, FINISHED, posted for each in
some order (assumption 7) and off the rotation list, and the other channels keep their states. The frame end is due behind the
arrival of slot F-1 in ALIGNED, and at no other time does the event change anything (assumption 2). The posts of a leaving
are, in every statement, RX_MAP_SWITCHED for a pending receive switch and those of the ending RING channels (section 2.5). -/
def Obligations.FrameEndFinishesEndingRings : Prop :=
  (∀ s : State, s.aligner.frameEndReady = true →
     ∃ (t : State) (posts : List Post), exec .frameEnd s = .next t ∧ posts.Perm s.endingPosts ∧
       t = { s with
         aligner := { s.aligner with frameEndDue := false }
         channels := t.channels
         draws := t.draws
         pool := { s.pool with rotation := s.pool.rotation.filter fun c => c ∉ s.endingRings }
         notifications := posts.foldl Notifications.take s.notifications } ∧
       ∀ c : Channel, t.channel c = (s.channel c).afterFrameEnd) ∧
  ∀ s : State,
    (s.aligner.frameEndReady = true ↔ s.aligner.state = .aligned ∧ s.aligner.frameEndDue = true) ∧
    (s.aligner.frameEndReady = false → exec .frameEnd s = .next s) ∧
    s.endingRings = ((List.finRange 20).filter fun c =>
      (s.channel c).direction = .receive ∧ (s.channel c).mode = .ring ∧ (s.channel c).state = .ending) ∧
    s.endingPosts = (s.endingRings.map fun c => ⟨.channelEnded, .channel c, .finished, s.aligner.cycleCount⟩) ∧
    s.leavingPosts =
      (if s.maps.rxPending then [⟨.rxMapSwitched, .link, .none, s.aligner.cycleCount⟩] else []) ++ s.endingPosts

/-! ### The Line Monitor -/

/-- RECEIVED_BIT_POSITION (sections 1.7 and 3.1 to 3.4): while receive is enabled the bit of RXD is taken once by each
detector and joins the bits of the aligner, and under local loop one TXCLK bit position goes by and its bit is taken instead;
while receive is disabled nothing changes. The first bit behind a change of local loop is the first of a new HOLD window, with
the low-window count at 0 and the HOLD condition kept; the SILENCE detector goes on. A bit does not come before the events of
the bit ahead of it (assumption 4). While the aligner examines stored bits behind the line, bits go on coming (section 2.2),
at most one between two of its examinations, since it is the faster (assumption 23), and none once the stored history has its
16 F + 8 bits, until the aligner has made its next examination, which is then due (assumption 5). -/
def Obligations.ReceivedBitReachesBothDetectors : Prop :=
  (∀ (bit : Bool) (s : State),
    let m := s.monitor
    let place := if m.holdRestart then 0 else m.holdPosition
    let zeros := if m.holdRestart then 0 else m.holdZeros
    let late := (s.aligner.state = .hunt ∧ 8 < s.aligner.bits.length) ∨
      (s.aligner.state = .confirm ∧ s.aligner.expectedPlace + 8 < s.aligner.bits.length)
    ∃ w : Option SilenceWindow,
      s.takeBit bit = { s with
        aligner := { s.aligner with bits := s.aligner.bits ++ [bit], lateBit := late }
        monitor := { m with
          zeroRun := if bit then 0 else min 160 (m.zeroRun + 1)
          silenceWindow := w
          holdZeros := if bit then zeros else min 3 (zeros + 1)
          holdPosition := if place = 1023 then 1023 else place + 1
          holdWindowDone := place = 1023
          lowWindows := if m.holdRestart then 0 else m.lowWindows
          holdRestart := false } } ∧
      (m.silence = false → w = m.silenceWindow) ∧
      (m.silence = true → m.silenceWindow = none → w = if bit then some ⟨1, 1⟩ else none) ∧
      ∀ x, m.silence = true → m.silenceWindow = some x →
        w = some ⟨x.position + 1, if bit then x.ones + 1 else x.ones⟩) ∧
  (∀ s : State,
    let a := s.aligner
    let m := s.monitor
    s.bitHeld = true ↔
      (m.silence = false ∧ m.zeroRun = 160) ∨
      (∃ w, m.silenceWindow = some w ∧ m.silence = true ∧ (w.ones = 16 ∨ (w.position = 128 ∧ w.ones < 16))) ∨
      m.holdWindowDone = true ∨
      ((a.state = .hunt ∨ a.state = .confirm) ∧ 16 * s.transmitter.frameLength + 8 ≤ a.bits.length) ∨
      (a.state = .hunt ∧ 8 ≤ a.bits.length ∧ (a.bits.length = 8 ∨ a.lateBit = true)) ∨
      (a.state = .confirm ∧ a.expectedPlace + 8 ≤ a.bits.length ∧
        (a.bits.length = a.expectedPlace + 8 ∨ a.lateBit = true)) ∨
      (a.state = .aligned ∧
        (a.frameEndDue = true ∨ (8 ≤ a.bits.length ∧ (8 ≤ a.expectedPlace ∨ a.expectedPlace = 0))))) ∧
  (∀ s : State, s.aligner.Ok s.transmitter.frameLength → s.aligner.state = .hunt ∨ s.aligner.state = .confirm →
    16 * s.transmitter.frameLength + 8 ≤ s.aligner.bits.length →
    s.aligner.examinationDue = true ∨ s.aligner.confirmCheckDue = true) ∧
  ∀ (rxd : Bool) (s : State),
    (s.aligner.state = .off → exec (.receivedBitPosition rxd) s = .next s) ∧
    (s.aligner.state ≠ .off → s.aligner.localLoop = false → s.bitHeld = false →
      exec (.receivedBitPosition rxd) s = .next (s.takeBit rxd)) ∧
    (s.aligner.state ≠ .off → s.aligner.localLoop = false → s.bitHeld = true →
      exec (.receivedBitPosition rxd) s = .next s) ∧
    (s.aligner.state ≠ .off → s.aligner.localLoop = true →
      exec (.receivedBitPosition rxd) s = .next s.txBitPosition)

/-- SILENCE_DECLARATION (sections 3.2, 3.4, 2.3 and 2.5): at 160 zeros in a row SILENCE is declared and SILENCE_ON is posted
first; in HUNT the aligner stays, in CONFIRM it goes to HUNT with a fresh search, and in ALIGNED the loss is counted and
ALIGN_LOST with cause SILENCE stands behind SILENCE_ON and ahead of the posts of the leaving, which come in some order
(assumption 7); the confirmation count is kept over the loss (the model's choice, assumption 25). SILENCE_CLEARING and
SILENCE_WINDOW_FAILURE (section 3.2): the sixteenth one of an open window clears SILENCE, closes the window and posts
SILENCE_OFF; a window at position 128 with fewer than 16 ones closes and SILENCE stays; when both places fall together SILENCE
is cleared. Nothing else changes. With receive disabled, at another zero run or with SILENCE declared there is no declaration;
with SILENCE clear, the window closed or its ones not 16 there is no clearing; and before position 128 or with 16 ones no
failure: at no other time do these events change anything (assumption 2). -/
def Obligations.SilenceIsDeclaredAndCleared : Prop :=
  (∀ s : State, s.monitor.silence = false → s.monitor.zeroRun = 160 →
     let declared := { s.monitor with silence := true, silenceWindow := none }
     let on : Post := ⟨.silenceOn, .link, .none, s.aligner.cycleCount⟩
     (s.aligner.state = .hunt →
       exec .silenceDeclaration s = .next { s with monitor := declared, notifications := s.notifications.take on }) ∧
     (s.aligner.state = .confirm →
       exec .silenceDeclaration s = .next { s with
         monitor := declared
         notifications := s.notifications.take on
         aligner := { s.aligner with
           state := .hunt, bits := [], lateBit := false, candidate := none
           expectedPlace := 0, expectedPosition := 0
           confirmations := 0 } }) ∧
     (s.aligner.state = .aligned →
       ∃ (t : State) (posts : List Post), exec .silenceDeclaration s = .next t ∧ posts.Perm s.leavingPosts ∧
         t = { s with
           monitor := { declared with
             alignmentLosses := BitVec.ofNat 8 (min 255 (s.monitor.alignmentLosses.toNat + 1)) }
           aligner := { s.aligner with
             state := .hunt, bits := [], lateBit := false, candidate := none
             expectedPlace := 0, expectedPosition := 0, badMarkers := 0
             frameEndDue := false, remoteFault := false, faultRun := 0 }
           maps := s.maps.afterLeaving
           channels := t.channels
           draws := t.draws
           pool := { s.pool with
             rotation := s.pool.rotation.filter fun c => c ∉ s.endingRings
             rxBurst :=
               { poolSlots := s.pool.rxBurst.poolSlots, phase := .noBurst, target := none, length := 0, received := 0 } }
           notifications :=
             (on :: ⟨.alignLost, .link, .silence, s.aligner.cycleCount⟩ :: posts).foldl
               Notifications.take s.notifications } ∧
         ∀ c : Channel, t.channel c = (s.channel c).afterFrameEnd)) ∧
  (∀ (s : State) (w : SilenceWindow), s.aligner.state ≠ .off → s.monitor.silence = true →
     s.monitor.silenceWindow = some w →
     (w.ones = 16 →
       exec .silenceClearing s = .next { s with
         monitor := { s.monitor with silence := false, silenceWindow := none }
         notifications := s.notifications.take ⟨.silenceOff, .link, .none, s.aligner.cycleCount⟩ } ∧
       exec .silenceWindowFailure s = .next s) ∧
     (w.ones < 16 → w.position = 128 →
       exec .silenceWindowFailure s = .next { s with monitor := { s.monitor with silenceWindow := none } } ∧
       exec .silenceClearing s = .next s)) ∧
  ∀ s : State,
    (s.aligner.state = .off ∨ s.monitor.silence = true ∨ s.monitor.zeroRun ≠ 160 →
      exec .silenceDeclaration s = .next s) ∧
    (s.aligner.state = .off ∨ s.monitor.silence = false ∨ s.monitor.silenceWindow = none ∨
        (∃ w, s.monitor.silenceWindow = some w ∧ w.ones ≠ 16) →
      exec .silenceClearing s = .next s) ∧
    (s.aligner.state = .off ∨ s.monitor.silence = false ∨ s.monitor.silenceWindow = none ∨
        (∃ w, s.monitor.silenceWindow = some w ∧ (w.position ≠ 128 ∨ 16 ≤ w.ones)) →
      exec .silenceWindowFailure s = .next s)

/-- HOLD_WINDOW_END (sections 3.3, 3.4, 2.3 and 2.5): with 3 zeros the low-window count is 0 and a declared HOLD clears with
HOLD_OFF; with fewer the count rises to at most 2; at 2 with HOLD clear, HOLD is declared and HOLD_ON is posted first; in HUNT
the aligner stays, in CONFIRM it goes to HUNT with a fresh search, and in ALIGNED the loss is counted and ALIGN_LOST with
cause HOLD stands behind HOLD_ON and ahead of the posts of the leaving, which come in some order (assumption 7), and the
confirmation count is kept over the loss (the model's choice, assumption 25); a declared HOLD stays, and a low-window count
that a loop change has set to 0 under it is counted like any other (the model's choice, assumption 28). The next window
begins, and nothing else changes. With receive disabled and before the last bit of the window the event changes nothing
(assumption 2). -/
def Obligations.HoldWindowDeclaresAndClears : Prop :=
  (∀ s : State, s.aligner.state ≠ .off → s.monitor.holdWindowDone = true →
     let next := { s.monitor with holdPosition := 0, holdZeros := 0, holdWindowDone := false }
     let declared := { next with lowWindows := 2, hold := true }
     let on : Post := ⟨.holdOn, .link, .none, s.aligner.cycleCount⟩
     (s.monitor.holdZeros = 3 →
       exec .holdWindowEnd s = .next { s with
         monitor := { next with lowWindows := 0, hold := false }
         notifications := if s.monitor.hold then
           s.notifications.take ⟨.holdOff, .link, .none, s.aligner.cycleCount⟩ else s.notifications }) ∧
     (s.monitor.holdZeros ≠ 3 → (s.monitor.hold = true ∨ s.monitor.lowWindows = 0) →
       exec .holdWindowEnd s =
         .next { s with monitor := { next with lowWindows := min 2 (s.monitor.lowWindows + 1) } }) ∧
     (s.monitor.holdZeros ≠ 3 → s.monitor.hold = false → 1 ≤ s.monitor.lowWindows →
       (s.aligner.state = .hunt →
         exec .holdWindowEnd s = .next { s with monitor := declared, notifications := s.notifications.take on }) ∧
       (s.aligner.state = .confirm →
         exec .holdWindowEnd s = .next { s with
           monitor := declared
           notifications := s.notifications.take on
           aligner := { s.aligner with
             state := .hunt, bits := [], lateBit := false, candidate := none
             expectedPlace := 0, expectedPosition := 0
             confirmations := 0 } }) ∧
       (s.aligner.state = .aligned →
         ∃ (t : State) (posts : List Post), exec .holdWindowEnd s = .next t ∧ posts.Perm s.leavingPosts ∧
           t = { s with
             monitor := { declared with
               alignmentLosses := BitVec.ofNat 8 (min 255 (s.monitor.alignmentLosses.toNat + 1)) }
             aligner := { s.aligner with
               state := .hunt, bits := [], lateBit := false, candidate := none
               expectedPlace := 0, expectedPosition := 0, badMarkers := 0
               frameEndDue := false, remoteFault := false, faultRun := 0 }
             maps := s.maps.afterLeaving
             channels := t.channels
             draws := t.draws
             pool := { s.pool with
               rotation := s.pool.rotation.filter fun c => c ∉ s.endingRings
               rxBurst :=
                 { poolSlots := s.pool.rxBurst.poolSlots, phase := .noBurst, target := none, length := 0, received := 0 } }
             notifications :=
               (on :: ⟨.alignLost, .link, .hold, s.aligner.cycleCount⟩ :: posts).foldl
                 Notifications.take s.notifications } ∧
           ∀ c : Channel, t.channel c = (s.channel c).afterFrameEnd))) ∧
  ∀ s : State, s.aligner.state = .off ∨ s.monitor.holdWindowDone = false → exec .holdWindowEnd s = .next s

/-- CLEAR_COUNTERS (section 3.9): neither flag gives BAD_AMOUNT; the link flag sets the four link counters to 0 and keeps the
threshold; the channel flag sets every channel's shortfall count to 0 and keeps its short-run flag; nothing is posted and
nothing else changes. The link counters only rise until CLEAR_COUNTERS or power-on: no other command lowers one, pin reset
and engine reset among them (sections 3.7 and 3.10). -/
def Obligations.CountersRiseUntilCleared : Prop :=
  (∀ s : State, s.commandReady →
    let link := s.port.operand0.getLsbD 0
    let chan := s.port.operand0.getLsbD 1
    (link = false → chan = false → exec .cmdClearCounters s = .next (s.setResult .badAmount)) ∧
    (link = true ∨ chan = true →
      ∃ t, exec .cmdClearCounters s = .next t ∧
        t = { s with
          port := { s.port with result := .ok }
          monitor := if link then
              { s.monitor with markerErrors := 0, alignmentLosses := 0, formatErrors := 0, poolDiscards := 0 }
            else s.monitor
          channels := t.channels } ∧
        ∀ c : Channel, t.channel c = if chan then { s.channel c with shortfalls := 0 } else s.channel c)) ∧
  ∀ (c : Instr) (s t : State), c ≠ .powerOn → c ≠ .cmdClearCounters → exec c s = .next t →
    s.monitor.markerErrors.toNat ≤ t.monitor.markerErrors.toNat ∧
    s.monitor.alignmentLosses.toNat ≤ t.monitor.alignmentLosses.toNat ∧
    s.monitor.formatErrors.toNat ≤ t.monitor.formatErrors.toNat ∧
    s.monitor.poolDiscards.toNat ≤ t.monitor.poolDiscards.toNat

/-! ### Invariants of the whole part -/

/-- The memory list keeps its canonical form through every step, from every state that has it: addresses rising and below 8192
(section 6.1), no byte listed that is 00H. The form is the model's own way to hold the 8192 bytes (assumption 15). -/
def Obligations.StepKeepsMemoryForm : Prop :=
  ∀ s t : State, s.memory.wf → step s = .next t → t.memory.wf

/-- The state the machine starts in is good: every law of Safety holds of it (the laws are those of sections 5.1 to 5.8, 6.2 to
6.5, 7.3, 7.4, 7.6 and 8.3). -/
def Obligations.ResetStateIsGood : Prop := State.reset.Good

/-- Every step from a good state leads to a good state: the ranges of every block, the laws of position, fill, owners and
segments of every channel, the rotation list with distinct members and distinct tags, the granted burst within the bytes
available, the parser, the queue, the stored history with at most 16 F + 8 bits (section 2.2) and no bit left behind in
ALIGNED (assumption 5), the pending switches, and the quiet of the trunk side under INIT and reset. -/
def Obligations.StepKeepsGood : Prop :=
  ∀ s t : State, s.Good → step s = .next t → t.Good

/-- In a good state no command stops the part: the address of a byte moved always lies within buffer memory (section 6.1), so
every command answers a next state. -/
def Obligations.GoodStateNeverStops : Prop :=
  ∀ (c : Instr) (s : State), s.Good → ∃ t, exec c s = .next t
end

