-- ==== Sys2Proof/Laws/State.lean ====
section
/-! SUPPORT. What each update of the state leaves in each field, true by unfolding, so that no later proof unfolds a record
update. -/

namespace Sys2Proof.Machine

variable (s : State)

/-! ### setChannel -/

@[simp] theorem State.setChannel_port (c : Channel) (x : ChannelContext) : (s.setChannel c x).port = s.port := rfl
@[simp] theorem State.setChannel_transmitter (c : Channel) (x : ChannelContext) : (s.setChannel c x).transmitter =
    s.transmitter := rfl
@[simp] theorem State.setChannel_aligner (c : Channel) (x : ChannelContext) : (s.setChannel c x).aligner =
    s.aligner := rfl
@[simp] theorem State.setChannel_monitor (c : Channel) (x : ChannelContext) : (s.setChannel c x).monitor =
    s.monitor := rfl
@[simp] theorem State.setChannel_maps (c : Channel) (x : ChannelContext) : (s.setChannel c x).maps = s.maps := rfl
@[simp] theorem State.setChannel_channels (c : Channel) (x : ChannelContext) : (s.setChannel c x).channels =
    s.channels.set c.val x := rfl
@[simp] theorem State.setChannel_memory (c : Channel) (x : ChannelContext) : (s.setChannel c x).memory =
    s.memory := rfl
@[simp] theorem State.setChannel_pool (c : Channel) (x : ChannelContext) : (s.setChannel c x).pool = s.pool := rfl
@[simp] theorem State.setChannel_notifications (c : Channel) (x : ChannelContext) : (s.setChannel c x).notifications =
    s.notifications := rfl
@[simp] theorem State.setChannel_pending (c : Channel) (x : ChannelContext) : (s.setChannel c x).pending =
    s.pending := rfl
@[simp] theorem State.setChannel_draws (c : Channel) (x : ChannelContext) : (s.setChannel c x).draws = s.draws := rfl
@[simp] theorem State.setChannel_powerOns (c : Channel) (x : ChannelContext) : (s.setChannel c x).powerOns =
    s.powerOns := rfl

/-! ### mapChannels -/

@[simp] theorem State.mapChannels_port (f : Channel → ChannelContext → ChannelContext) : (s.mapChannels f).port =
    s.port := by simp only [State.mapChannels]
@[simp] theorem State.mapChannels_transmitter (f : Channel → ChannelContext → ChannelContext) : (s.mapChannels f).transmitter =
    s.transmitter := by simp only [State.mapChannels]
@[simp] theorem State.mapChannels_aligner (f : Channel → ChannelContext → ChannelContext) : (s.mapChannels f).aligner =
    s.aligner := by simp only [State.mapChannels]
@[simp] theorem State.mapChannels_monitor (f : Channel → ChannelContext → ChannelContext) : (s.mapChannels f).monitor =
    s.monitor := by simp only [State.mapChannels]
@[simp] theorem State.mapChannels_maps (f : Channel → ChannelContext → ChannelContext) : (s.mapChannels f).maps =
    s.maps := by simp only [State.mapChannels]
@[simp] theorem State.mapChannels_memory (f : Channel → ChannelContext → ChannelContext) : (s.mapChannels f).memory =
    s.memory := by simp only [State.mapChannels]
@[simp] theorem State.mapChannels_pool (f : Channel → ChannelContext → ChannelContext) : (s.mapChannels f).pool =
    s.pool := by simp only [State.mapChannels]
@[simp] theorem State.mapChannels_notifications (f : Channel → ChannelContext → ChannelContext) : (s.mapChannels f).notifications =
    s.notifications := by simp only [State.mapChannels]
@[simp] theorem State.mapChannels_pending (f : Channel → ChannelContext → ChannelContext) : (s.mapChannels f).pending =
    s.pending := by simp only [State.mapChannels]
@[simp] theorem State.mapChannels_draws (f : Channel → ChannelContext → ChannelContext) : (s.mapChannels f).draws =
    s.draws := by simp only [State.mapChannels]
@[simp] theorem State.mapChannels_powerOns (f : Channel → ChannelContext → ChannelContext) : (s.mapChannels f).powerOns =
    s.powerOns := by simp only [State.mapChannels]

/-! ### post -/

@[simp] theorem State.post_port (p : Post) : (s.post p).port = s.port := rfl
@[simp] theorem State.post_transmitter (p : Post) : (s.post p).transmitter = s.transmitter := rfl
@[simp] theorem State.post_aligner (p : Post) : (s.post p).aligner = s.aligner := rfl
@[simp] theorem State.post_monitor (p : Post) : (s.post p).monitor = s.monitor := rfl
@[simp] theorem State.post_maps (p : Post) : (s.post p).maps = s.maps := rfl
@[simp] theorem State.post_channels (p : Post) : (s.post p).channels = s.channels := rfl
@[simp] theorem State.post_memory (p : Post) : (s.post p).memory = s.memory := rfl
@[simp] theorem State.post_pool (p : Post) : (s.post p).pool = s.pool := rfl
@[simp] theorem State.post_notifications (p : Post) : (s.post p).notifications = s.notifications.take p := rfl
@[simp] theorem State.post_pending (p : Post) : (s.post p).pending = s.pending := rfl
@[simp] theorem State.post_draws (p : Post) : (s.post p).draws = s.draws := rfl
@[simp] theorem State.post_powerOns (p : Post) : (s.post p).powerOns = s.powerOns := rfl

/-! ### returnByte -/

@[simp] theorem State.returnByte_port (b : Byte) : (s.returnByte b).port = { s.port with dataOut := b } := rfl
@[simp] theorem State.returnByte_transmitter (b : Byte) : (s.returnByte b).transmitter = s.transmitter := rfl
@[simp] theorem State.returnByte_aligner (b : Byte) : (s.returnByte b).aligner = s.aligner := rfl
@[simp] theorem State.returnByte_monitor (b : Byte) : (s.returnByte b).monitor = s.monitor := rfl
@[simp] theorem State.returnByte_maps (b : Byte) : (s.returnByte b).maps = s.maps := rfl
@[simp] theorem State.returnByte_channels (b : Byte) : (s.returnByte b).channels = s.channels := rfl
@[simp] theorem State.returnByte_memory (b : Byte) : (s.returnByte b).memory = s.memory := rfl
@[simp] theorem State.returnByte_pool (b : Byte) : (s.returnByte b).pool = s.pool := rfl
@[simp] theorem State.returnByte_notifications (b : Byte) : (s.returnByte b).notifications = s.notifications := rfl
@[simp] theorem State.returnByte_pending (b : Byte) : (s.returnByte b).pending = s.pending := rfl
@[simp] theorem State.returnByte_draws (b : Byte) : (s.returnByte b).draws = s.draws := rfl
@[simp] theorem State.returnByte_powerOns (b : Byte) : (s.returnByte b).powerOns = s.powerOns := rfl

/-! ### refuseWrite -/

@[simp] theorem State.refuseWrite_port : (s.refuseWrite).port = { s.port with accessError := true } := rfl
@[simp] theorem State.refuseWrite_transmitter : (s.refuseWrite).transmitter = s.transmitter := rfl
@[simp] theorem State.refuseWrite_aligner : (s.refuseWrite).aligner = s.aligner := rfl
@[simp] theorem State.refuseWrite_monitor : (s.refuseWrite).monitor = s.monitor := rfl
@[simp] theorem State.refuseWrite_maps : (s.refuseWrite).maps = s.maps := rfl
@[simp] theorem State.refuseWrite_channels : (s.refuseWrite).channels = s.channels := rfl
@[simp] theorem State.refuseWrite_memory : (s.refuseWrite).memory = s.memory := rfl
@[simp] theorem State.refuseWrite_pool : (s.refuseWrite).pool = s.pool := rfl
@[simp] theorem State.refuseWrite_notifications : (s.refuseWrite).notifications = s.notifications := rfl
@[simp] theorem State.refuseWrite_pending : (s.refuseWrite).pending = s.pending := rfl
@[simp] theorem State.refuseWrite_draws : (s.refuseWrite).draws = s.draws := rfl
@[simp] theorem State.refuseWrite_powerOns : (s.refuseWrite).powerOns = s.powerOns := rfl

/-! ### setResult -/

@[simp] theorem State.setResult_port (r : ResultCode) : (s.setResult r).port = { s.port with result := r } := rfl
@[simp] theorem State.setResult_transmitter (r : ResultCode) : (s.setResult r).transmitter = s.transmitter := rfl
@[simp] theorem State.setResult_aligner (r : ResultCode) : (s.setResult r).aligner = s.aligner := rfl
@[simp] theorem State.setResult_monitor (r : ResultCode) : (s.setResult r).monitor = s.monitor := rfl
@[simp] theorem State.setResult_maps (r : ResultCode) : (s.setResult r).maps = s.maps := rfl
@[simp] theorem State.setResult_channels (r : ResultCode) : (s.setResult r).channels = s.channels := rfl
@[simp] theorem State.setResult_memory (r : ResultCode) : (s.setResult r).memory = s.memory := rfl
@[simp] theorem State.setResult_pool (r : ResultCode) : (s.setResult r).pool = s.pool := rfl
@[simp] theorem State.setResult_notifications (r : ResultCode) : (s.setResult r).notifications =
    s.notifications := rfl
@[simp] theorem State.setResult_pending (r : ResultCode) : (s.setResult r).pending = s.pending := rfl
@[simp] theorem State.setResult_draws (r : ResultCode) : (s.setResult r).draws = s.draws := rfl
@[simp] theorem State.setResult_powerOns (r : ResultCode) : (s.setResult r).powerOns = s.powerOns := rfl

/-! ### emptyHolders -/

@[simp] theorem State.emptyHolders_port : (s.emptyHolders).port =
    { s.port with readHolder := none, writeHolder := none } := rfl
@[simp] theorem State.emptyHolders_transmitter : (s.emptyHolders).transmitter = s.transmitter := rfl
@[simp] theorem State.emptyHolders_aligner : (s.emptyHolders).aligner = s.aligner := rfl
@[simp] theorem State.emptyHolders_monitor : (s.emptyHolders).monitor = s.monitor := rfl
@[simp] theorem State.emptyHolders_maps : (s.emptyHolders).maps = s.maps := rfl
@[simp] theorem State.emptyHolders_channels : (s.emptyHolders).channels = s.channels := rfl
@[simp] theorem State.emptyHolders_memory : (s.emptyHolders).memory = s.memory := rfl
@[simp] theorem State.emptyHolders_pool : (s.emptyHolders).pool = s.pool := rfl
@[simp] theorem State.emptyHolders_notifications : (s.emptyHolders).notifications = s.notifications := rfl
@[simp] theorem State.emptyHolders_pending : (s.emptyHolders).pending = s.pending := rfl
@[simp] theorem State.emptyHolders_draws : (s.emptyHolders).draws = s.draws := rfl
@[simp] theorem State.emptyHolders_powerOns : (s.emptyHolders).powerOns = s.powerOns := rfl

/-! ### emptyWriteHolder -/

@[simp] theorem State.emptyWriteHolder_port : (s.emptyWriteHolder).port = { s.port with writeHolder := none } := rfl
@[simp] theorem State.emptyWriteHolder_transmitter : (s.emptyWriteHolder).transmitter = s.transmitter := rfl
@[simp] theorem State.emptyWriteHolder_aligner : (s.emptyWriteHolder).aligner = s.aligner := rfl
@[simp] theorem State.emptyWriteHolder_monitor : (s.emptyWriteHolder).monitor = s.monitor := rfl
@[simp] theorem State.emptyWriteHolder_maps : (s.emptyWriteHolder).maps = s.maps := rfl
@[simp] theorem State.emptyWriteHolder_channels : (s.emptyWriteHolder).channels = s.channels := rfl
@[simp] theorem State.emptyWriteHolder_memory : (s.emptyWriteHolder).memory = s.memory := rfl
@[simp] theorem State.emptyWriteHolder_pool : (s.emptyWriteHolder).pool = s.pool := rfl
@[simp] theorem State.emptyWriteHolder_notifications : (s.emptyWriteHolder).notifications = s.notifications := rfl
@[simp] theorem State.emptyWriteHolder_pending : (s.emptyWriteHolder).pending = s.pending := rfl
@[simp] theorem State.emptyWriteHolder_draws : (s.emptyWriteHolder).draws = s.draws := rfl
@[simp] theorem State.emptyWriteHolder_powerOns : (s.emptyWriteHolder).powerOns = s.powerOns := rfl

/-! ### advanceBuffer -/

@[simp] theorem State.advanceBuffer_port : (s.advanceBuffer).port =
    { s.port with bufferAddress := s.port.bufferAddress + 1 } := rfl
@[simp] theorem State.advanceBuffer_transmitter : (s.advanceBuffer).transmitter = s.transmitter := rfl
@[simp] theorem State.advanceBuffer_aligner : (s.advanceBuffer).aligner = s.aligner := rfl
@[simp] theorem State.advanceBuffer_monitor : (s.advanceBuffer).monitor = s.monitor := rfl
@[simp] theorem State.advanceBuffer_maps : (s.advanceBuffer).maps = s.maps := rfl
@[simp] theorem State.advanceBuffer_channels : (s.advanceBuffer).channels = s.channels := rfl
@[simp] theorem State.advanceBuffer_memory : (s.advanceBuffer).memory = s.memory := rfl
@[simp] theorem State.advanceBuffer_pool : (s.advanceBuffer).pool = s.pool := rfl
@[simp] theorem State.advanceBuffer_notifications : (s.advanceBuffer).notifications = s.notifications := rfl
@[simp] theorem State.advanceBuffer_pending : (s.advanceBuffer).pending = s.pending := rfl
@[simp] theorem State.advanceBuffer_draws : (s.advanceBuffer).draws = s.draws := rfl
@[simp] theorem State.advanceBuffer_powerOns : (s.advanceBuffer).powerOns = s.powerOns := rfl

/-! ### leaveRotation -/

@[simp] theorem State.leaveRotation_port (c : Channel) : (s.leaveRotation c).port = s.port := rfl
@[simp] theorem State.leaveRotation_transmitter (c : Channel) : (s.leaveRotation c).transmitter = s.transmitter := rfl
@[simp] theorem State.leaveRotation_aligner (c : Channel) : (s.leaveRotation c).aligner = s.aligner := rfl
@[simp] theorem State.leaveRotation_monitor (c : Channel) : (s.leaveRotation c).monitor = s.monitor := rfl
@[simp] theorem State.leaveRotation_maps (c : Channel) : (s.leaveRotation c).maps = s.maps := rfl
@[simp] theorem State.leaveRotation_channels (c : Channel) : (s.leaveRotation c).channels = s.channels := rfl
@[simp] theorem State.leaveRotation_memory (c : Channel) : (s.leaveRotation c).memory = s.memory := rfl
@[simp] theorem State.leaveRotation_pool (c : Channel) : (s.leaveRotation c).pool =
    { s.pool with rotation := s.pool.rotation.filter (· ≠ c) } := rfl
@[simp] theorem State.leaveRotation_notifications (c : Channel) : (s.leaveRotation c).notifications =
    s.notifications := rfl
@[simp] theorem State.leaveRotation_pending (c : Channel) : (s.leaveRotation c).pending = s.pending := rfl
@[simp] theorem State.leaveRotation_draws (c : Channel) : (s.leaveRotation c).draws = s.draws := rfl
@[simp] theorem State.leaveRotation_powerOns (c : Channel) : (s.leaveRotation c).powerOns = s.powerOns := rfl

/-! ### setRxBurst -/

@[simp] theorem State.setRxBurst_port (b : RxBurst) : (s.setRxBurst b).port = s.port := rfl
@[simp] theorem State.setRxBurst_transmitter (b : RxBurst) : (s.setRxBurst b).transmitter = s.transmitter := rfl
@[simp] theorem State.setRxBurst_aligner (b : RxBurst) : (s.setRxBurst b).aligner = s.aligner := rfl
@[simp] theorem State.setRxBurst_monitor (b : RxBurst) : (s.setRxBurst b).monitor = s.monitor := rfl
@[simp] theorem State.setRxBurst_maps (b : RxBurst) : (s.setRxBurst b).maps = s.maps := rfl
@[simp] theorem State.setRxBurst_channels (b : RxBurst) : (s.setRxBurst b).channels = s.channels := rfl
@[simp] theorem State.setRxBurst_memory (b : RxBurst) : (s.setRxBurst b).memory = s.memory := rfl
@[simp] theorem State.setRxBurst_pool (b : RxBurst) : (s.setRxBurst b).pool = { s.pool with rxBurst := b } := rfl
@[simp] theorem State.setRxBurst_notifications (b : RxBurst) : (s.setRxBurst b).notifications = s.notifications := rfl
@[simp] theorem State.setRxBurst_pending (b : RxBurst) : (s.setRxBurst b).pending = s.pending := rfl
@[simp] theorem State.setRxBurst_draws (b : RxBurst) : (s.setRxBurst b).draws = s.draws := rfl
@[simp] theorem State.setRxBurst_powerOns (b : RxBurst) : (s.setRxBurst b).powerOns = s.powerOns := rfl

/-! ### setTagEntry -/

@[simp] theorem State.setTagEntry_port (e : Option Channel) : (s.setTagEntry e).port = s.port := rfl
@[simp] theorem State.setTagEntry_transmitter (e : Option Channel) : (s.setTagEntry e).transmitter =
    s.transmitter := rfl
@[simp] theorem State.setTagEntry_aligner (e : Option Channel) : (s.setTagEntry e).aligner = s.aligner := rfl
@[simp] theorem State.setTagEntry_monitor (e : Option Channel) : (s.setTagEntry e).monitor = s.monitor := rfl
@[simp] theorem State.setTagEntry_maps (e : Option Channel) : (s.setTagEntry e).maps = s.maps := rfl
@[simp] theorem State.setTagEntry_channels (e : Option Channel) : (s.setTagEntry e).channels = s.channels := rfl
@[simp] theorem State.setTagEntry_memory (e : Option Channel) : (s.setTagEntry e).memory = s.memory := rfl
@[simp] theorem State.setTagEntry_pool (e : Option Channel) : (s.setTagEntry e).pool =
    { s.pool with tagTable := s.pool.tagTable.setIfInBounds (s.port.tagSelect.val - 1) e } := rfl
@[simp] theorem State.setTagEntry_notifications (e : Option Channel) : (s.setTagEntry e).notifications =
    s.notifications := rfl
@[simp] theorem State.setTagEntry_pending (e : Option Channel) : (s.setTagEntry e).pending = s.pending := rfl
@[simp] theorem State.setTagEntry_draws (e : Option Channel) : (s.setTagEntry e).draws = s.draws := rfl
@[simp] theorem State.setTagEntry_powerOns (e : Option Channel) : (s.setTagEntry e).powerOns = s.powerOns := rfl

/-! ### setSelectedBank -/

@[simp] theorem State.setSelectedBank_port (x : BankMaps) : (s.setSelectedBank x).port = s.port := rfl
@[simp] theorem State.setSelectedBank_transmitter (x : BankMaps) : (s.setSelectedBank x).transmitter =
    s.transmitter := rfl
@[simp] theorem State.setSelectedBank_aligner (x : BankMaps) : (s.setSelectedBank x).aligner = s.aligner := rfl
@[simp] theorem State.setSelectedBank_monitor (x : BankMaps) : (s.setSelectedBank x).monitor = s.monitor := rfl
@[simp] theorem State.setSelectedBank_maps (x : BankMaps) : (s.setSelectedBank x).maps =
    s.maps.setBank s.port.bankSelect x := rfl
@[simp] theorem State.setSelectedBank_channels (x : BankMaps) : (s.setSelectedBank x).channels = s.channels := rfl
@[simp] theorem State.setSelectedBank_memory (x : BankMaps) : (s.setSelectedBank x).memory = s.memory := rfl
@[simp] theorem State.setSelectedBank_pool (x : BankMaps) : (s.setSelectedBank x).pool = s.pool := rfl
@[simp] theorem State.setSelectedBank_notifications (x : BankMaps) : (s.setSelectedBank x).notifications =
    s.notifications := rfl
@[simp] theorem State.setSelectedBank_pending (x : BankMaps) : (s.setSelectedBank x).pending = s.pending := rfl
@[simp] theorem State.setSelectedBank_draws (x : BankMaps) : (s.setSelectedBank x).draws = s.draws := rfl
@[simp] theorem State.setSelectedBank_powerOns (x : BankMaps) : (s.setSelectedBank x).powerOns = s.powerOns := rfl

/-! ### switchRxBank -/

@[simp] theorem State.switchRxBank_port : (s.switchRxBank).port = s.port := rfl
@[simp] theorem State.switchRxBank_transmitter : (s.switchRxBank).transmitter = s.transmitter := rfl
@[simp] theorem State.switchRxBank_aligner : (s.switchRxBank).aligner = s.aligner := rfl
@[simp] theorem State.switchRxBank_monitor : (s.switchRxBank).monitor = s.monitor := rfl
@[simp] theorem State.switchRxBank_maps : (s.switchRxBank).maps =
    { s.maps with rxActive := s.maps.rxActive.other, rxPending := false } := rfl
@[simp] theorem State.switchRxBank_channels : (s.switchRxBank).channels = s.channels := rfl
@[simp] theorem State.switchRxBank_memory : (s.switchRxBank).memory = s.memory := rfl
@[simp] theorem State.switchRxBank_pool : (s.switchRxBank).pool = s.pool := rfl
@[simp] theorem State.switchRxBank_notifications : (s.switchRxBank).notifications = s.notifications := rfl
@[simp] theorem State.switchRxBank_pending : (s.switchRxBank).pending = s.pending := rfl
@[simp] theorem State.switchRxBank_draws : (s.switchRxBank).draws = s.draws := rfl
@[simp] theorem State.switchRxBank_powerOns : (s.switchRxBank).powerOns = s.powerOns := rfl

/-! ### switchTxBank -/

@[simp] theorem State.switchTxBank_port : (s.switchTxBank).port = s.port := rfl
@[simp] theorem State.switchTxBank_transmitter : (s.switchTxBank).transmitter = s.transmitter := rfl
@[simp] theorem State.switchTxBank_aligner : (s.switchTxBank).aligner = s.aligner := rfl
@[simp] theorem State.switchTxBank_monitor : (s.switchTxBank).monitor = s.monitor := rfl
@[simp] theorem State.switchTxBank_maps : (s.switchTxBank).maps =
    { s.maps with txActive := s.maps.txActive.other, txPending := false } := rfl
@[simp] theorem State.switchTxBank_channels : (s.switchTxBank).channels = s.channels := rfl
@[simp] theorem State.switchTxBank_memory : (s.switchTxBank).memory = s.memory := rfl
@[simp] theorem State.switchTxBank_pool : (s.switchTxBank).pool = s.pool := rfl
@[simp] theorem State.switchTxBank_notifications : (s.switchTxBank).notifications = s.notifications := rfl
@[simp] theorem State.switchTxBank_pending : (s.switchTxBank).pending = s.pending := rfl
@[simp] theorem State.switchTxBank_draws : (s.switchTxBank).draws = s.draws := rfl
@[simp] theorem State.switchTxBank_powerOns : (s.switchTxBank).powerOns = s.powerOns := rfl

/-! ### fixNextByte -/

@[simp] theorem State.fixNextByte_port (b : Byte) : (s.fixNextByte b).port = s.port := rfl
@[simp] theorem State.fixNextByte_transmitter (b : Byte) : (s.fixNextByte b).transmitter =
    { s.transmitter with nextByte := some b } := rfl
@[simp] theorem State.fixNextByte_aligner (b : Byte) : (s.fixNextByte b).aligner = s.aligner := rfl
@[simp] theorem State.fixNextByte_monitor (b : Byte) : (s.fixNextByte b).monitor = s.monitor := rfl
@[simp] theorem State.fixNextByte_maps (b : Byte) : (s.fixNextByte b).maps = s.maps := rfl
@[simp] theorem State.fixNextByte_channels (b : Byte) : (s.fixNextByte b).channels = s.channels := rfl
@[simp] theorem State.fixNextByte_memory (b : Byte) : (s.fixNextByte b).memory = s.memory := rfl
@[simp] theorem State.fixNextByte_pool (b : Byte) : (s.fixNextByte b).pool = s.pool := rfl
@[simp] theorem State.fixNextByte_notifications (b : Byte) : (s.fixNextByte b).notifications = s.notifications := rfl
@[simp] theorem State.fixNextByte_pending (b : Byte) : (s.fixNextByte b).pending = s.pending := rfl
@[simp] theorem State.fixNextByte_draws (b : Byte) : (s.fixNextByte b).draws = s.draws := rfl
@[simp] theorem State.fixNextByte_powerOns (b : Byte) : (s.fixNextByte b).powerOns = s.powerOns := rfl

/-! ### countFormatError -/

@[simp] theorem State.countFormatError_port : (s.countFormatError).port = s.port := rfl
@[simp] theorem State.countFormatError_transmitter : (s.countFormatError).transmitter = s.transmitter := rfl
@[simp] theorem State.countFormatError_aligner : (s.countFormatError).aligner = s.aligner := rfl
@[simp] theorem State.countFormatError_monitor : (s.countFormatError).monitor =
    { s.monitor with formatErrors := saturatingInc s.monitor.formatErrors } := rfl
@[simp] theorem State.countFormatError_maps : (s.countFormatError).maps = s.maps := rfl
@[simp] theorem State.countFormatError_channels : (s.countFormatError).channels = s.channels := rfl
@[simp] theorem State.countFormatError_memory : (s.countFormatError).memory = s.memory := rfl
@[simp] theorem State.countFormatError_pool : (s.countFormatError).pool = s.pool := rfl
@[simp] theorem State.countFormatError_notifications : (s.countFormatError).notifications = s.notifications := rfl
@[simp] theorem State.countFormatError_pending : (s.countFormatError).pending = s.pending := rfl
@[simp] theorem State.countFormatError_draws : (s.countFormatError).draws = s.draws := rfl
@[simp] theorem State.countFormatError_powerOns : (s.countFormatError).powerOns = s.powerOns := rfl

/-! ### countPoolDiscard -/

@[simp] theorem State.countPoolDiscard_port : (s.countPoolDiscard).port = s.port := rfl
@[simp] theorem State.countPoolDiscard_transmitter : (s.countPoolDiscard).transmitter = s.transmitter := rfl
@[simp] theorem State.countPoolDiscard_aligner : (s.countPoolDiscard).aligner = s.aligner := rfl
@[simp] theorem State.countPoolDiscard_monitor : (s.countPoolDiscard).monitor =
    { s.monitor with poolDiscards := saturatingInc s.monitor.poolDiscards } := rfl
@[simp] theorem State.countPoolDiscard_maps : (s.countPoolDiscard).maps = s.maps := rfl
@[simp] theorem State.countPoolDiscard_channels : (s.countPoolDiscard).channels = s.channels := rfl
@[simp] theorem State.countPoolDiscard_memory : (s.countPoolDiscard).memory = s.memory := rfl
@[simp] theorem State.countPoolDiscard_pool : (s.countPoolDiscard).pool = s.pool := rfl
@[simp] theorem State.countPoolDiscard_notifications : (s.countPoolDiscard).notifications = s.notifications := rfl
@[simp] theorem State.countPoolDiscard_pending : (s.countPoolDiscard).pending = s.pending := rfl
@[simp] theorem State.countPoolDiscard_draws : (s.countPoolDiscard).draws = s.draws := rfl
@[simp] theorem State.countPoolDiscard_powerOns : (s.countPoolDiscard).powerOns = s.powerOns := rfl

/-! ### Contexts -/

@[simp] theorem State.channel_setChannel_self (c : Channel) (x : ChannelContext) : (s.setChannel c x).channel c = x := by
  simp [State.channel, State.setChannel]

theorem State.channel_setChannel_ne {c d : Channel} (h : d ≠ c) (x : ChannelContext) :
    (s.setChannel c x).channel d = s.channel d := by
  have : c.val ≠ d.val := fun e => h (Fin.ext e.symm)
  simp [State.channel, State.setChannel, Vector.getElem_set_ne, this]

theorem State.channel_setChannel (c d : Channel) (x : ChannelContext) :
    (s.setChannel c x).channel d = if d = c then x else s.channel d := by
  split
  · next h => subst h; simp
  · next h => exact s.channel_setChannel_ne h x

@[simp] theorem State.channel_mapChannels (f : Channel → ChannelContext → ChannelContext) (c : Channel) :
    (s.mapChannels f).channel c = f c (s.channel c) := by
  simp [State.channel, State.mapChannels]

/-- A state's contexts depend on its vector of contexts alone. -/
theorem State.channel_congr {s t : State} (h : t.channels = s.channels) (c : Channel) : t.channel c = s.channel c := by
  simp [State.channel, h]

/-- A byte read depends on INIT, the count of power-ons and the memory alone. -/
theorem State.byteAt_congr {s t : State} (hi : t.port.init = s.port.init) (hp : t.powerOns = s.powerOns)
    (hm : t.memory = s.memory) (a : Nat) : t.byteAt a = s.byteAt a := by
  simp [State.byteAt, hi, hp, hm]

@[simp] theorem State.channel_post (p : Post) (c : Channel) : (s.post p).channel c = s.channel c := rfl
@[simp] theorem State.channel_returnByte (b : Byte) (c : Channel) : (s.returnByte b).channel c = s.channel c := rfl
@[simp] theorem State.channel_refuseWrite (c : Channel) : (s.refuseWrite).channel c = s.channel c := rfl
@[simp] theorem State.channel_setResult (r : ResultCode) (c : Channel) : (s.setResult r).channel c = s.channel c := rfl
@[simp] theorem State.channel_emptyHolders (c : Channel) : (s.emptyHolders).channel c = s.channel c := rfl
@[simp] theorem State.channel_emptyWriteHolder (c : Channel) : (s.emptyWriteHolder).channel c = s.channel c := rfl
@[simp] theorem State.channel_advanceBuffer (c : Channel) : (s.advanceBuffer).channel c = s.channel c := rfl
@[simp] theorem State.channel_leaveRotation (c d : Channel) : (s.leaveRotation c).channel d = s.channel d := rfl
@[simp] theorem State.channel_setRxBurst (b : RxBurst) (c : Channel) : (s.setRxBurst b).channel c = s.channel c := rfl
@[simp] theorem State.channel_setTagEntry (e : Option Channel) (c : Channel) : (s.setTagEntry e).channel c = s.channel c := rfl
@[simp] theorem State.channel_setSelectedBank (x : BankMaps) (c : Channel) : (s.setSelectedBank x).channel c = s.channel c := rfl
@[simp] theorem State.channel_switchRxBank (c : Channel) : (s.switchRxBank).channel c = s.channel c := rfl
@[simp] theorem State.channel_switchTxBank (c : Channel) : (s.switchTxBank).channel c = s.channel c := rfl
@[simp] theorem State.channel_fixNextByte (b : Byte) (c : Channel) : (s.fixNextByte b).channel c = s.channel c := rfl
@[simp] theorem State.channel_countFormatError (c : Channel) : (s.countFormatError).channel c = s.channel c := rfl
@[simp] theorem State.channel_countPoolDiscard (c : Channel) : (s.countPoolDiscard).channel c = s.channel c := rfl

end Sys2Proof.Machine
end

