-- ==== Sys2Proof/Laws/Memory.lean ====
section
/-! SUPPORT. The laws of buffer memory: a read after a write, and the canonical form, which every write keeps. -/

namespace Sys2Proof.Machine

/-- Below every listed address, a memory reads 00H. -/
theorem Memory.read_eq_zero_of_lt {m : Memory} {k : Nat} (h : ∀ c ∈ m, k < c.1) : m.read k = 0 := by
  induction m with
  | nil => rfl
  | cons c rest ih =>
    obtain ⟨a, b⟩ := c
    have ha : k < a := h (a, b) (by simp)
    have hne : ¬a = k := by omega
    simp only [Memory.read, hne, if_false]
    exact ih fun d hd => h d (by simp [hd])

/-- Every address a write lists was listed before or is the address written. -/
theorem Memory.mem_write {m : Memory} {k : Nat} {v : Byte} {c : Host.Cell} (h : c ∈ m.write k v) :
    c ∈ m ∨ (c = (k, v) ∧ v ≠ 0) := by
  induction m with
  | nil =>
    by_cases hv : v = 0
    · simp [Memory.write, hv] at h
    · simp only [Memory.write, hv, if_false, List.mem_singleton] at h
      exact .inr ⟨h, hv⟩
  | cons d rest ih =>
    obtain ⟨a, b⟩ := d
    by_cases hv : v = 0
    · simp only [Memory.write, hv, if_true] at h ih ⊢
      split at h
      · exact .inl h
      · split at h
        · exact .inl (by simp [h])
        · rcases List.mem_cons.1 h with h | h
          · exact .inl (by simp [h])
          · rcases ih h with h | h
            · exact .inl (by simp [h])
            · exact absurd rfl h.2
    · simp only [Memory.write, hv, if_false] at h ih ⊢
      split at h
      · rcases List.mem_cons.1 h with h | h
        · exact .inr ⟨h, hv⟩
        · exact .inl h
      · split at h
        · rcases List.mem_cons.1 h with h | h
          · exact .inr ⟨h, hv⟩
          · exact .inl (by simp [h])
        · rcases List.mem_cons.1 h with h | h
          · exact .inl (by simp [h])
          · rcases ih h with h | h
            · exact .inl (by simp [h])
            · exact .inr h

/-- A write keeps the canonical form. -/
theorem Memory.wf_write {m : Memory} {k : Nat} (v : Byte) (h : m.wf) (hk : k < Config.memoryBytes) :
    (m.write k v).wf := by
  refine ⟨?_, fun c hc => ?_⟩
  · obtain ⟨hs, -⟩ := h
    induction m with
    | nil =>
      simp only [Memory.write]
      split <;> simp
    | cons d rest ih =>
      obtain ⟨a, b⟩ := d
      obtain ⟨hd, hr⟩ := List.pairwise_cons.1 hs
      simp only [Memory.write]
      split
      · next hka =>
        split
        · exact hs
        · refine List.pairwise_cons.2 ⟨fun c hc => ?_, hs⟩
          rcases List.mem_cons.1 hc with rfl | hc
          · exact hka
          · exact Nat.lt_trans hka (hd c hc)
      · split
        · next hka =>
          split
          · exact hr
          · exact List.pairwise_cons.2 ⟨fun c hc => hka ▸ hd c hc, hr⟩
        · next h1 h2 =>
          refine List.pairwise_cons.2 ⟨fun c hc => ?_, ih hr⟩
          rcases Memory.mem_write hc with hc | ⟨rfl, -⟩
          · exact hd c hc
          · show a < k
            omega
  · rcases Memory.mem_write hc with hc | ⟨rfl, hv⟩
    · exact h.2 c hc
    · exact ⟨hv, hk⟩

/-- A read after a write: the byte written at its address, and every other byte as before. -/
theorem Memory.read_write {m : Memory} (h : m.wf) (k : Nat) (v : Byte) (a : Nat) :
    (m.write k v).read a = if a = k then v else m.read a := by
  obtain ⟨hs, -⟩ := h
  induction m with
  | nil =>
    simp only [Memory.write]
    split
    · next hv => simp [Memory.read, hv]
    · simp [Memory.read, eq_comm]
  | cons d rest ih =>
    obtain ⟨b, w⟩ := d
    obtain ⟨hd, hr⟩ := List.pairwise_cons.1 hs
    have low : ∀ j, j ≤ b → Memory.read rest j = 0 := fun j hj =>
      Memory.read_eq_zero_of_lt fun c hc => Nat.lt_of_le_of_lt hj (hd c hc)
    simp only [Memory.write]
    split
    · next hkb =>
      split
      · next hv =>
        by_cases hak : a = k
        · subst hak
          have : ¬b = a := by omega
          simp [Memory.read, this, low a (by omega), hv]
        · simp [hak]
      · by_cases hak : a = k
        · simp [Memory.read, hak]
        · simp [Memory.read, hak, Ne.symm hak]
    · split
      · next hkb =>
        split
        · next hv =>
          by_cases hak : a = k
          · simp [hak, low k (by omega), hv]
          · have : ¬b = a := by omega
            simp [Memory.read, hak, this]
        · by_cases hak : a = k
          · simp [Memory.read, hak]
          · have : ¬b = a := by omega
            simp [Memory.read, hak, this, Ne.symm hak]
      · next h1 h2 =>
        by_cases hba : b = a
        · have : ¬a = k := by omega
          simp [Memory.read, hba, this]
        · simp [Memory.read, hba, ih hr]

/-- The memory with nothing listed has the canonical form. -/
theorem Memory.wf_nil : Memory.wf [] := ⟨List.Pairwise.nil, fun _ h => absurd h List.not_mem_nil⟩

/-- The memory of the state after reset has the canonical form. -/
theorem State.reset_memory_wf : State.reset.memory.wf := Memory.wf_nil

/-- A byte read once INIT has cleared is the memory's. -/
theorem State.byteAt_of_ready {s : State} (h : s.port.init = false) (a : Nat) : s.byteAt a = s.memory.read a := by
  simp [State.byteAt, h]

end Sys2Proof.Machine
end

