-- ==== Sys2Proof/Laws/Posting.lean ====
section
/-! SUPPORT. The laws of posting: what one post does to the queue, case by case, that it keeps the law of the queue, and
that posts in no stated order are handed over in some order. -/

namespace Sys2Proof.Machine

theorem QueueRecord.matches_iff (r : QueueRecord) (p : Post) :
    r.matches p = true ↔ r.post.kind = p.kind ∧ r.post.channel = p.channel := by
  simp [QueueRecord.matches]

@[simp] theorem QueueRecord.bump_post (r : QueueRecord) : r.bump.post = r.post := rfl

/-- Case 1 of R137. -/
theorem Notifications.take_disabled {n : Notifications} {p : Post} (h : n.enables p.kind = false) : n.take p = n := by
  simp [Notifications.take, h]

/-- Case 2 of R137. -/
theorem Notifications.take_match {n : Notifications} {p : Post} (h : n.enables p.kind = true)
    (hm : n.queue.any (·.matches p) = true) :
    n.take p = { n with queue := n.queue.map fun r => if r.matches p then r.bump else r } := by
  simp only [Notifications.take, h, hm]; rfl

/-- Case 3 of R137. -/
theorem Notifications.take_append {n : Notifications} {p : Post} (h : n.enables p.kind = true)
    (hm : n.queue.any (·.matches p) = false) (hl : n.queue.length < 32) :
    n.take p = { n with queue := n.queue ++ [⟨p, 1⟩] } := by
  have hl : n.queue.length < Config.queueCapacity := hl
  simp [Notifications.take, h, hm, hl]

/-- Case 4 of R137. -/
theorem Notifications.take_missed {n : Notifications} {p : Post} (h : n.enables p.kind = true)
    (hm : n.queue.any (·.matches p) = false) (hl : 32 ≤ n.queue.length) :
    n.take p = { n with missed := n.missed ||| BitVec.twoPow 21 p.channel.missedBit } := by
  have hl : ¬n.queue.length < Config.queueCapacity := Nat.not_lt.2 hl
  simp [Notifications.take, h, hm, hl]

/-- A post does not change the kind-enable set or suspend. -/
@[simp] theorem Notifications.take_enabled (n : Notifications) (p : Post) : (n.take p).enabled = n.enabled := by
  simp only [Notifications.take]; split_ifs <;> rfl

@[simp] theorem Notifications.take_suspend (n : Notifications) (p : Post) : (n.take p).suspend = n.suspend := by
  simp only [Notifications.take]; split_ifs <;> rfl

/-- A post takes no member out of the missed set. -/
theorem Notifications.take_missed_mono (n : Notifications) (p : Post) (i : Nat) (h : n.missed.getLsbD i = true) :
    (n.take p).missed.getLsbD i = true := by
  simp only [Notifications.take]; split_ifs <;> simp [h]

/-- A post keeps the law of the queue (R137). -/
theorem Notifications.Ok.take {n : Notifications} (h : n.Ok) (p : Post) : (n.take p).Ok := by
  obtain ⟨hl, hk, hc⟩ := h
  by_cases he : n.enables p.kind = true
  · by_cases hm : n.queue.any (·.matches p) = true
    · rw [Notifications.take_match he hm]
      refine ⟨by simpa using hl, ?_, fun r hr => ?_⟩
      · refine List.pairwise_map.2 (hk.imp fun {a b} hab => ?_)
        split <;> split <;> simpa using hab
      · obtain ⟨q, hq, rfl⟩ := List.mem_map.1 hr
        obtain ⟨h1, h2⟩ := hc q hq
        split
        · simp only [QueueRecord.bump, Config.maxRepeat]; omega
        · exact ⟨h1, h2⟩
    · simp only [Bool.not_eq_true] at hm
      by_cases hlt : n.queue.length < 32
      · rw [Notifications.take_append he hm hlt]
        refine ⟨by simpa using hlt, ?_, fun r hr => ?_⟩
        · refine List.pairwise_append.2 ⟨hk, by simp, fun a ha b hb => ?_⟩
          obtain rfl := List.mem_singleton.1 hb
          have := (List.any_eq_false.1 hm) a ha
          simpa [QueueRecord.matches] using this
        · rcases List.mem_append.1 hr with hr | hr
          · exact hc r hr
          · obtain rfl := List.mem_singleton.1 hr
            simp
      · rw [Notifications.take_missed he hm (Nat.le_of_not_lt hlt)]
        exact ⟨hl, hk, hc⟩
  · rw [Notifications.take_disabled (by simpa using he)]
    exact ⟨hl, hk, hc⟩

/-- Posts handed over one after another act on the Notification Queue alone. -/
theorem State.foldl_post (posts : List Post) (s : State) :
    posts.foldl State.post s = { s with notifications := posts.foldl Notifications.take s.notifications } := by
  induction posts generalizing s with
  | nil => rfl
  | cons p rest ih => simp only [List.foldl_cons, ih]; rfl

theorem insertByKey_perm (key : Nat → Nat) (x : Nat × Post) (l : List (Nat × Post)) :
    (insertByKey key x l).Perm (x :: l) := by
  induction l with
  | nil => exact List.Perm.refl _
  | cons y rest ih =>
    simp only [insertByKey]
    split
    · exact List.Perm.refl _
    · exact (ih.cons y).trans (List.Perm.swap x y rest)

/-- The order drawn is an order of the same posts. -/
theorem anyOrder_perm (draw : Nat) (posts : List Post) : (anyOrder draw posts).Perm posts := by
  have sorted : ∀ l : List (Nat × Post), (l.foldr (insertByKey (Config.postOrderKey draw)) []).Perm l := by
    intro l
    induction l with
    | nil => exact List.Perm.refl _
    | cons x rest ih => exact (insertByKey_perm _ x _).trans (ih.cons x)
  unfold anyOrder
  refine ((sorted _).map _).trans ?_
  simp only [List.map_map]
  have : (List.map ((fun x : Nat × Post => x.2) ∘ fun x : Post × Nat => (x.2, x.1)) posts.zipIdx) = posts := by
    have : ((fun x : Nat × Post => x.2) ∘ fun x : Post × Nat => (x.2, x.1)) = Prod.fst := rfl
    rw [this, List.zipIdx_map_fst]
  exact List.Perm.of_eq this

/-- Posts in no stated order reach the Notification Queue in some order, and but for the draw nothing else changes. -/
theorem State.postInAnyOrder_cases (s : State) (posts : List Post) :
    ∃ (order : List Post) (draws : Nat), order.Perm posts ∧
      s.postInAnyOrder posts =
        { s with notifications := order.foldl Notifications.take s.notifications, draws := draws } := by
  match posts with
  | [] => exact ⟨[], s.draws, List.Perm.refl _, rfl⟩
  | [p] => exact ⟨[p], s.draws, List.Perm.refl _, rfl⟩
  | p :: q :: rest =>
    refine ⟨anyOrder s.draws (p :: q :: rest), s.draws + 1, anyOrder_perm _ _, ?_⟩
    simp only [State.postInAnyOrder, State.foldl_post]

end Sys2Proof.Machine
end

