-- ==== Sys2Proof/Laws/Bytes.lean ====
section
/-! SUPPORT. What a byte moved, a shortfall, a byte arrival and a byte demand do, each said once: the terms are those of
Safety.lean. -/

namespace Sys2Proof.Machine

/-- Two states with the same fields are the same. -/
theorem State.ext_fields {s t : State} (h1 : s.port = t.port) (h2 : s.transmitter = t.transmitter)
    (h3 : s.aligner = t.aligner) (h4 : s.monitor = t.monitor) (h5 : s.maps = t.maps) (h6 : s.channels = t.channels)
    (h7 : s.memory = t.memory) (h8 : s.pool = t.pool) (h9 : s.notifications = t.notifications)
    (h10 : s.pending = t.pending) (h11 : s.draws = t.draws) (h12 : s.powerOns = t.powerOns) : s = t := by
  cases s; cases t; simp_all

/-- The state after channel `c`'s context became `x` with some posts, off the rotation list if it is in DONE. -/
def State.withByte (s : State) (c : Channel) (x : ChannelContext) (posts : List Post) : State :=
  { s.setChannel c x with
    notifications := posts.foldl Notifications.take s.notifications
    pool := { s.pool with rotation := leftIfDone s.pool.rotation c x } }

theorem State.setChannel_setChannel (s : State) (c : Channel) (x y : ChannelContext) :
    (s.setChannel c x).setChannel c y = s.setChannel c y := by
  simp [State.setChannel]

@[simp] theorem State.channelStamp_post (s : State) (p : Post) (c : Channel) :
    (s.post p).channelStamp c = s.channelStamp c := rfl

/-- A context update that keeps the direction keeps the stamp. -/
theorem State.channelStamp_setChannel (s : State) (c : Channel) (y : ChannelContext)
    (h : y.direction = (s.channel c).direction) : (s.setChannel c y).channelStamp c = s.channelStamp c := by
  simp only [State.channelStamp, State.channel_setChannel_self, h]; rfl

/-- Entry to DONE of a channel whose context was just set (R89). -/
theorem State.enterDone_setChannel (s : State) (c : Channel) (y : ChannelContext) (d : Detail)
    (h : y.direction = (s.channel c).direction) :
    (s.setChannel c y).enterDone c d =
      s.withByte c { y with state := .done } [s.channelPost c .channelEnded d] := by
  have e : (s.setChannel c y).channelPost c .channelEnded d = s.channelPost c .channelEnded d := by
    simp only [State.channelPost, State.channelStamp_setChannel s c y h]
  simp only [State.enterDone, State.toDone, e, State.channel_post, State.channel_setChannel_self, State.withByte,
    leftIfDone, if_true]
  simp only [State.leaveRotation, State.post, State.setChannel, Vector.set_set, List.foldl]

/-- Entry to DONE after a post (R89). -/
theorem State.enterDone_post (s : State) (c : Channel) (p : Post) (y : ChannelContext) (d : Detail)
    (h : y.direction = (s.channel c).direction) :
    ((s.setChannel c y).post p).enterDone c d =
      s.withByte c { y with state := .done } [p, s.channelPost c .channelEnded d] := by
  have e : ((s.setChannel c y).post p).channelPost c .channelEnded d = s.channelPost c .channelEnded d := by
    simp only [State.channelPost, State.channelStamp_post, State.channelStamp_setChannel s c y h]
  simp only [State.enterDone, State.toDone, e, State.channel_post, State.channel_setChannel_self, State.withByte,
    leftIfDone, if_true]
  simp only [State.leaveRotation, State.post, State.setChannel, Vector.set_set, List.foldl]

theorem State.withByte_none (s : State) (c : Channel) (y : ChannelContext) (h : y.state ≠ .done) :
    s.withByte c y [] = s.setChannel c y := by
  simp only [State.withByte, leftIfDone, h, if_false, List.foldl]; rfl

theorem State.withByte_one (s : State) (c : Channel) (y : ChannelContext) (p : Post) (h : y.state ≠ .done) :
    s.withByte c y [p] = (s.setChannel c y).post p := by
  simp only [State.withByte, leftIfDone, h, if_false, List.foldl]; rfl

/-- The RING meaning with the fill named (R99, R101). -/
theorem State.movedRing_eq (s : State) (c : Channel) :
    s.movedRing c =
      (let x := s.channel c
       let t := s.setChannel c
        { x with shortRun := false, position := (x.position + 1) % x.lengthA, fill := x.fillAfterByte }
       let u := if x.watermark ≠ 0 ∧ x.fillAfterByte = x.watermark then t.post (t.channelPost c .watermark .none) else t
       if x.direction = .transmit ∧ x.state = .ending ∧ x.fillAfterByte = 0 then u.enterDone c .finished else u) := rfl

/-- The hand-over with its detail named (R106). -/
theorem State.handOver_eq (s : State) (c : Channel) :
    s.handOver c =
      (let x := s.channel c
       let y := { x.setOwner x.active .host with shortRun := false, position := 0 }
       let p := s.channelPost c .segmentDone (if x.active = .segA then .segmentA else .segmentB)
       if x.state = .ending then ((s.setChannel c y).post p).enterDone c .finished
       else (s.setChannel c
        { y with active := x.active.other, stalled := x.owner x.active.other = .host }).post p) := by
  have hdet : (match (s.channel c).active with
      | .segA => Detail.segmentA
      | .segB => Detail.segmentB) = if (s.channel c).active = .segA then .segmentA else .segmentB := by
    cases (s.channel c).active <;> rfl
  simp only [State.handOver, ← hdet]
  rfl

/-- What a byte moved for a running channel does, in every mode (R96 to R106). -/
theorem State.byteMoved_eq (s : State) (c : Channel) (h : (s.channel c).running = true) :
    s.byteMoved c = s.withByte c (s.channel c).afterByte (s.bytePosts c) := by
  have hd : (s.channel c).state ≠ .done := by
    intro e; simp [ChannelContext.running, e] at h
  obtain ⟨x, hx⟩ : ∃ x, s.channel c = x := ⟨_, rfl⟩
  cases hm : x.mode with
  | single =>
    simp only [State.byteMoved, State.movedSingle, ChannelContext.afterByte, State.bytePosts, ChannelContext.byteRecords,
      ChannelContext.completesSegment, ChannelContext.segmentInUse, ChannelContext.length, hx, hm, decide_eq_true_eq]
    rw [hx] at hd
    by_cases hl : x.position + 1 = x.lengthA
    · simp only [hl, if_true, List.map_cons, List.map_nil]
      exact s.enterDone_setChannel c _ _ (by rw [hx])
    · simp only [hl, if_false, List.map_nil]
      exact (s.withByte_none c _ (by exact hd)).symm
  | ring =>
    simp only [State.byteMoved, State.movedRing_eq, ChannelContext.afterByte, State.bytePosts, ChannelContext.byteRecords,
      ChannelContext.emptiesEnding, hx, hm, Bool.and_eq_true, decide_eq_true_eq]
    rw [hx] at hd
    have hp : ∀ y : ChannelContext, y.direction = x.direction →
        (s.setChannel c y).channelPost c .watermark .none = s.channelPost c .watermark .none := fun y hy => by
      simp only [State.channelPost, State.channelStamp_setChannel s c y (by rw [hx, hy])]
    by_cases hw : x.watermark ≠ 0 ∧ x.fillAfterByte = x.watermark <;>
      by_cases he : x.direction = .transmit ∧ x.state = .ending ∧ x.fillAfterByte = 0
    · exact absurd (hw.2.symm.trans he.2.2) hw.1
    · have he' : ¬((x.direction = .transmit ∧ x.state = .ending) ∧ x.fillAfterByte = 0) := fun q => he ⟨q.1.1, q.1.2, q.2⟩
      simp only [if_pos hw, if_neg he, if_neg he', List.append_nil, List.map_cons, List.map_nil]
      rw [hp]
      · exact (s.withByte_one c _ _ (by exact hd)).symm
      · rfl
    · have he' : (x.direction = .transmit ∧ x.state = .ending) ∧ x.fillAfterByte = 0 := ⟨⟨he.1, he.2.1⟩, he.2.2⟩
      simp only [if_neg hw, if_pos he, if_pos he', List.nil_append, List.map_cons, List.map_nil]
      exact s.enterDone_setChannel c _ _ (by rw [hx])
    · have he' : ¬((x.direction = .transmit ∧ x.state = .ending) ∧ x.fillAfterByte = 0) := fun q => he ⟨q.1.1, q.1.2, q.2⟩
      simp only [if_neg hw, if_neg he, if_neg he', List.append_nil, List.map_nil]
      exact (s.withByte_none c _ (by exact hd)).symm
  | alternating =>
    simp only [State.byteMoved, State.movedAlternating, State.handOver_eq, ChannelContext.afterByte, State.bytePosts,
      ChannelContext.byteRecords, ChannelContext.completesSegment, ChannelContext.segmentInUse, hx, hm,
      decide_eq_true_eq]
    rw [hx] at hd
    have ho : ∀ (g : Segment) (o : Owner), (x.setOwner g o).state = x.state ∧ (x.setOwner g o).direction = x.direction :=
      fun g o => by cases g <;> exact ⟨rfl, rfl⟩
    by_cases hl : x.position + 1 = x.length x.active
    · by_cases he : x.state = .ending
      · simp only [hl, he, if_true, List.map_cons, List.map_nil]
        exact s.enterDone_post c _ _ _ (by rw [hx]; exact (ho x.active .host).2)
      · simp only [hl, he, if_true, if_false, List.map_cons, List.map_nil]
        exact (s.withByte_one c _ _ (by intro e; exact hd ((ho x.active .host).1.symm.trans e))).symm
    · simp only [hl, if_false, List.map_nil]
      exact (s.withByte_none c _ (by exact hd)).symm

/-- What a shortfall does (R115). -/
theorem State.shortfall_eq (s : State) (c : Channel) :
    s.shortfall c = { s.setChannel c (s.channel c).afterShortfall with
      notifications := (s.shortfallPosts c).foldl Notifications.take s.notifications } := by
  simp only [State.shortfall, State.shortfallPosts, ChannelContext.afterShortfall]
  split <;> rfl

/-- A running channel is in ACTIVE or ENDING when it takes arrivals (R90). -/
theorem ChannelContext.running_of_takesArrivals {x : ChannelContext} (h : x.takesArrivals = true) :
    x.running = true := by
  simp only [ChannelContext.takesArrivals, Bool.and_eq_true] at h; exact h.2

theorem ChannelContext.running_of_answersDemands {x : ChannelContext} (h : x.answersDemands = true) :
    x.running = true := by
  simp only [ChannelContext.answersDemands, Bool.and_eq_true] at h; exact h.2

/-- Everything a byte arrival can do: nothing, a shortfall, the fault outside memory, or a byte stored (R90, R95). -/
theorem State.byteArrival_eq (s : State) (c : Channel) (b : Byte) :
    s.byteArrival c b =
      if (s.channel c).takesArrivals = false then .next s
      else if (s.channel c).canMove = false then
        .next { s.setChannel c (s.channel c).afterShortfall with
          notifications := (s.shortfallPosts c).foldl Notifications.take s.notifications }
      else if 8192 ≤ (s.channel c).address then .fault .addressOutsideMemory
      else .next { s.withByte c (s.channel c).afterByte (s.bytePosts c) with
        memory := s.memory.write (s.channel c).address b } := by
  by_cases h1 : (s.channel c).takesArrivals = true
  · by_cases h2 : (s.channel c).canMove = true
    · by_cases h3 : 8192 ≤ (s.channel c).address
      · simp [State.byteArrival, h1, h2, h3, Config.memoryBytes]
      · have e := State.byteMoved_eq { s with memory := s.memory.write (s.channel c).address b } c
          (ChannelContext.running_of_takesArrivals h1)
        simp only [State.byteArrival, h1, h2, h3, Config.memoryBytes, Bool.not_true, Bool.false_eq_true,
          Bool.true_eq_false, if_false]
        rw [e]; rfl
    · simp [State.byteArrival, h1, h2, State.shortfall_eq]
  · simp [State.byteArrival, h1]

/-- Everything a byte demand can do, and the byte it answers: the idle byte with nothing changed, the idle byte with a
shortfall, the fault outside memory, or a byte read (R90, R95). -/
theorem State.byteDemand_eq (s : State) (c : Channel) (pooled : Bool) :
    s.byteDemand c pooled =
      if (s.channel c).answersDemands = false ∨ ((s.channel c).poolMode = true ∧ pooled = false) then
        .next (s, s.transmitter.idleByte)
      else if (s.channel c).canMove = false then
        .next ({ s.setChannel c (s.channel c).afterShortfall with
          notifications := (s.shortfallPosts c).foldl Notifications.take s.notifications }, s.transmitter.idleByte)
      else if 8192 ≤ (s.channel c).address then .fault .addressOutsideMemory
      else .next (s.withByte c (s.channel c).afterByte (s.bytePosts c), s.byteAt (s.channel c).address) := by
  by_cases h1 : (s.channel c).answersDemands = true
  · by_cases h0 : (s.channel c).poolMode = true ∧ pooled = false
    · simp [State.byteDemand, h0.1, h0.2]
    · have h0' : ((s.channel c).poolMode && !pooled) = false := by
        cases hp : (s.channel c).poolMode <;> cases pooled <;> simp_all
      have h0'' : ¬((s.channel c).answersDemands = false ∨ ((s.channel c).poolMode = true ∧ pooled = false)) := by
        simp [h1, h0]
      by_cases h2 : (s.channel c).canMove = true
      · by_cases h3 : 8192 ≤ (s.channel c).address
        · simp [State.byteDemand, h1, h0', h2, h3, Config.memoryBytes]
          simpa using h0
        · rw [if_neg h0'']
          simp only [State.byteDemand, h1, h0', h2, h3, Config.memoryBytes, Bool.not_true, Bool.false_eq_true,
            Bool.true_eq_false, Bool.or_self, if_false]
          rw [State.byteMoved_eq s c (ChannelContext.running_of_answersDemands h1)]
      · rw [if_neg h0'']
        simp [State.byteDemand, h1, h0', h2, State.shortfall_eq]
  · simp [State.byteDemand, h1]

end Sys2Proof.Machine
end

