-- ==== Sys2Proof/Laws/Leaving.lean ====
section
/-! SUPPORT. What the end of RING receive channels and the leaving of alignment do, said once. -/

namespace Sys2Proof.Machine

theorem State.mem_endingRings (s : State) (c : Channel) :
    c ∈ s.endingRings ↔
      (s.channel c).direction = .receive ∧ (s.channel c).mode = .ring ∧ (s.channel c).state = .ending := by
  simp [State.endingRings, List.mem_filter, and_assoc]

theorem State.toDone_fields (s : State) (c : Channel) :
    s.toDone c =
      { s with channels := (s.toDone c).channels, pool := { s.pool with rotation := s.pool.rotation.filter (· ≠ c) } } :=
  rfl

theorem State.channel_toDone (s : State) (c d : Channel) :
    (s.toDone c).channel d = if d = c then { s.channel d with state := .done } else s.channel d := by
  simp only [State.toDone, State.channel_leaveRotation, State.channel_setChannel]
  split
  · next h => rw [h]
  · rfl

/-- Several channels entering DONE at once: their contexts, the rotation list, and nothing else (R89). -/
theorem State.foldl_toDone (l : List Channel) (s : State) :
    l.foldl State.toDone s =
        { s with
          channels := (l.foldl State.toDone s).channels
          pool := { s.pool with rotation := s.pool.rotation.filter fun c => c ∉ l } } ∧
      ∀ d, (l.foldl State.toDone s).channel d =
        if d ∈ l then { s.channel d with state := .done } else s.channel d := by
  induction l generalizing s with
  | nil => exact ⟨by simp, by simp⟩
  | cons c rest ih =>
    obtain ⟨h1, h2⟩ := ih (s.toDone c)
    refine ⟨?_, fun d => ?_⟩
    · have hf : (s.pool.rotation.filter (· ≠ c)).filter (fun d => decide (d ∉ rest)) =
          s.pool.rotation.filter fun d => d ∉ c :: rest := by
        rw [List.filter_filter]
        refine List.filter_congr fun d _ => ?_
        by_cases hd : d = c <;> simp [hd]
      rw [List.foldl_cons, h1, ← hf]
      rfl
    · rw [List.foldl_cons, h2 d, State.channel_toDone]
      by_cases hd : d = c <;> by_cases hr : d ∈ rest <;> simp [hd, hr]

/-- Every RING receive channel in ENDING goes to DONE and off the rotation list (R86). -/
theorem State.endRings_eq (s : State) :
    s.endRings =
        { s with
          channels := s.endRings.channels
          pool := { s.pool with rotation := s.pool.rotation.filter fun c => c ∉ s.endingRings } } ∧
      ∀ c, s.endRings.channel c = (s.channel c).afterFrameEnd := by
  obtain ⟨h1, h2⟩ := State.foldl_toDone s.endingRings s
  refine ⟨h1, fun c => ?_⟩
  show (s.endingRings.foldl State.toDone s).channel c = _
  rw [h2 c]
  simp only [State.mem_endingRings, ChannelContext.afterFrameEnd]

/-- The reports of a leaving of alignment (R30, step 3): the maps, the channels, the rotation list, the parser and the
posts, in some order. -/
theorem State.reportLeaving_eq (s : State) :
    ∃ (posts : List Post), posts.Perm s.leavingPosts ∧
      s.reportLeaving =
        { s with
          maps := s.maps.afterLeaving
          channels := s.reportLeaving.channels
          draws := s.reportLeaving.draws
          pool := { s.pool with
            rotation := s.pool.rotation.filter fun c => c ∉ s.endingRings
            rxBurst := { RxBurst.cleared with poolSlots := s.pool.rxBurst.poolSlots } }
          notifications := posts.foldl Notifications.take s.notifications } ∧
      ∀ c, s.reportLeaving.channel c = (s.channel c).afterFrameEnd := by
  obtain ⟨t, ht⟩ : ∃ t, t = if s.maps.rxPending then s.switchRxBank else s := ⟨_, rfl⟩
  have tmaps : t = { s with maps := s.maps.afterLeaving } := by
    rw [ht]; simp only [SlotMaps.afterLeaving]; split <;> rfl
  have tch : ∀ c, t.channel c = s.channel c := fun c => State.channel_congr (by rw [tmaps]) c
  have ter : t.endingRings = s.endingRings := by
    simp only [State.endingRings, tch]
  obtain ⟨e1, e2⟩ := State.endRings_eq t
  obtain ⟨posts, draws, hp, hq⟩ := State.postInAnyOrder_cases (t.endRings.endParse) s.leavingPosts
  have hr : s.reportLeaving = (t.endRings.endParse).postInAnyOrder s.leavingPosts := by
    simp only [State.reportLeaving, ht, State.leavingPosts]
  refine ⟨posts, hp, ?_, fun c => ?_⟩
  · rw [hr, hq]
    simp only [State.endParse, State.setRxBurst]
    rw [e1, tmaps]
    simp only [State.endingRings] at ter ⊢
    rfl
  · rw [hr, hq]
    show t.endRings.channel c = _
    rw [e2 c, tch c]

/-- A loss of alignment (R30): the loss is counted, ALIGN_LOST stands ahead of the posts of the leaving, and the aligner
starts a fresh search. -/
theorem State.loseAlignment_eq (s : State) (cause : LossCause) :
    ∃ (posts : List Post), posts.Perm s.leavingPosts ∧
      s.loseAlignment cause =
        { s with
          monitor := { s.monitor with alignmentLosses := saturatingInc s.monitor.alignmentLosses }
          aligner := s.aligner.left .hunt
          maps := s.maps.afterLeaving
          channels := (s.loseAlignment cause).channels
          draws := (s.loseAlignment cause).draws
          pool := { s.pool with
            rotation := s.pool.rotation.filter fun c => c ∉ s.endingRings
            rxBurst := { RxBurst.cleared with poolSlots := s.pool.rxBurst.poolSlots } }
          notifications :=
            (s.rxLinkPost .alignLost cause.detail :: posts).foldl Notifications.take s.notifications } ∧
      ∀ c, (s.loseAlignment cause).channel c = (s.channel c).afterFrameEnd := by
  obtain ⟨posts, hp, he, hc⟩ := State.reportLeaving_eq (s.countLoss cause)
  refine ⟨posts, hp, ?_, hc⟩
  simp only [State.loseAlignment]
  rw [he]
  rfl

end Sys2Proof.Machine
end

