-- ==== Sys2Proof/Laws/Frames.lean ====
section
/-! SUPPORT. What a receive cycle start and a receive frame start do, said once. -/

namespace Sys2Proof.Machine

/-- The slot maps behind a receive frame start: at a cycle start a pending switch completes (R60). -/
def State.mapsAtFrame (s : State) : SlotMaps :=
  if s.aligner.expectedPosition = 0 ∧ s.maps.rxPending = true then
    { s.maps with rxActive := s.maps.rxActive.other, rxPending := false }
  else s.maps

/-- The receive cycle count behind a receive frame start (R34). -/
def State.countAtFrame (s : State) : Half :=
  if s.aligner.expectedPosition = 0 then s.aligner.cycleCount + 1 else s.aligner.cycleCount

/-- The aligner behind a receive frame start whose marker carries the flag, if it was a good one (R29, R34 to R36). -/
def State.alignerAtFrame (s : State) (flag : Option Bool) : Aligner :=
  let a := match flag with
    | some f => s.aligner.readFlag f
    | none => s.aligner
  { a with
    expectedPlace := (s.transmitter.frameLength - 1) * 8
    expectedPosition := (s.aligner.expectedPosition + 1) % 12
    cycleCount := s.countAtFrame
    cycleOffset := if s.aligner.expectedPosition = 0 then s.transmitter.offset else s.aligner.cycleOffset }

/-- The posts of a receive frame start: of a switch and of a change of REMOTE_FAULT (R60, R36). -/
def State.postsAtFrame (s : State) (flag : Option Bool) : List Post :=
  (if s.aligner.expectedPosition = 0 ∧ s.maps.rxPending = true then
    [(⟨.rxMapSwitched, .link, .none, s.countAtFrame⟩ : Post)] else []) ++
  (if (s.alignerAtFrame flag).remoteFault ≠ s.aligner.remoteFault then
    [(⟨remoteFaultKind (s.alignerAtFrame flag).remoteFault, .link, .none, s.countAtFrame⟩ : Post)] else [])

/-- The entry of the receive channels in ARMED to ACTIVE (R79). -/
theorem State.channel_activateReceive (s : State) (c : Channel) :
    s.activateReceive.channel c =
      if (s.channel c).direction = .receive ∧ (s.channel c).state = .armed then
        { s.channel c with state := .active } else s.channel c := by
  simp [State.activateReceive]

/-- A receive cycle start: the count, the offset, the maps, the channels, and nothing else (R34, R60, R79). -/
theorem State.rxCycleStart_eq (s : State) :
    s.rxCycleStart =
        { s with
          aligner := { s.aligner with
            cycleCount := s.aligner.cycleCount + 1, cycleOffset := s.transmitter.offset }
          maps := if s.maps.rxPending = true then
              { s.maps with rxActive := s.maps.rxActive.other, rxPending := false } else s.maps
          channels := s.rxCycleStart.channels } ∧
      ∀ c, s.rxCycleStart.channel c =
        if (s.channel c).direction = .receive ∧ (s.channel c).state = .armed then
          { s.channel c with state := .active } else s.channel c := by
  by_cases h : s.maps.rxPending = true
  · have e : s.rxCycleStart = s.countRxCycle.switchRxBank.activateReceive := by
      simp only [State.rxCycleStart]; exact congrArg _ (if_pos h)
    refine ⟨?_, fun c => ?_⟩
    · rw [if_pos h, e]; rfl
    · rw [e, State.channel_activateReceive]; rfl
  · have e : s.rxCycleStart = s.countRxCycle.activateReceive := by
      simp only [State.rxCycleStart]; exact congrArg _ (if_neg h)
    refine ⟨?_, fun c => ?_⟩
    · rw [if_neg h, e]; rfl
    · rw [e, State.channel_activateReceive]; rfl

/-- The cycle start that a receive frame start is at position 0, and nothing at another position (R34). -/
theorem State.cycleAtFrame_eq (s : State) :
    ∃ t : State, t = (if s.aligner.expectedPosition = 0 then s.rxCycleStart else s) ∧
      t = { s with
        aligner := { s.aligner with
          cycleCount := s.countAtFrame
          cycleOffset := if s.aligner.expectedPosition = 0 then s.transmitter.offset else s.aligner.cycleOffset }
        maps := s.mapsAtFrame
        channels := t.channels } ∧
      ∀ c, t.channel c =
        if s.aligner.expectedPosition = 0 ∧ (s.channel c).direction = .receive ∧ (s.channel c).state = .armed then
          { s.channel c with state := .active } else s.channel c := by
  refine ⟨_, rfl, ?_⟩
  obtain ⟨h1, h2⟩ := State.rxCycleStart_eq s
  by_cases q : s.aligner.expectedPosition = 0
  · have hn : s.countAtFrame = s.aligner.cycleCount + 1 := if_pos q
    have hm : s.mapsAtFrame = if s.maps.rxPending = true then
        { s.maps with rxActive := s.maps.rxActive.other, rxPending := false } else s.maps := by
      simp only [State.mapsAtFrame, q, true_and]
    rw [if_pos q, if_pos q, hn, hm]
    refine ⟨h1, fun c => ?_⟩
    rw [h2 c]
    simp only [q, true_and]
  · simp only [q, if_false, State.countAtFrame, State.mapsAtFrame, false_and]
    exact ⟨trivial, fun _ => trivial⟩

/-- A receive frame start (R28, R29, R34 to R36, R60, R79, R127): the aligner, the maps, the channels, the parser, and the
posts in some order; nothing else changes but the draw. -/
theorem State.frameStart_eq (s : State) (flag : Option Bool) :
    ∃ (posts : List Post) (draws : Nat), posts.Perm (s.postsAtFrame flag) ∧
      s.frameStart flag =
        { s with
          aligner := s.alignerAtFrame flag
          maps := s.mapsAtFrame
          channels := (s.frameStart flag).channels
          draws := draws
          pool := { s.pool with rxBurst :=
            { RxBurst.cleared with
              poolSlots := (s.mapsAtFrame.rxPoolSlots (s.transmitter.frameLength - 1)).length
              phase := if 3 ≤ (s.mapsAtFrame.rxPoolSlots (s.transmitter.frameLength - 1)).length then .awaitTag
                else .noBurst } }
          notifications := posts.foldl Notifications.take s.notifications } ∧
      ∀ c, (s.frameStart flag).channel c =
        if s.aligner.expectedPosition = 0 ∧ (s.channel c).direction = .receive ∧ (s.channel c).state = .armed then
          { s.channel c with state := .active } else s.channel c := by
  obtain ⟨t, ht, he, hc⟩ := s.cycleAtFrame_eq
  obtain ⟨posts, draws, hp, hq⟩ := State.postInAnyOrder_cases
    { t.beginParse with aligner := s.alignerAtFrame flag } (s.postsAtFrame flag)
  have hr : s.frameStart flag =
      State.postInAnyOrder { t.beginParse with aligner := s.alignerAtFrame flag } (s.postsAtFrame flag) := by
    simp only [State.frameStart, ← ht]
    have hf : t.aligner.remoteFault = s.aligner.remoteFault := by rw [he]
    congr 1
    · congr 1
      rw [he]
      cases flag with
      | none => rfl
      | some f => simp only [State.alignerAtFrame, Aligner.readFlag]; split <;> [rfl; (split <;> rfl)]
    · have hn : t.aligner.cycleCount = s.countAtFrame := by rw [he]
      simp only [State.postsAtFrame, State.rxSwitchedPost, State.rxLinkPost, hn, hf]
      congr 1
      have hv : ∀ f, (t.aligner.readFlag f).remoteFault = (s.aligner.readFlag f).remoteFault := fun f => by
        rw [he]; simp only [Aligner.readFlag]; split <;> [rfl; (split <;> rfl)]
      cases flag with
      | none => clear hq; simp [State.alignerAtFrame, hf]
      | some f =>
        clear hq
        by_cases g : (s.aligner.readFlag f).remoteFault = s.aligner.remoteFault <;> simp [State.alignerAtFrame, hv, g]
  refine ⟨posts, draws, hp, ?_, fun c => ?_⟩
  · rw [hr, hq]
    conv_lhs => rw [he]
    rfl
  · rw [hr, hq]
    exact hc c

end Sys2Proof.Machine
end

