-- ==== Sys2Proof/Laws/Gates.lean ====
section
/-! SUPPORT. What the gates of the Host Port let through, each case said once. -/

namespace Sys2Proof.Machine

/-- A host write that reaches its item's owner. -/
theorem State.hostWrite_ready {s : State} {page : Fin 6} (h : s.hostReady) (hp : s.port.page = page)
    (act : State → State) : s.hostWrite page act = act s := by
  simp [State.hostWrite, h.1, h.2, hp]

theorem State.hostWrite_rstnLow {s : State} (h : s.port.rstnLow = true) (page : Fin 6) (act : State → State) :
    s.hostWrite page act = s := by
  simp [State.hostWrite, h]

theorem State.hostWrite_init {s : State} (h : s.port.init = true) (page : Fin 6) (act : State → State) :
    s.hostWrite page act = s := by
  simp [State.hostWrite, h]

theorem State.hostWrite_otherPage {s : State} {page : Fin 6} (h : s.port.page ≠ page) (act : State → State) :
    s.hostWrite page act = s := by
  simp [State.hostWrite, h]

/-- A host write either changes nothing or is its item's action: whatever the action keeps, the write keeps. -/
theorem State.hostWrite_cases (s : State) (page : Fin 6) (act : State → State) :
    s.hostWrite page act = s ∨ (s.hostReady ∧ s.port.page = page ∧ s.hostWrite page act = act s) := by
  by_cases h1 : s.port.rstnLow = true
  · exact .inl (s.hostWrite_rstnLow h1 page act)
  · by_cases h2 : s.port.init = true
    · exact .inl (s.hostWrite_init h2 page act)
    · by_cases h3 : s.port.page = page
      · have h : s.hostReady := ⟨by simpa using h1, by simpa using h2⟩
        exact .inr ⟨h, h3, s.hostWrite_ready h h3 act⟩
      · exact .inl (s.hostWrite_otherPage h3 act)

theorem State.hostRead_ready {s : State} {page : Fin 6} (h : s.hostReady) (hp : s.port.page = page)
    (act : State → State) : s.hostRead page act = act s := by
  simp [State.hostRead, h.1, h.2, hp]

/-- A host read returns 00H at a gate, changes nothing on another page, or is its item's action. -/
theorem State.hostRead_cases (s : State) (page : Fin 6) (act : State → State) :
    s.hostRead page act = s.returnByte 0 ∨ s.hostRead page act = s ∨
      (s.hostReady ∧ s.port.page = page ∧ s.hostRead page act = act s) := by
  by_cases h1 : s.port.rstnLow = true
  · exact .inl (by simp [State.hostRead, h1])
  · by_cases h2 : s.port.init = true
    · exact .inl (by simp [State.hostRead, h2])
    · by_cases h3 : s.port.page = page
      · have h : s.hostReady := ⟨by simpa using h1, by simpa using h2⟩
        exact .inr (.inr ⟨h, h3, State.hostRead_ready h h3 act⟩)
      · exact .inr (.inl (by simp [State.hostRead, h1, h2, h3]))

/-- A command code that its block decides. -/
theorem State.command_ready {s : State} (h : s.commandReady) (act : State → State × ResultCode) :
    s.command act = (act s).1.setResult (act s).2 := by
  simp [State.command, h.1.1, h.1.2, h.2]

/-- A command code is ignored, answered NOT_READY, or decided by its block. -/
theorem State.command_cases (s : State) (act : State → State × ResultCode) :
    s.command act = s ∨ (s.port.init = true ∧ s.command act = s.setResult .notReady) ∨
      (s.commandReady ∧ s.command act = (act s).1.setResult (act s).2) := by
  by_cases h1 : s.port.rstnLow = true
  · exact .inl (by simp [State.command, h1])
  · by_cases h3 : s.port.page = 0
    · by_cases h2 : s.port.init = true
      · exact .inr (.inl ⟨h2, by simp [State.command, h1, h2, h3]⟩)
      · have h : s.commandReady := ⟨⟨by simpa using h1, by simpa using h2⟩, h3⟩
        exact .inr (.inr ⟨h, State.command_ready h act⟩)
    · exact .inl (by simp [State.command, h1, h3])

/-- The channel that operand 0 names. -/
theorem HostPort.operandChannel_eq {p : HostPort} {c : Channel} (h : p.operand0.toNat = c.val) :
    p.operandChannel = some c := by
  have hc := c.isLt
  simp only [HostPort.operandChannel]
  rw [dif_pos (by omega)]
  exact congrArg some (Fin.ext h)

theorem HostPort.operandChannel_none {p : HostPort} (h : 20 ≤ p.operand0.toNat) : p.operandChannel = none := by
  simp only [HostPort.operandChannel]
  rw [dif_neg (by omega)]

/-- The model's two tables of writable wide items and of command codes are those of WellFormed. -/
theorem wideWritable_eq (i : WideItem) : wideWritable i = i.writable := by cases i <;> rfl

theorem codeNamesCommand_eq (k : Byte) : codeNamesCommand k = namesCommand k := rfl

end Sys2Proof.Machine
end

