-- ==== Sys2Proof/Laws/Positions.lean ====
section
/-! SUPPORT. What a bit position does on either side, and what the grant of a frame start leaves, each said once. -/

namespace Sys2Proof.Machine

variable (s : State)

/-! ### takeBit -/

@[simp] theorem State.takeBit_port (bit : Bool) : (s.takeBit bit).port = s.port := rfl
@[simp] theorem State.takeBit_transmitter (bit : Bool) : (s.takeBit bit).transmitter = s.transmitter := rfl
@[simp] theorem State.takeBit_aligner (bit : Bool) : (s.takeBit bit).aligner =
    { s.aligner with bits := s.aligner.bits ++ [bit], lateBit := s.aligner.behind } := rfl
@[simp] theorem State.takeBit_monitor (bit : Bool) : (s.takeBit bit).monitor = s.monitor.takeBit bit := rfl
@[simp] theorem State.takeBit_maps (bit : Bool) : (s.takeBit bit).maps = s.maps := rfl
@[simp] theorem State.takeBit_channels (bit : Bool) : (s.takeBit bit).channels = s.channels := rfl
@[simp] theorem State.takeBit_memory (bit : Bool) : (s.takeBit bit).memory = s.memory := rfl
@[simp] theorem State.takeBit_pool (bit : Bool) : (s.takeBit bit).pool = s.pool := rfl
@[simp] theorem State.takeBit_notifications (bit : Bool) : (s.takeBit bit).notifications = s.notifications := rfl
@[simp] theorem State.takeBit_pending (bit : Bool) : (s.takeBit bit).pending = s.pending := rfl
@[simp] theorem State.takeBit_draws (bit : Bool) : (s.takeBit bit).draws = s.draws := rfl
@[simp] theorem State.takeBit_powerOns (bit : Bool) : (s.takeBit bit).powerOns = s.powerOns := rfl

/-! ### When the next bit can come -/

/-- Where the next bit is not held back, the history has room and the aligner has nothing to do, or is behind the line and
has examined stored bits since the last bit (R23). -/
theorem Aligner.bitHeld_eq_false {a : Aligner} {f : Nat} (h : a.bitHeld f = false) :
    a.historyFull f = false ∧ (a.eventDue = false ∨ (a.behind = true ∧ a.lateBit = false)) := by
  simp only [Aligner.bitHeld, Bool.or_eq_false_iff, Bool.and_eq_false_iff, Bool.not_eq_false'] at h
  exact h

/-- In ALIGNED the next bit waits for the frame end and for the byte whose eight bits are there. -/
theorem Aligner.room_of_aligned {a : Aligner} {f : Nat} (ok : a.Ok f) (hs : a.state = .aligned)
    (h : a.bitHeld f = false) : a.bits.length < 8 ∧ a.frameEndDue = false := by
  have due : a.eventDue = false := by
    have level : a.behind = false := by simp [Aligner.behind, hs]
    simpa [level] using (Aligner.bitHeld_eq_false h).2
  obtain ⟨-, -, -, -, -, -, place, -⟩ := ok
  obtain ⟨-, slots⟩ := place hs
  simp only [Aligner.eventDue, Aligner.examinationDue, Aligner.confirmCheckDue, Aligner.markerCheckDue,
    Aligner.arrivalDue, Aligner.frameEndReady, hs] at due
  simp only [reduceCtorEq, decide_false, Bool.false_and, Bool.false_or, decide_true, Bool.true_and, Bool.or_eq_false_iff,
    Bool.and_eq_false_iff, decide_eq_false_iff_not, Bool.not_eq_false'] at due
  obtain ⟨⟨check, arrival⟩, ended⟩ := due
  refine ⟨?_, ended⟩
  by_cases zero : a.expectedPlace = 0
  · simp [zero, ended] at check; exact check
  · omega

/-- A bit that is not held back keeps the aligner's ranges, the bound of the stored history among them (R23). -/
theorem Aligner.ok_takeBit {a : Aligner} {f : Nat} (ok : a.Ok f) (on : a.receiving = true) (h : a.bitHeld f = false)
    (bit late : Bool) : ({ a with bits := a.bits ++ [bit], lateBit := late } : Aligner).Ok f := by
  have aligned : a.state = .aligned → _ := fun hs => Aligner.room_of_aligned ok hs h
  have room := (Aligner.bitHeld_eq_false h).1
  obtain ⟨o1, -, o3, o4, -, o6, o7, o8, o9⟩ := ok
  have more : (a.bits ++ [bit]).length = a.bits.length + 1 := by simp
  refine ⟨o1, fun q => ?_, o3, fun q => ?_, fun q => ?_, o6, o7, fun q => ?_, o9⟩
  · simp only [Aligner.receiving, bne_iff_ne] at on; exact absurd q on
  · have : a.state = .hunt ∨ a.state = .confirm := q
    simp only [Aligner.historyFull, Bool.and_eq_false_iff, Bool.or_eq_false_iff, decide_eq_false_iff_not] at room
    show (a.bits ++ [bit]).length ≤ _
    rcases room with ⟨n1, n2⟩ | room
    · rcases this with e | e
      · exact absurd e n1
      · exact absurd e n2
    · omega
  · show (a.bits ++ [bit]).length ≤ _
    have := (aligned q).1; omega
  · have := (aligned (o8 q).1).2
    exact absurd q (by simp [this])

/-! ### takeLooped: only the aligner's bits and the monitor can change -/

@[simp] theorem State.takeLooped_port : s.takeLooped.port = s.port := by unfold State.takeLooped; split <;> rfl
@[simp] theorem State.takeLooped_transmitter : s.takeLooped.transmitter = s.transmitter := by unfold State.takeLooped; split <;> rfl
@[simp] theorem State.takeLooped_maps : s.takeLooped.maps = s.maps := by unfold State.takeLooped; split <;> rfl
@[simp] theorem State.takeLooped_channels : s.takeLooped.channels = s.channels := by unfold State.takeLooped; split <;> rfl
@[simp] theorem State.takeLooped_memory : s.takeLooped.memory = s.memory := by unfold State.takeLooped; split <;> rfl
@[simp] theorem State.takeLooped_pool : s.takeLooped.pool = s.pool := by unfold State.takeLooped; split <;> rfl
@[simp] theorem State.takeLooped_notifications : s.takeLooped.notifications = s.notifications := by unfold State.takeLooped; split <;> rfl
@[simp] theorem State.takeLooped_pending : s.takeLooped.pending = s.pending := by unfold State.takeLooped; split <;> rfl
@[simp] theorem State.takeLooped_draws : s.takeLooped.draws = s.draws := by unfold State.takeLooped; split <;> rfl
@[simp] theorem State.takeLooped_powerOns : s.takeLooped.powerOns = s.powerOns := by unfold State.takeLooped; split <;> rfl

theorem State.takeLooped_of_looped (h : s.looped = true) : s.takeLooped = s.takeBit s.transmitter.line := if_pos h

theorem State.takeLooped_of_not_looped (h : s.looped = false) : s.takeLooped = s := by
  simp only [State.takeLooped, h, Bool.false_eq_true, if_false]

/-! ### One TXCLK bit position -/

/-- What one TXCLK bit position makes of the transmitter, where it has come: STOPPED keeps its place, a bit of the slot
follows the one before it, or the next slot begins with the byte its demand has fixed. -/
theorem Transmitter.advance_cases {t u : Transmitter} (h : t.advance = some u) :
    (t.state = .stopped ∧ u = t) ∨
    (t.state ≠ .stopped ∧ t.begun = true ∧ t.bitIndex < 7 ∧ u = { t with bitIndex := t.bitIndex + 1 }) ∨
    (t.state ≠ .stopped ∧ t.begun = true ∧ 7 ≤ t.bitIndex ∧ ∃ b, t.nextByte = some b ∧
      u = { t with slotIndex := t.slotIndex + 1, bitIndex := 0, slotByte := b, nextByte := none }) := by
  unfold Transmitter.advance at h
  split at h
  · exact .inl ⟨‹_›, by cases h; rfl⟩
  · split at h
    · cases h
    · split at h
      · exact .inr (.inl ⟨‹_›, by simpa using ‹¬(!t.begun) = true›, ‹_›, by cases h; rfl⟩)
      · split at h
        · exact .inr (.inr ⟨‹_›, by simpa using ‹¬(!t.begun) = true›, Nat.le_of_not_lt ‹_›, _, ‹_›, by cases h; rfl⟩)
        · cases h

/-- A TXCLK bit position that is no frame start changes nothing, or moves the transmitter on and feeds the loop. -/
theorem State.txBitPosition_cases :
    s.txBitPosition = s ∨
    ∃ t, s.loopHeld = false ∧ s.transmitter.advance = some t ∧
      s.txBitPosition = ({ s with transmitter := t } : State).takeLooped := by
  unfold State.txBitPosition
  split
  · exact .inl rfl
  · split
    · exact .inr ⟨_, by simpa using ‹¬s.loopHeld = true›, ‹_›, rfl⟩
    · exact .inl rfl

/-! ### The grant -/

/-- In a list without repeats, taking a member out leaves what stands before it and behind it. -/
theorem filter_ne_split {l front back : List Channel} {c : Channel} (hl : l.Nodup) (h : l = front ++ c :: back) :
    l.filter (· ≠ c) = front ++ back := by
  subst h
  obtain ⟨-, h2, h3⟩ := List.nodup_append.1 hl
  have q1 : front.filter (· ≠ c) = front := by
    rw [List.filter_eq_self]; intro x hx; simpa using h3 x hx c (by simp)
  have q2 : back.filter (· ≠ c) = back := by
    rw [List.filter_eq_self]; rintro x hx; simp only [ne_eq, decide_eq_true_eq]; rintro rfl; exact (List.nodup_cons.1 h2).1 hx
  rw [List.filter_append, List.filter_cons, q1, q2]; simp

/-- What the grant of a state `u` leaves, told by the channels of a state `s` with the same bytes available and tags. -/
theorem State.grant_leaves (u : State) (h : u.pool.rotation.Nodup)
    (available : ∀ c, (u.channel c).available = (s.channel c).available)
    (tags : ∀ c, (u.channel c).tag = (s.channel c).tag) :
    s.GrantLeaves (u.maps.txPoolSlots (u.transmitter.frameLength - 1)).length u.pool.rotation u.grant.pool.rotation
      u.grant.pool.txBurst ∧
    u.grant = { u with pool := { u.pool with
      rotation := u.grant.pool.rotation, txBurst := u.grant.pool.txBurst } } := by
  refine ⟨⟨fun hh => ?_, fun front back c h3 hr hb hc => ?_⟩, by simp only [State.grant]; split <;> rfl⟩
  · have none_found : (if 3 ≤ (u.maps.txPoolSlots (u.transmitter.frameLength - 1)).length then u.firstEligible else none) =
        none := by
      rcases hh with hh | hh
      · rw [if_neg (by omega)]
      · split
        · simp only [State.firstEligible, List.find?_eq_none]
          intro x hx; simpa [available] using hh x hx
        · rfl
    simp only [State.grant, none_found]; constructor <;> first | rfl | trivial
  · have found : (if 3 ≤ (u.maps.txPoolSlots (u.transmitter.frameLength - 1)).length then u.firstEligible else none) =
        some c := by
      have front_none : List.find? (fun c => decide (0 < (s.channel c).available)) front = none := by
        rw [List.find?_eq_none]; intro x hx; simpa using hb x hx
      rw [if_pos h3]
      simp only [State.firstEligible, available]
      rw [hr, List.find?_append, front_none]
      simp [hc]
    simp only [State.grant, found, filter_ne_split h hr, available, tags]; constructor <;> first | rfl | trivial

end Sys2Proof.Machine
end

