-- ==== Sys2Proof/Tests/Slice0.lean ====
section
/-! SUPPORT. The model's own tests: the smoke test of WellFormed, one-step tests whose expected values are read from the
spec's rules and tables, and for every statement with hypotheses a concrete state and operands that meet them. -/

namespace Sys2Proof.Tests

open Sys2Proof.Machine

/-! ### States to test on -/

/-- The part after its power-on clearing, with a page selected. -/
def ready (page : Fin 6) : State := { State.reset with port := { HostPort.reset with init := false, page := page } }

/-- The part with RSTN low. -/
def inReset : State := { State.reset with port := { HostPort.reset with rstnLow := true } }

/-- Operand 0 and the amount set, on page 0. -/
def withOperands (s : State) (operand : Byte) (high low : Byte) : State :=
  { s with port := { s.port with page := 0, operand0 := operand, amountHigh := high, amountLow := low } }

/-- Every kind enabled and suspend clear. -/
def listening (s : State) : State :=
  { s with notifications := { s.notifications with enabled := 0x7FFF, suspend := false } }

/-- A queue of 32 records with distinct keys. -/
def fullQueue : List QueueRecord :=
  (List.finRange 32).map fun i =>
    ⟨⟨if i.val < 20 then .watermark else .shortfall, .channel ⟨i.val % 20, Nat.mod_lt _ (by decide)⟩, .none, 0⟩, 1⟩

/-- A full queue, listening. -/
def full : State :=
  let s := listening (ready 0)
  { s with notifications := { s.notifications with queue := fullQueue } }

/-- A queue of one record: the watermark of channel 3. -/
def oneRecord : State :=
  let s := listening (ready 0)
  { s with notifications := { s.notifications with queue := [⟨⟨.watermark, .channel 3, .none, 7⟩, 2⟩] } }

/-- The eight bits of a byte in order of sending. -/
def bitsOf (b : Byte) : List Bool := (List.range 8).map (sentBit b)

/-- A RING channel with segment A of 4 bytes at address 16. -/
def ring (d : Direction) (st : ChannelState) (fill : Nat) : ChannelContext :=
  { ChannelContext.reset with direction := d, mode := .ring, baseA := 16, lengthA := 4, state := st, fill := fill }

/-- A SINGLE channel with segment A of 2 bytes at address 16. -/
def single (d : Direction) (st : ChannelState) : ChannelContext :=
  { ChannelContext.reset with direction := d, baseA := 16, lengthA := 2, state := st }

/-- An ALTERNATING channel with segments of 2 bytes at addresses 16 and 32. -/
def alternating (d : Direction) (st : ChannelState) : ChannelContext :=
  { ChannelContext.reset with
    direction := d, mode := .alternating, baseA := 16, lengthA := 2, baseB := 32, lengthB := 2, state := st }

/-- An ALTERNATING channel stalled at segment A. -/
def stalledAt (d : Direction) (st : ChannelState) : ChannelContext :=
  { alternating d st with ownerA := .host, stalled := true }

/-- A transmit channel in pool mode with tag 5, in SINGLE mode. -/
def sender (st : ChannelState) : ChannelContext := { single .transmit st with poolMode := true, tag := 5 }

/-- The transmitter RUNNING in a frame, at a slot. -/
def sending (frame slot : Nat) : Transmitter :=
  { Transmitter.reset with
    enable := true, state := .running, begun := true, frameIndex := frame, slotIndex := slot, cycleCount := 9 }

/-- The aligner in ALIGNED with some bits held and the next marker some bit positions on. -/
def following (place : Nat) (bits : List Bool) : Aligner :=
  { Aligner.reset with
    enable := true, state := .aligned, bits := bits, expectedPlace := place, confirmations := 2, cycleCount := 9 }

/-- The aligner in HUNT with some bits held. -/
def hunting (bits : List Bool) : Aligner := { Aligner.reset with enable := true, state := .hunt, bits := bits }

/-- The aligner in CONFIRM with candidate position 3, its first check due with a marker byte, after some confirmations. -/
def confirming (n : Nat) (b : Byte) : Aligner :=
  { Aligner.reset with
    enable := true, state := .confirm, candidate := some 3, confirmations := n, expectedPosition := 4 + n
    expectedPlace := (n + 1) * 128, bits := bitsOf 0xA3 ++ List.replicate ((n + 1) * 128 - 8) true ++ bitsOf b }

/-- A frame of 16 slots with the aligner in CONFIRM. -/
def confirmed (n : Nat) (b : Byte) : State :=
  { listening (ready 0) with
    transmitter := { Transmitter.reset with frameLength := 16 }, aligner := confirming n b }

/-- All receive entries of a bank of one kind, for one channel. -/
def rxAll (k : RxKind) (c : Channel) : BankMaps := { BankMaps.reset with rx := Vector.replicate 63 ⟨k, c⟩ }

/-- All transmit entries of a bank of one kind, for one channel. -/
def txAll (k : TxKind) (c : Channel) : BankMaps := { BankMaps.reset with tx := Vector.replicate 63 ⟨k, c, 0x3C⟩ }

/-- A byte has come for payload slot 2, whose entry has a kind, for channel 1 in a given context. -/
def arrival (k : RxKind) (x : ChannelContext) (b : Byte) : State :=
  let s := listening (ready 0)
  { s.setChannel 1 x with aligner := following 304 (bitsOf b), maps := { SlotMaps.reset with bankA := rxAll k 1 } }

/-- A byte of a pool burst has come, with the parser in a phase. -/
def poolArrival (r : RxBurst) (x : ChannelContext) (b : Byte) : State :=
  let s := arrival .pool x b
  { s with pool := { s.pool with rxBurst := r, tagTable := s.pool.tagTable.set 4 (some 1) } }

/-- The byte of payload slot 3 is asked for; its entry has a kind, for channel 1 in a given context. -/
def demand (k : TxKind) (x : ChannelContext) : State :=
  let s := listening (ready 0)
  { s.setChannel 1 x with transmitter := sending 0 2, maps := { SlotMaps.reset with bankA := txAll k 1 } }

/-- The byte of a pool slot is asked for with a burst granted to channel 1. -/
def poolDemand (b : TxBurst) (slot : Nat) (x : ChannelContext) : State :=
  let s := demand .pool x
  { s with transmitter := sending 0 slot, pool := { s.pool with txBurst := b, rotation := [1] } }

/-- A burst of 2 bytes granted to channel 1, with some answered. -/
def burst (answered : Nat) : TxBurst := { poolSlots := 5, granted := some 1, tag := 5, length := 2, answered := answered }

/-- The transmitter at the last bit of a frame. -/
def frameSent (frame : Nat) : Transmitter := { sending frame 39 with bitIndex := 7 }

/-- The last bit of a frame is being sent, with a rotation list of pool senders. -/
def frameEnded (frame : Nat) (rotation : List Channel) (k : TxKind) : State :=
  let s := listening (ready 0)
  { (s.setChannel 1 (sender .active)).setChannel 2 (ring .transmit .active 0) with
    transmitter := frameSent frame
    maps := { SlotMaps.reset with bankA := txAll k 1 }
    pool := { PoolUnit.reset with rotation := rotation } }

/-- ALIGNED with a marker check due on a byte, at an expected position. -/
def markerDue (position : Nat) (b : Byte) : State :=
  let s := listening (ready 0)
  { s with aligner := { following 0 (bitsOf b) with expectedPosition := position } }

/-- ALIGNED, with a switch pending and a RING receive channel in ENDING. -/
def leaving : State :=
  let s := listening (ready 0)
  { s.setChannel 1 (ring .receive .ending 2) with
    aligner := following 8 []
    maps := { SlotMaps.reset with rxPending := true } }

/-- Line Monitor counts and windows set, receive enabled in HUNT. -/
def monitored (m : LineMonitor) : State :=
  let s := listening (ready 0)
  { s with aligner := hunting [], monitor := m }

/-- What an answer's next state gives. -/
def after {α : Type} (o : Host.Outcome State Fault Refusal) (f : State → α) : Option α :=
  match o with
  | .next t => some (f t)
  | .fault _ => none
  | .refused _ => none

/-- The command answers a next state. -/
def answers (o : Host.Outcome State Fault Refusal) : Bool := (after o fun _ => ()).isSome

/-! ### WellFormed: an ill-formed command for each check -/

theorem test_wellFormed_low_byte_of_a_read_only_item : (Instr.wideLowByteWrite .position 1).wellFormed = false := by decide
theorem test_wellFormed_commit_of_a_read_only_item : (Instr.wideHighByteCommit .headStamp 1).wellFormed = false := by decide
theorem test_wellFormed_register_write_of_the_page_register : (Instr.registerWrite 0x3F 1).wellFormed = false := by decide
theorem test_wellFormed_bad_command_of_a_command_code :
    (Instr.badCommand 0x01).wellFormed = false ∧ (Instr.badCommand 0x0B).wellFormed = false ∧
    (Instr.badCommand 0x00).wellFormed = true ∧ (Instr.badCommand 0x0C).wellFormed = true := by decide

/-! ### One step of each command, with the values the rules give -/

/-- The table gives no bits, so no word spells a command. -/
theorem test_no_word_spells_a_command : decodeTableWord 8 0x01 = none := rfl

/-- Section 10.2: page 0 location 00H reads 44H; section 9.6: INIT is bit 0 of the port status. -/
theorem test_reads_after_power_on :
    (ready 0).busRead 0x00 = 0x44 ∧ (ready 0).busRead 0x03 = 0x28 ∧ State.reset.busRead 0x0D = 0x01 ∧
    State.reset.busRead 0x00 = 0x00 := by decide

/-- Section 9.7: after the clearing the byte at an address is 00H. -/
theorem test_clearing_end :
    after (exec .powerOnClearingEnd { State.reset with memory := [(5, 9)] }) (fun t => (t.port.init, t.byteAt 5)) =
      some (false, 0) := by decide

theorem test_power_on :
    after (exec .powerOn (arrival .channel (single .receive .active) 7)) (fun t =>
      (t.port.init, t.aligner.state, (t.channel 1).state, t.notifications.suspend)) = some (true, .off, .idle, true) := by
  decide

/-- R52, R160: a pin reset keeps the link counters and INIT. -/
theorem test_pin_reset :
    after (exec .pinReset { ready 2 with monitor := { LineMonitor.reset with markerErrors := 3, threshold := 4 } }) (fun t =>
      (t.port.init, t.port.page, t.monitor.markerErrors, t.monitor.threshold)) = some (false, 0, 3, 0xFFFF) := by decide

/-- The commands that wait stand outside the part: the whole resets keep them (assumption 11). -/
theorem test_whole_resets_keep_the_waiting_commands :
    after (step { ready 2 with pending := [.powerOn, .cmdStart] }) (fun t => t.pending) = some [.cmdStart] ∧
    after (step { ready 2 with pending := [.pinReset, .cmdStart] }) (fun t => t.pending) = some [.cmdStart] := by decide

theorem test_pin_reset_release : after (exec .pinResetRelease inReset) (fun t => t.port.rstnLow) = some false := by decide

/-- R10: while the aligner is OFF the first marker of a cycle is A0H. -/
theorem test_first_frame_start :
    after (exec .transmitFrameStart { ready 0 with transmitter := { Transmitter.reset with enable := true, state := .running } })
      (fun t => (t.transmitter.slotByte, t.transmitter.cycleCount)) = some (0xA0, 1) := by decide

/-- R10: in HUNT the remote-fault flag is sent; the frame behind frame 10 has index 11. -/
theorem test_frame_start_in_hunt :
    after (exec .transmitFrameStart { frameEnded 10 [] .idle with aligner := hunting [] })
      (fun t => (t.transmitter.slotByte, t.transmitter.cycleCount)) = some (0xBB, 9) := by decide

theorem test_demand_of_a_constant_slot :
    after (exec .slotDemand (demand .constant .reset)) (fun t => t.transmitter.nextByte) = some (some 0x3C) := by decide

/-- R102: a RING transmit channel with no byte sends the idle byte, and that is a shortfall. -/
theorem test_demand_of_an_empty_ring :
    after (exec .slotDemand (demand .channel (ring .transmit .active 0)))
      (fun t => (t.transmitter.nextByte, (t.channel 1).shortfalls, t.notifications.queue.length)) =
      some (some 0xFF, 1, 1) := by decide

/-- R9: the end of frame 11 in STOPPING. -/
theorem test_entry_to_stopped :
    after (exec .entryToStopped { ready 0 with transmitter := { frameSent 11 with enable := false, state := .stopping } })
      (fun t => (t.transmitter.state, t.transmitter.frameIndex, t.transmitter.line)) = some (.stopped, 0, true) := by decide

/-- R22: B5H is a well-formed marker of position 5; ACH (position 12) is none. -/
theorem test_search_byte :
    after (exec .searchByteExamination { ready 0 with aligner := hunting (bitsOf 0xB5) })
      (fun t => (t.aligner.state, t.aligner.candidate, t.aligner.expectedPosition)) = some (.confirm, some 5, 6) ∧
    after (exec .searchByteExamination { ready 0 with aligner := hunting (bitsOf 0xAC) })
      (fun t => (t.aligner.state, t.aligner.bits.length)) = some (.hunt, 7) := by decide

set_option maxRecDepth 4000 in
theorem test_confirm_check :
    after (exec .confirmMarkerCheck (confirmed 0 0xA4))
      (fun t => (t.aligner.state, t.aligner.confirmations)) = some (.confirm, 1) ∧
    after (exec .confirmMarkerCheck (confirmed 0 0xA5))
      (fun t => (t.aligner.state, t.aligner.bits.length)) = some (.hunt, 135) := by decide

set_option maxRecDepth 4000 in
/-- R26: the second confirming marker gains alignment. -/
theorem test_alignment_gained :
    after (exec .confirmMarkerCheck (confirmed 1 0xA5))
      (fun t => (t.aligner.state, t.notifications.queue.map fun r => r.post.kind)) = some (.aligned, [.alignGained]) := by
  decide

/-- R31: the fourth bad marker in a row loses alignment; R46: each counts one marker error. -/
theorem test_fourth_bad_marker :
    after (exec .alignedMarkerCheck
        { markerDue 1 0x55 with aligner := { following 0 (bitsOf 0x55) with expectedPosition := 1, badMarkers := 3 } })
      (fun t => (t.aligner.state, t.monitor.markerErrors, t.monitor.alignmentLosses,
        t.notifications.queue.map fun r => (r.post.kind, r.post.detail))) =
      some (.hunt, 1, 1, [(.alignLost, .markers)]) := by decide

/-- R34: the marker of position 0 is a cycle start. -/
theorem test_cycle_start :
    after (exec .alignedMarkerCheck ((markerDue 0 0xA0).setChannel 1 (single .receive .armed)))
      (fun t => (t.aligner.cycleCount, (t.channel 1).state, t.aligner.expectedPosition)) = some (10, .active, 1) := by decide

/-- R95, R97: a byte arrives in the segment of a SINGLE channel. -/
theorem test_arrival_in_single :
    after (exec .slotArrival (arrival .channel (single .receive .active) 0x5A))
      (fun t => (t.byteAt 16, (t.channel 1).position, (t.channel 1).state)) = some (0x5A, 1, .active) := by decide

/-- R98: the byte that completes the segment ends the run. -/
theorem test_arrival_completes_single :
    after (exec .slotArrival (arrival .channel { single .receive .active with position := 1 } 0x5A))
      (fun t => (t.byteAt 17, (t.channel 1).position, (t.channel 1).state,
        t.notifications.queue.map fun r => (r.post.kind, r.post.detail))) =
      some (0x5A, 2, .done, [(.channelEnded, .completed)]) := by decide

/-- The owners and the active segment that an arrival for the last byte of an ALTERNATING segment leaves. -/
def ownersAfter (x : ChannelContext) : Option (Owner × Owner × Segment) :=
  after (exec .slotArrival (arrival .channel { x with position := 1 } 0x5A)) fun t =>
    ((t.channel 1).ownerA, (t.channel 1).ownerB, (t.channel 1).active)

/-- R106: the segment a byte completes becomes the host's and the other one follows; in ENDING it stays the active one. -/
theorem test_arrival_completes_alternating :
    ownersAfter (alternating .receive .active) = some (.host, .device, .segB) ∧
    ownersAfter { alternating .receive .active with active := .segB } = some (.device, .host, .segA) ∧
    ownersAfter (alternating .receive .ending) = some (.host, .device, .segA) := by decide

/-- R106: the other segment stalls the channel when it is the host's, and in ENDING the completion ends the run. -/
theorem test_stall_and_end_at_completion :
    after (exec .slotArrival (arrival .channel { alternating .receive .active with position := 1, ownerB := .host } 0x5A))
      (fun t => ((t.channel 1).stalled, (t.channel 1).state)) = some (true, .active) ∧
    after (exec .slotArrival (arrival .channel { alternating .receive .ending with position := 1 } 0x5A))
      (fun t => ((t.channel 1).state, t.notifications.queue.map fun r => (r.post.kind, r.post.detail))) =
      some (.done, [(.segmentDone, .segmentA), (.channelEnded, .finished)]) := by decide

theorem test_frame_end :
    after (exec .frameEnd
        { (ready 0).setChannel 1 (ring .receive .ending 2) with aligner := { following 0 [] with frameEndDue := true } })
      (fun t => ((t.channel 1).state, t.aligner.frameEndDue)) = some (.done, false) := by decide

/-- R39: SILENCE is declared at 160 zeros in a row. -/
theorem test_silence_declaration :
    after (exec .silenceDeclaration (monitored { LineMonitor.reset with zeroRun := 160 }))
      (fun t => (t.monitor.silence, t.notifications.queue.map fun r => r.post.kind)) = some (true, [.silenceOn]) ∧
    after (exec .silenceDeclaration (monitored { LineMonitor.reset with zeroRun := 159 })) (fun t => t.monitor.silence) =
      some false := by decide

theorem test_silence_clearing :
    after (exec .silenceClearing (monitored { LineMonitor.reset with silence := true, silenceWindow := some ⟨128, 16⟩ }))
      (fun t => t.monitor.silence) = some false := by decide

theorem test_silence_window_failure :
    after (exec .silenceWindowFailure (monitored { LineMonitor.reset with silence := true, silenceWindow := some ⟨128, 15⟩ }))
      (fun t => (t.monitor.silence, t.monitor.silenceWindow)) = some (true, none) := by decide

/-- R40: with 15 ones at position 127 a window neither clears SILENCE nor fails; R41: a HOLD window does not end early. -/
theorem test_windows_do_not_end_early :
    let m : LineMonitor := { LineMonitor.reset with silence := true, silenceWindow := some ⟨127, 15⟩, holdZeros := 3, hold := true }
    let seen := fun c : Instr => after (exec c (monitored m)) (fun t => t.monitor)
    seen .silenceClearing = some m ∧ seen .silenceWindowFailure = some m ∧ seen .holdWindowEnd = some m := by decide

/-- R42: the second window in a row with fewer than 3 zeros declares HOLD. -/
theorem test_hold_window_end :
    after (exec .holdWindowEnd (monitored
        { LineMonitor.reset with holdPosition := 1023, holdWindowDone := true, holdZeros := 2, lowWindows := 1 }))
      (fun t => (t.monitor.hold, t.notifications.queue.map fun r => r.post.kind)) = some (true, [.holdOn]) := by decide

theorem test_transmit_enable_write :
    after (exec (.transmitEnableWrite 1) (ready 0)) (fun t => (t.transmitter.state, t.busRead 0x01)) =
      some (.running, 1) := by decide

theorem test_receive_enable_write :
    after (exec (.receiveEnableWrite 1) (ready 0)) (fun t => t.aligner.state) = some .hunt := by decide

/-- R14: 16 to 64. -/
theorem test_frame_length_write :
    after (exec (.frameLengthWrite 64) (ready 0)) (fun t => (t.transmitter.frameLength, t.port.accessError)) =
      some (64, false) ∧
    after (exec (.frameLengthWrite 15) (ready 0)) (fun t => (t.transmitter.frameLength, t.port.accessError)) =
      some (40, true) := by decide

theorem test_local_loop_write :
    after (exec (.localLoopWrite 1) (ready 0)) (fun t => t.busRead 0x06) = some 1 := by decide

theorem test_page_register_write :
    after (exec (.pageRegisterWrite 5) State.reset) (fun t => t.port.page) = some 5 ∧
    after (exec (.pageRegisterWrite 6) State.reset) (fun t => (t.port.page, t.port.accessError)) = some (0, true) := by decide

theorem test_suspend_flag_write :
    after (exec (.suspendFlagWrite 0xFE) oneRecord) (fun t => (t.notifications.suspend, t.intnActive)) =
      some (false, true) := by decide

/-- Section 10.2: kind 9 is bit 0 of the second byte. -/
theorem test_kind_enable_write :
    after (exec (.kindEnableWrite .kinds9to15 0x81) (ready 0)) (fun t => (t.busRead 0x11, t.notifications.enables .silenceOn)) =
      some (0x01, true) := by decide

/-- Section 10.5: 29H is a CHANNEL entry of channel 9. -/
theorem test_slot_map_entry_write :
    after (exec (.slotMapEntryWrite .receive 0x29)
        { ready 3 with port := { (ready 3).port with bankSelect := .bankB, entryIndex := 63 } })
      (fun t => (t.maps.bankB.rxEntry 63, t.maps.bankA.rxEntry 63, t.busRead 0x02)) =
      some (⟨.channel, 9⟩, ⟨.discard, 0⟩, 0x29) := by decide

/-- Section 10.4: 0DH is transmit, ALTERNATING, pool mode. -/
theorem test_mode_byte_write :
    after (exec (.modeByteWrite 0x0D) (ready 2))
      (fun t => ((t.channel 0).direction, (t.channel 0).mode, (t.channel 0).poolMode, t.busRead 0x01)) =
      some (.transmit, .alternating, true, 0x0D) := by decide

theorem test_tag_write :
    after (exec (.tagWrite 31) (ready 2)) (fun t => (t.channel 0).tag) = some 31 ∧
    after (exec (.tagWrite 32) (ready 2)) (fun t => ((t.channel 0).tag, t.port.accessError)) = some (1, true) := by decide

theorem test_tag_table_entry_write :
    after (exec (.tagTableEntryWrite 0x93) { ready 4 with port := { (ready 4).port with tagSelect := 31 } })
      (fun t => t.busRead 0x05) = some 0x93 := by decide

theorem test_wide_write :
    after (exec (.wideLowByteWrite .segABase 0x34) (ready 2)) (fun t => t.port.writeHolder) =
      some (some ⟨⟨.segABase, some 0⟩, 0x34⟩) ∧
    after (exec (.wideHighByteCommit .segABase 0xF2)
        { ready 2 with port := { (ready 2).port with writeHolder := some ⟨⟨.segABase, some 0⟩, 0x34⟩ } })
      (fun t => ((t.channel 0).baseA, t.port.writeHolder)) = some (0x1234, none) := by decide

theorem test_buffer_port :
    after (exec (.bufferDataWrite 0x77) { ready 4 with port := { (ready 4).port with bufferAddress := 0x1FFF } })
      (fun t => (t.byteAt 0x1FFF, t.port.bufferAddress)) = some (0x77, 0) ∧
    after (exec .bufferDataRead { ready 4 with memory := [(0, 0x66)] })
      (fun t => (t.port.dataOut, t.port.bufferAddress)) = some (0x66, 1) := by decide

theorem test_wide_read :
    after (exec (.wideLowByteRead .markerThreshold) (ready 1)) (fun t => (t.port.dataOut, t.port.readHolder)) =
      some (0xFF, some ⟨⟨.markerThreshold, none⟩, 0xFF⟩) ∧
    after (exec (.wideHighByteRead .segALength)
        { ready 2 with port := { (ready 2).port with readHolder := some ⟨⟨.segALength, some 0⟩, 0x0A⟩ } })
      (fun t => (t.port.dataOut, t.port.readHolder)) = some (0x0A, none) := by decide

theorem test_port_status_read :
    after (exec .portStatusRead { State.reset with port := { HostPort.reset with accessError := true } })
      (fun t => (t.port.dataOut, t.port.accessError)) = some (0x03, false) := by decide

theorem test_missed_set_third_byte_read :
    after (exec .missedSetThirdByteRead
        { ready 5 with notifications := { Notifications.reset with missed := 0x110001 } })
      (fun t => (t.port.dataOut, t.notifications.missed)) = some (0x11, 0) := by decide

theorem test_register_write :
    after (exec (.registerWrite 0x04 0x7E) (ready 0)) (fun t => t.transmitter.idleByte) = some 0x7E ∧
    after (exec (.registerWrite 0x00 20) (ready 2)) (fun t => (t.port.channelSelect, t.port.accessError)) =
      some (0, true) := by decide

/-- R78: START arms the channel; a RING transmit channel takes the amount as its fill. -/
theorem test_start :
    after (exec .cmdStart (withOperands ((ready 0).setChannel 1 (ring .transmit .idle 0)) 1 0 4))
      (fun t => (t.port.result, (t.channel 1).state, (t.channel 1).fill)) = some (.ok, .armed, 4) ∧
    after (exec .cmdStart (withOperands ((ready 0).setChannel 1 (ring .transmit .idle 0)) 1 0 5))
      (fun t => (t.port.result, (t.channel 1).state)) = some (.badAmount, .idle) := by decide

theorem test_stop :
    after (exec .cmdStop (withOperands ((ready 0).setChannel 1 { single .receive .done with position := 2 }) 1 0 0))
      (fun t => (t.port.result, (t.channel 1).state, (t.channel 1).position)) = some (.ok, .idle, 0) := by decide

theorem test_finish :
    after (exec .cmdFinish (withOperands ((listening (ready 0)).setChannel 1 (ring .transmit .active 0)) 1 0 0))
      (fun t => (t.port.result, (t.channel 1).state, t.notifications.queue.map fun r => (r.post.kind, r.post.detail))) =
      some (.ok, .done, [(.channelEnded, .finished)]) := by decide

theorem test_give :
    after (exec .cmdGive (withOperands ((ready 0).setChannel 1 (stalledAt .receive .active)) 1 0 0))
      (fun t => (t.port.result, (t.channel 1).ownerA, (t.channel 1).stalled)) = some (.ok, .device, false) := by decide

theorem test_advance :
    after (exec .cmdAdvance (withOperands ((ready 0).setChannel 1 (ring .receive .active 3)) 1 0 3))
      (fun t => (t.port.result, (t.channel 1).fill)) = some (.ok, 0) ∧
    after (exec .cmdAdvance (withOperands ((ready 0).setChannel 1 (ring .receive .active 3)) 1 0 4))
      (fun t => (t.port.result, (t.channel 1).fill)) = some (.badAmount, 3) := by decide

/-- R58: at rest of both directions both banks switch at once, receive first. -/
theorem test_switch :
    after (exec .cmdSwitch (withOperands (listening (ready 0)) 3 0 0))
      (fun t => (t.maps.rxActive, t.maps.txActive, t.notifications.queue.map fun r => r.post.kind)) =
      some (.bankB, .bankB, [.rxMapSwitched, .txMapSwitched]) := by decide

theorem test_realign :
    after (exec .cmdRealign (ready 0)) (fun t => t.port.result) = some .badState ∧
    after (exec .cmdRealign { listening (ready 0) with aligner := following 8 [true] })
      (fun t => (t.port.result, t.aligner.state, t.notifications.queue.map fun r => (r.post.kind, r.post.detail))) =
      some (.ok, .hunt, [(.alignLost, .command)]) := by decide

theorem test_clear_counters :
    after (exec .cmdClearCounters { withOperands (ready 0) 1 0 0 with
        monitor := { LineMonitor.reset with markerErrors := 9, threshold := 4 } })
      (fun t => (t.port.result, t.monitor.markerErrors, t.monitor.threshold)) = some (.ok, 0, 4) := by decide

theorem test_remove :
    after (exec .cmdRemove oneRecord) (fun t => (t.port.result, t.notifications.queue.length)) = some (.ok, 0) ∧
    after (exec .cmdRemove (ready 0)) (fun t => t.port.result) = some .badState := by decide

theorem test_flush :
    after (exec .cmdFlush oneRecord) (fun t => (t.port.result, t.notifications.queue.length)) = some (.ok, 0) := by decide

theorem test_engine_reset :
    after (exec .cmdEngineReset { oneRecord.setChannel 1 (ring .receive .active 3) with aligner := following 8 [] })
      (fun t => (t.port.result, (t.channel 1).state, (t.channel 1).lengthA, t.aligner.state, t.notifications.suspend)) =
      some (.ok, .idle, 4, .aligned, true) := by decide

theorem test_bad_command :
    after (exec (.badCommand 0x0C) (ready 0)) (fun t => t.busRead 0x0C) = some 0x08 := by decide

/-- R16: under local loop the bit on TXD is taken, which is one while the transmitter is STOPPED. -/
theorem test_received_bit :
    after (exec (.receivedBitPosition false)
        { ready 0 with aligner := { hunting [] with localLoop := true } }) (fun t => t.aligner.bits) = some [true] := by decide

/-- In frame 0 at a bit of the marker A0H, under local loop, ALIGNED with the bits of it that have been sent. -/
def loopedMarker (bit : Nat) : State :=
  { ready 0 with
    transmitter := { sending 0 0 with bitIndex := bit, slotByte := 0xA0 }
    aligner := { following 0 ((bitsOf 0xA0).take (bit + 1)) with localLoop := true } }

/-- R16, R35: under local loop a TXCLK bit position brings one bit, no further bit comes before the marker check, and the
offset at the frame start of frame 0 reads 7. -/
theorem test_looped_bit_position :
    after (step (loopedMarker 6)) (fun t => t.transmitter.bitIndex) = some 7 ∧
    after (step (loopedMarker 6)) (fun t => byteOfBits t.aligner.bits) = some 0xA0 ∧
    after (step (loopedMarker 7)) (fun t => (t.transmitter.bitIndex, t.aligner.bits.length)) = some (7, 8) ∧
    after (exec .alignedMarkerCheck (loopedMarker 7)) (fun t => t.aligner.cycleOffset) = some 7 := by decide

/-- R7, R8: behind the eighth bit the slot whose byte was fixed begins; without its byte the next bit does not come. -/
theorem test_next_slot_begins :
    after (step { ready 0 with transmitter := { sending 0 2 with bitIndex := 7, nextByte := some 0x80 } })
      (fun t => (t.transmitter.slotIndex, t.transmitter.bitIndex, t.transmitter.line)) = some (3, 0, true) ∧
    after (step { ready 0 with transmitter := { sending 0 2 with bitIndex := 7 } })
      (fun t => (t.transmitter.slotIndex, t.transmitter.bitIndex)) = some (2, 7) := by decide

/-- R45: the first bit behind a change of local loop begins a new HOLD window and keeps a declared HOLD. -/
theorem test_first_bit_of_the_new_source :
    after (exec (.receivedBitPosition false) (monitored
        { LineMonitor.reset with hold := true, holdPosition := 900, holdZeros := 2, lowWindows := 2, holdRestart := true }))
      (fun t => (t.monitor.hold, t.monitor.holdPosition, t.monitor.holdZeros, t.monitor.lowWindows)) =
      some (true, 1, 1, 0) := by decide

/-! ### Hypotheses of the statements: each can be met -/

theorem test_witness_PowerOn : State.reset.port.init = true ∧ (ready 0).port.init = false := by decide

theorem test_witness_EngineReset :
    (ready 0).commandReady ∧ State.reset.port.rstnLow = false ∧ State.reset.port.page = 0 ∧ State.reset.port.init = true := by
  decide

theorem test_witness_Gates :
    inReset.port.rstnLow = true ∧ (Instr.bufferDataWrite 1).isItemWrite = true ∧ Instr.cmdStart.isCommandCode = true ∧
    Instr.bufferDataRead.isItemRead = true ∧ State.reset.port.rstnLow = false ∧ State.reset.port.init = true ∧
    Instr.cmdStart.wellFormed = true ∧ State.reset.port.page = 0 ∧ ¬(State.reset.port.page = 0 ∧ (0x3F#6) = 0x0D) ∧
    ((ready 1).hostReady ∧ (ready 1).port.page ≠ 0 ∧ (ready 1).port.page ≠ 5 ∧
      (WideItem.position, (2 : Fin 6), (0x12 : BitVec 6), (0 : Half)) ∈ (ready 1).wideTable ∧ (ready 1).port.page ≠ 2) := by
  decide

theorem test_witness_AccessErrorIsSticky :
    Instr.cmdFlush ≠ .portStatusRead ∧ Instr.cmdFlush.isWholeReset = false ∧ (ready 0).refuseWrite.port.accessError = true ∧
    answers (exec .cmdFlush (ready 0).refuseWrite) = true := by decide

theorem test_witness_CommandsWriteTheResultCodeAlone :
    (Instr.cmdEngineReset.isCommandCode = true ∧ answers (exec .cmdEngineReset (ready 0)) = true) ∧
    (Instr.cmdStop.isCommandCode = true ∧ Instr.cmdStop ≠ .cmdEngineReset ∧ answers (exec .cmdStop (ready 0)) = true) ∧
    ((Instr.tagWrite 1).isCommandCode = false ∧ (Instr.tagWrite 1).isWholeReset = false ∧
      answers (exec (.tagWrite 1) (ready 2)) = true) ∧
    ((ready 0).commandReady ∧ (0x00#8 = 0 ∨ 12 ≤ (0x00#8).toNat) ∧ (0x0C#8 = 0 ∨ 12 ≤ (0x0C#8).toNat) ∧
      (0xFF#8 = 0 ∨ 12 ≤ (0xFF#8).toNat)) := by decide

theorem test_witness_PageRegister :
    State.reset.port.rstnLow = false ∧ ((0x05#8).toNat = (5 : Fin 6).val ∧ (5 : Fin 6) ≠ State.reset.port.page) ∧
    (0x00#8).toNat = State.reset.port.page.val ∧ 6 ≤ (0x06#8).toNat ∧ (ready 3).hostReady ∧
    answers (exec .powerOn (ready 3)) = true ∧ answers (exec .pinReset (ready 3)) = true ∧
    answers (exec .cmdEngineReset (ready 3)) = true := by decide

theorem test_witness_RegisterWrite :
    ((ready 0).hostReady ∧ (ready 0).port.page = 0) ∧
    ((ready 2).hostReady ∧ (ready 2).port.page = 2 ∧ (19#8).toNat = (19 : Channel).val ∧ 20 ≤ (20#8).toNat) ∧
    ((ready 3).hostReady ∧ (ready 3).port.page = 3 ∧ 2 ≤ (2#8).toNat) ∧
    ((ready 4).hostReady ∧ (ready 4).port.page = 4 ∧ (1 : Fin 32) ≠ 0 ∧ (1#8).toNat = (1 : Fin 32).val ∧
      (31#8).toNat = (31 : Fin 32).val ∧ 32 ≤ (32#8).toNat) ∧
    ((0x12#6).toNat = 0x12 ∧ (0x3E#6).toNat = 0x3E ∧ (0x0F#6).toNat = 0x0F) ∧
    ((ready 1).hostReady ∧ (ready 1).port.page = 1) ∧ (ready 5).hostReady ∧ (ready 5).port.page = 5 := by decide

theorem test_witness_Window :
    ((ready 0).hostReady ∧ (ready 0).port.page = 0) ∧ ((ready 1).hostReady ∧ (ready 1).port.page = 1) ∧
    ((ready 2).hostReady ∧ (ready 2).port.page = 2) ∧ ((ready 3).hostReady ∧ (ready 3).port.page = 3) ∧
    ((ready 4).hostReady ∧ (ready 4).port.page = 4) ∧ (ready 5).notifications.queue = [] ∧
    (let s : State := { ready 3 with port := { (ready 3).port with entryIndex := 63 } };
      s.hostReady ∧ s.port.entryIndex.toNat = (62 : Fin 63).val + 1) ∧
    (let s : State := { oneRecord with port := { oneRecord.port with page := 5 } };
      s.hostReady ∧ s.port.page = 5 ∧ s.notifications.queue = [⟨⟨.watermark, .channel 3, .none, 7⟩, 2⟩]) := by decide

theorem test_witness_WideRead :
    (ready 2).hostReady ∧ (WideItem.position, (2 : Fin 6), (0x12 : BitVec 6), (0 : Half)) ∈ (ready 2).wideTable ∧
    (ready 2).port.page = 2 ∧
    ({ ready 2 with port := { (ready 2).port with readHolder := some ⟨⟨.position, some 0⟩, 3⟩ } } : State).port.readHolder =
      some ⟨⟨.position, some 0⟩, 3⟩ ∧
    ((ready 1).hostReady ∧ (WideItem.markerThreshold, (1 : Fin 6), (0x10 : BitVec 6), (0xFFFF : Half)) ∈ (ready 1).wideTable) ∧
    ∀ b : Byte, (ready 2).port.readHolder ≠ some ⟨⟨.position, some 0⟩, b⟩ :=
  ⟨by decide, by decide, by decide, by decide, by decide, fun b => by simp [ready, HostPort.reset]⟩

theorem test_witness_WideReadPair :
    (ready 2).hostReady ∧ (WideItem.fill, (2 : Fin 6), (0x14 : BitVec 6), (0 : Half)) ∈ (ready 2).wideTable ∧
    (ready 2).port.page = 2 ∧ Instr.cmdFlush.isWholeReset = false ∧
    (after (exec (.wideLowByteRead .fill) (ready 2)) fun t =>
      (after (exec (.bufferDataWrite 1) t) fun u =>
        (u.port.channelSelect, answers (exec (.wideHighByteRead .fill) u)))) = some (some (0, true)) := by decide

theorem test_witness_Commit :
    ((ready 2).hostReady ∧ (ready 2).port.page = 2 ∧
      (WideItem.segALength, (2 : Fin 6), (0x06 : BitVec 6), (1 : Half)) ∈ (ready 2).wideTable) ∧
    ((ready 5).hostReady ∧ (WideItem.headStamp, (5 : Fin 6), (0x05 : BitVec 6), (0 : Half)) ∈ (ready 5).wideTable) ∧
    ({ ready 1 with port := { (ready 1).port with writeHolder := some ⟨⟨.markerThreshold, none⟩, 3⟩ } } : State).port.writeHolder =
      some ⟨⟨.markerThreshold, none⟩, 3⟩ ∧
    ({ ready 4 with port := { (ready 4).port with writeHolder := some ⟨⟨.bufferAddress, none⟩, 3⟩ } } : State).port.writeHolder =
      some ⟨⟨.bufferAddress, none⟩, 3⟩ ∧
    (∀ low : Byte, (ready 4).port.writeHolder ≠ some ⟨⟨.bufferAddress, none⟩, low⟩) ∧
    ∀ low : Byte, (ready 1).port.writeHolder ≠ some ⟨⟨.markerThreshold, none⟩, low⟩ :=
  ⟨by decide, by decide, by decide, by decide, fun low => by simp [ready, HostPort.reset],
    fun low => by simp [ready, HostPort.reset]⟩

theorem test_witness_ProgrammedFields :
    (ready 2).hostReady ∧ (ready 2).port.page = 2 ∧ (ready 2).selected.state = .idle ∧
    ¬(((ready 2).setChannel 0 (single .receive .armed)).selected.state = .idle ∨
      ((ready 2).setChannel 0 (single .receive .armed)).selected.state = .done) ∧
    (0x06#8).extractLsb' 1 2 = 3 ∧ (0x04#8).extractLsb' 1 2 = Mode.alternating.code ∧
    (1 ≤ (31#8).toNat ∧ (31#8).toNat ≤ 31) ∧ (0#8).toNat = 0 ∧ 32 ≤ (32#8).toNat := by decide

theorem test_witness_BufferPort :
    (ready 4).hostReady ∧ (ready 4).port.page = 4 ∧ (ready 4).memory.wf ∧ (ready 4).port.init = false ∧
    (let m : List Host.Cell := [(3, 1), (8191, 2)];
      Memory.wf m ∧ (3, 1) ∈ m ∧ Memory.read m 3 = 1 ∧ (∀ b : Byte, (4, b) ∉ m) ∧ Memory.read m 4 = 0) := by decide

theorem test_witness_PortStatus : (ready 0).port.rstnLow = false ∧ (ready 0).port.page = 0 := by decide

theorem test_witness_Post :
    Notifications.reset.enabled.getLsbD (Kind.watermark.number - 1) = false ∧
    oneRecord.notifications.enabled.getLsbD (Kind.watermark.number - 1) = true ∧ oneRecord.notifications.Ok ∧
    oneRecord.notifications.queue = [] ++ ⟨⟨.watermark, .channel 3, .none, 7⟩, 2⟩ :: [] ∧
    (∀ r ∈ oneRecord.notifications.queue, ¬(r.post.kind = .shortfall ∧ r.post.channel = .link)) ∧
    (∀ r ∈ full.notifications.queue, ¬(r.post.kind = .alignLost ∧ r.post.channel = .link)) ∧
    full.notifications.queue.length = 32 ∧ full.notifications.Ok := by decide

theorem test_witness_QueueLaw :
    full.notifications.Ok ∧ answers (exec .slotArrival (arrival .channel (single .receive .active) 1)) = true := by decide

theorem test_witness_MissedMembersStay :
    Instr.cmdFlush ≠ .missedSetThirdByteRead ∧ Instr.cmdFlush ≠ .cmdEngineReset ∧ Instr.cmdFlush.isWholeReset = false ∧
    ({ Notifications.reset with missed := 0x100000 } : Notifications).missed.getLsbD 20 = true ∧
    answers (exec .cmdFlush { ready 0 with notifications := { Notifications.reset with missed := 0x100000 } }) = true := by
  decide

theorem test_witness_Interrupt :
    oneRecord.intnActive = true ∧ answers (exec .pinReset oneRecord) = true ∧ answers (exec .powerOn oneRecord) = true ∧
    oneRecord.commandReady ∧ answers (exec .cmdEngineReset oneRecord) = true := by decide

theorem test_witness_Remove :
    (State.reset.port.rstnLow = false ∧ State.reset.port.page = 0 ∧ State.reset.port.init = true) ∧
    ((ready 0).commandReady ∧ (ready 0).notifications.queue = []) ∧
    (oneRecord.commandReady ∧ oneRecord.notifications.queue = [⟨⟨.watermark, .channel 3, .none, 7⟩, 2⟩] ∧
      oneRecord.notifications.Ok ∧ oneRecord.notifications.enabled.getLsbD (Kind.watermark.number - 1) = true ∧
      answers (exec .cmdRemove (oneRecord.post ⟨.watermark, .channel 3, .none, 1⟩)) = true ∧
      answers (exec .cmdRemove oneRecord) = true) ∧
    (full.commandReady ∧ full.notifications.Ok ∧ full.notifications.queue.length = 32 ∧
      ∀ q ∈ full.notifications.queue, ¬(q.post.kind = .alignLost ∧ q.post.channel = .link)) := by decide

theorem test_witness_QueueAccesses :
    (ready 0).commandReady ∧ (ready 0).hostReady ∧ (ready 0).port.page = 0 ∧ (ready 5).hostReady ∧ (ready 5).port.page = 5 := by
  decide

theorem test_witness_Switch :
    (ready 0).commandReady ∧ (0#8).getLsbD 0 = false ∧ (0#8).getLsbD 1 = false ∧
    (leaving.commandReady ∧ leaving.maps.rxPending = true ∧ (1#8).getLsbD 0 = true) ∧
    ((withOperands (ready 0) 3 0 0).commandReady ∧ (withOperands (ready 0) 3 0 0).port.operand0.getLsbD 0 = true ∧
      (withOperands (ready 0) 3 0 0).port.operand0.getLsbD 1 = true ∧ (ready 0).maps.rxPending = false ∧
      (ready 0).maps.txPending = false) := by decide

theorem test_witness_EntryWrite :
    (ready 3).hostReady ∧ (ready 3).port.page = 3 ∧ ¬(1 ≤ (ready 3).port.entryIndex.toNat) ∧
    (1 ≤ (63#8).toNat ∧ (63#8).toNat ≤ 63 ∧ (ready 3).maps.rxActive ≠ .bankB ∧ (ready 3).maps.txActive ≠ .bankB ∧
      (ready 3).maps.rxPending = false ∧ (ready 3).maps.txPending = false) ∧
    3 ≤ ((0x60#8).extractLsb' 5 3).toNat ∧ 20 ≤ ((0x34#8).extractLsb' 0 5).toNat ∧ 4 ≤ ((0x80#8).extractLsb' 5 3).toNat ∧
    (0x33#8) = RxKind.channel.code ++ BitVec.ofNat 5 (19 : Channel).val ∧
    (0x60#8) = TxKind.pool.code ++ BitVec.ofNat 5 (0 : Channel).val ∧
    (RxKind.channel, ((0x33#8).extractLsb' 5 3).toNat) ∈ [(RxKind.discard, 0), (.channel, 1), (.pool, 2)] ∧
    ((0x33#8).extractLsb' 0 5).toNat = (19 : Channel).val ∧
    (TxKind.pool, ((0x60#8).extractLsb' 5 3).toNat) ∈ [(TxKind.idle, 0), (.constant, 1), (.channel, 2), (.pool, 3)] ∧
    ((0x60#8).extractLsb' 0 5).toNat = (0 : Channel).val := by decide

theorem test_witness_BankInForce :
    (Instr.slotMapEntryWrite .receive 0x29).isWholeReset = false ∧
    answers (exec (.slotMapEntryWrite .receive 0x29)
      { ready 3 with port := { (ready 3).port with bankSelect := .bankB, entryIndex := 1 } }) = true := by decide

theorem test_witness_StartStop :
    (withOperands (ready 0) 19 0 0).commandReady ∧
    (withOperands (ready 0) 19 0 0).port.operand0.toNat = (19 : Channel).val ∧
    20 ≤ (withOperands (ready 0) 20 0 0).port.operand0.toNat ∧ (ready 0).channel 19 = .reset ∧
    ((ready 0).channel 19).state = .idle ∧ (((ready 0).setChannel 19 (sender .active)).channel 19).state ≠ .idle := by decide

theorem test_witness_Finish :
    (withOperands (ready 0) 1 0 0).commandReady ∧ (withOperands (ready 0) 1 0 0).port.operand0.toNat = (1 : Channel).val ∧
    20 ≤ (withOperands (ready 0) 255 0 0).port.operand0.toNat ∧ (single .receive .armed).state ≠ .active ∧
    ((alternating .receive .active).state = .active ∧ (alternating .receive .active).mode ≠ .single ∧
      (alternating .receive .active).stalled = false) ∧
    ((stalledAt .transmit .active).state = .active ∧ (stalledAt .transmit .active).mode = .alternating ∧
      (stalledAt .transmit .active).stalled = true) := by decide

theorem test_witness_Give :
    (withOperands (ready 0) 1 0 2).commandReady ∧ (withOperands (ready 0) 1 0 2).port.operand0.toNat = (1 : Channel).val ∧
    20 ≤ (withOperands (ready 0) 20 0 0).port.operand0.toNat ∧ (ring .receive .active 0).mode ≠ .alternating ∧
    ((alternating .receive .armed).state ≠ .idle ∧ (alternating .receive .armed).state ≠ .done ∧
      (alternating .receive .armed).mode = .alternating) ∧
    (withOperands (ready 0) 1 0 2).port.amount = 2 ∧ (withOperands (ready 0) 1 0 1).port.amount = 1 ∧
    (withOperands (ready 0) 1 0 0).port.amount = 0 := by decide

/-- The RING receive contexts used here are in their ranges. -/
theorem ring_ok : (ring .receive .active 3).Ok ∧ (ring .receive .armed 0).Ok :=
  ⟨⟨by decide, by decide, by decide, by decide, by decide⟩, ⟨by decide, by decide, by decide, by decide, by decide⟩⟩

theorem test_witness_Advance :
    (State.reset.port.rstnLow = false ∧ State.reset.port.page = 0 ∧ State.reset.port.init = true) ∧
    (withOperands (ready 0) 1 0x10 1).commandReady ∧
    (withOperands (ready 0) 1 0x10 1).port.operand0.toNat = (1 : Channel).val ∧
    ((ring .receive .active 3).Ok ∧ (ring .receive .active 3).mode = .ring) ∧
    (withOperands (ready 0) 1 0x10 1).port.amount = 4097 ∧
    ((ring .receive .armed 0).Ok ∧ (ring .receive .armed 0).state = .armed ∧
      (ring .receive .armed 0).direction = .receive) :=
  ⟨by decide, by decide, by decide, ⟨ring_ok.1, rfl⟩, by decide, ring_ok.2, rfl, rfl⟩

theorem test_witness_RunningPlan :
    (Instr.wideHighByteCommit .segALength 0).isWholeReset = false ∧
    answers (exec (.wideHighByteCommit .segALength 0) ((ready 2).setChannel 0 (alternating .receive .active))) = true ∧
    (((ready 2).setChannel 0 (alternating .receive .active)).channel 0).atRest = false ∧
    (((ready 2).setChannel 0 (alternating .receive .active)).channel 0).owner .segA = .device := by decide

theorem test_witness_SlotsOfNoRunningChannel :
    (arrival .discard .reset 1).aligner.arrivalDue = true ∧
    ((arrival .channel .reset 1).maps.bank .bankA).rxEntry 2 = ⟨.channel, 1⟩ ∧
    (arrival .channel .reset 1).aligner.nextSlot 40 = 2 ∧
    ¬(((arrival .channel .reset 1).channel 1).state = .active) ∧
    (demand .idle .reset).transmitter.demandDue = true ∧ (demand .idle .reset).transmitter.slotIndex + 1 = 3 ∧
    (((demand .constant .reset).maps.bank .bankA).txEntry 3).kind = .constant ∧
    (((demand .channel (sender .active)).maps.bank .bankA).txEntry 3).kind = .channel ∧
    ¬(((demand .channel (sender .active)).channel 1).poolMode = false) := by decide

/-- What an arrival carries at its boundaries (R27): of a frame of 16 slots, slots 1 and 15, and the byte 81H. -/
theorem test_witness_ArrivalCarriesByteAndSlot :
    8 ≤ (bitsOf 0x81).length ∧ (bitsOf 0x81).getD 0 false = true ∧ (bitsOf 0x81).getD 1 true = false ∧
    byteOfBits (bitsOf 0x81) = 0x81 ∧
    ({ Aligner.reset with expectedPlace := (16 - 1) * 8 } : Aligner).nextSlot 16 = 1 ∧
    ({ Aligner.reset with expectedPlace := (16 - 15) * 8 } : Aligner).nextSlot 16 = 15 ∧
    (following 8 []).handOnSlot.frameEndDue = true ∧ (following 16 []).handOnSlot.frameEndDue = false := by decide

theorem test_witness_BytesMove :
    (let s := arrival .channel (single .receive .active) 0x5A;
      s.aligner.arrivalDue = true ∧ s.port.init = false ∧ s.memory.wf ∧
      (s.maps.bank s.maps.rxActive).rxEntry (s.aligner.nextSlot s.transmitter.frameLength) = ⟨.channel, 1⟩ ∧
      (s.channel 1).takesArrivals = true ∧ (s.channel 1).canMove = true ∧ (s.channel 1).address < 8192) ∧
    (let s := demand .channel (alternating .transmit .ending);
      s.transmitter.demandDue = true ∧
      ((s.maps.bank s.maps.txActive).txEntry (s.transmitter.slotIndex + 1)).kind = .channel ∧
      ((s.maps.bank s.maps.txActive).txEntry (s.transmitter.slotIndex + 1)).channel = 1 ∧
      (s.channel 1).answersDemands = true ∧ (s.channel 1).poolMode = false ∧ (s.channel 1).canMove = true ∧
      (s.channel 1).address < 8192) ∧
    (let s := arrival .channel { single .receive .active with baseA := 8191, position := 1 } 0x5A;
      s.aligner.arrivalDue = true ∧ (s.channel 1).takesArrivals = true ∧ (s.channel 1).canMove = true ∧
      8192 ≤ (s.channel 1).address) ∧
    (let s := demand .channel { single .transmit .active with baseA := 8191, position := 1 };
      s.transmitter.demandDue = true ∧ (s.channel 1).answersDemands = true ∧ (s.channel 1).poolMode = false ∧
      (s.channel 1).canMove = true ∧ 8192 ≤ (s.channel 1).address) ∧
    ((single .receive .active).mode = .single ∧ (ring .transmit .ending 1).mode = .ring ∧
      (ring .transmit .ending 1).fill - 1 = 0 ∧ (alternating .receive .active).mode = .alternating ∧
      (alternating .receive .active).position + 1 ≠ (alternating .receive .active).lengthA ∧
      ({ alternating .receive .active with position := 1 } : ChannelContext).position + 1 =
        (alternating .receive .active).lengthA ∧
      ({ alternating .receive .active with active := .segB, position := 1 } : ChannelContext).position + 1 =
        (alternating .receive .active).lengthB) := by decide

theorem test_witness_Shortfall :
    (let s := arrival .channel (ring .receive .active 4) 0x5A;
      s.aligner.arrivalDue = true ∧ (s.channel 1).takesArrivals = true ∧ (s.channel 1).mode = .ring ∧
      (s.channel 1).lengthA ≤ (s.channel 1).fill) ∧
    (let s := arrival .channel (stalledAt .receive .active) 0x5A;
      s.aligner.arrivalDue = true ∧ (s.channel 1).takesArrivals = true ∧ (s.channel 1).stalled = true) ∧
    (let s := demand .channel (ring .transmit .active 0);
      s.transmitter.demandDue = true ∧ (s.channel 1).answersDemands = true ∧ (s.channel 1).poolMode = false ∧
      (s.channel 1).fill = 0) ∧
    (let s := demand .channel (stalledAt .transmit .active);
      s.transmitter.demandDue = true ∧ (s.channel 1).answersDemands = true ∧ (s.channel 1).poolMode = false ∧
      (s.channel 1).stalled = true) := by decide

theorem test_witness_HostPosition :
    ((ring .receive .active 3).mode = .ring ∧ 1 ≤ (ring .receive .active 3).lengthA ∧
      (ring .receive .active 3).canMove = true) ∧
    (let s := withOperands ((ready 0).setChannel 1 (ring .receive .active 3)) 1 0 3;
      s.commandReady ∧ s.port.operand0.toNat = (1 : Channel).val ∧
      after (exec .cmdAdvance s) (fun t => t.port.result) = some .ok) ∧
    (let s := withOperands ((ready 0).setChannel 1 (ring .transmit .idle 0)) 1 0 3;
      s.commandReady ∧ s.port.operand0.toNat = (1 : Channel).val ∧ (s.channel 1).mode = .ring ∧
      after (exec .cmdStart s) (fun t => t.port.result) = some .ok) ∧
    ((ready 2).hostReady ∧ (ready 2).port.page = 2 ∧ ((ready 2).channel (ready 2).port.channelSelect).atRest = true ∧
      (ready 2).port.accessError = false ∧
      after (exec (.modeByteWrite 2) (ready 2)) (fun t => t.port.accessError) = some false ∧
      after (exec (.wideHighByteCommit .segALength 1) (ready 2)) (fun t => t.port.accessError) = some false) ∧
    (ready 0).commandReady ∧ answers (exec .cmdEngineReset (ready 0)) = true := by decide

theorem test_witness_NothingElseWritesMemory :
    Instr.slotDemand ≠ .powerOn ∧ Instr.slotDemand ≠ .powerOnClearingEnd ∧ Instr.slotDemand ≠ .slotArrival ∧
    answers (exec .slotDemand (demand .channel (single .transmit .active))) = true := by decide

theorem test_witness_FrameStart :
    (let s := frameEnded 3 [2, 1] .pool;
      s.frameStartReady = true ∧ s.transmitter.nextFrame ≠ 0 ∧ s.pool.rotation.Nodup ∧
      3 ≤ (s.maps.txPoolSlots (s.transmitter.frameLength - 1)).length ∧ s.pool.rotation = [2] ++ 1 :: [] ∧
      (∀ d ∈ [(2 : Channel)], (s.channel d).available = 0) ∧ 0 < (s.channel 1).available) ∧
    (let s := frameEnded 3 [2] .idle;
      s.frameStartReady = true ∧ s.transmitter.nextFrame ≠ 0 ∧
      (s.maps.txPoolSlots (s.transmitter.frameLength - 1)).length < 3 ∧
      ∀ c ∈ s.pool.rotation, (s.channel c).available = 0) := by decide

/-- The last payload slot counts and a slot behind the frame does not (R66), and the table of R121 on each mode. -/
theorem test_pool_slots_and_available :
    (let m := (frameEnded 3 [] .idle).maps
      let last : BankMaps := { m.bankA with tx := m.bankA.tx.set 62 ⟨.pool, 0, 0⟩ }
      ({ m with bankA := last, txActive := .bankA } : SlotMaps).txPoolSlots 63 = [63] ∧
      ({ m with bankA := last, txActive := .bankA } : SlotMaps).txPoolSlots 62 = []) ∧
    ({ ChannelContext.reset with lengthA := 9, position := 2 } : ChannelContext).available = 7 ∧
    (ring .transmit .active 3).available = 3 ∧ (stalledAt .transmit .active).available = 0 := by decide

theorem test_witness_PoolSlot :
    (let s := poolDemand (burst 0) 0 (sender .active);
      s.transmitter.demandDue = true ∧
      ((s.maps.bank s.maps.txActive).txEntry (s.transmitter.slotIndex + 1)).kind = .pool ∧
      (s.maps.txPoolSlots (s.transmitter.slotIndex + 1)).length = 1 ∧ 3 ≤ s.pool.txBurst.poolSlots ∧
      s.pool.txBurst.granted = some 1 ∧ (s.channel 1).answersDemands = true) ∧
    (let s := poolDemand (burst 0) 1 (sender .done);
      s.transmitter.demandDue = true ∧ (s.maps.txPoolSlots (s.transmitter.slotIndex + 1)).length = 2 ∧
      (s.channel 1).answersDemands = false) ∧
    (let s := poolDemand (burst 2) 4 (sender .active);
      s.transmitter.demandDue = true ∧ 3 ≤ (s.maps.txPoolSlots (s.transmitter.slotIndex + 1)).length ∧
      s.pool.txBurst.length ≤ s.pool.txBurst.answered) ∧
    (let s := poolDemand (burst 1) 3 (sender .done);
      s.transmitter.demandDue = true ∧ 3 ≤ (s.maps.txPoolSlots (s.transmitter.slotIndex + 1)).length ∧
      s.pool.txBurst.answered < s.pool.txBurst.length ∧ (s.channel 1).answersDemands = false) ∧
    (poolDemand { TxBurst.cleared with poolSlots := 2 } 0 (sender .active)).pool.txBurst.poolSlots < 3 := by decide

theorem test_witness_Parser :
    (let s := poolArrival { RxBurst.cleared with poolSlots := 5, phase := .awaitTag } (ring .receive .active 0) 5;
      s.aligner.arrivalDue = true ∧
      ((s.maps.bank s.maps.rxActive).rxEntry (s.aligner.nextSlot s.transmitter.frameLength)).kind = .pool ∧
      s.pool.rxBurst.phase = .awaitTag ∧ (byteOfBits s.aligner.bits).toNat = (4 : Fin 31).val + 1 ∧
      s.pool.tagTable[(4 : Fin 31)] = some 1 ∧ (s.channel 1).takesArrivals = true) ∧
    (let s := poolArrival { RxBurst.cleared with poolSlots := 5, phase := .awaitTag } (ring .receive .idle 0) 31;
      (byteOfBits s.aligner.bits).toNat = (30 : Fin 31).val + 1 ∧ s.pool.tagTable[(30 : Fin 31)] = none ∧
      (s.channel 1).takesArrivals = false) ∧
    (let s := poolArrival { RxBurst.cleared with poolSlots := 5, phase := .awaitTag } .reset 32;
      32 ≤ (byteOfBits s.aligner.bits).toNat) ∧
    (let s := poolArrival { RxBurst.cleared with poolSlots := 5, phase := .awaitLength, target := some 1 } .reset 4;
      s.aligner.arrivalDue = true ∧ s.pool.rxBurst.phase = .awaitLength ∧
      s.pool.rxBurst.poolSlots - 2 < (byteOfBits s.aligner.bits).toNat) ∧
    (poolArrival { RxBurst.cleared with phase := .skip } .reset 0).pool.rxBurst.phase = .skip ∧
    (let s := poolArrival { poolSlots := 5, phase := .data, target := some 1, length := 2, received := 1 }
        (ring .receive .active 4) 9;
      s.aligner.arrivalDue = true ∧ s.port.init = false ∧ s.memory.wf ∧ s.pool.rxBurst.phase = .data ∧
      s.pool.rxBurst.target = some 1 ∧ (s.channel 1).takesArrivals = true ∧ (s.channel 1).canMove = false) ∧
    (let s := poolArrival { poolSlots := 5, phase := .data, target := some 1, length := 2, received := 1 }
        (ring .receive .active 3) 9;
      s.aligner.arrivalDue = true ∧ (s.channel 1).takesArrivals = true ∧ (s.channel 1).canMove = true ∧
      (s.channel 1).address < 8192) := by decide

theorem test_witness_TagTable :
    (ready 4).hostReady ∧ (ready 4).port.page = 4 ∧ (ready 4).port.tagSelect = 0 ∧
    ({ ready 4 with port := { (ready 4).port with tagSelect := 31 } } : State).port.tagSelect.val = (30 : Fin 31).val + 1 ∧
    (0x00#8).getLsbD 7 = false ∧ (0x93#8).getLsbD 7 = true ∧ ((0x93#8).extractLsb' 0 5).toNat = (19 : Channel).val ∧
    20 ≤ ((0x94#8).extractLsb' 0 5).toNat ∧ (ready 4).pool.tagTable[(30 : Fin 31)] = none := by decide

theorem test_witness_Markers :
    (frameEnded 3 [] .idle).frameStartReady = true ∧
    answers (exec .transmitFrameStart (frameEnded 3 [] .idle)) = true := by decide

theorem test_witness_Bits :
    (ready 0).transmitter.begun = false ∧ (sending 0 2).begun = true ∧
    ((ready 0).pending = [] ∧ (ready 0).loopHeld = false ∧ (ready 0).transmitter.state = .stopped) ∧
    ((loopedMarker 7).pending = [] ∧ (loopedMarker 7).loopHeld = true) ∧
    ((loopedMarker 6).loopHeld = false ∧ (loopedMarker 6).transmitter.bitIndex < 7 ∧
      (loopedMarker 6).transmitter.begun = true ∧ (loopedMarker 6).transmitter.state ≠ .stopped) ∧
    (let s : State := { ready 0 with transmitter := { sending 0 2 with nextByte := some 0x80 } };
      s.aligner.localLoop = false ∧ s.transmitter.state ≠ .stopped ∧ s.transmitter.begun = true ∧
      s.transmitter.bitIndex = 0 ∧ s.transmitter.nextByte = some 0x80) ∧
    (7 ≤ (frameSent 3).bitIndex ∧ (frameSent 3).nextByte = none) ∧
    (sending 0 2).slotIndex + 1 < (sending 0 2).frameLength ∧ (sending 0 39).bitIndex < 7 := by decide

theorem test_witness_TransmitCycleStart :
    (frameEnded 11 [1] .pool).RotationLaw ∧ (frameEnded 11 [1] .pool).frameStartReady = true ∧
    (frameEnded 11 [1] .pool).transmitter.nextFrame = 0 := by
  refine ⟨⟨by decide, by decide, fun c d hc hd _ => ?_⟩, by decide, by decide⟩
  have only : ∀ e : Channel, (frameEnded 11 [1] .pool).holdsTag e → e = 1 := by decide
  rw [only c hc, only d hd]

theorem test_witness_TransmitEnable :
    (ready 0).hostReady ∧ (ready 0).port.page = 0 ∧ (ready 0).transmitter.state = .stopped ∧ (1#8).getLsbD 0 = true ∧
    (0#8).getLsbD 0 = false ∧ (sending 0 0).state = .running ∧
    ({ sending 0 0 with state := .stopping, enable := false } : Transmitter).state = .stopping := by decide

theorem test_witness_Stopping :
    ({ frameSent 11 with enable := false, state := .stopping } : Transmitter).stopDue = true ∧
    (ready 0).transmitter.frameIndex ≠ 11 ∧
    ((sending 11 38).frameIndex = 11 ∧ (sending 11 38).slotIndex + 1 < (sending 11 38).frameLength) := by decide

theorem test_witness_FrameLengthAndLocalLoop :
    (ready 0).hostReady ∧ (ready 0).port.page = 0 ∧ (0#8).getLsbD 0 = (ready 0).aligner.localLoop ∧
    (1#8).getLsbD 0 ≠ (ready 0).aligner.localLoop ∧ (ready 0).aligner.state = .off ∧
    (monitored .reset).aligner.state ≠ .off ∧ (monitored .reset).hostReady ∧ (monitored .reset).port.page = 0 := by decide

theorem test_witness_ReceiveEnable :
    (ready 0).hostReady ∧ (ready 0).port.page = 0 ∧ (ready 0).aligner.state = .off ∧ (1#8).getLsbD 0 = true ∧
    (0#8).getLsbD 0 = false ∧ (monitored .reset).aligner.state = .hunt ∧ (confirming 0 0xA4).state = .confirm ∧
    (leaving.hostReady ∧ leaving.port.page = 0 ∧ leaving.aligner.state = .aligned ∧ leaving.leavingPosts.length = 2) := by
  decide

set_option maxRecDepth 4000 in
theorem test_witness_Candidate :
    ((hunting (bitsOf 0xB5)).examinationDue = true ∧ wellFormedMarker (byteOfBits (hunting (bitsOf 0xB5)).bits) = true ∧
      LineMonitor.reset.silence = false ∧ LineMonitor.reset.hold = false) ∧
    wellFormedMarker (byteOfBits (hunting (bitsOf 0xAC)).bits) = false ∧
    ((confirming 0 0xA4).confirmCheckDue = true ∧ (confirming 0 0xA4).confirmations = 0 ∧
      (let b := byteOfBits ((confirming 0 0xA4).bits.drop (confirming 0 0xA4).expectedPlace);
        wellFormedMarker b = true ∧ markerPosition b = (confirming 0 0xA4).expectedPosition)) ∧
    ((confirming 0 0xA5).confirmCheckDue = true ∧
      markerPosition (byteOfBits ((confirming 0 0xA5).bits.drop (confirming 0 0xA5).expectedPlace)) ≠
        (confirming 0 0xA5).expectedPosition) := by decide

set_option maxRecDepth 4000 in
theorem test_witness_SecondConfirming :
    let a := confirming 1 0xA5
    a.confirmCheckDue = true ∧ a.confirmations = 1 ∧ (confirmed 1 0xA5).PendingLaw ∧
    wellFormedMarker (byteOfBits (a.bits.drop a.expectedPlace)) = true ∧
    markerPosition (byteOfBits (a.bits.drop a.expectedPlace)) = a.expectedPosition := by decide

/-- The second confirming marker ends a full history of a frame of 16 slots, 264 bits. -/
theorem test_witness_LevelAtAlignment :
    (confirmed 1 0xA5).aligner.confirmCheckDue = true ∧ (confirmed 1 0xA5).aligner.confirmations = 1 ∧
    (confirmed 1 0xA5).aligner.Ok (confirmed 1 0xA5).transmitter.frameLength ∧
    (confirmed 1 0xA5).aligner.bits.length = 264 := by
  have held : (confirming 1 0xA5).bits.length = 264 := by
    simp only [confirming, List.length_append, List.length_replicate]; rfl
  have ok : ∀ a : Aligner, a.bits.length = 264 → { a with bits := [] } = { confirming 1 0xA5 with bits := [] } → a.Ok 16 := by
    rintro ⟨⟩ h e; simp only [confirming, Aligner.mk.injEq] at e; simp_all [Aligner.Ok, Aligner.reset]
  refine ⟨?_, rfl, ok _ held rfl, held⟩
  simp only [confirmed, Aligner.confirmCheckDue, held]; rfl

theorem test_witness_GoodMarker :
    let s := markerDue 0 0xB0
    s.aligner.markerCheckDue = true ∧ wellFormedMarker (byteOfBits s.aligner.bits) = true ∧
    markerPosition (byteOfBits s.aligner.bits) = s.aligner.expectedPosition := by decide

/-- The ends of the offset's range (R35): 6143 at the last bit of a cycle of 64 slots, 0 at the first bit, 65535 before the
first frame. -/
theorem test_witness_CycleOffset :
    let x : Transmitter := { Transmitter.reset with enable := true, frameLength := 64, state := .running }
    let last : Transmitter := { x with begun := true, frameIndex := 11, slotIndex := 63, bitIndex := 7 }
    last.Ok ∧ last.state ≠ .stopped ∧ last.begun = true ∧ last.offset = 6143 ∧
    ({ x with begun := true } : Transmitter).Ok ∧ ({ x with begun := true } : Transmitter).offset = 0 ∧
    x.begun = false ∧ x.offset = 65535 ∧ Transmitter.reset.state = .stopped := by decide

theorem test_witness_BadMarker :
    let s := markerDue 0 0xA1
    let u : State := { s with aligner := { s.aligner with badMarkers := 3 } }
    s.aligner.markerCheckDue = true ∧ s.aligner.badMarkers ≠ 3 ∧
    ¬(wellFormedMarker (byteOfBits s.aligner.bits) = true ∧
      markerPosition (byteOfBits s.aligner.bits) = s.aligner.expectedPosition) ∧
    u.aligner.markerCheckDue = true ∧ u.aligner.badMarkers = 3 := by decide

theorem test_witness_Realign :
    ((ready 0).commandReady ∧ (ready 0).aligner.state = .off) ∧
    ((monitored .reset).commandReady ∧ (monitored .reset).aligner.state = .hunt) ∧
    (leaving.commandReady ∧ leaving.aligner.state = .aligned) := by decide

theorem test_witness_FrameEnd :
    ({ following 0 [] with frameEndDue := true } : Aligner).frameEndReady = true := by decide

theorem test_witness_ReceivedBit :
    (ready 0).aligner.state = .off ∧
    ((monitored .reset).aligner.state ≠ .off ∧ (monitored .reset).aligner.localLoop = false ∧
      (monitored .reset).bitHeld = false) ∧
    (let s : State := { ready 0 with aligner := hunting (bitsOf 0x55) };
      s.aligner.state ≠ .off ∧ s.aligner.localLoop = false ∧ s.bitHeld = true) ∧
    (let behind : State := { confirmed 0 0xA4 with aligner := hunting (bitsOf 0x55 ++ [true]) };
      let late : State := { behind with aligner := { behind.aligner with lateBit := true } };
      behind.bitHeld = false ∧ late.bitHeld = true ∧
      after (exec (.receivedBitPosition true) behind) (fun t => t.aligner.lateBit) = some true ∧
      after (exec .searchByteExamination late) (fun t => t.bitHeld) = some true) ∧
    ((loopedMarker 6).aligner.state ≠ .off ∧ (loopedMarker 6).aligner.localLoop = true) ∧
    (let m : LineMonitor := { LineMonitor.reset with silence := true, silenceWindow := some ⟨127, 15⟩ };
      m.silence = true ∧ m.silenceWindow = some ⟨127, 15⟩) := by decide

/-- The bound of the stored history at a frame of 16 slots: with 264 bits held no bit comes, with 263 one does (R23). -/
theorem test_full_history (bits : List Bool) :
    (bits.length = 264 → (hunting bits).historyFull 16 = true ∧ (hunting bits).bitHeld 16 = true ∧
      (hunting bits).Ok 16 ∧ (hunting bits).examinationDue = true) ∧
    (bits.length = 263 → (hunting bits).bitHeld 16 = false) := by
  constructor <;> intro h <;>
    simp [hunting, Aligner.reset, Aligner.historyFull, Aligner.bitHeld, Aligner.eventDue, Aligner.behind,
      Aligner.examinationDue, Aligner.Ok, h]

theorem test_witness_FullHistory :
    (hunting (List.replicate 264 true)).historyFull 16 = true ∧ (hunting (List.replicate 264 true)).bitHeld 16 = true ∧
    (hunting (List.replicate 264 true)).Ok 16 ∧ (hunting (List.replicate 264 true)).examinationDue = true :=
  (test_full_history _).1 List.length_replicate

theorem test_witness_Silence :
    (let s := monitored { LineMonitor.reset with zeroRun := 160 };
      s.monitor.silence = false ∧ s.monitor.zeroRun = 160 ∧ s.aligner.state = .hunt) ∧
    (let s : State := { confirmed 0 0xA4 with monitor := { LineMonitor.reset with zeroRun := 160 } };
      s.monitor.silence = false ∧ s.monitor.zeroRun = 160 ∧ s.aligner.state = .confirm) ∧
    (let s : State := { leaving with monitor := { LineMonitor.reset with zeroRun := 160 } };
      s.aligner.state = .aligned ∧ s.monitor.silence = false ∧ s.monitor.zeroRun = 160) ∧
    (let m : LineMonitor := { LineMonitor.reset with silence := true, silenceWindow := some ⟨128, 16⟩ };
      m.silence = true ∧ m.silenceWindow = some ⟨128, 16⟩ ∧ (⟨128, 16⟩ : SilenceWindow).ones = 16) ∧
    ((⟨128, 15⟩ : SilenceWindow).ones < 16 ∧ (⟨128, 15⟩ : SilenceWindow).position = 128) ∧
    ((monitored { LineMonitor.reset with zeroRun := 159 }).monitor.zeroRun ≠ 160 ∧ (ready 0).aligner.state = .off ∧
      LineMonitor.reset.silenceWindow = none ∧ LineMonitor.reset.silence = false ∧
      (⟨127, 15⟩ : SilenceWindow).ones ≠ 16 ∧ (⟨127, 15⟩ : SilenceWindow).position ≠ 128 ∧
      16 ≤ (⟨128, 16⟩ : SilenceWindow).ones) := by decide

theorem test_witness_Hold :
    let m : LineMonitor := { LineMonitor.reset with holdPosition := 1023, holdWindowDone := true, holdZeros := 2, lowWindows := 1 }
    (monitored m).aligner.state = .hunt ∧ m.holdWindowDone = true ∧ m.holdZeros ≠ 3 ∧ m.hold = false ∧ 1 ≤ m.lowWindows ∧
    ({ m with holdZeros := 3 } : LineMonitor).holdZeros = 3 ∧ ({ m with lowWindows := 0 } : LineMonitor).lowWindows = 0 ∧
    ({ m with hold := true } : LineMonitor).hold = true ∧
    ({ confirmed 0 0xA4 with monitor := m } : State).aligner.state = .confirm ∧
    ({ leaving with monitor := m } : State).aligner.state = .aligned ∧
    (ready 0).aligner.state = .off ∧ LineMonitor.reset.holdWindowDone = false := by decide

theorem test_witness_ClearCounters :
    (withOperands (ready 0) 0 0 0).commandReady ∧ (0#8).getLsbD 0 = false ∧ (0#8).getLsbD 1 = false ∧
    (withOperands (ready 0) 3 0 0).port.operand0.getLsbD 0 = true ∧
    (withOperands (ready 0) 3 0 0).port.operand0.getLsbD 1 = true := by decide

theorem test_witness_LinkCounters :
    Instr.alignedMarkerCheck ≠ .powerOn ∧ Instr.alignedMarkerCheck ≠ .cmdClearCounters ∧
    answers (exec .alignedMarkerCheck (markerDue 1 0x55)) = true := by decide

theorem test_witness_MemoryForm :
    let s : State := { ready 4 with pending := [.bufferDataWrite 1], memory := [(3, 1), (8191, 2)] }
    s.memory.wf ∧ answers (step s) = true := by decide

/-! ### A good state that is not the one after reset -/

/-- In frame 0 at slot 2, with a burst of 2 bytes granted to channel 1 and a RING receive channel 3. -/
def busy : State :=
  (poolDemand (burst 0) 2 (sender .active)).setChannel 3 (ring .receive .active 2)

/-- The context of each channel of `busy`. -/
theorem busy_channel (c : Channel) :
    busy.channel c = if c = 3 then ring .receive .active 2 else if c = 1 then sender .active else .reset := by
  revert c; decide

theorem busy_good : busy.Good where
  memory := by decide
  transmitter := by decide
  aligner := by decide
  monitor := by decide
  pending := by decide
  queue := by decide
  channels c := by
    rw [busy_channel]
    have all : ∀ x ∈ [ring .receive .active 2, sender .active, .reset],
        x.Programmed ∧ x.PositionLaw ∧ x.FillLaw := by decide
    have own : ∀ x ∈ [ring .receive .active 2, sender .active, .reset], x.OwnerLaw := by decide
    have seg : ∀ x ∈ [ring .receive .active 2, sender .active, .reset], x.SegmentLaw := by decide
    split
    · exact ⟨(all _ (by simp)).1, (all _ (by simp)).2.1, (all _ (by simp)).2.2, own _ (by simp), seg _ (by simp)⟩
    · split
      · exact ⟨(all _ (by simp)).1, (all _ (by simp)).2.1, (all _ (by simp)).2.2, own _ (by simp), seg _ (by simp)⟩
      · exact ⟨(all _ (by simp)).1, (all _ (by simp)).2.1, (all _ (by simp)).2.2, own _ (by simp), seg _ (by simp)⟩
  rotation := by
    refine ⟨by decide, by decide, fun c d hc hd _ => ?_⟩
    have only : ∀ e : Channel, busy.holdsTag e → e = 1 := by decide
    rw [only c hc, only d hd]
  burst := by decide
  parser := by decide
  quiet := by decide

theorem test_witness_RunningBurst :
    busy.Good ∧ busy.transmitter.demandDue = true ∧
    ((busy.maps.bank busy.maps.txActive).txEntry (busy.transmitter.slotIndex + 1)).kind = .pool ∧
    3 ≤ busy.pool.txBurst.poolSlots ∧ 3 ≤ (busy.maps.txPoolSlots (busy.transmitter.slotIndex + 1)).length ∧
    busy.pool.txBurst.granted = some 1 ∧ busy.pool.txBurst.answered < busy.pool.txBurst.length ∧
    (busy.channel 1).answersDemands = true :=
  ⟨busy_good, by decide⟩

/-- A good state with a command waiting, which step takes. -/
theorem test_witness_StepKeepsGood :
    ({ busy with pending := [.slotDemand] } : State).Good ∧
    answers (step { busy with pending := [.slotDemand] }) = true :=
  ⟨⟨busy_good.memory, busy_good.transmitter, busy_good.aligner, busy_good.monitor, busy_good.pending, busy_good.queue,
    busy_good.channels, busy_good.rotation, busy_good.burst, busy_good.parser, busy_good.quiet⟩, by decide⟩

end Sys2Proof.Tests
end

