-- ==== Sys2Proof/Proofs/SlotMapEntry.lean ====
section
/-! SUPPORT. The host's writes of slot-map entries (sections 4.1 and 4.2): the codes they carry, the edit permission, and what each
of the three locations takes (R55, R56). -/

namespace Sys2Proof.Machine

/-! ### Codes of a kind and channel byte (section 10.5) -/

theorem RxKind.ofCode_of_mem {b : BitVec 3} {k : RxKind}
    (h : (k, b.toNat) ∈ [(RxKind.discard, 0), (.channel, 1), (.pool, 2)]) : RxKind.ofCode b = some k := by
  simp only [List.mem_cons, Prod.mk.injEq, List.not_mem_nil, or_false] at h
  obtain ⟨rfl, hb⟩ | ⟨rfl, hb⟩ | ⟨rfl, hb⟩ := h <;> simp [RxKind.ofCode, hb]

theorem RxKind.ofCode_eq_none {b : BitVec 3} (h : 3 ≤ b.toNat) : RxKind.ofCode b = none := by
  obtain ⟨n, hn⟩ := Nat.exists_eq_add_of_le' h
  simp [RxKind.ofCode, hn]

theorem TxKind.ofCode_of_mem {b : BitVec 3} {k : TxKind}
    (h : (k, b.toNat) ∈ [(TxKind.idle, 0), (.constant, 1), (.channel, 2), (.pool, 3)]) : TxKind.ofCode b = some k := by
  simp only [List.mem_cons, Prod.mk.injEq, List.not_mem_nil, or_false] at h
  obtain ⟨rfl, hb⟩ | ⟨rfl, hb⟩ | ⟨rfl, hb⟩ | ⟨rfl, hb⟩ := h <;> simp [TxKind.ofCode, hb]

theorem TxKind.ofCode_eq_none {b : BitVec 3} (h : 4 ≤ b.toNat) : TxKind.ofCode b = none := by
  obtain ⟨n, hn⟩ := Nat.exists_eq_add_of_le' h
  simp [TxKind.ofCode, hn]

theorem channelOfBits_eq_some {b : BitVec 5} {c : Channel} (h : b.toNat = c.val) : channelOfBits b = some c := by
  have hlt : b.toNat < 20 := h ▸ c.isLt
  simp only [channelOfBits, dif_pos hlt]
  exact congrArg some (Fin.ext h)

theorem channelOfBits_eq_none {b : BitVec 5} (h : 20 ≤ b.toNat) : channelOfBits b = none :=
  dif_neg (Nat.not_lt.mpr h)

/-! ### The selected bank -/

theorem SlotMaps.bank_eq_ite (m : SlotMaps) (b : Bank) : m.bank b = if b = .bankA then m.bankA else m.bankB := by
  cases b <;> rfl

theorem SlotMaps.setBank_eq_ite (m : SlotMaps) (b : Bank) (x : BankMaps) :
    m.setBank b x = { m with
      bankA := if b = .bankA then x else m.bankA
      bankB := if b = .bankB then x else m.bankB } := by
  cases b <;> rfl

/-! ### The edit permission (R54, R56) -/

/-- The selected entry takes writes: the index names a payload slot, and the selected bank is in force for neither direction
with no switch pending. -/
abbrev State.entryEditable (s : State) : Prop :=
  1 ≤ s.port.entryIndex.toNat ∧ s.port.entryIndex.toNat ≤ 63 ∧ s.maps.rxActive ≠ s.port.bankSelect ∧
    s.maps.txActive ≠ s.port.bankSelect ∧ s.maps.rxPending = false ∧ s.maps.txPending = false

/-- The two checks the model makes before it looks at the byte. -/
theorem State.entryEditable_iff (s : State) :
    s.entryEditable ↔ s.port.entryIndexValid = true ∧ s.maps.editable s.port.bankSelect = true := by
  simp [HostPort.entryIndexValid, SlotMaps.editable, and_assoc]

/-! ### What a write does -/

/-- A write that the edit permission lets through, by its location; the byte's own checks are still to come. -/
def State.writeEntryField (s : State) (v : Byte) : EntryField → State
  | .receive => s.writeRxEntry v
  | .transmit => s.writeTxEntry v
  | .constant => s.writeConstant v

theorem exec_slotMapEntryWrite_ready {s : State} (h : s.hostReady) (hp : s.port.page = 3) (f : EntryField) (v : Byte) :
    exec (.slotMapEntryWrite f v) s = .next (if s.entryEditable then s.writeEntryField v f else s.refuseWrite) := by
  change Host.Outcome.next (s.hostWrite 3 _) = _
  rw [State.hostWrite_ready h hp]
  simp only [State.entryEditable_iff]
  by_cases hi : s.port.entryIndexValid = true
  · by_cases hb : s.maps.editable s.port.bankSelect = true
    · cases f <;> simp [hi, hb, State.writeEntryField]
    · simp [hi, hb]
  · simp [hi]

theorem State.writeRxEntry_legal {s : State} {v : Byte} {k : RxKind} {c : Channel}
    (hk : RxKind.ofCode (v.extractLsb' 5 3) = some k) (hc : channelOfBits (v.extractLsb' 0 5) = some c) :
    s.writeRxEntry v =
      s.setSelectedBank ((s.maps.bank s.port.bankSelect).setRx s.port.entryIndex.toNat ⟨k, c⟩) := by
  simp [State.writeRxEntry, hk, hc]

theorem State.writeRxEntry_illegal {s : State} {v : Byte}
    (h : RxKind.ofCode (v.extractLsb' 5 3) = none ∨ channelOfBits (v.extractLsb' 0 5) = none) :
    s.writeRxEntry v = s.refuseWrite := by
  obtain h | h := h <;> simp [State.writeRxEntry, h]

theorem State.writeTxEntry_legal {s : State} {v : Byte} {k : TxKind} {c : Channel}
    (hk : TxKind.ofCode (v.extractLsb' 5 3) = some k) (hc : channelOfBits (v.extractLsb' 0 5) = some c) :
    s.writeTxEntry v =
      s.setSelectedBank ((s.maps.bank s.port.bankSelect).setTx s.port.entryIndex.toNat
        ⟨k, c, ((s.maps.bank s.port.bankSelect).txEntry s.port.entryIndex.toNat).constant⟩) := by
  simp [State.writeTxEntry, hk, hc]

theorem State.writeTxEntry_illegal {s : State} {v : Byte}
    (h : TxKind.ofCode (v.extractLsb' 5 3) = none ∨ channelOfBits (v.extractLsb' 0 5) = none) :
    s.writeTxEntry v = s.refuseWrite := by
  obtain h | h := h <;> simp [State.writeTxEntry, h]

/-! ### The obligation -/

/-- Settles O23: the edit permission decides whether the byte is looked at, and the byte's kind and channel codes decide
whether it is taken. -/
theorem entryWriteNeedsAnEditableBank : Obligations.EntryWriteNeedsAnEditableBank := by
  intro v s hready hpage n b old put editable
  have taken : ∀ o : BankMaps, s.setSelectedBank o = put o := fun o =>
    congrArg (fun m => { s with maps := m }) (s.maps.setBank_eq_ite b o)
  have selected : s.maps.bank s.port.bankSelect = old := s.maps.bank_eq_ite b
  have written := fun f => exec_slotMapEntryWrite_ready hready hpage f v
  have reaches : editable → ∀ f, exec (.slotMapEntryWrite f v) s = .next (s.writeEntryField v f) := fun he f =>
    (written f).trans (congrArg _ (if_pos he))
  refine ⟨fun f he => (written f).trans (congrArg _ (if_neg he)), fun he hbad => ?rxIllegal, fun he hbad => ?txIllegal,
    fun k c he hk hc => ?rxLegal, fun k c he hk hc => ?txLegal, fun he => ?constant⟩
  case rxIllegal =>
    rw [reaches he]
    exact congrArg _ (State.writeRxEntry_illegal (hbad.imp RxKind.ofCode_eq_none channelOfBits_eq_none))
  case txIllegal =>
    rw [reaches he]
    exact congrArg _ (State.writeTxEntry_illegal (hbad.imp TxKind.ofCode_eq_none channelOfBits_eq_none))
  case rxLegal =>
    rw [reaches he, State.writeEntryField,
      State.writeRxEntry_legal (RxKind.ofCode_of_mem hk) (channelOfBits_eq_some hc), taken, selected]
    rfl
  case txLegal =>
    rw [reaches he, State.writeEntryField,
      State.writeTxEntry_legal (TxKind.ofCode_of_mem hk) (channelOfBits_eq_some hc), taken, selected]
    rfl
  case constant =>
    rw [reaches he, State.writeEntryField, State.writeConstant, taken, selected]
    rfl

end Sys2Proof.Machine
end

