-- ==== Sys2Proof/Proofs/Advance.lean ====
section
/-! SUPPORT. ADVANCE (R112, R113): the checks on the channel's context, and the fill that a taken one leaves. -/

namespace Sys2Proof.Machine

/-! ### The context an ADVANCE is checked against -/

theorem ChannelContext.atRest_iff (x : ChannelContext) :
    x.atRest = true ↔ ¬(x.state = .armed ∨ x.state = .active ∨ x.state = .ending) := by
  cases h : x.state <;> simp [ChannelContext.atRest, h]

/-- The last check of R112: the amount leaves the fill between 0 and the length of segment A (R103). -/
def ChannelContext.advanceFits (x : ChannelContext) (n : Nat) : Bool :=
  match x.direction with
  | .receive => n ≤ x.fill
  | .transmit => x.fill + n ≤ x.lengthA

/-- The context after an ADVANCE that is taken (R113). -/
def ChannelContext.advanced (x : ChannelContext) (n : Nat) : ChannelContext :=
  match x.direction with
  | .receive => { x with fill := x.fill - n }
  | .transmit => { x with fill := x.fill + n }

/-- No amount above 4096 fits a RING channel in its ranges: its fill and its length are at most 4096. -/
theorem ChannelContext.advanceFits_of_large {x : ChannelContext} {n : Nat} (hok : x.Ok) (hring : x.mode = .ring)
    (hn : 4096 < n) : x.advanceFits n = false := by
  obtain ⟨⟨-, -, -, ⟨-, hlength⟩, -⟩, -, ⟨hring_fill, -⟩, -⟩ := hok
  have hfill : x.fill ≤ x.lengthA := hring_fill hring
  cases hd : x.direction <;> simp only [advanceFits, hd, decide_eq_false_iff_not] <;> omega

/-- No amount above 0 fits a RING receive channel in ARMED: its fill is 0. -/
theorem ChannelContext.advanceFits_of_armed {x : ChannelContext} {n : Nat} (hok : x.Ok) (hring : x.mode = .ring)
    (hreceive : x.direction = .receive) (harmed : x.state = .armed) (hn : n ≠ 0) : x.advanceFits n = false := by
  obtain ⟨-, -, ⟨-, -, -, harmed_fill⟩, -⟩ := hok
  have hfill : x.fill = 0 := harmed_fill hring hreceive harmed
  simp [advanceFits, hreceive, hfill, hn]

/-! ### What ADVANCE does -/

theorem exec_cmdAdvance (s : State) : exec .cmdAdvance s = execAdvance s := rfl

theorem exec_cmdAdvance_init {s : State} (hrstn : s.port.rstnLow = false) (hpage : s.port.page = 0)
    (hinit : s.port.init = true) : exec .cmdAdvance s = .next (s.setResult .notReady) := by
  simp [exec_cmdAdvance, execAdvance, State.command, hrstn, hpage, hinit]

theorem exec_cmdAdvance_badChannel {s : State} (h : s.commandReady) (hc : 20 ≤ s.port.operand0.toNat) :
    exec .cmdAdvance s = .next (s.setResult .badChannel) := by
  rw [exec_cmdAdvance, execAdvance, State.command_ready h]
  simp [State.onChannel, HostPort.operandChannel_none hc]

/-- The checks that follow the channel number's, in the order of R112. -/
theorem exec_cmdAdvance_onChannel {s : State} {c : Channel} (h : s.commandReady) (hc : s.port.operand0.toNat = c.val) :
    exec .cmdAdvance s = .next (
      if (s.channel c).atRest then s.setResult .badState
      else if (s.channel c).mode ≠ .ring then s.setResult .badState
      else if s.port.amount = 0 then s.setResult .badAmount
      else if (s.channel c).advanceFits s.port.amount then
        (s.setChannel c ((s.channel c).advanced s.port.amount)).setResult .ok
      else s.setResult .badAmount) := by
  rw [exec_cmdAdvance, execAdvance, State.command_ready h]
  simp only [State.onChannel, HostPort.operandChannel_eq hc]
  by_cases hrest : (s.channel c).atRest
  · simp [hrest]
  by_cases hring : (s.channel c).mode = .ring
  · by_cases hn : s.port.amount = 0
    · simp [hrest, hring, hn]
    · cases hd : (s.channel c).direction with
      | receive =>
        by_cases hlow : (s.channel c).fill < s.port.amount
        · simp [ChannelContext.advanceFits, hd, hrest, hring, hn, hlow]
        · simp [ChannelContext.advanceFits, ChannelContext.advanced, hd, hrest, hring, hn, hlow, Nat.not_lt.mp hlow]
      | transmit =>
        by_cases hover : (s.channel c).lengthA < (s.channel c).fill + s.port.amount
        · simp [ChannelContext.advanceFits, hd, hrest, hring, hn, hover]
        · simp [ChannelContext.advanceFits, ChannelContext.advanced, hd, hrest, hring, hn, hover, Nat.not_lt.mp hover]
  · simp [hrest, hring]

/-- An amount that is 0 or does not fit is refused at every RING channel that is not at rest. -/
theorem exec_cmdAdvance_badAmount {s : State} {c : Channel} (h : s.commandReady) (hc : s.port.operand0.toNat = c.val)
    (hrest : (s.channel c).atRest = false) (hring : (s.channel c).mode = .ring)
    (hfits : s.port.amount ≠ 0 → (s.channel c).advanceFits s.port.amount = false) :
    exec .cmdAdvance s = .next (s.setResult .badAmount) := by
  rw [exec_cmdAdvance_onChannel h hc]
  by_cases hn : s.port.amount = 0
  · simp [hrest, hring, hn]
  · simp [hrest, hring, hn, hfits hn]

/-! ### The obligation -/

/-- Settles O28: the checks by exec_cmdAdvance_onChannel, and the two refusals because no such amount fits the fill. -/
theorem advanceChecksThenMovesTheFill : Obligations.AdvanceChecksThenMovesTheFill := by
  refine ⟨fun s => exec_cmdAdvance_init, fun p => rfl, fun s h => ⟨exec_cmdAdvance_badChannel h, fun c hc =>
    ⟨?checks, fun hok hstate hring hn => ?large, fun hok harmed hring hrx => ?armed⟩⟩⟩
  case checks =>
    rw [exec_cmdAdvance_onChannel h hc]
    simp only [ChannelContext.atRest_iff]
    cases hd : (s.channel c).direction <;> simp [ChannelContext.advanceFits, ChannelContext.advanced, hd]
  case large =>
    have hrest := Bool.eq_false_iff.mpr (mt (s.channel c).atRest_iff.mp (not_not_intro hstate))
    exact exec_cmdAdvance_badAmount h hc hrest hring fun _ => ChannelContext.advanceFits_of_large hok hring hn
  case armed =>
    have hrest : (s.channel c).atRest = false := by simp [ChannelContext.atRest, harmed]
    exact exec_cmdAdvance_badAmount h hc hrest hring (ChannelContext.advanceFits_of_armed hok hring hrx harmed)

end Sys2Proof.Machine
end

