-- ==== Sys2Proof/Proofs/PostingAndRemoval.lean ====
section
/-! SUPPORT. The queue's own side of posting and REMOVE: the four cases of R137 in terms of kind and channel, what REMOVE does
with the head (R142), and a post that comes together with it. -/

namespace Sys2Proof.Machine

/-! ### Which record a post finds -/

theorem any_matches_eq_false_iff {queue : List QueueRecord} {p : Post} :
    queue.any (·.matches p) = false ↔ ∀ r ∈ queue, ¬(r.post.kind = p.kind ∧ r.post.channel = p.channel) := by
  simp only [List.any_eq_false, QueueRecord.matches_iff]

/-- The keys of a queue are distinct, so a post finds no record but the one that has its key. -/
theorem Notifications.Ok.others_differ {n : Notifications} {before after : List QueueRecord} {r : QueueRecord} {p : Post}
    (hok : n.Ok) (hq : n.queue = before ++ r :: after) (hr : r.post.kind = p.kind ∧ r.post.channel = p.channel) :
    ∀ q ∈ before ++ after, ¬(q.post.kind = p.kind ∧ q.post.channel = p.channel) := by
  obtain ⟨-, hkeys, -⟩ := hok
  rw [hq, List.pairwise_middle fun hne heq => hne ⟨heq.1.symm, heq.2.symm⟩] at hkeys
  rintro q hmem ⟨hkind, hchannel⟩
  exact List.rel_of_pairwise_cons hkeys hmem ⟨hr.1.trans hkind.symm, hr.2.trans hchannel.symm⟩

/-- The update of case 2 of R137 keeps the records of other keys. -/
theorem map_bump_of_differ {l : List QueueRecord} {p : Post}
    (h : ∀ r ∈ l, ¬(r.post.kind = p.kind ∧ r.post.channel = p.channel)) :
    l.map (fun r => if r.matches p then r.bump else r) = l :=
  (List.map_congr_left fun r hr => if_neg (mt (r.matches_iff p).mp (h r hr))).trans l.map_id

/-- Case 2 of R137, the one case that turns on the law of the queue: one record alone changes. -/
theorem Notifications.take_coalesce {n : Notifications} {before after : List QueueRecord} {r : QueueRecord} {p : Post}
    (he : n.enables p.kind = true) (hok : n.Ok) (hq : n.queue = before ++ r :: after)
    (hr : r.post.kind = p.kind ∧ r.post.channel = p.channel) :
    n.take p = { n with queue := before ++ r.bump :: after } := by
  have hothers := hok.others_differ hq hr
  have hmatch : r.matches p = true := (r.matches_iff p).mpr hr
  rw [Notifications.take_match he (by simp [hq, hmatch]), hq, List.map_append, List.map_cons, if_pos hmatch,
    map_bump_of_differ fun q hmem => hothers q (List.mem_append_left _ hmem),
    map_bump_of_differ fun q hmem => hothers q (List.mem_append_right _ hmem)]

/-! ### REMOVE (R142) -/

theorem exec_cmdRemove (s : State) : exec .cmdRemove s = execRemove s := rfl

theorem exec_cmdRemove_init {s : State} (hrstn : s.port.rstnLow = false) (hpage : s.port.page = 0)
    (hinit : s.port.init = true) : exec .cmdRemove s = .next (s.setResult .notReady) := by
  simp [exec_cmdRemove, execRemove, State.command, hrstn, hpage, hinit]

theorem exec_cmdRemove_nil {s : State} (h : s.commandReady) (hq : s.notifications.queue = []) :
    exec .cmdRemove s = .next (s.setResult .badState) := by
  rw [exec_cmdRemove, execRemove, State.command_ready h]
  simp only [hq]

theorem exec_cmdRemove_cons {s : State} {r : QueueRecord} {rest : List QueueRecord} (h : s.commandReady)
    (hq : s.notifications.queue = r :: rest) :
    exec .cmdRemove s =
      .next ({ s with notifications := { s.notifications with queue := rest } }.setResult .ok) := by
  rw [exec_cmdRemove, execRemove, State.command_ready h]
  simp only [hq]

/-! ### A post that comes together with a REMOVE -/

/-- The post is taken first: the REMOVE then takes the head of the queue it left. -/
theorem notifications_of_post_then_remove {s t : State} {p : Post} {n : Notifications} {r : QueueRecord}
    {rest : List QueueRecord} (h : s.commandReady) (hpost : s.notifications.take p = n) (hq : n.queue = r :: rest)
    (ht : exec .cmdRemove (s.post p) = .next t) :
    t.notifications = { n with queue := rest } ∧ t.port.result = .ok := by
  subst hpost
  rw [exec_cmdRemove_cons (s := s.post p) h hq] at ht
  cases ht
  exact ⟨rfl, rfl⟩

/-- The REMOVE is taken first: the place it frees takes a post that finds no record of its key behind the head. -/
theorem notifications_of_remove_then_post {s u : State} {p : Post} {r : QueueRecord} {rest : List QueueRecord}
    (h : s.commandReady) (hok : s.notifications.Ok) (he : s.notifications.enables p.kind = true)
    (hq : s.notifications.queue = r :: rest)
    (hnew : ∀ q ∈ rest, ¬(q.post.kind = p.kind ∧ q.post.channel = p.channel)) (hu : exec .cmdRemove s = .next u) :
    (u.post p).notifications = { s.notifications with queue := rest ++ [⟨p, 1⟩] } := by
  have hroom : rest.length < 32 := by simpa [hq] using hok.1
  rw [exec_cmdRemove_cons h hq] at hu
  cases hu
  exact Notifications.take_append (n := { s.notifications with queue := rest }) he (any_matches_eq_false_iff.mpr hnew) hroom

/-! ### The obligations -/

/-- Settles O16: the posting laws give each of the four cases, and the law of the queue is kept by each of them. -/
theorem postIsDecidedByFourCases : Obligations.PostIsDecidedByFourCases := by
  refine ⟨fun n p => ⟨Notifications.take_disabled, fun he => ⟨?coalesce, fun hnew => ⟨?append, ?missed⟩⟩⟩,
    fun n p hok => hok.take p, fun c => rfl, rfl, ?numbers⟩
  case coalesce =>
    intro before after r hok hq hkind hchannel
    exact Notifications.take_coalesce he hok hq ⟨hkind, hchannel⟩
  case append => exact Notifications.take_append he (any_matches_eq_false_iff.mpr hnew)
  case missed => exact Notifications.take_missed he (any_matches_eq_false_iff.mpr hnew)
  case numbers => intro k; cases k <;> decide

/-- Settles O20: REMOVE by its three answers, and the two orders of a post and a REMOVE by the case of R137 that the post
meets before and after the head has left. -/
theorem removeTakesTheHead : Obligations.RemoveTakesTheHead := by
  refine ⟨fun s => exec_cmdRemove_init, fun s => exec_cmdRemove_nil, fun s r rest => exec_cmdRemove_cons,
    fun s p => rfl, fun s t u p h hok he ht hu => ⟨?headsKey, ?fullQueue, ?emptyQueue⟩⟩
  case headsKey =>
    intro r rest hq hkind hchannel
    have hr : r.post.kind = p.kind ∧ r.post.channel = p.channel := ⟨hkind.symm, hchannel.symm⟩
    have hrest : ∀ q ∈ rest, ¬(q.post.kind = p.kind ∧ q.post.channel = p.channel) :=
      hok.others_differ (before := []) hq hr
    have hpost := Notifications.take_coalesce (before := []) he hok hq hr
    obtain ⟨hfirst, -⟩ := notifications_of_post_then_remove h hpost rfl ht
    exact ⟨hfirst, notifications_of_remove_then_post h hok he hq hrest hu⟩
  case fullQueue =>
    intro r rest hq hfull hnew
    have hpost := Notifications.take_missed he (any_matches_eq_false_iff.mpr hnew) hfull.ge
    obtain ⟨hfirst, -⟩ := notifications_of_post_then_remove h hpost hq ht
    have hrest := fun q hmem => hnew q (hq ▸ List.mem_cons_of_mem r hmem)
    exact ⟨hfirst, notifications_of_remove_then_post h hok he hq hrest hu⟩
  case emptyQueue =>
    intro hq
    have hpost : s.notifications.take p = { s.notifications with queue := [⟨p, 1⟩] } := by
      simpa [hq] using Notifications.take_append (n := s.notifications) he (by simp [hq]) (by simp [hq])
    obtain ⟨hfirst, htaken⟩ := notifications_of_post_then_remove h hpost rfl ht
    rw [exec_cmdRemove_nil h hq] at hu
    cases hu
    exact ⟨by rw [hfirst, ← hq], htaken, rfl, hpost⟩

end Sys2Proof.Machine
end

