-- ==== Sys2Proof/Proofs/TagTable.lean ====
section
/-! SUPPORT. The tag table at its host location (R132, R165): the entry the tag select names, what a write makes of it, and the byte
a read shows. -/

namespace Sys2Proof.Machine

/-! ### The entry the tag select names -/

theorem State.selectedTagEntry_noTag {s : State} (h : s.port.tagSelect = 0) : s.selectedTagEntry = none := if_pos h

theorem HostPort.tagSelect_ne_zero {p : HostPort} {i : Fin 31} (h : p.tagSelect.val = i.val + 1) : p.tagSelect ≠ 0 := by
  rw [ne_eq, Fin.ext_iff, h]
  exact i.val.succ_ne_zero

theorem State.selectedTagEntry_tag {s : State} {i : Fin 31} (h : s.port.tagSelect.val = i.val + 1) :
    s.selectedTagEntry = s.pool.tagTable[i] := by
  rw [State.selectedTagEntry, if_neg (HostPort.tagSelect_ne_zero h)]
  simp [h]

theorem State.setTagEntry_tag {s : State} {i : Fin 31} (h : s.port.tagSelect.val = i.val + 1) (e : Option Channel) :
    s.setTagEntry e = { s with pool := { s.pool with tagTable := s.pool.tagTable.set i e } } := by
  have hset : s.pool.tagTable.setIfInBounds i e = s.pool.tagTable.set i e :=
    Vector.toArray_inj.mp (by simp [Array.setIfInBounds])
  rw [State.setTagEntry, h, Nat.add_sub_cancel, hset]

/-! ### What a write does (R165) -/

/-- A write whose tag select names an entry, by the byte's own bits. -/
def State.writeTagEntry (s : State) (v : Byte) : State :=
  if !v.getLsbD 7 then s.setTagEntry none
  else
    match channelOfBits (v.extractLsb' 0 5) with
    | some c => s.setTagEntry (some c)
    | none => s.refuseWrite

theorem State.writeTagEntry_clear {s : State} {v : Byte} (h : v.getLsbD 7 = false) :
    s.writeTagEntry v = s.setTagEntry none := by
  rw [State.writeTagEntry, h]
  rfl

theorem State.writeTagEntry_legal {s : State} {v : Byte} {c : Channel} (h : v.getLsbD 7 = true)
    (hc : (v.extractLsb' 0 5).toNat = c.val) : s.writeTagEntry v = s.setTagEntry (some c) := by
  rw [State.writeTagEntry, h, channelOfBits_eq_some hc]
  rfl

theorem State.writeTagEntry_illegal {s : State} {v : Byte} (h : v.getLsbD 7 = true)
    (hc : 20 ≤ (v.extractLsb' 0 5).toNat) : s.writeTagEntry v = s.refuseWrite := by
  rw [State.writeTagEntry, h, channelOfBits_eq_none hc]
  rfl

theorem exec_tagTableEntryWrite_ready {s : State} (h : s.hostReady) (hp : s.port.page = 4) (v : Byte) :
    exec (.tagTableEntryWrite v) s =
      .next (if s.port.tagSelect = 0 then s.refuseWrite else s.writeTagEntry v) :=
  congrArg Host.Outcome.next (State.hostWrite_ready h hp _)

/-! ### What a read shows (R165) -/

theorem State.busRead_tagTableEntry {s : State} (h : s.hostReady) (hp : s.port.page = 4) :
    s.busRead 0x05 = tagEntryByte s.selectedTagEntry := by
  obtain ⟨hrstn, hinit⟩ := h
  simp [State.busRead, State.windowByte, State.readPage4, hrstn, hinit, hp]

theorem toNat_tagEntryByte_some (c : Channel) : (tagEntryByte (some c)).toNat = 128 + c.val := by
  have hc := c.isLt
  rw [tagEntryByte, BitVec.toNat_add, BitVec.toNat_ofNat, show (0x80 : Byte).toNat = 128 from rfl]
  omega

/-! ### The obligation -/

/-- Settles O39: the tag select decides whether a write reaches an entry, the byte's bits decide what it leaves there, and a read
is the byte of the entry the tag select names. -/
theorem tagTableEntryIsDecidedByBit7 : Obligations.TagTableEntryIsDecidedByBit7 := by
  refine ⟨fun i => by simp [State.reset, PoolUnit.reset], fun v s hready hpage => ?_⟩
  have written := exec_tagTableEntryWrite_ready hready hpage v
  have shown := State.busRead_tagTableEntry hready hpage
  refine ⟨fun hnone => ?noTag, fun i htag => ?tag⟩
  case noTag =>
    rw [written, shown, if_pos hnone, State.selectedTagEntry_noTag hnone]
    exact ⟨rfl, rfl⟩
  case tag =>
    rw [written, shown, if_neg (HostPort.tagSelect_ne_zero htag), State.selectedTagEntry_tag htag]
    refine ⟨fun hclear => ?clear, fun c hset hc => ?legal, fun hset hc => congrArg _ (State.writeTagEntry_illegal hset hc),
      fun hentry => congrArg tagEntryByte hentry, fun c hentry => hentry ▸ toNat_tagEntryByte_some c⟩
    case clear => rw [State.writeTagEntry_clear hclear, State.setTagEntry_tag htag]
    case legal => rw [State.writeTagEntry_legal hset hc, State.setTagEntry_tag htag]

end Sys2Proof.Machine
end

