-- ==== Sys2Proof/Proofs/Evolution.lean ====
section
/-! SUPPORT. What the part changes of itself: a relation between two states that every trunk event and most commands keep
to, with a rule for each operation the meanings are built from. -/

namespace Sys2Proof.Machine

/-! ### Plans and counters -/

/-- Two contexts with the same nine programmed fields (R72). -/
structure ChannelContext.SamePlan (x y : ChannelContext) : Prop where
  direction : y.direction = x.direction
  mode : y.mode = x.mode
  poolMode : y.poolMode = x.poolMode
  tag : y.tag = x.tag
  baseA : y.baseA = x.baseA
  lengthA : y.lengthA = x.lengthA
  baseB : y.baseB = x.baseB
  lengthB : y.lengthB = x.lengthB
  watermark : y.watermark = x.watermark

theorem ChannelContext.SamePlan.refl (x : ChannelContext) : x.SamePlan x := by constructor <;> rfl

theorem ChannelContext.SamePlan.trans {x y z : ChannelContext} (h : x.SamePlan y) (k : y.SamePlan z) : x.SamePlan z where
  direction := k.direction.trans h.direction
  mode := k.mode.trans h.mode
  poolMode := k.poolMode.trans h.poolMode
  tag := k.tag.trans h.tag
  baseA := k.baseA.trans h.baseA
  lengthA := k.lengthA.trans h.lengthA
  baseB := k.baseB.trans h.baseB
  lengthB := k.lengthB.trans h.lengthB
  watermark := k.watermark.trans h.watermark

/-- An update of the running fields alone (R76). -/
theorem ChannelContext.samePlan_running (x : ChannelContext) (st : ChannelState) (g : Segment) (p f : Nat) (a b : Owner)
    (stalled short : Bool) (n : Byte) :
    x.SamePlan { x with
      state := st, active := g, position := p, fill := f, ownerA := a, ownerB := b, stalled := stalled, shortRun := short
      shortfalls := n } := by
  constructor <;> rfl

theorem ChannelContext.samePlan_setOwner (x : ChannelContext) (g : Segment) (o : Owner) : x.SamePlan (x.setOwner g o) := by
  cases g <;> exact x.samePlan_running ..

theorem ChannelContext.samePlan_afterShortfall (x : ChannelContext) : x.SamePlan x.afterShortfall := x.samePlan_running ..

theorem ChannelContext.samePlan_afterByte (x : ChannelContext) : x.SamePlan x.afterByte := by
  unfold ChannelContext.afterByte
  split
  · exact x.samePlan_running ..
  · exact x.samePlan_running ..
  · split
    · split <;> exact (x.samePlan_setOwner _ _).trans (ChannelContext.samePlan_running ..)
    · exact x.samePlan_running ..

theorem ChannelContext.samePlan_afterFrameEnd (x : ChannelContext) : x.SamePlan x.afterFrameEnd := by
  unfold ChannelContext.afterFrameEnd
  split
  · exact x.samePlan_running ..
  · exact .refl x

/-- The link counters of the second monitor are those of the first or higher (R46 to R52). -/
structure LineMonitor.CountersRise (m k : LineMonitor) : Prop where
  markerErrors : m.markerErrors.toNat ≤ k.markerErrors.toNat
  alignmentLosses : m.alignmentLosses.toNat ≤ k.alignmentLosses.toNat
  formatErrors : m.formatErrors.toNat ≤ k.formatErrors.toNat
  poolDiscards : m.poolDiscards.toNat ≤ k.poolDiscards.toNat

theorem LineMonitor.CountersRise.refl (m : LineMonitor) : m.CountersRise m := ⟨le_rfl, le_rfl, le_rfl, le_rfl⟩

theorem LineMonitor.CountersRise.trans {m k l : LineMonitor} (h : m.CountersRise k) (j : k.CountersRise l) :
    m.CountersRise l :=
  ⟨h.markerErrors.trans j.markerErrors, h.alignmentLosses.trans j.alignmentLosses, h.formatErrors.trans j.formatErrors,
    h.poolDiscards.trans j.poolDiscards⟩

/-- A counter rises by one, and stays at its maximum. -/
theorem toNat_saturatingInc {w : Nat} (x : BitVec w) : (saturatingInc x).toNat = min (2 ^ w - 1) (x.toNat + 1) := by
  have hx := x.isLt
  unfold saturatingInc
  split
  · next h =>
    have := congrArg BitVec.toNat h
    rw [BitVec.toNat_allOnes] at this
    omega
  · next h =>
    have hne : x.toNat ≠ 2 ^ w - 1 := fun e => h (BitVec.eq_of_toNat_eq (by rw [e, BitVec.toNat_allOnes]))
    rw [BitVec.toNat_add, show BitVec.toNat (1 : BitVec w) = 1 % 2 ^ w from BitVec.toNat_ofNat 1 w, Nat.add_mod_mod,
      Nat.mod_eq_of_lt (by omega)]
    omega

theorem toNat_le_saturatingInc {w : Nat} (x : BitVec w) : x.toNat ≤ (saturatingInc x).toNat := by
  have hx := x.isLt
  rw [toNat_saturatingInc]
  omega

/-! ### Evolution -/

/-- The second state is one that the part can reach from the first with its port, its memory and its programming as they
are: contexts keep their plans, banks their entries, the queue takes posts alone, and no link counter falls. -/
structure State.Evolves (s t : State) : Prop where
  port : t.port = s.port
  memory : t.memory = s.memory
  powerOns : t.powerOns = s.powerOns
  banks : ∀ b, t.maps.bank b = s.maps.bank b
  plan : ∀ c, (s.channel c).SamePlan (t.channel c)
  posts : ∃ posts : List Post, t.notifications = posts.foldl Notifications.take s.notifications
  counters : s.monitor.CountersRise t.monitor

namespace State.Evolves

variable {s t u : State}

theorem refl (s : State) : s.Evolves s :=
  ⟨rfl, rfl, rfl, fun _ => rfl, fun _ => .refl _, ⟨[], rfl⟩, .refl _⟩

theorem trans (h : s.Evolves t) (k : t.Evolves u) : s.Evolves u where
  port := k.port.trans h.port
  memory := k.memory.trans h.memory
  powerOns := k.powerOns.trans h.powerOns
  banks b := (k.banks b).trans (h.banks b)
  plan c := (h.plan c).trans (k.plan c)
  posts := by
    obtain ⟨p, hp⟩ := h.posts
    obtain ⟨q, hq⟩ := k.posts
    exact ⟨p ++ q, by rw [hq, hp, List.foldl_append]⟩
  counters := h.counters.trans k.counters

/-- The transmitter, the aligner, the Pool Unit and the draw counter carry none of what is kept. -/
theorem blocks (s : State) (x : Transmitter) (a : Aligner) (p : PoolUnit) (d : Nat) :
    s.Evolves { s with transmitter := x, aligner := a, pool := p, draws := d } :=
  ⟨rfl, rfl, rfl, fun _ => rfl, fun _ => .refl _, ⟨[], rfl⟩, .refl _⟩

theorem monitor (s : State) {m : LineMonitor} (h : s.monitor.CountersRise m) : s.Evolves { s with monitor := m } :=
  ⟨rfl, rfl, rfl, fun _ => rfl, fun _ => .refl _, ⟨[], rfl⟩, h⟩

theorem receiveSide (s : State) (a : Aligner) {m : LineMonitor} (h : s.monitor.CountersRise m) :
    s.Evolves { s with aligner := a, monitor := m } :=
  ⟨rfl, rfl, rfl, fun _ => rfl, fun _ => .refl _, ⟨[], rfl⟩, h⟩

theorem post (s : State) (p : Post) : s.Evolves (s.post p) :=
  ⟨rfl, rfl, rfl, fun _ => rfl, fun _ => .refl _, ⟨[p], rfl⟩, .refl _⟩

theorem postInAnyOrder (s : State) (posts : List Post) : s.Evolves (s.postInAnyOrder posts) := by
  obtain ⟨order, draws, -, e⟩ := s.postInAnyOrder_cases posts
  rw [e]
  exact ⟨rfl, rfl, rfl, fun _ => rfl, fun _ => .refl _, ⟨order, rfl⟩, .refl _⟩

theorem setChannel (s : State) {c : Channel} {x : ChannelContext} (h : (s.channel c).SamePlan x) :
    s.Evolves (s.setChannel c x) := by
  refine ⟨rfl, rfl, rfl, fun _ => rfl, fun d => ?_, ⟨[], rfl⟩, .refl _⟩
  rw [State.channel_setChannel]
  split
  · next e => exact e ▸ h
  · exact .refl _

theorem mapChannels (s : State) {f : Channel → ChannelContext → ChannelContext}
    (h : ∀ (c : Channel) (x : ChannelContext), x.SamePlan (f c x)) :
    s.Evolves (s.mapChannels f) := by
  refine ⟨by simp, by simp, by simp, by simp, fun d => ?_, ⟨[], by simp⟩, by simpa using .refl _⟩
  rw [State.channel_mapChannels]
  exact h _ _

theorem switchRxBank (s : State) : s.Evolves s.switchRxBank :=
  ⟨rfl, rfl, rfl, fun b => by cases b <;> rfl, fun _ => .refl _, ⟨[], rfl⟩, .refl _⟩

theorem switchTxBank (s : State) : s.Evolves s.switchTxBank :=
  ⟨rfl, rfl, rfl, fun b => by cases b <;> rfl, fun _ => .refl _, ⟨[], rfl⟩, .refl _⟩

theorem leaveRotation (s : State) (c : Channel) : s.Evolves (s.leaveRotation c) := blocks ..

theorem enterDone (s : State) (c : Channel) (d : Detail) : s.Evolves (s.enterDone c d) :=
  (post s _).trans ((setChannel _ (ChannelContext.samePlan_running ..)).trans (leaveRotation _ c))

theorem withByte (s : State) (c : Channel) (posts : List Post) : s.Evolves (s.withByte c (s.channel c).afterByte posts) where
  port := rfl
  memory := rfl
  powerOns := rfl
  banks _ := rfl
  plan := (setChannel s (s.channel c).samePlan_afterByte).plan
  posts := ⟨posts, rfl⟩
  counters := .refl _

theorem shortfall (s : State) (c : Channel) : s.Evolves (s.shortfall c) := by
  rw [State.shortfall_eq]
  exact ⟨rfl, rfl, rfl, fun _ => rfl, (setChannel s (s.channel c).samePlan_afterShortfall).plan, ⟨_, rfl⟩, .refl _⟩

/-- A leaving of alignment (R30). -/
theorem reportLeaving (s : State) : s.Evolves s.reportLeaving := by
  obtain ⟨posts, -, e, hc⟩ := s.reportLeaving_eq
  refine ⟨?_, ?_, ?_, fun b => ?_, fun c => ?_, ⟨posts, ?_⟩, ?_⟩
  case refine_4 =>
    rw [e]
    simp only [SlotMaps.afterLeaving]
    cases b <;> split <;> rfl
  case refine_5 => exact hc c ▸ (s.channel c).samePlan_afterFrameEnd
  case refine_7 => rw [e]; exact .refl _
  all_goals rw [e]

theorem countLoss (s : State) (cause : LossCause) : s.Evolves (s.countLoss cause) :=
  (monitor s (m := { s.monitor with alignmentLosses := saturatingInc s.monitor.alignmentLosses })
    ⟨le_rfl, toNat_le_saturatingInc _, le_rfl, le_rfl⟩).trans (post _ _)

theorem loseAlignment (s : State) (cause : LossCause) : s.Evolves (s.loseAlignment cause) :=
  (countLoss s cause).trans ((reportLeaving _).trans (blocks ..))

theorem requestHunt (s : State) (cause : LossCause) : s.Evolves (s.requestHunt cause) := by
  unfold State.requestHunt
  split
  · exact refl s
  · exact refl s
  · exact blocks ..
  · exact loseAlignment s cause

/-- A receive frame start (R28). -/
theorem frameStart (s : State) (flag : Option Bool) : s.Evolves (s.frameStart flag) := by
  obtain ⟨posts, draws, -, e, hc⟩ := s.frameStart_eq flag
  refine ⟨?_, ?_, ?_, fun b => ?_, fun c => ?_, ⟨posts, ?_⟩, ?_⟩
  case refine_4 =>
    rw [e]
    simp only [State.mapsAtFrame]
    cases b <;> split <;> rfl
  case refine_5 =>
    rw [hc c]
    split
    · exact ChannelContext.samePlan_running ..
    · exact .refl _
  case refine_7 => rw [e]; exact .refl _
  all_goals rw [e]

theorem takeBit (s : State) (bit : Bool) : s.Evolves (s.takeBit bit) := by
  have rise : s.monitor.CountersRise (s.monitor.takeBit bit) := by
    simp only [LineMonitor.takeBit, LineMonitor.countHold, LineMonitor.atFirstBit]
    split <;> exact ⟨le_rfl, le_rfl, le_rfl, le_rfl⟩
  exact (monitor s rise).trans (blocks ..)

theorem takeLooped (s : State) : s.Evolves s.takeLooped := by
  unfold State.takeLooped
  split
  · exact takeBit s _
  · exact refl s

theorem txBitPosition (s : State) : s.Evolves s.txBitPosition := by
  obtain e | ⟨x, -, -, e⟩ := s.txBitPosition_cases
  · rw [e]; exact refl s
  · rw [e]; exact (blocks s x _ _ _).trans (takeLooped _)

theorem grant (s : State) : s.Evolves s.grant := by
  unfold State.grant
  dsimp only
  split <;> exact blocks ..

theorem activateTransmit (s : State) : s.Evolves s.activateTransmit := by
  refine (mapChannels s fun _ x => ?_).trans (blocks ..)
  split
  · exact x.samePlan_running ..
  · exact .refl x

theorem completeTxSwitch (s : State) : s.Evolves s.completeTxSwitch := (switchTxBank s).trans (post _ _)

theorem completeRxSwitch (s : State) : s.Evolves s.completeRxSwitch := (switchRxBank s).trans (post _ _)

theorem txSwitchEvent (s : State) : s.Evolves s.txSwitchEvent := by
  unfold State.txSwitchEvent
  split
  · exact completeTxSwitch s
  · exact refl s

theorem enterAndGrant (s : State) : s.Evolves s.enterAndGrant := by
  unfold State.enterAndGrant
  split
  · exact (activateTransmit s).trans (grant _)
  · dsimp only
    split
    · exact (blocks s _ _ _ _).trans ((grant _).trans (activateTransmit _))
    · exact (blocks s _ _ _ _).trans ((activateTransmit _).trans (grant _))

theorem frameStartEvents (s : State) : s.Evolves s.frameStartEvents := by
  unfold State.frameStartEvents
  split
  · exact (txSwitchEvent s).trans (enterAndGrant _)
  · exact grant s

end State.Evolves

end Sys2Proof.Machine
end

