-- ==== Sys2Proof/Proofs/EventsEvolve.lean ====
section
/-! SUPPORT. Every trunk event but a slot arrival evolves the part, and a slot arrival does but for one byte of memory; the
channel commands, SWITCH and REALIGN evolve it up to the result code they store. -/

namespace Sys2Proof.Machine

/-! ### Answers -/

theorem thenNext_eq_next {α : Type} {o : Host.Outcome α Fault Refusal} {f : α → State} {t : State}
    (h : thenNext o f = .next t) : ∃ a, o = .next a ∧ t = f a := by
  cases o with
  | next a => exact ⟨a, rfl, (Host.Outcome.next.inj h).symm⟩
  | fault r => cases h
  | refused r => cases h

/-! ### The transmit side -/

theorem execTransmitFrameStart_evolves {s t : State} (h : execTransmitFrameStart s = .next t) : s.Evolves t := by
  obtain rfl := Host.Outcome.next.inj h
  split
  · exact ((State.Evolves.blocks s _ _ _ _).trans (.frameStartEvents _)).trans (.takeLooped _)
  · exact .refl s

theorem State.byteDemand_evolves {s : State} {c : Channel} {pooled : Bool} {a : State × Byte}
    (h : s.byteDemand c pooled = .next a) : s.Evolves a.1 := by
  rw [State.byteDemand_eq] at h
  split at h
  · cases h; exact .refl s
  · split at h
    · cases h; rw [← State.shortfall_eq]; exact .shortfall s c
    · split at h
      · cases h
      · cases h; exact .withByte s c _

theorem State.answerPoolSlot_evolves {s : State} {n : Nat} {a : State × Byte} (h : s.answerPoolSlot n = .next a) :
    s.Evolves a.1 := by
  unfold State.answerPoolSlot at h
  split at h
  · cases h; exact .refl s
  · split at h
    · cases h
      unfold State.answerTagSlot
      split
      · exact .refl s
      · split
        · exact .refl s
        · exact .blocks ..
    · split at h
      · cases h; exact .refl s
      · unfold State.answerDataSlot at h
        split at h
        · cases h; exact .refl s
        · split at h
          · exact (State.Evolves.blocks s _ _ _ _).trans (State.byteDemand_evolves h)
          · cases h; exact .refl s

theorem State.resolveDemand_evolves {s : State} {n : Nat} {a : State × Byte} (h : s.resolveDemand n = .next a) :
    s.Evolves a.1 := by
  unfold State.resolveDemand at h
  dsimp only at h
  split at h
  · cases h; exact .refl s
  · cases h; exact .refl s
  · exact State.byteDemand_evolves h
  · exact State.answerPoolSlot_evolves h

theorem execSlotDemand_evolves {s t : State} (h : execSlotDemand s = .next t) : s.Evolves t := by
  unfold execSlotDemand at h
  split at h
  · obtain ⟨⟨u, b⟩, hu, rfl⟩ := thenNext_eq_next h
    exact (State.resolveDemand_evolves hu).trans (.blocks ..)
  · cases h; exact .refl s

theorem execEntryToStopped_evolves {s t : State} (h : execEntryToStopped s = .next t) : s.Evolves t := by
  unfold execEntryToStopped at h
  split at h
  · cases h; exact (State.Evolves.blocks s _ _ _ _).trans (.txSwitchEvent _)
  · cases h; exact .refl s

/-! ### The receive side -/

theorem execSearchByteExamination_evolves {s t : State} (h : execSearchByteExamination s = .next t) : s.Evolves t := by
  unfold execSearchByteExamination at h
  split at h
  · dsimp only at h
    split at h <;> (cases h; exact .blocks ..)
  · cases h; exact .refl s

theorem State.enterAligned_evolves (s : State) (flag : Bool) : s.Evolves (s.enterAligned flag) :=
  ((State.Evolves.blocks s _ _ _ _).trans (.frameStart _ _)).trans (.post _ _)

theorem execConfirmMarkerCheck_evolves {s t : State} (h : execConfirmMarkerCheck s = .next t) : s.Evolves t := by
  unfold execConfirmMarkerCheck at h
  split at h
  · dsimp only at h
    split at h
    · split at h
      · cases h; exact .blocks ..
      · cases h; exact s.enterAligned_evolves _
    · cases h; exact .blocks ..
  · cases h; exact .refl s

theorem State.countMarkerError_evolves (s : State) : s.Evolves s.countMarkerError := by
  have counted : s.Evolves { s with
      monitor := { s.monitor with markerErrors := saturatingInc s.monitor.markerErrors } } :=
    .monitor s ⟨toNat_le_saturatingInc _, le_rfl, le_rfl, le_rfl⟩
  unfold State.countMarkerError
  dsimp only
  split
  · exact counted.trans (.post _ _)
  · exact counted

theorem State.badMarker_evolves (s : State) : s.Evolves s.badMarker := by
  unfold State.badMarker
  dsimp only
  split
  · exact s.countMarkerError_evolves.trans (.loseAlignment _ _)
  · exact s.countMarkerError_evolves.trans ((State.Evolves.blocks ..).trans (.frameStart _ _))

theorem execAlignedMarkerCheck_evolves {s t : State} (h : execAlignedMarkerCheck s = .next t) : s.Evolves t := by
  unfold execAlignedMarkerCheck at h
  split at h
  · dsimp only at h
    split at h
    · cases h; exact (State.Evolves.blocks s _ _ _ _).trans (.frameStart _ _)
    · cases h; exact (State.Evolves.blocks s _ _ _ _).trans (State.badMarker_evolves _)
  · cases h; exact .refl s

/-- The second state is an evolution of the first but for at most one byte of memory, stored inside it. -/
def State.EvolvesStoring (s t : State) : Prop :=
  ∃ (u : State) (m : Memory), s.Evolves u ∧ t = { u with memory := m } ∧
    (m = s.memory ∨ ∃ (a : Nat) (v : Byte), a < Config.memoryBytes ∧ m = s.memory.write a v)

theorem State.Evolves.storingNothing {s t : State} (h : s.Evolves t) : s.EvolvesStoring t :=
  ⟨t, t.memory, h, rfl, .inl h.memory⟩

theorem State.EvolvesStoring.after {s t u : State} (h : s.Evolves t) (k : t.EvolvesStoring u) : s.EvolvesStoring u := by
  obtain ⟨v, m, hv, hm⟩ := k
  exact ⟨v, m, h.trans hv, by rwa [h.memory] at hm⟩

theorem State.byteArrival_evolves {s t : State} {c : Channel} {b : Byte} (h : s.byteArrival c b = .next t) :
    s.EvolvesStoring t := by
  rw [State.byteArrival_eq] at h
  split at h
  · cases h; exact (State.Evolves.refl s).storingNothing
  · split at h
    · cases h; rw [← State.shortfall_eq]; exact (State.Evolves.shortfall s c).storingNothing
    · split at h
      · cases h
      · next inside =>
        cases h
        exact ⟨_, _, .withByte s c _, rfl, .inr ⟨_, b, Nat.lt_of_not_le inside, rfl⟩⟩

theorem State.parsePoolByte_evolves {s t : State} {b : Byte} (h : s.parsePoolByte b = .next t) : s.EvolvesStoring t := by
  unfold State.parsePoolByte at h
  split at h
  · cases h; exact (State.Evolves.refl s).storingNothing
  · cases h; exact (State.Evolves.refl s).storingNothing
  · cases h
    refine State.Evolves.storingNothing ?_
    unfold State.parseTag
    split <;> exact .blocks ..
  · cases h
    refine State.Evolves.storingNothing ?_
    unfold State.parseLength
    dsimp only
    split_ifs
    · exact (State.Evolves.blocks s _ _ _ _).trans (.monitor _ ⟨le_rfl, le_rfl, toNat_le_saturatingInc _, le_rfl⟩)
    · exact .blocks ..
    · exact (State.Evolves.blocks s _ _ _ _).trans (.monitor _ ⟨le_rfl, le_rfl, le_rfl, toNat_le_saturatingInc _⟩)
    · exact .blocks ..
  · unfold State.parseData at h
    dsimp only at h
    split at h
    · exact .after (State.Evolves.blocks s _ _ _ _) (State.byteArrival_evolves h)
    · cases h; exact (State.Evolves.blocks s _ _ _ _).storingNothing

theorem State.resolveArrival_evolves {s t : State} {n : Nat} {b : Byte} (h : s.resolveArrival n b = .next t) :
    s.EvolvesStoring t := by
  unfold State.resolveArrival at h
  dsimp only at h
  split at h
  · cases h; exact (State.Evolves.refl s).storingNothing
  · exact State.byteArrival_evolves h
  · exact State.parsePoolByte_evolves h

theorem execSlotArrival_evolves {s t : State} (h : execSlotArrival s = .next t) : s.EvolvesStoring t := by
  unfold execSlotArrival at h
  split at h
  · exact .after (State.Evolves.blocks s _ _ _ _) (State.resolveArrival_evolves h)
  · cases h; exact (State.Evolves.refl s).storingNothing

theorem State.endRings_evolves (s : State) : s.Evolves s.endRings := by
  obtain ⟨e, hc⟩ := s.endRings_eq
  refine ⟨by rw [e], by rw [e], by rw [e], fun b => by rw [e], fun c => ?_, ⟨[], by rw [e]; rfl⟩, by rw [e]; exact .refl _⟩
  exact hc c ▸ (s.channel c).samePlan_afterFrameEnd

theorem execFrameEnd_evolves {s t : State} (h : execFrameEnd s = .next t) : s.Evolves t := by
  unfold execFrameEnd at h
  split at h
  · cases h
    exact ((State.Evolves.blocks s _ _ _ _).trans (State.endRings_evolves _)).trans (.postInAnyOrder _ _)
  · cases h; exact .refl s

/-! ### The Line Monitor -/

theorem execReceivedBitPosition_evolves {b : Bool} {s t : State} (h : execReceivedBitPosition b s = .next t) :
    s.Evolves t := by
  obtain rfl := Host.Outcome.next.inj h
  split
  · exact .txBitPosition s
  · split
    · exact .takeBit s b
    · exact .refl s

theorem execSilenceDeclaration_evolves {s t : State} (h : execSilenceDeclaration s = .next t) : s.Evolves t := by
  unfold execSilenceDeclaration at h
  split at h
  · cases h
    have declared : s.Evolves { s with monitor := { s.monitor with silence := true, silenceWindow := none } } :=
      .monitor s ⟨le_rfl, le_rfl, le_rfl, le_rfl⟩
    exact (declared.trans (.post _ _)).trans (.requestHunt _ _)
  · cases h; exact .refl s

theorem execSilenceClearing_evolves {s t : State} (h : execSilenceClearing s = .next t) : s.Evolves t := by
  unfold execSilenceClearing at h
  split at h
  · cases h
    have cleared : s.Evolves { s with monitor := { s.monitor with silence := false, silenceWindow := none } } :=
      .monitor s ⟨le_rfl, le_rfl, le_rfl, le_rfl⟩
    exact cleared.trans (.post _ _)
  · cases h; exact .refl s

theorem execSilenceWindowFailure_evolves {s t : State} (h : execSilenceWindowFailure s = .next t) : s.Evolves t := by
  unfold execSilenceWindowFailure at h
  split at h
  · cases h; exact .monitor s ⟨le_rfl, le_rfl, le_rfl, le_rfl⟩
  · cases h; exact .refl s

theorem State.holdWindowLive_evolves (s : State) : s.Evolves s.holdWindowLive := by
  have next : s.Evolves { s with monitor := { s.monitor.nextHoldWindow with lowWindows := 0, hold := false } } :=
    .monitor s ⟨le_rfl, le_rfl, le_rfl, le_rfl⟩
  unfold State.holdWindowLive
  dsimp only
  split
  · exact next.trans (.post _ _)
  · exact next

theorem State.holdWindowLow_evolves (s : State) : s.Evolves s.holdWindowLow := by
  have next : ∀ n b, s.Evolves { s with monitor := { s.monitor.nextHoldWindow with lowWindows := n, hold := b } } :=
    fun n b => .monitor s ⟨le_rfl, le_rfl, le_rfl, le_rfl⟩
  unfold State.holdWindowLow
  dsimp only
  split
  · exact ((next _ _).trans (.post _ _)).trans (.requestHunt _ _)
  · exact next _ _

theorem execHoldWindowEnd_evolves {s t : State} (h : execHoldWindowEnd s = .next t) : s.Evolves t := by
  unfold execHoldWindowEnd at h
  split at h
  · split at h <;> cases h
    · exact s.holdWindowLive_evolves
    · exact s.holdWindowLow_evolves
  · cases h; exact .refl s

/-! ### Link controls -/

theorem execTransmitEnableWrite_evolves {v : Byte} {s t : State} (h : execTransmitEnableWrite v s = .next t) :
    s.Evolves t := by
  obtain rfl := Host.Outcome.next.inj h
  obtain e | ⟨-, -, e⟩ := s.hostWrite_cases 0 _ <;> rw [e]
  · exact .refl s
  · exact .blocks ..

theorem State.toOff_evolves (s : State) : s.Evolves s.toOff := by
  have off : ∀ u : State, s.Evolves u →
      s.Evolves { u with aligner := { u.aligner.left .off with confirmations := 0 }, monitor := u.monitor.idle } :=
    fun u h => h.trans (.receiveSide u _ ⟨le_rfl, le_rfl, le_rfl, le_rfl⟩)
  unfold State.toOff
  dsimp only
  split
  · exact off _ (.reportLeaving s)
  · exact off _ (.refl s)

theorem execReceiveEnableWrite_evolves {v : Byte} {s t : State} (h : execReceiveEnableWrite v s = .next t) :
    s.Evolves t := by
  obtain rfl := Host.Outcome.next.inj h
  obtain e | ⟨-, -, e⟩ := s.hostWrite_cases 0 _ <;> rw [e]
  · exact .refl s
  · dsimp only
    split_ifs
    · exact .blocks ..
    · exact .blocks ..
    · exact .blocks ..
    · exact (State.Evolves.blocks s _ _ _ _).trans (State.toOff_evolves _)

theorem execLocalLoopWrite_evolves {v : Byte} {s t : State} (h : execLocalLoopWrite v s = .next t) : s.Evolves t := by
  obtain rfl := Host.Outcome.next.inj h
  obtain e | ⟨-, -, e⟩ := s.hostWrite_cases 0 _ <;> rw [e]
  · exact .refl s
  · dsimp only
    split_ifs
    · exact .refl s
    · exact .receiveSide s _ ⟨le_rfl, le_rfl, le_rfl, le_rfl⟩
    · exact .blocks ..

/-! ### Commands -/

/-- The second state is an evolution of the first with a result code stored, or the first itself. -/
def State.EvolvesAnswering (s t : State) : Prop := t = s ∨ ∃ (u : State) (r : ResultCode), s.Evolves u ∧ t = u.setResult r

theorem State.command_evolves {s : State} {act : State → State × ResultCode} (h : s.Evolves (act s).1) :
    s.EvolvesAnswering (s.command act) := by
  obtain e | ⟨-, e⟩ | ⟨-, e⟩ := s.command_cases act
  · exact .inl e
  · exact .inr ⟨s, _, .refl s, e⟩
  · exact .inr ⟨_, _, h, e⟩

theorem State.onChannel_evolves {s : State} {act : Channel → State × ResultCode} (h : ∀ c, s.Evolves (act c).1) :
    s.Evolves (s.onChannel act).1 := by
  unfold State.onChannel
  split
  · exact h _
  · exact .refl s

theorem execStart_evolves {s t : State} (h : execStart s = .next t) : s.EvolvesAnswering t := by
  obtain rfl := Host.Outcome.next.inj h
  refine State.command_evolves (State.onChannel_evolves fun c => ?_)
  split
  · exact .setChannel s (ChannelContext.samePlan_running ..)
  · exact .refl s

theorem execStop_evolves {s t : State} (h : execStop s = .next t) : s.EvolvesAnswering t := by
  obtain rfl := Host.Outcome.next.inj h
  refine State.command_evolves (State.onChannel_evolves fun c => ?_)
  split
  · exact .refl s
  · exact (State.Evolves.setChannel s (ChannelContext.samePlan_running ..)).trans (.leaveRotation _ c)

theorem State.finish_evolves (s : State) (c : Channel) : s.Evolves (s.finish c) := by
  have ending : s.Evolves (s.setChannel c { s.channel c with state := .ending }) :=
    .setChannel s (ChannelContext.samePlan_running ..)
  unfold State.finish
  dsimp only
  split
  · split
    · exact (State.Evolves.setChannel s (ChannelContext.samePlan_running ..)).trans (.enterDone _ _ _)
    · exact ending
  · split
    · exact ending
    · exact .enterDone s _ _
  · split
    · exact .enterDone s _ _
    · exact ending
  · exact .refl s

theorem execFinish_evolves {s t : State} (h : execFinish s = .next t) : s.EvolvesAnswering t := by
  obtain rfl := Host.Outcome.next.inj h
  refine State.command_evolves (State.onChannel_evolves fun c => ?_)
  split_ifs
  · exact .refl s
  · exact .refl s
  · exact s.finish_evolves c

theorem execGive_evolves {s t : State} (h : execGive s = .next t) : s.EvolvesAnswering t := by
  obtain rfl := Host.Outcome.next.inj h
  refine State.command_evolves (State.onChannel_evolves fun c => ?_)
  dsimp only
  split
  · exact .refl s
  · split
    · exact .refl s
    · split
      · exact .refl s
      · split_ifs
        · exact .refl s
        · exact .refl s
        · exact .setChannel s
            (((s.channel c).samePlan_setOwner _ _).trans (ChannelContext.samePlan_running ..))

theorem execAdvance_evolves {s t : State} (h : execAdvance s = .next t) : s.EvolvesAnswering t := by
  obtain rfl := Host.Outcome.next.inj h
  refine State.command_evolves (State.onChannel_evolves fun c => ?_)
  dsimp only
  split
  · exact .refl s
  · split
    · exact .refl s
    · split
      · exact .refl s
      · split <;> split
        · exact .refl s
        · exact .setChannel s (ChannelContext.samePlan_running ..)
        · exact .refl s
        · exact .setChannel s (ChannelContext.samePlan_running ..)

theorem State.Evolves.pendSwitches (s : State) (rx tx : Bool) :
    s.Evolves { s with maps := { s.maps with rxPending := rx, txPending := tx } } :=
  ⟨rfl, rfl, rfl, fun b => by cases b <;> rfl, fun _ => .refl _, ⟨[], rfl⟩, .refl _⟩

theorem State.requestRxSwitch_evolves (s : State) : s.Evolves s.requestRxSwitch := by
  unfold State.requestRxSwitch
  split
  · exact .pendSwitches ..
  · exact .completeRxSwitch s

theorem State.requestTxSwitch_evolves (s : State) : s.Evolves s.requestTxSwitch := by
  unfold State.requestTxSwitch
  split
  · exact .completeTxSwitch s
  · exact .pendSwitches ..

theorem execSwitch_evolves {s t : State} (h : execSwitch s = .next t) : s.EvolvesAnswering t := by
  obtain rfl := Host.Outcome.next.inj h
  refine State.command_evolves ?_
  dsimp only
  split
  · exact .refl s
  · split
    · exact .refl s
    · have rx : s.Evolves (if s.port.operand0.getLsbD 0 = true then s.requestRxSwitch else s) := by
        split
        · exact s.requestRxSwitch_evolves
        · exact .refl s
      dsimp only
      split
      · exact rx.trans (State.requestTxSwitch_evolves _)
      · exact rx

theorem execRealign_evolves {s t : State} (h : execRealign s = .next t) : s.EvolvesAnswering t := by
  obtain rfl := Host.Outcome.next.inj h
  refine State.command_evolves ?_
  split
  · exact .refl s
  · exact .blocks ..
  · exact .blocks ..
  · exact .loseAlignment s _

theorem execBadCommand_evolves {k : Byte} {s t : State} (h : execBadCommand k s = .next t) : s.EvolvesAnswering t := by
  obtain rfl := Host.Outcome.next.inj h
  split
  · exact .inl rfl
  · exact State.command_evolves (.refl s)

end Sys2Proof.Machine
end

