-- ==== Sys2Proof/Proofs/CommandsKeep.lean ====
section
/-! SUPPORT. What each command but the whole resets keeps of the host port and of every block, said once for all commands, and
the statements over all commands that are read off it. -/

namespace Sys2Proof.Machine

/-! ### The host port -/

/-- What a command keeps of the host port (sections 9.1 to 9.9). -/
structure HostPort.Kept (c : Instr) (p q : HostPort) : Prop where
  accessError : c ≠ .portStatusRead → p.accessError = true → q.accessError = true
  result : c.isCommandCode = false → q.result = p.result
  command : c.isCommandCode = true →
    q = { p with result := q.result, readHolder := q.readHolder, writeHolder := q.writeHolder }
  holders : c.isCommandCode = true → c ≠ .cmdEngineReset → q.readHolder = p.readHolder ∧ q.writeHolder = p.writeHolder
  readHolder : (∀ i, c ≠ .wideLowByteRead i) → (∀ i, c ≠ .wideHighByteRead i) → (∀ v, c ≠ .pageRegisterWrite v) →
    c ≠ .cmdEngineReset → q.readHolder = p.readHolder
  page : (∀ v, c ≠ .pageRegisterWrite v) → q.page = p.page
  init : c ≠ .powerOnClearingEnd → q.init = p.init
  initFalls : q.init = true → p.init = true
  rstnFalls : q.rstnLow = true → p.rstnLow = true

theorem HostPort.Kept.refl (c : Instr) (p : HostPort) : p.Kept c p :=
  ⟨fun _ h => h, fun _ => rfl, fun _ => rfl, fun _ _ => ⟨rfl, rfl⟩, fun _ _ _ _ => rfl, fun _ => rfl, fun _ => rfl, id, id⟩

/-- A command that stores its result code changes nothing else of the port. -/
theorem HostPort.Kept.setResult {c : Instr} {p q : HostPort} (hc : c.isCommandCode = true) (h : p.Kept c q)
    (r : ResultCode) : p.Kept c { q with result := r } where
  accessError := h.accessError
  result hn := by rw [hc] at hn; cases hn
  command _ := by rw [h.command hc]
  holders := h.holders
  readHolder := h.readHolder
  page := h.page
  init := h.init
  initFalls := h.initFalls
  rstnFalls := h.rstnFalls

/-- A host access that leaves the result code, the page, the read capture holder, INIT, RSTN and ACCESS_ERROR, which it may
set. -/
theorem HostPort.Kept.access {c : Instr} {p q : HostPort} (hc : c.isCommandCode = false)
    (hq : q.result = p.result ∧ q.page = p.page ∧ q.readHolder = p.readHolder ∧ q.init = p.init ∧ q.rstnLow = p.rstnLow)
    (he : p.accessError = true → q.accessError = true) : p.Kept c q := by
  obtain ⟨hresult, hpage, hholder, hinit, hrstn⟩ := hq
  exact ⟨fun _ => he, fun _ => hresult, fun hn => (by rw [hc] at hn; cases hn),
    fun hn => (by rw [hc] at hn; cases hn),
    fun _ _ _ _ => hholder, fun _ => hpage, fun _ => hinit, fun h => hinit ▸ h, fun h => hrstn ▸ h⟩

/-! ### Contexts -/

/-- What a context that is not at rest keeps of its plan (R73, R74). -/
def ChannelContext.PlanKept (x y : ChannelContext) : Prop :=
  x.atRest = false →
    y.direction = x.direction ∧ y.mode = x.mode ∧ y.poolMode = x.poolMode ∧ y.tag = x.tag ∧
    ∀ g : Segment, x.mode ≠ .alternating ∨ x.owner g = .device → y.base g = x.base g ∧ y.length g = x.length g

theorem ChannelContext.SamePlan.planKept {x y : ChannelContext} (h : x.SamePlan y) : x.PlanKept y := fun _ =>
  ⟨h.direction, h.mode, h.poolMode, h.tag, fun g _ => by
    cases g
    · exact ⟨h.baseA, h.lengthA⟩
    · exact ⟨h.baseB, h.lengthB⟩⟩

theorem ChannelContext.planKept_of_atRest {x : ChannelContext} (h : x.atRest = true) (y : ChannelContext) :
    x.PlanKept y := fun hn => by rw [h] at hn; cases hn

/-- A write of a segment's base and length that the write permission lets through (R74). -/
theorem ChannelContext.planKept_of_writable {x y : ChannelContext} {g : Segment} (h : x.segmentWritable g = true)
    (hy : x.atRest = false → y.direction = x.direction ∧ y.mode = x.mode ∧ y.poolMode = x.poolMode ∧ y.tag = x.tag ∧
      ∀ d, d ≠ g → y.base d = x.base d ∧ y.length d = x.length d) : x.PlanKept y := by
  intro hrest
  obtain ⟨hdir, hmode, hpool, htag, hother⟩ := hy hrest
  refine ⟨hdir, hmode, hpool, htag, fun d hd => hother d ?_⟩
  rintro rfl
  simp only [ChannelContext.segmentWritable, hrest, Bool.false_or, Bool.and_eq_true, decide_eq_true_eq] at h
  obtain ⟨halt, hhost⟩ := h
  rw [halt, hhost] at hd
  simp at hd

/-! ### The whole part -/

/-- What a command keeps of the part. -/
structure State.Kept (c : Instr) (s t : State) : Prop where
  port : s.port.Kept c t.port
  memory : c ≠ .powerOnClearingEnd → c ≠ .slotArrival → (∀ v, c ≠ .bufferDataWrite v) → t.memory = s.memory
  memoryForm : s.memory.wf → t.memory.wf
  powerOns : t.powerOns = s.powerOns
  banks : t.maps.bank s.maps.rxActive = s.maps.bank s.maps.rxActive ∧ t.maps.bank s.maps.txActive = s.maps.bank s.maps.txActive
  plan : ∀ d, (s.channel d).PlanKept (t.channel d)
  queue : s.notifications.Ok → t.notifications.Ok
  missed : c ≠ .missedSetThirdByteRead → c ≠ .cmdEngineReset →
    ∀ i, s.notifications.missed.getLsbD i = true → t.notifications.missed.getLsbD i = true
  counters : c ≠ .cmdClearCounters → s.monitor.CountersRise t.monitor

theorem Notifications.Ok.foldl_take {n : Notifications} (h : n.Ok) (posts : List Post) :
    (posts.foldl Notifications.take n).Ok := by
  induction posts generalizing n with
  | nil => exact h
  | cons p rest ih => exact ih (h.take p)

theorem Notifications.missed_foldl_take (n : Notifications) (posts : List Post) (i : Nat) (h : n.missed.getLsbD i = true) :
    (posts.foldl Notifications.take n).missed.getLsbD i = true := by
  induction posts generalizing n with
  | nil => exact h
  | cons p rest ih => exact ih _ (n.take_missed_mono p i h)

theorem State.Evolves.kept {s t : State} (h : s.Evolves t) (c : Instr) : s.Kept c t where
  port := h.port ▸ .refl c s.port
  memory _ _ _ := h.memory
  memoryForm hwf := h.memory ▸ hwf
  powerOns := h.powerOns
  banks := ⟨h.banks _, h.banks _⟩
  plan d := (h.plan d).planKept
  queue hok := by obtain ⟨posts, e⟩ := h.posts; exact e ▸ hok.foldl_take posts
  missed _ _ i hi := by obtain ⟨posts, e⟩ := h.posts; exact e ▸ s.notifications.missed_foldl_take posts i hi
  counters _ := h.counters

theorem State.Kept.refl (c : Instr) (s : State) : s.Kept c s := (State.Evolves.refl s).kept c

/-- A slot arrival may store one byte. -/
theorem State.EvolvesStoring.kept {s t : State} (h : s.EvolvesStoring t) : s.Kept .slotArrival t := by
  obtain ⟨u, m, hu, rfl, hm⟩ := h
  have k := hu.kept .slotArrival
  refine ⟨k.port, fun _ hn => absurd rfl hn, fun hwf => ?_, k.powerOns, k.banks, k.plan, k.queue, k.missed, k.counters⟩
  obtain rfl | ⟨a, v, ha, rfl⟩ := hm
  · exact hwf
  · exact Memory.wf_write v hwf ha

/-- An access that changes the port alone. -/
theorem State.kept_of_port {c : Instr} {s : State} {q : HostPort} (h : s.port.Kept c q) :
    s.Kept c { s with port := q } :=
  let k := State.Kept.refl c s
  ⟨h, k.memory, k.memoryForm, k.powerOns, k.banks, k.plan, k.queue, k.missed, k.counters⟩

/-- An access that changes contexts alone. -/
theorem State.kept_of_setSelected {c : Instr} {s : State} {x : ChannelContext} (h : s.selected.PlanKept x) :
    s.Kept c (s.setSelected x) := by
  have k := State.Kept.refl c s
  refine ⟨k.port, k.memory, k.memoryForm, k.powerOns, k.banks, fun d => ?_, k.queue, k.missed, k.counters⟩
  rw [State.setSelected, State.channel_setChannel]
  split
  · next e => exact e ▸ h
  · exact k.plan d

/-- An access that changes the queue's controls alone. -/
theorem State.kept_of_notifications {c : Instr} {s : State} {n : Notifications} (hq : s.notifications.Ok → n.Ok)
    (hm : c ≠ .missedSetThirdByteRead → c ≠ .cmdEngineReset →
      ∀ i, s.notifications.missed.getLsbD i = true → n.missed.getLsbD i = true) :
    s.Kept c { s with notifications := n } :=
  let k := State.Kept.refl c s
  ⟨k.port, k.memory, k.memoryForm, k.powerOns, k.banks, k.plan, hq, hm, k.counters⟩

/-! ### The gates -/

theorem State.kept_refuseWrite {c : Instr} (hc : c.isCommandCode = false) (s : State) : s.Kept c s.refuseWrite :=
  State.kept_of_port (.access hc ⟨rfl, rfl, rfl, rfl, rfl⟩ fun _ => rfl)

theorem State.kept_returnByte {c : Instr} (hc : c.isCommandCode = false) (s : State) (b : Byte) :
    s.Kept c (s.returnByte b) :=
  State.kept_of_port (.access hc ⟨rfl, rfl, rfl, rfl, rfl⟩ id)

theorem State.kept_hostWrite {c : Instr} {s : State} {page : Fin 6} {act : State → State} (h : s.Kept c (act s)) :
    s.Kept c (s.hostWrite page act) := by
  obtain e | ⟨-, -, e⟩ := s.hostWrite_cases page act <;> rw [e]
  · exact .refl c s
  · exact h

theorem State.kept_hostRead {c : Instr} {s : State} {page : Fin 6} {act : State → State} (hc : c.isCommandCode = false)
    (h : s.Kept c (act s)) : s.Kept c (s.hostRead page act) := by
  obtain e | e | ⟨-, -, e⟩ := s.hostRead_cases page act <;> rw [e]
  · exact s.kept_returnByte hc 0
  · exact .refl c s
  · exact h

theorem State.Kept.setResult {c : Instr} {s t : State} (hc : c.isCommandCode = true) (h : s.Kept c t) (r : ResultCode) :
    s.Kept c (t.setResult r) :=
  ⟨h.port.setResult hc r, h.memory, h.memoryForm, h.powerOns, h.banks, h.plan, h.queue, h.missed, h.counters⟩

theorem State.kept_command {c : Instr} {s : State} {act : State → State × ResultCode} (hc : c.isCommandCode = true)
    (h : s.Kept c (act s).1) : s.Kept c (s.command act) := by
  obtain e | ⟨-, e⟩ | ⟨-, e⟩ := s.command_cases act <;> rw [e]
  · exact .refl c s
  · exact (State.Kept.refl c s).setResult hc _
  · exact h.setResult hc _

theorem State.EvolvesAnswering.kept {c : Instr} {s t : State} (hc : c.isCommandCode = true) (h : s.EvolvesAnswering t) :
    s.Kept c t := by
  obtain rfl | ⟨u, r, hu, rfl⟩ := h
  · exact .refl c _
  · exact (hu.kept c).setResult hc r

/-! ### Commands that act on the queue, the counters or the whole channel side -/

theorem execRemove_kept {s t : State} (h : execRemove s = .next t) : s.Kept .cmdRemove t := by
  obtain rfl := Host.Outcome.next.inj h
  refine State.kept_command rfl ?_
  split
  · exact .refl _ s
  · next r rest hq =>
    refine State.kept_of_notifications (fun hok => ?_) fun _ _ _ hi => hi
    obtain ⟨hlength, hkeys, hcounts⟩ := hok
    rw [hq] at hlength hkeys hcounts
    rw [List.length_cons] at hlength
    exact ⟨Nat.le_of_succ_le hlength, hkeys.of_cons, fun q hmem => hcounts q (List.mem_cons_of_mem r hmem)⟩

theorem Notifications.ok_of_empty {n : Notifications} (h : n.queue = []) : n.Ok := by
  simp [Notifications.Ok, h]

theorem execFlush_kept {s t : State} (h : execFlush s = .next t) : s.Kept .cmdFlush t := by
  obtain rfl := Host.Outcome.next.inj h
  exact State.kept_command rfl
    (State.kept_of_notifications (fun _ => Notifications.ok_of_empty rfl) fun _ _ _ hi => hi)

/-! The blocks after an engine reset (R162). -/

@[simp] theorem State.engineReset_port (s : State) : s.engineReset.port =
    { s.port with readHolder := none, writeHolder := none } := by
  simp only [State.engineReset, State.emptyHolders_port, State.mapChannels_port]
@[simp] theorem State.engineReset_transmitter (s : State) : s.engineReset.transmitter = s.transmitter := by
  simp only [State.engineReset, State.emptyHolders_transmitter, State.mapChannels_transmitter]
@[simp] theorem State.engineReset_aligner (s : State) : s.engineReset.aligner = s.aligner := by
  simp only [State.engineReset, State.emptyHolders_aligner, State.mapChannels_aligner]
@[simp] theorem State.engineReset_monitor (s : State) : s.engineReset.monitor = s.monitor := by
  simp only [State.engineReset, State.emptyHolders_monitor, State.mapChannels_monitor]
@[simp] theorem State.engineReset_maps (s : State) : s.engineReset.maps =
    { s.maps with rxPending := false, txPending := false } := by simp only [State.engineReset]
@[simp] theorem State.engineReset_memory (s : State) : s.engineReset.memory = s.memory := by
  simp only [State.engineReset, State.emptyHolders_memory, State.mapChannels_memory]
@[simp] theorem State.engineReset_pool (s : State) : s.engineReset.pool = { s.pool with rotation := [] } := by
  simp only [State.engineReset]
@[simp] theorem State.engineReset_notifications (s : State) : s.engineReset.notifications =
    { s.notifications with queue := [], missed := 0, suspend := true } := by simp only [State.engineReset]
@[simp] theorem State.engineReset_pending (s : State) : s.engineReset.pending = s.pending := by
  simp only [State.engineReset, State.emptyHolders_pending, State.mapChannels_pending]
@[simp] theorem State.engineReset_draws (s : State) : s.engineReset.draws = s.draws := by
  simp only [State.engineReset, State.emptyHolders_draws, State.mapChannels_draws]
@[simp] theorem State.engineReset_powerOns (s : State) : s.engineReset.powerOns = s.powerOns := by
  simp only [State.engineReset, State.emptyHolders_powerOns, State.mapChannels_powerOns]
@[simp] theorem State.channel_engineReset (s : State) (c : Channel) :
    s.engineReset.channel c = (s.channel c).engineReset := by
  have e : s.engineReset.channels = (s.mapChannels fun _ x => x.engineReset).channels := by
    simp only [State.engineReset, State.emptyHolders_channels]
  rw [State.channel_congr e, State.channel_mapChannels]

theorem execEngineReset_kept {s t : State} (h : execEngineReset s = .next t) : s.Kept .cmdEngineReset t := by
  obtain rfl := Host.Outcome.next.inj h
  refine State.kept_command rfl ⟨?_, by simp, by simp, by simp, ?_, fun d => ?_, fun _ => Notifications.ok_of_empty (by simp),
    by simp, by simp [LineMonitor.CountersRise.refl]⟩
  · rw [State.engineReset_port]
    exact ⟨fun _ h => h, fun hn => (by cases hn), fun _ => rfl, fun _ hn => absurd rfl hn, fun _ _ _ hn => absurd rfl hn,
      fun _ => rfl, fun _ => rfl, id, id⟩
  · rw [State.engineReset_maps]
    exact ⟨by cases s.maps.rxActive <;> rfl, by cases s.maps.txActive <;> rfl⟩
  · rw [State.channel_engineReset]
    exact (ChannelContext.samePlan_running ..).planKept

theorem execClearCounters_kept {s t : State} (h : execClearCounters s = .next t) : s.Kept .cmdClearCounters t := by
  obtain rfl := Host.Outcome.next.inj h
  refine State.kept_command rfl ?_
  have k := State.Kept.refl .cmdClearCounters s
  have link : ∀ m : LineMonitor, s.Kept .cmdClearCounters { s with monitor := m } := fun m =>
    ⟨k.port, k.memory, k.memoryForm, k.powerOns, k.banks, k.plan, k.queue, k.missed, fun hn => absurd rfl hn⟩
  have chan : ∀ u : State, s.Kept .cmdClearCounters u → u.channels = s.channels →
      s.Kept .cmdClearCounters u.clearShortfalls := fun u hu hc => by
    refine ⟨?_, ?_, ?_, ?_, ?_, fun d => ?_, ?_, ?_, fun hn => absurd rfl hn⟩ <;> rw [State.clearShortfalls]
    case refine_6 =>
      rw [State.channel_mapChannels, State.channel_congr hc]
      exact (ChannelContext.samePlan_running ..).planKept
    · rw [State.mapChannels_port]; exact hu.port
    · rw [State.mapChannels_memory]; exact hu.memory
    · rw [State.mapChannels_memory]; exact hu.memoryForm
    · rw [State.mapChannels_powerOns]; exact hu.powerOns
    · rw [State.mapChannels_maps]; exact hu.banks
    · rw [State.mapChannels_notifications]; exact hu.queue
    · rw [State.mapChannels_notifications]; exact hu.missed
  dsimp only
  split
  · exact k
  · split <;> split
    · exact chan _ (link _) rfl
    · exact chan _ k rfl
    · exact link _
    · exact k

/-! ### Host accesses -/

theorem execFrameLengthWrite_kept {v : Byte} {s t : State} (h : execFrameLengthWrite v s = .next t) :
    s.Kept (.frameLengthWrite v) t := by
  obtain rfl := Host.Outcome.next.inj h
  refine State.kept_hostWrite ?_
  split
  · exact (State.Evolves.blocks s _ _ _ _).kept _
  · exact State.kept_refuseWrite rfl s

theorem execPageRegisterWrite_kept {v : Byte} {s t : State} (h : execPageRegisterWrite v s = .next t) :
    s.Kept (.pageRegisterWrite v) t := by
  obtain rfl := Host.Outcome.next.inj h
  split
  · exact .refl _ s
  · split
    · unfold State.turnPage
      split
      · exact .refl _ s
      · refine State.kept_of_port ⟨fun _ h => h, fun _ => rfl, fun hn => (by cases hn), fun hn => (by cases hn),
          fun _ _ hn => absurd rfl (hn v), fun hn => absurd rfl (hn v), fun _ => rfl, id, id⟩
    · exact State.kept_refuseWrite rfl s

theorem execSuspendFlagWrite_kept {v : Byte} {s t : State} (h : execSuspendFlagWrite v s = .next t) :
    s.Kept (.suspendFlagWrite v) t := by
  obtain rfl := Host.Outcome.next.inj h
  exact State.kept_hostWrite (State.kept_of_notifications id fun _ _ _ hi => hi)

theorem execKindEnableWrite_kept {w : KindByte} {v : Byte} {s t : State} (h : execKindEnableWrite w v s = .next t) :
    s.Kept (.kindEnableWrite w v) t := by
  obtain rfl := Host.Outcome.next.inj h
  refine State.kept_hostWrite ?_
  cases w <;> exact State.kept_of_notifications id fun _ _ _ hi => hi

theorem SlotMaps.bank_setBank_ne (m : SlotMaps) {b d : Bank} (h : d ≠ b) (x : BankMaps) : (m.setBank b x).bank d = m.bank d := by
  cases b <;> cases d
  · exact absurd rfl h
  · rfl
  · rfl
  · exact absurd rfl h

/-- A write into a bank that is in force for neither direction. -/
theorem State.kept_setSelectedBank {c : Instr} {s : State} (h : s.maps.editable s.port.bankSelect = true) (x : BankMaps) :
    s.Kept c (s.setSelectedBank x) := by
  simp only [SlotMaps.editable, Bool.and_eq_true, decide_eq_true_eq] at h
  obtain ⟨⟨⟨hrx, htx⟩, -⟩, -⟩ := h
  have k := State.Kept.refl c s
  exact ⟨k.port, k.memory, k.memoryForm, k.powerOns, ⟨s.maps.bank_setBank_ne hrx x, s.maps.bank_setBank_ne htx x⟩, k.plan,
    k.queue, k.missed, fun hn => by cases s.port.bankSelect <;> exact k.counters hn⟩

theorem execSlotMapEntryWrite_kept {f : EntryField} {v : Byte} {s t : State}
    (h : execSlotMapEntryWrite f v s = .next t) : s.Kept (.slotMapEntryWrite f v) t := by
  obtain rfl := Host.Outcome.next.inj h
  refine State.kept_hostWrite ?_
  have refused := State.kept_refuseWrite (c := .slotMapEntryWrite f v) rfl s
  split
  · exact refused
  · split
    · exact refused
    · next edit =>
      have edit : s.maps.editable s.port.bankSelect = true := by simpa using edit
      split
      · unfold State.writeRxEntry
        split
        · exact State.kept_setSelectedBank edit _
        · exact refused
      · unfold State.writeTxEntry
        dsimp only
        split
        · exact State.kept_setSelectedBank edit _
        · exact refused
      · exact State.kept_setSelectedBank edit _

theorem execModeByteWrite_kept {v : Byte} {s t : State} (h : execModeByteWrite v s = .next t) :
    s.Kept (.modeByteWrite v) t := by
  obtain rfl := Host.Outcome.next.inj h
  refine State.kept_hostWrite ?_
  dsimp only
  split
  · exact State.kept_refuseWrite rfl s
  · next rest =>
    split
    · exact State.kept_refuseWrite rfl s
    · exact State.kept_of_setSelected (ChannelContext.planKept_of_atRest (by simpa using rest) _)

theorem execTagWrite_kept {v : Byte} {s t : State} (h : execTagWrite v s = .next t) : s.Kept (.tagWrite v) t := by
  obtain rfl := Host.Outcome.next.inj h
  refine State.kept_hostWrite ?_
  dsimp only
  split
  · exact State.kept_refuseWrite rfl s
  · next rest =>
    split
    · exact State.kept_of_setSelected (ChannelContext.planKept_of_atRest (by simpa using rest) _)
    · exact State.kept_refuseWrite rfl s

theorem execTagTableEntryWrite_kept {v : Byte} {s t : State} (h : execTagTableEntryWrite v s = .next t) :
    s.Kept (.tagTableEntryWrite v) t := by
  obtain rfl := Host.Outcome.next.inj h
  refine State.kept_hostWrite ?_
  split
  · exact State.kept_refuseWrite rfl s
  · split
    · exact (State.Evolves.blocks s _ _ _ _).kept _
    · split
      · exact (State.Evolves.blocks s _ _ _ _).kept _
      · exact State.kept_refuseWrite rfl s

theorem execWideLowByteRead_kept {i : WideItem} {s t : State} (h : execWideLowByteRead i s = .next t) :
    s.Kept (.wideLowByteRead i) t := by
  obtain rfl := Host.Outcome.next.inj h
  exact State.kept_hostRead rfl (State.kept_of_port ⟨fun _ h => h, fun _ => rfl, fun hn => (by cases hn), fun hn => (by cases hn),
    fun hn => absurd rfl (hn i), fun _ => rfl, fun _ => rfl, id, id⟩)

theorem execWideHighByteRead_kept {i : WideItem} {s t : State} (h : execWideHighByteRead i s = .next t) :
    s.Kept (.wideHighByteRead i) t := by
  obtain rfl := Host.Outcome.next.inj h
  refine State.kept_hostRead rfl ?_
  dsimp only
  split
  · exact State.kept_of_port ⟨fun _ h => h, fun _ => rfl, fun hn => (by cases hn), fun hn => (by cases hn),
      fun _ hn => absurd rfl (hn i), fun _ => rfl, fun _ => rfl, id, id⟩
  · exact State.kept_returnByte rfl s _

theorem execWideLowByteWrite_kept {i : WideItem} {v : Byte} {s t : State} (h : execWideLowByteWrite i v s = .next t) :
    s.Kept (.wideLowByteWrite i v) t := by
  obtain rfl := Host.Outcome.next.inj h
  refine State.kept_hostWrite ?_
  split
  · exact State.kept_of_port (.access rfl ⟨rfl, rfl, rfl, rfl, rfl⟩ id)
  · exact State.kept_refuseWrite rfl s

/-! ### Commits -/

/-- A segment A write leaves segment B and what segment A is used for. -/
theorem ChannelContext.withBaseA_other (x : ChannelContext) (n : Nat) :
    (x.withBaseA n).direction = x.direction ∧ (x.withBaseA n).mode = x.mode ∧ (x.withBaseA n).poolMode = x.poolMode ∧
      (x.withBaseA n).tag = x.tag ∧
      ∀ d, d ≠ .segA → (x.withBaseA n).base d = x.base d ∧ (x.withBaseA n).length d = x.length d := by
  unfold ChannelContext.withBaseA
  split <;> exact ⟨rfl, rfl, rfl, rfl, fun d hd => by cases d <;> [exact absurd rfl hd; exact ⟨rfl, rfl⟩]⟩

theorem ChannelContext.withLengthA_other (x : ChannelContext) (n : Nat) :
    (x.withLengthA n).direction = x.direction ∧ (x.withLengthA n).mode = x.mode ∧
      (x.withLengthA n).poolMode = x.poolMode ∧ (x.withLengthA n).tag = x.tag ∧
      ∀ d, d ≠ .segA → (x.withLengthA n).base d = x.base d ∧ (x.withLengthA n).length d = x.length d := by
  unfold ChannelContext.withLengthA
  split <;> exact ⟨rfl, rfl, rfl, rfl, fun d hd => by cases d <;> [exact absurd rfl hd; exact ⟨rfl, rfl⟩]⟩

theorem ChannelContext.samePlan_replannedB (x : ChannelContext) : x.SamePlan x.replannedB := by
  unfold ChannelContext.replannedB
  split
  · exact x.samePlan_running ..
  · exact .refl x

/-- A segment B write leaves segment A and what segment B is used for. -/
theorem ChannelContext.replannedB_other (x : ChannelContext) (b l : Nat) :
    let y := { x.replannedB with baseB := b, lengthB := l }
    y.direction = x.direction ∧ y.mode = x.mode ∧ y.poolMode = x.poolMode ∧ y.tag = x.tag ∧
      ∀ d, d ≠ .segB → y.base d = x.base d ∧ y.length d = x.length d := by
  have h := x.samePlan_replannedB
  exact ⟨h.direction, h.mode, h.poolMode, h.tag,
    fun d hd => by cases d <;> [exact ⟨h.baseA, h.lengthA⟩; exact absurd rfl hd]⟩

theorem State.commitItem_kept {c : Instr} (hc : c.isCommandCode = false) {s t : State} {i : WideItem} {v : Byte}
    (h : s.commitItem i v = some t) : s.Kept c t := by
  have written : ∀ (g : Segment) (y : ChannelContext), s.selected.segmentWritable g = true →
      (y.direction = s.selected.direction ∧ y.mode = s.selected.mode ∧ y.poolMode = s.selected.poolMode ∧
        y.tag = s.selected.tag ∧ ∀ d, d ≠ g → y.base d = s.selected.base d ∧ y.length d = s.selected.length d) →
      s.Kept c (s.setSelected y) := fun g y hg hy =>
    State.kept_of_setSelected (ChannelContext.planKept_of_writable hg fun _ => hy)
  cases i <;> simp only [State.commitItem, reduceCtorEq, Option.ite_none_right_eq_some, Option.some.injEq,
    Bool.and_eq_true] at h
  case markerThreshold =>
    subst h
    exact (State.Evolves.monitor s (m := { s.monitor with threshold := s.commitHalf .markerThreshold v })
      ⟨le_rfl, le_rfl, le_rfl, le_rfl⟩).kept c
  case segABase =>
    obtain ⟨hw, rfl⟩ := h
    exact written .segA _ hw (s.selected.withBaseA_other _)
  case segALength =>
    obtain ⟨⟨hw, -⟩, rfl⟩ := h
    exact written .segA _ hw (s.selected.withLengthA_other _)
  case segBBase =>
    obtain ⟨hw, rfl⟩ := h
    exact written .segB _ hw (s.selected.replannedB_other _ _)
  case segBLength =>
    obtain ⟨⟨hw, -⟩, rfl⟩ := h
    exact written .segB _ hw (s.selected.replannedB_other _ _)
  case watermark =>
    obtain ⟨-, rfl⟩ := h
    exact State.kept_of_setSelected fun _ => ⟨rfl, rfl, rfl, rfl, fun g _ => by cases g <;> exact ⟨rfl, rfl⟩⟩
  case bufferAddress =>
    subst h
    exact State.kept_of_port (.access hc ⟨rfl, rfl, rfl, rfl, rfl⟩ id)

theorem State.Kept.emptyWriteHolder {c : Instr} {s t : State} (hc : c.isCommandCode = false) (h : s.Kept c t) :
    s.Kept c t.emptyWriteHolder := by
  refine ⟨⟨h.port.accessError, h.port.result, fun hn => ?_, fun hn => ?_, h.port.readHolder, h.port.page, h.port.init,
    h.port.initFalls, h.port.rstnFalls⟩, h.memory, h.memoryForm, h.powerOns, h.banks, h.plan, h.queue, h.missed, h.counters⟩
  all_goals rw [hc] at hn; cases hn

theorem execWideHighByteCommit_kept {i : WideItem} {v : Byte} {s t : State}
    (h : execWideHighByteCommit i v s = .next t) : s.Kept (.wideHighByteCommit i v) t := by
  obtain rfl := Host.Outcome.next.inj h
  refine State.kept_hostWrite ?_
  split
  · exact State.kept_refuseWrite rfl s
  · split
    · next hu =>
      split
      · exact (State.commitItem_kept rfl hu).emptyWriteHolder rfl
      · exact State.commitItem_kept rfl hu
    · exact (State.kept_refuseWrite rfl s).emptyWriteHolder rfl

/-! ### The buffer port, the port status and the plain registers -/

theorem execBufferDataRead_kept {s t : State} (h : execBufferDataRead s = .next t) : s.Kept .bufferDataRead t := by
  obtain rfl := Host.Outcome.next.inj h
  exact State.kept_hostRead rfl (State.kept_of_port (.access rfl ⟨rfl, rfl, rfl, rfl, rfl⟩ id))

theorem execBufferDataWrite_kept {v : Byte} {s t : State} (h : execBufferDataWrite v s = .next t) :
    s.Kept (.bufferDataWrite v) t := by
  obtain rfl := Host.Outcome.next.inj h
  refine State.kept_hostWrite ?_
  have k := State.Kept.refl (.bufferDataWrite v) s
  exact ⟨.access rfl ⟨rfl, rfl, rfl, rfl, rfl⟩ id, fun _ _ hn => absurd rfl (hn v),
    fun hwf => Memory.wf_write v hwf s.port.bufferAddress.isLt, k.powerOns, k.banks, k.plan, k.queue, k.missed, k.counters⟩

theorem execPortStatusRead_kept {s t : State} (h : execPortStatusRead s = .next t) : s.Kept .portStatusRead t := by
  obtain rfl := Host.Outcome.next.inj h
  split_ifs
  · exact State.kept_returnByte rfl s 0
  · exact State.kept_of_port ⟨fun hn => absurd rfl hn, fun _ => rfl, fun hn => (by cases hn), fun hn => (by cases hn),
      fun _ _ _ _ => rfl, fun _ => rfl, fun _ => rfl, id, id⟩
  · exact State.kept_returnByte rfl s 0
  · exact .refl _ s

theorem execMissedSetThirdByteRead_kept {s t : State} (h : execMissedSetThirdByteRead s = .next t) :
    s.Kept .missedSetThirdByteRead t := by
  obtain rfl := Host.Outcome.next.inj h
  refine State.kept_hostRead rfl ?_
  have k := State.kept_returnByte (c := .missedSetThirdByteRead) rfl s (s.readPage5 0x0A)
  exact ⟨k.port, k.memory, k.memoryForm, k.powerOns, k.banks, k.plan, fun hok => hok, fun hn => absurd rfl hn, k.counters⟩

/-- A write of a plain register reaches the port, a link control of the transmitter, or is refused. -/
theorem State.writePlain_cases (s : State) (l : Nat) (v : Byte) :
    s.writePlain l v = s.refuseWrite ∨
    (∃ x, s.writePlain l v = { s with transmitter := x } ∧
      (x = { s.transmitter with idleByte := v } ∨ x = { s.transmitter with forceRemoteFault := v.getLsbD 0 })) ∨
    ∃ (c : Channel) (t : Fin 32) (b : Bank) (e o l' h' : Byte), s.writePlain l v = { s with port := { s.port with
      channelSelect := c, tagSelect := t, bankSelect := b, entryIndex := e, operand0 := o, amountLow := l'
      amountHigh := h' } } := by
  unfold State.writePlain
  split
  · unfold State.writePage0
    split
    · exact .inr (.inl ⟨_, rfl, .inl rfl⟩)
    · exact .inr (.inl ⟨_, rfl, .inr rfl⟩)
    · exact .inr (.inr ⟨_, _, _, _, _, _, _, rfl⟩)
    · exact .inr (.inr ⟨_, _, _, _, _, _, _, rfl⟩)
    · exact .inr (.inr ⟨_, _, _, _, _, _, _, rfl⟩)
    · exact .inl rfl
  · unfold State.writePage2
    split
    · split
      · exact .inr (.inr ⟨_, _, _, _, _, _, _, rfl⟩)
      · exact .inl rfl
    · exact .inl rfl
  · unfold State.writePage3
    split
    · split
      · exact .inr (.inr ⟨_, _, _, _, _, _, _, rfl⟩)
      · exact .inr (.inr ⟨_, _, _, _, _, _, _, rfl⟩)
      · exact .inl rfl
    · exact .inr (.inr ⟨_, _, _, _, _, _, _, rfl⟩)
    · exact .inl rfl
  · unfold State.writePage4
    split
    · split
      · exact .inr (.inr ⟨_, _, _, _, _, _, _, rfl⟩)
      · exact .inl rfl
    · exact .inl rfl
  · exact .inl rfl

theorem execRegisterWrite_kept {l : BitVec 6} {v : Byte} {s t : State} (h : execRegisterWrite l v s = .next t) :
    s.Kept (.registerWrite l v) t := by
  obtain rfl := Host.Outcome.next.inj h
  refine State.kept_hostWrite ?_
  split
  · exact .refl _ s
  · obtain e | ⟨x, e, -⟩ | ⟨_, _, _, _, _, _, _, e⟩ := s.writePlain_cases l.toNat v <;> rw [e]
    · exact State.kept_refuseWrite rfl s
    · exact (State.Evolves.blocks s _ _ _ _).kept _
    · exact State.kept_of_port (.access rfl ⟨rfl, rfl, rfl, rfl, rfl⟩ id)

/-! ### Every command -/

theorem execPowerOnClearingEnd_kept {s t : State} (h : execPowerOnClearingEnd s = .next t) :
    s.Kept .powerOnClearingEnd t := by
  unfold execPowerOnClearingEnd at h
  have k := State.Kept.refl .powerOnClearingEnd s
  split at h <;> cases h
  · exact ⟨⟨fun _ h => h, fun _ => rfl, fun hn => (by cases hn), fun hn => (by cases hn), fun _ _ _ _ => rfl, fun _ => rfl,
      fun hn => absurd rfl hn, fun hn => (by cases hn), id⟩, fun hn => absurd rfl hn, fun _ => Memory.wf_nil, k.powerOns,
      k.banks, k.plan, k.queue, k.missed, k.counters⟩
  · exact k

theorem execPinResetRelease_kept {s t : State} (h : execPinResetRelease s = .next t) : s.Kept .pinResetRelease t := by
  cases h
  exact State.kept_of_port ⟨fun _ h => h, fun _ => rfl, fun hn => (by cases hn), fun hn => (by cases hn), fun _ _ _ _ => rfl,
    fun _ => rfl, fun _ => rfl, id, fun hn => (by cases hn)⟩

/-- Every command but the whole resets keeps what Kept says. -/
theorem exec_kept {c : Instr} {s t : State} (hc : c.isWholeReset = false) (h : exec c s = .next t) : s.Kept c t := by
  cases c with
  | powerOn => cases hc
  | pinReset => cases hc
  | powerOnClearingEnd => exact execPowerOnClearingEnd_kept h
  | pinResetRelease => exact execPinResetRelease_kept h
  | transmitFrameStart => exact (execTransmitFrameStart_evolves h).kept _
  | slotDemand => exact (execSlotDemand_evolves h).kept _
  | entryToStopped => exact (execEntryToStopped_evolves h).kept _
  | searchByteExamination => exact (execSearchByteExamination_evolves h).kept _
  | confirmMarkerCheck => exact (execConfirmMarkerCheck_evolves h).kept _
  | alignedMarkerCheck => exact (execAlignedMarkerCheck_evolves h).kept _
  | slotArrival => exact (execSlotArrival_evolves h).kept
  | frameEnd => exact (execFrameEnd_evolves h).kept _
  | silenceDeclaration => exact (execSilenceDeclaration_evolves h).kept _
  | silenceClearing => exact (execSilenceClearing_evolves h).kept _
  | silenceWindowFailure => exact (execSilenceWindowFailure_evolves h).kept _
  | holdWindowEnd => exact (execHoldWindowEnd_evolves h).kept _
  | transmitEnableWrite v => exact (execTransmitEnableWrite_evolves h).kept _
  | receiveEnableWrite v => exact (execReceiveEnableWrite_evolves h).kept _
  | frameLengthWrite v => exact execFrameLengthWrite_kept h
  | localLoopWrite v => exact (execLocalLoopWrite_evolves h).kept _
  | pageRegisterWrite v => exact execPageRegisterWrite_kept h
  | suspendFlagWrite v => exact execSuspendFlagWrite_kept h
  | kindEnableWrite w v => exact execKindEnableWrite_kept h
  | slotMapEntryWrite f v => exact execSlotMapEntryWrite_kept h
  | modeByteWrite v => exact execModeByteWrite_kept h
  | tagWrite v => exact execTagWrite_kept h
  | tagTableEntryWrite v => exact execTagTableEntryWrite_kept h
  | wideLowByteWrite i v => exact execWideLowByteWrite_kept h
  | wideHighByteCommit i v => exact execWideHighByteCommit_kept h
  | bufferDataRead => exact execBufferDataRead_kept h
  | bufferDataWrite v => exact execBufferDataWrite_kept h
  | wideLowByteRead i => exact execWideLowByteRead_kept h
  | wideHighByteRead i => exact execWideHighByteRead_kept h
  | portStatusRead => exact execPortStatusRead_kept h
  | missedSetThirdByteRead => exact execMissedSetThirdByteRead_kept h
  | registerWrite l v => exact execRegisterWrite_kept h
  | cmdStart => exact (execStart_evolves h).kept rfl
  | cmdStop => exact (execStop_evolves h).kept rfl
  | cmdFinish => exact (execFinish_evolves h).kept rfl
  | cmdGive => exact (execGive_evolves h).kept rfl
  | cmdAdvance => exact (execAdvance_evolves h).kept rfl
  | cmdSwitch => exact (execSwitch_evolves h).kept rfl
  | cmdRealign => exact (execRealign_evolves h).kept rfl
  | cmdClearCounters => exact execClearCounters_kept h
  | cmdRemove => exact execRemove_kept h
  | cmdFlush => exact execFlush_kept h
  | cmdEngineReset => exact execEngineReset_kept h
  | badCommand k => exact (execBadCommand_evolves h).kept rfl
  | receivedBitPosition b => exact (execReceivedBitPosition_evolves h).kept _

/-- The whole resets are power-on and pin reset. -/
theorem Instr.isWholeReset_iff {c : Instr} : c.isWholeReset = true ↔ c = .powerOn ∨ c = .pinReset := by
  simp [Instr.isWholeReset]

/-! ### The statements over all commands -/

/-- Settles O17: every command but the whole resets keeps the law, and those leave an empty queue. -/
theorem everyCommandKeepsTheQueueLaw : Obligations.EveryCommandKeepsTheQueueLaw := by
  intro c s t hok h
  cases hc : c.isWholeReset with
  | false => exact (exec_kept hc h).queue hok
  | true =>
    obtain rfl | rfl := Instr.isWholeReset_iff.mp hc <;> (cases h; exact Notifications.ok_of_empty rfl)

/-- Settles O18. -/
theorem missedMembersStay : Obligations.MissedMembersStay :=
  fun _ _ _ hread hengine hc h => (exec_kept hc h).missed hread hengine

/-- Settles O24. -/
theorem bankInForceIsNotEdited : Obligations.BankInForceIsNotEdited := fun _ _ _ hc h => (exec_kept hc h).banks

theorem ChannelContext.atRest_iff_idle_or_done (x : ChannelContext) :
    x.atRest = true ↔ x.state = .idle ∨ x.state = .done := by
  simp [ChannelContext.atRest]

theorem ChannelContext.running_iff (x : ChannelContext) : x.running = true ↔ x.state = .active ∨ x.state = .ending := by
  simp [ChannelContext.running]

/-- Settles O29: the plan kept is that of Kept; what a segment's fields are is their definition. -/
theorem runningPlanIsKept : Obligations.RunningPlanIsKept :=
  ⟨fun _ _ _ d hc h => (exec_kept hc h).plan d,
    fun x => ⟨x.atRest_iff_idle_or_done, x.running_iff, rfl, rfl, rfl, rfl, rfl, rfl⟩⟩

/-- Settles O34: a byte read depends on the memory, INIT and the count of power-ons, which all those commands keep; a pin
reset keeps them too. -/
theorem nothingElseWritesMemory : Obligations.NothingElseWritesMemory := by
  intro c s t hpower hclear harrival hwrite h a
  cases hc : c.isWholeReset with
  | false =>
    have k := exec_kept hc h
    exact State.byteAt_congr (k.port.init hclear) k.powerOns (k.memory hclear harrival hwrite) a
  | true =>
    obtain rfl | rfl := Instr.isWholeReset_iff.mp hc
    · exact absurd rfl hpower
    · cases h; rfl

/-- Every command keeps the canonical form of the memory list. -/
theorem exec_keeps_memory_wf {c : Instr} {s t : State} (hwf : s.memory.wf) (h : exec c s = .next t) : t.memory.wf := by
  cases hc : c.isWholeReset with
  | false => exact (exec_kept hc h).memoryForm hwf
  | true =>
    obtain rfl | rfl := Instr.isWholeReset_iff.mp hc <;> cases h
    · exact Memory.wf_nil
    · exact hwf

/-- A step runs the command at the front of the queue, or is one TXCLK bit position. -/
theorem step_cases {s t : State} (h : step s = .next t) :
    (s.pending = [] ∧ t = s.txBitPosition) ∨
      ∃ c rest, s.pending = c :: rest ∧ exec c { s with pending := rest } = .next t := by
  unfold step at h
  split at h
  · next hp => exact .inl ⟨hp, (Host.Outcome.next.inj h).symm⟩
  · next c rest hp => exact .inr ⟨c, rest, hp, h⟩

/-- Settles O57. -/
theorem stepKeepsMemoryForm : Obligations.StepKeepsMemoryForm := by
  intro s t hwf h
  obtain ⟨-, rfl⟩ | ⟨c, rest, -, h⟩ := step_cases h
  · rw [(State.Evolves.txBitPosition s).memory]; exact hwf
  · exact exec_keeps_memory_wf (s := { s with pending := rest }) hwf h

end Sys2Proof.Machine
end

