-- ==== Sys2Proof/Proofs/ContextLaws.lean ====
section
/-! SUPPORT. The laws of one channel context (sections 5.1 to 5.8, 6.2 to 6.5), kept by each change the rules make to it. -/

namespace Sys2Proof.Machine

namespace ChannelContext

/-! ### Facts about contexts -/

theorem not_atRest_of_running {x : ChannelContext} (h : x.running = true) : x.atRest = false := by
  rcases (running_iff x).mp h with e | e <;> simp [atRest, e]

theorem atRest_of_done {x : ChannelContext} (h : x.state = .done) : x.atRest = true := by simp [atRest, h]

theorem not_atRest_of_active {x : ChannelContext} (h : x.state = .active) : x.atRest = false := by simp [atRest, h]

/-- A context at rest is bound by the laws of its programmed fields, its position and its fill alone. -/
theorem ok_of_atRest {x : ChannelContext} (rest : x.atRest = true) (programmed : x.Programmed) (position : x.PositionLaw)
    (ring : x.mode = .ring → x.fill ≤ x.lengthA) (other : x.mode ≠ .ring → x.fill = 0) : x.Ok := by
  have resting : x.atRest ≠ false := by simp [rest]
  refine ⟨programmed, position, ⟨ring, other, fun _ _ e => ?_, fun _ _ e => ?_⟩, fun n => absurd n resting,
    fun n => absurd n resting⟩
  all_goals simp [atRest, e] at rest

/-- A channel that runs or waits for its cycle start has a byte to come in its active segment (R98). -/
theorem Ok.position_lt {x : ChannelContext} (h : x.Ok) (rest : x.atRest = false) : x.position < x.length x.active := by
  obtain ⟨-, ⟨inside, full, -⟩, -⟩ := h
  refine Nat.lt_of_le_of_ne inside fun e => ?_
  simp [atRest_of_done (full e).1] at rest

/-! ### The context after power-on -/

theorem ok_reset : ChannelContext.reset.Ok :=
  ok_of_atRest rfl (by decide) ⟨by decide, by decide, fun _ => rfl⟩ (fun _ => by decide) fun _ => rfl

/-! ### Bytes and shortfalls -/

theorem Ok.afterShortfall {x : ChannelContext} (h : x.Ok) : x.afterShortfall.Ok := h

/-- Entry to DONE (R89). -/
theorem Ok.done {x : ChannelContext} (h : x.Ok) : ({ x with state := .done } : ChannelContext).Ok := by
  obtain ⟨programmed, ⟨inside, full, one⟩, ⟨ring, other, -, -⟩, -, -⟩ := h
  exact ok_of_atRest rfl programmed ⟨inside, fun e => ⟨rfl, (full e).2⟩, one⟩ ring other

theorem setOwner_eq (x : ChannelContext) (g : Segment) (o : Owner) :
    x.setOwner g o = { x with
      ownerA := if g = .segA then o else x.ownerA, ownerB := if g = .segB then o else x.ownerB } := by
  cases g <;> rfl

/-! The context a byte moved leaves, mode by mode (R96 to R106). -/

theorem afterByte_single {x : ChannelContext} (mode : x.mode = .single) :
    x.afterByte = { x with
      shortRun := false, position := x.position + 1
      state := if x.position + 1 = x.lengthA then .done else x.state } := by
  simp only [ChannelContext.afterByte, mode, completesSegment, segmentInUse, length, decide_eq_true_eq]

theorem afterByte_ring {x : ChannelContext} (mode : x.mode = .ring) :
    x.afterByte = { x with
      shortRun := false, position := (x.position + 1) % x.lengthA, fill := x.fillAfterByte
      state := if x.direction = .transmit ∧ x.state = .ending ∧ x.fillAfterByte = 0 then .done else x.state } := by
  simp only [ChannelContext.afterByte, mode, emptiesEnding, Bool.and_eq_true, decide_eq_true_eq, and_assoc]

theorem afterByte_within {x : ChannelContext} (mode : x.mode = .alternating)
    (within : x.position + 1 ≠ x.length x.active) :
    x.afterByte = { x with shortRun := false, position := x.position + 1 } := by
  simp only [ChannelContext.afterByte, mode, completesSegment, segmentInUse, decide_eq_true_eq, within, if_false]

theorem afterByte_lastEnding {x : ChannelContext} (mode : x.mode = .alternating)
    (last : x.position + 1 = x.length x.active) (ends : x.state = .ending) :
    x.afterByte = { x.setOwner x.active .host with shortRun := false, position := 0, state := .done } := by
  simp only [ChannelContext.afterByte, mode, completesSegment, segmentInUse, decide_eq_true_eq, last, ends, if_true]

theorem afterByte_handOver {x : ChannelContext} (mode : x.mode = .alternating)
    (last : x.position + 1 = x.length x.active) (goesOn : x.state ≠ .ending) :
    x.afterByte = { x.setOwner x.active .host with
      shortRun := false, position := 0, active := x.active.other, stalled := x.owner x.active.other = .host } := by
  simp only [ChannelContext.afterByte, mode, completesSegment, segmentInUse, decide_eq_true_eq, last, goesOn, if_true,
    if_false]

/-- A byte moved that is not the last of its segment. -/
theorem Ok.within {x : ChannelContext} (h : x.Ok) (rest : x.atRest = false) (armed : x.state ≠ .armed)
    (moving : x.stalled = false) (inside : x.position + 1 < x.length x.active) :
    ({ x with shortRun := false, position := x.position + 1 } : ChannelContext).Ok := by
  obtain ⟨programmed, ⟨-, -, one⟩, fill, owners, segments⟩ := h
  obtain ⟨alternating, -, other, -, single⟩ := owners rest
  exact ⟨programmed, ⟨inside.le, fun e => absurd e inside.ne, one⟩, fill,
    fun _ => ⟨alternating, fun e => (by rw [moving] at e; cases e), other, fun e => absurd e armed, single⟩, segments⟩

/-- SINGLE: the position goes on, and the last byte ends the run (R96 to R98). -/
theorem Ok.afterByte_single {x : ChannelContext} (h : x.Ok) (run : x.running = true) (mode : x.mode = .single) :
    x.afterByte.Ok := by
  have rest := not_atRest_of_running run
  have before := h.position_lt rest
  have active : x.active = .segA := h.2.1.2.2 (by rw [mode]; nofun)
  rw [active] at before
  rw [ChannelContext.afterByte_single mode]
  split
  · next last =>
    obtain ⟨programmed, ⟨-, -, one⟩, ⟨ring, other, -⟩, -⟩ := h
    refine ok_of_atRest rfl programmed ⟨?_, fun _ => ⟨rfl, mode⟩, one⟩ ring other
    simp only [length, active, last, le_refl]
  · next more =>
    have moving : x.stalled = false := ((h.2.2.2.1 rest).2.2.1 (by rw [mode]; nofun)).2.2
    have armed : x.state ≠ .armed := fun e => by simp [running, e] at run
    refine h.within rest armed moving ?_
    rw [active]
    exact Nat.lt_of_le_of_ne before more

/-- RING: the position wraps and the fill moves by one (R99, R101). -/
theorem Ok.afterByte_ring {x : ChannelContext} (h : x.Ok) (run : x.running = true) (room : x.canMove = true)
    (mode : x.mode = .ring) : x.afterByte.Ok := by
  have rest := not_atRest_of_running run
  have armed : x.state ≠ .armed := fun e => by simp [running, e] at run
  obtain ⟨programmed, ⟨-, -, one⟩, ⟨ring, other, ending, -⟩, owners, segments⟩ := h
  have active : x.active = .segA := one (by rw [mode]; nofun)
  have full := ring mode
  have lengths : 1 ≤ x.lengthA := programmed.2.2.2.1.1
  have wraps : (x.position + 1) % x.lengthA < x.lengthA := Nat.mod_lt _ lengths
  have fill : x.fillAfterByte ≤ x.lengthA := by
    cases direction : x.direction <;>
      simp only [fillAfterByte, canMove, mode, direction, decide_eq_true_eq] at room ⊢ <;> omega
  have position : ∀ y : ChannelContext, y.active = x.active → y.mode = x.mode → y.lengthA = x.lengthA →
      y.position = (x.position + 1) % x.lengthA → y.PositionLaw := fun y ha hm hl hp => by
    have inside : y.position < y.length y.active := by rw [ha, active, hp]; exact hl ▸ wraps
    exact ⟨inside.le, fun e => absurd e inside.ne, fun m => ha ▸ one (hm ▸ m)⟩
  rw [ChannelContext.afterByte_ring mode]
  split
  · exact ok_of_atRest rfl programmed (position _ rfl rfl rfl rfl) (fun _ => fill) fun m => absurd mode m
  · next goesOn =>
    refine ⟨programmed, position _ rfl rfl rfl rfl, ⟨fun _ => fill, fun m => absurd mode m,
      fun _ d e => Nat.pos_of_ne_zero fun empty => goesOn ⟨d, e, empty⟩, fun _ _ a => absurd a armed⟩, fun _ => ?_,
      segments⟩
    obtain ⟨alternating, -, device, -, single⟩ := owners rest
    have moving : x.stalled = false := (device (by rw [mode]; nofun)).2.2
    exact ⟨alternating, fun e => (by rw [moving] at e; cases e), device, fun e => absurd e armed, single⟩

/-- ALTERNATING: the position goes on, and the last byte hands the segment over or ends the run (R105, R106). -/
theorem Ok.afterByte_alternating {x : ChannelContext} (h : x.Ok) (run : x.running = true) (room : x.canMove = true)
    (mode : x.mode = .alternating) : x.afterByte.Ok := by
  have rest := not_atRest_of_running run
  have armed : x.state ≠ .armed := fun e => by simp [running, e] at run
  have moving : x.stalled = false := by simpa [canMove, mode] using room
  by_cases last : x.position + 1 = x.length x.active
  · obtain ⟨programmed, -, ⟨ring, other, -, -⟩, owners, segments⟩ := h
    obtain ⟨-, -, -, -, single⟩ := owners rest
    obtain ⟨-, seg⟩ := segments rest
    have lengths : 1 ≤ x.lengthA ∧ 1 ≤ x.lengthB := ⟨programmed.2.2.2.1.1, programmed.2.2.2.2.1.1⟩
    have start : ∀ g, 0 < x.length g := fun g => by cases g <;> [exact lengths.1; exact lengths.2]
    by_cases ends : x.state = .ending
    · rw [ChannelContext.afterByte_lastEnding mode last ends, setOwner_eq]
      refine ok_of_atRest rfl programmed ⟨Nat.zero_le _, fun e => ?_, fun m => absurd mode m⟩ ring other
      exact absurd e (start x.active).ne
    · rw [ChannelContext.afterByte_handOver mode last ends, setOwner_eq]
      refine ⟨programmed, ⟨Nat.zero_le _, fun e => absurd e (start x.active.other).ne, fun m => absurd mode m⟩,
        ⟨ring, other, fun m => (by rw [mode] at m; cases m), fun _ _ a => absurd a armed⟩,
        fun _ => ⟨fun _ => ?_, fun _ => ⟨rfl, ends⟩, fun m => absurd mode m, fun a => absurd a armed, single⟩,
        fun _ => ⟨fun m => absurd mode m, fun _ g hg own => seg mode g hg ?_⟩⟩
      · cases x.active <;> exact decide_eq_true_iff
      · cases g <;> cases active : x.active <;> simp_all [owner]
  · rw [ChannelContext.afterByte_within mode last]
    exact h.within rest armed moving (Nat.lt_of_le_of_ne (h.position_lt rest) last)

/-- A byte moved keeps the laws (R96 to R106). -/
theorem Ok.afterByte {x : ChannelContext} (h : x.Ok) (run : x.running = true) (room : x.canMove = true) :
    x.afterByte.Ok := by
  cases mode : x.mode with
  | single => exact h.afterByte_single run mode
  | ring => exact h.afterByte_ring run room mode
  | alternating => exact h.afterByte_alternating run room mode

/-! ### Entry to ACTIVE, and the ends of a run -/

/-- Entry to ACTIVE (R79, R80). -/
theorem Ok.activated {x : ChannelContext} (h : x.Ok) (armed : x.state = .armed) :
    ({ x with state := .active } : ChannelContext).Ok := by
  have rest : x.atRest = false := by simp [atRest, armed]
  obtain ⟨programmed, ⟨inside, full, one⟩, ⟨ring, other, -, -⟩, owners, segments⟩ := h
  obtain ⟨alternating, stalled, single, -, -⟩ := owners rest
  refine ⟨programmed, ⟨inside, fun e => ?_, one⟩, ⟨ring, other, nofun, nofun⟩,
    fun _ => ⟨alternating, fun e => ⟨(stalled e).1, nofun⟩, single, nofun, nofun⟩, fun _ => segments rest⟩
  simp [armed] at full
  exact absurd e full

/-- Every RING receive channel in ENDING goes to DONE (R86). -/
theorem Ok.afterFrameEnd {x : ChannelContext} (h : x.Ok) : x.afterFrameEnd.Ok := by
  unfold ChannelContext.afterFrameEnd
  split
  · exact h.done
  · exact h

/-- STOP (R83). -/
theorem Ok.stopped {x : ChannelContext} (h : x.Ok) : x.stopped.Ok := by
  obtain ⟨programmed, ⟨inside, full, one⟩, ⟨ring, other, -, -⟩, -, -⟩ := h
  have lengths : 1 ≤ x.length x.active := by
    cases x.active
    · exact programmed.2.2.2.1.1
    · exact programmed.2.2.2.2.1.1
  unfold ChannelContext.stopped
  by_cases done : x.state = .done
  · simp only [done, if_true]
    exact ok_of_atRest rfl programmed ⟨Nat.zero_le _, fun e => absurd e (Nat.ne_of_lt lengths), one⟩ ring other
  · simp only [done, if_false]
    exact ok_of_atRest rfl programmed ⟨inside, fun e => absurd (full e).1 done, one⟩ ring other

/-- A FINISH that waits for the channel's end (R86 to R88). -/
theorem Ok.ending {x : ChannelContext} (h : x.Ok) (active : x.state = .active) (mode : x.mode ≠ .single)
    (moving : x.mode = .alternating → x.stalled = false)
    (bytes : x.mode = .ring → x.direction = .transmit → 0 < x.fill) :
    ({ x with state := .ending } : ChannelContext).Ok := by
  have rest := not_atRest_of_active active
  obtain ⟨programmed, ⟨inside, full, one⟩, ⟨ring, other, -, -⟩, owners, segments⟩ := h
  obtain ⟨alternating, stalled, single, -, -⟩ := owners rest
  refine ⟨programmed, ⟨inside, fun e => ?_, one⟩, ⟨ring, other, fun m d _ => bytes m d, nofun⟩,
    fun _ => ⟨alternating, fun e => ⟨(stalled e).1, ?_⟩, single, nofun, fun m => absurd m mode⟩, fun _ => segments rest⟩
  · simp [active] at full
    exact absurd e full
  · by_cases m : x.mode = .alternating
    · simp [moving m] at e
    · simp [(single m).2.2] at e

/-- A stalled ALTERNATING channel that FINISH ends (R88). -/
theorem Ok.atStart {x : ChannelContext} (h : x.Ok) (rest : x.atRest = false) :
    ({ x with position := 0 } : ChannelContext).Ok := by
  have before := h.position_lt rest
  obtain ⟨programmed, ⟨inside, full, one⟩, fill, owners, segments⟩ := h
  refine ⟨programmed, ⟨Nat.zero_le _, fun e => ?_, one⟩, fill, fun n => ?_, segments⟩
  · have e : 0 = x.length x.active := e
    omega
  · obtain ⟨alternating, stalled, single, armed, other⟩ := owners n
    exact ⟨alternating, fun e => ⟨rfl, (stalled e).2⟩, single,
      fun e => ⟨(armed e).1, (armed e).2.1, (armed e).2.2.1, rfl⟩, other⟩

/-! ### START, GIVE and ADVANCE -/

/-- START, once its checks are passed (R77, R78). -/
theorem Ok.started {x : ChannelContext} (h : x.Ok) {amount : Nat} (fitsA : x.fits .segA = true)
    (fitsB : x.mode = .alternating → x.fits .segB = true)
    (enough : x.direction = .transmit → x.mode = .ring → amount ≤ x.lengthA) : (x.started amount).Ok := by
  obtain ⟨programmed, -, -, -, -⟩ := h
  have lengths : 1 ≤ x.lengthA := programmed.2.2.2.1.1
  unfold ChannelContext.started
  refine ⟨programmed, ⟨Nat.zero_le _, fun e => absurd e (Nat.ne_of_lt lengths), fun _ => rfl⟩, ⟨fun m => ?_, fun m => ?_, nofun,
    fun _ d _ => ?_⟩, fun _ => ⟨fun _ => ?_, nofun, fun _ => ⟨rfl, rfl, rfl⟩, fun _ => ⟨rfl, rfl, rfl, rfl⟩, nofun⟩,
    fun _ => ⟨fun _ => fitsA, fun m g _ _ => ?_⟩⟩
  · dsimp only
    split
    · next e => exact enough e.1 e.2
    · exact Nat.zero_le _
  · exact if_neg fun e => m e.2
  · exact if_neg fun e => by rw [d] at e; cases e.1
  · simp [owner]
  · cases g
    · exact fitsA
    · exact fitsB m

/-- GIVE, once its checks are passed (R109, R110). -/
theorem Ok.given {x : ChannelContext} (h : x.Ok) {g : Segment} (rest : x.atRest = false) (mode : x.mode = .alternating)
    (fits : x.fits g = true) : (x.given g).Ok := by
  obtain ⟨programmed, position, fill, owners, segments⟩ := h
  have owners := owners rest
  have segments := segments rest
  cases g <;> cases active : x.active <;>
    grind [ChannelContext.given, setOwner_eq, owner, length, atRest, ChannelContext.fits, base]

/-- ADVANCE, once its checks are passed (R112, R113). -/
theorem Ok.advanced {x : ChannelContext} (h : x.Ok) {n : Nat} (mode : x.mode = .ring) (fits : x.advanceFits n = true) :
    (x.advanced n).Ok := by
  obtain ⟨programmed, position, ⟨ring, other, ending, armed⟩, owners, segments⟩ := h
  have full := ring mode
  cases direction : x.direction with
  | receive =>
    simp only [ChannelContext.advanced, direction]
    refine ⟨programmed, position, ⟨fun _ => (Nat.sub_le _ _).trans full, fun m => absurd mode m, fun _ d => ?_,
      fun m _ a => ?_⟩, owners, segments⟩
    · cases d
    · show x.fill - n = 0
      rw [armed m direction a, Nat.zero_sub]
  | transmit =>
    simp only [ChannelContext.advanced, direction]
    refine ⟨programmed, position, ⟨fun _ => ?_, fun m => absurd mode m, fun m _ e => ?_, fun _ d => ?_⟩, owners, segments⟩
    · simpa [advanceFits, direction] using fits
    · exact Nat.lt_of_lt_of_le (ending m direction e) (Nat.le_add_right _ _)
    · cases d

/-! ### Resets of the running fields and writes of the programmed ones -/

theorem Ok.engineReset {x : ChannelContext} (h : x.Ok) : x.engineReset.Ok := by
  obtain ⟨programmed, -⟩ := h
  have lengths : 1 ≤ x.lengthA := programmed.2.2.2.1.1
  exact ok_of_atRest rfl programmed ⟨Nat.zero_le _, fun e => absurd e (Nat.ne_of_lt lengths), fun _ => rfl⟩
    (fun _ => Nat.zero_le _) fun _ => rfl

/-- A mode byte write or a segment A write of a channel at rest (R73, R75). -/
theorem Ok.replanned {x : ChannelContext} (h : x.Ok) (rest : x.atRest = true) (d : Direction) (m : Mode) (p : Bool)
    {base length : Nat} (hb : base < 8192) (hl : 1 ≤ length ∧ length ≤ 4096) :
    ({ x.replanned with direction := d, mode := m, poolMode := p, baseA := base, lengthA := length } : ChannelContext).Ok := by
  obtain ⟨⟨tag, -, baseB, -, lengthB, watermark⟩, -⟩ := h
  exact ok_of_atRest rest ⟨tag, hb, baseB, hl, lengthB, watermark⟩
    ⟨Nat.zero_le _, fun e => absurd e (Nat.ne_of_lt hl.1), fun _ => rfl⟩ (fun _ => Nat.zero_le _) fun _ => rfl

/-- A write of the tag (R73). -/
theorem Ok.withTag {x : ChannelContext} (h : x.Ok) {v : Byte} (hv : 1 ≤ v.toNat ∧ v.toNat ≤ 31) :
    ({ x with tag := v } : ChannelContext).Ok := by
  obtain ⟨⟨-, programmed⟩, laws⟩ := h
  exact ⟨⟨hv, programmed⟩, laws⟩

/-- A write of the watermark (R73). -/
theorem Ok.withWatermark {x : ChannelContext} (h : x.Ok) {n : Nat} (hn : n ≤ 4096) :
    ({ x with watermark := n } : ChannelContext).Ok := by
  obtain ⟨⟨tag, baseA, baseB, lengthA, lengthB, -⟩, laws⟩ := h
  exact ⟨⟨tag, baseA, baseB, lengthA, lengthB, hn⟩, laws⟩

/-- While a channel is not at rest, a segment that takes writes is the host's in ALTERNATING mode, and a stall holds the
channel at it if it is the active one (R74, R107). -/
theorem Ok.writable_running {x : ChannelContext} (h : x.Ok) {g : Segment} (rest : x.atRest = false)
    (writable : x.segmentWritable g = true) :
    x.mode = .alternating ∧ x.owner g = .host ∧ (x.active = g → x.stalled = true ∧ x.position = 0) := by
  obtain ⟨-, -, -, owners, -⟩ := h
  obtain ⟨alternating, stalled, -⟩ := owners rest
  simp only [segmentWritable, rest, Bool.false_or, Bool.and_eq_true, decide_eq_true_eq] at writable
  obtain ⟨mode, host⟩ := writable
  refine ⟨mode, host, fun e => ?_⟩
  have hold := (alternating mode).mpr (e ▸ host)
  exact ⟨hold, (stalled hold).1⟩

/-- A write of segment A of a channel that is not at rest (R74). -/
theorem Ok.withSegA {x : ChannelContext} (h : x.Ok) (rest : x.atRest = false) (writable : x.segmentWritable .segA = true)
    {base length : Nat} (hb : base < 8192) (hl : 1 ≤ length ∧ length ≤ 4096) :
    ({ x with baseA := base, lengthA := length } : ChannelContext).Ok := by
  obtain ⟨mode, host, held⟩ := h.writable_running rest writable
  have before := h.position_lt rest
  obtain ⟨⟨tag, -, baseB, -, lengthB, watermark⟩, ⟨inside, full, one⟩, ⟨ring, other, ending, armed⟩, owners, segments⟩ := h
  obtain ⟨-, seg⟩ := segments rest
  refine ⟨⟨tag, hb, baseB, hl, lengthB, watermark⟩, ?_,
    ⟨fun m => ?_, other, ending, armed⟩, owners, fun _ => ⟨fun m => absurd mode m, fun _ g hg own => ?_⟩⟩
  · cases active : x.active with
    | segA =>
      have start := (held active).2
      refine ⟨?_, fun e => ?_, fun m => absurd mode m⟩
      · show x.position ≤ _
        omega
      · have e : x.position = ChannelContext.length _ _ := e
        simp only [ChannelContext.length] at e
        omega
    | segB =>
      simp only [ChannelContext.length, active] at inside full ⊢
      exact ⟨inside, full, fun m => absurd mode m⟩
  · rw [mode] at m; cases m
  · cases g with
    | segA => rw [show x.owner .segA = .device from own] at host; cases host
    | segB => exact seg mode .segB hg own

/-- A write of segment B: of a channel at rest it begins the active segment anew if that is B (R75), and else it is a write
of the host's segment (R74). -/
theorem Ok.withSegB {x : ChannelContext} (h : x.Ok) (writable : x.segmentWritable .segB = true)
    {base length : Nat} (hb : base < 8192) (hl : 1 ≤ length ∧ length ≤ 4096) :
    ({ x.replannedB with baseB := base, lengthB := length } : ChannelContext).Ok := by
  cases rest : x.atRest with
  | true =>
    obtain ⟨⟨tag, baseA, -, lengthA, -, watermark⟩, ⟨inside, full, one⟩, ⟨ring, other, -, -⟩, -, -⟩ := h
    unfold ChannelContext.replannedB
    by_cases active : x.active = .segB
    · rw [if_pos ⟨rest, active⟩]
      refine ok_of_atRest rest ⟨tag, baseA, hb, lengthA, hl, watermark⟩ ⟨Nat.zero_le _, fun e => ?_, one⟩ ring other
      have e : 0 = ChannelContext.length _ _ := e
      simp only [ChannelContext.length, active] at e
      omega
    · have active : x.active = .segA := by cases e : x.active <;> simp_all
      rw [if_neg fun e => by rw [active] at e; cases e.2]
      simp only [ChannelContext.length, active] at inside full
      refine ok_of_atRest rest ⟨tag, baseA, hb, lengthA, hl, watermark⟩ ⟨?_, ?_, one⟩ ring other
      · simpa only [ChannelContext.length, active] using inside
      · simpa only [ChannelContext.length, active] using full
  | false =>
    obtain ⟨mode, host, held⟩ := h.writable_running rest writable
    rw [show x.replannedB = x from if_neg fun e => by rw [rest] at e; cases e.1]
    obtain ⟨⟨tag, baseA, -, lengthA, -, watermark⟩, ⟨inside, full, one⟩, ⟨ring, other, ending, armed⟩, owners, segments⟩ := h
    obtain ⟨-, seg⟩ := segments rest
    refine ⟨⟨tag, baseA, hb, lengthA, hl, watermark⟩, ?_,
      ⟨fun m => ?_, other, ending, armed⟩, owners, fun _ => ⟨fun m => absurd mode m, fun _ g hg own => ?_⟩⟩
    · cases active : x.active with
      | segB =>
        have start := (held active).2
        refine ⟨?_, fun e => ?_, fun m => absurd mode m⟩
        · show x.position ≤ _
          omega
        · have e : x.position = ChannelContext.length _ _ := e
          simp only [ChannelContext.length, active] at e
          omega
      | segA =>
        simp only [ChannelContext.length, active] at inside full ⊢
        exact ⟨inside, full, fun m => absurd mode m⟩
    · rw [mode] at m; cases m
    · cases g with
      | segB => rw [show x.owner .segB = .device from own] at host; cases host
      | segA => exact seg mode .segA hg own

end ChannelContext

end Sys2Proof.Machine
end

