-- ==== Sys2Proof/Proofs/ChannelLaws.lean ====
section
/-! SUPPORT. The laws of the channel side of a good state: every context's own, the rotation list (R120) and the granted
burst (R122), kept by each command. -/

namespace Sys2Proof.Machine

/-- The laws of the channel side. -/
structure State.ChannelLaws (s : State) : Prop where
  contexts : ∀ c, (s.channel c).Ok
  rotation : s.RotationLaw
  burst : s.BurstLaw

theorem State.Good.channelLaws {s : State} (h : s.Good) : s.ChannelLaws := ⟨h.channels, h.rotation, h.burst⟩

/-! ### What a change of a context means for the list and the burst -/

/-- A context that is not at rest after a change was not before it, has the same direction, pool mode and tag, and is not
armed anew: the channel claims no tag that it did not hold. -/
structure ChannelContext.ClaimsNoTag (x y : ChannelContext) : Prop where
  busy : y.atRest = false → x.atRest = false
  direction : y.atRest = false → y.direction = x.direction
  poolMode : y.atRest = false → y.poolMode = x.poolMode
  tag : y.atRest = false → y.tag = x.tag
  armed : y.state = .armed → x.state = .armed

theorem ChannelContext.claimsNoTag_refl (x : ChannelContext) : x.ClaimsNoTag x :=
  ⟨id, fun _ => rfl, fun _ => rfl, fun _ => rfl, id⟩

theorem ChannelContext.claimsNoTag_of_atRest (x : ChannelContext) {y : ChannelContext} (h : y.atRest = true) :
    x.ClaimsNoTag y := by
  have busy : ∀ {p : Prop}, y.atRest = false → p := fun n => by rw [h] at n; cases n
  exact ⟨busy, busy, busy, busy, fun e => by simp [ChannelContext.atRest, e] at h⟩

theorem ChannelContext.SamePlan.claimsNoTag {x y : ChannelContext} (h : x.SamePlan y)
    (busy : y.atRest = false → x.atRest = false) (armed : y.state = .armed → x.state = .armed) : x.ClaimsNoTag y :=
  ⟨busy, fun _ => h.direction, fun _ => h.poolMode, fun _ => h.tag, armed⟩

/-- A channel that answers demands after a change did so before it, in the same pool mode and with no more bytes available
then. -/
def ChannelContext.KeepsBytes (x y : ChannelContext) : Prop :=
  y.answersDemands = true → x.answersDemands = true ∧ y.poolMode = x.poolMode ∧ x.available ≤ y.available

theorem ChannelContext.keepsBytes_refl (x : ChannelContext) : x.KeepsBytes x := fun h => ⟨h, rfl, le_rfl⟩

theorem ChannelContext.keepsBytes_of_atRest (x : ChannelContext) {y : ChannelContext} (h : y.atRest = true) :
    x.KeepsBytes y := fun a => by
  rw [not_atRest_of_running (running_of_answersDemands a)] at h; cases h

theorem ChannelContext.keepsBytes_of_receive (x : ChannelContext) {y : ChannelContext} (h : y.direction = .receive) :
    x.KeepsBytes y := fun a => by simp [ChannelContext.answersDemands, h] at a

/-! ### Channels, list and burst together -/

/-- A state with the same contexts, list and burst. -/
theorem State.ChannelLaws.of_eq {s t : State} (h : s.ChannelLaws) (hc : t.channels = s.channels)
    (hl : t.pool.rotation = s.pool.rotation) (hb : t.pool.txBurst = s.pool.txBurst) : t.ChannelLaws := by
  have e : t.channel = s.channel := funext fun c => State.channel_congr hc c
  obtain ⟨contexts, rotation, burst⟩ := h
  refine ⟨fun c => e ▸ contexts c, ?_, ?_⟩
  · simpa only [State.RotationLaw, State.holdsTag, e, hl] using rotation
  · simpa only [State.BurstLaw, e, hb] using burst

/-- The list after contexts changed: it has lost members only, and every member it has runs. -/
theorem State.RotationLaw.of_claims {s t : State} (h : s.RotationLaw)
    (claims : ∀ c, (s.channel c).ClaimsNoTag (t.channel c)) (sub : t.pool.rotation.Sublist s.pool.rotation)
    (run : ∀ c ∈ t.pool.rotation, (t.channel c).running = true) : t.RotationLaw := by
  obtain ⟨nodup, members, tags⟩ := h
  have senders : ∀ c, (t.channel c).atRest = false → (t.channel c).poolSender → (s.channel c).poolSender :=
    fun c busy ⟨d, p⟩ => ⟨(claims c).direction busy ▸ d, (claims c).poolMode busy ▸ p⟩
  have held : ∀ c, t.holdsTag c → s.holdsTag c ∧ (t.channel c).tag = (s.channel c).tag := fun c hold => by
    rcases hold with mem | ⟨sender, armed⟩
    · exact ⟨.inl (sub.subset mem), (claims c).tag (ChannelContext.not_atRest_of_running (run c mem))⟩
    · have busy : (t.channel c).atRest = false := by simp [ChannelContext.atRest, armed]
      exact ⟨.inr ⟨senders c busy sender, (claims c).armed armed⟩, (claims c).tag busy⟩
  refine ⟨nodup.sublist sub, fun c mem => ⟨?_, run c mem⟩, fun c d hc hd e => ?_⟩
  · have busy := ChannelContext.not_atRest_of_running (run c mem)
    obtain ⟨⟨d, p⟩, -⟩ := members c (sub.subset mem)
    exact ⟨((claims c).direction busy).trans d, ((claims c).poolMode busy).trans p⟩
  · obtain ⟨hc, ec⟩ := held c hc
    obtain ⟨hd, ed⟩ := held d hd
    exact tags c d hc hd (ec.symm.trans (e.trans ed))

/-- The burst after contexts changed, if its own channel has as many bytes as before. -/
theorem State.BurstLaw.of_bytes {s t : State} (h : s.BurstLaw) (hb : t.pool.txBurst = s.pool.txBurst)
    (bytes : ∀ c ∈ s.pool.txBurst.granted, (s.channel c).KeepsBytes (t.channel c)) : t.BurstLaw := by
  obtain ⟨capacity, answered, available⟩ := h
  simp only [State.BurstLaw, hb]
  refine ⟨capacity, answered, fun c hc a => ?_⟩
  obtain ⟨before, mode, more⟩ := bytes c hc a
  obtain ⟨pool, left⟩ := available c hc before
  exact ⟨mode.trans pool, left.trans more⟩

/-- Contexts changed, and the list has lost members only. -/
theorem State.ChannelLaws.of_changes {s t : State} (h : s.ChannelLaws) (ok : ∀ c, (t.channel c).Ok)
    (claims : ∀ c, (s.channel c).ClaimsNoTag (t.channel c)) (sub : t.pool.rotation.Sublist s.pool.rotation)
    (run : ∀ c ∈ t.pool.rotation, (t.channel c).running = true) (hb : t.pool.txBurst = s.pool.txBurst)
    (bytes : ∀ c ∈ s.pool.txBurst.granted, (s.channel c).KeepsBytes (t.channel c)) : t.ChannelLaws :=
  ⟨ok, h.rotation.of_claims claims sub run, h.burst.of_bytes hb bytes⟩

/-- One context changed. It may leave the list, and must if it does not run any more. -/
theorem State.ChannelLaws.setChannel_of_burst {s t : State} (h : s.ChannelLaws) {c : Channel} {y : ChannelContext}
    (hc : t.channels = (s.setChannel c y).channels)
    (list : t.pool.rotation = s.pool.rotation ∧ ((s.channel c).running = true → y.running = true) ∨
      t.pool.rotation = s.pool.rotation.filter (· ≠ c))
    (ok : y.Ok) (claims : (s.channel c).ClaimsNoTag y) (burst : t.BurstLaw) : t.ChannelLaws := by
  have e : ∀ d, t.channel d = if d = c then y else s.channel d := fun d =>
    (State.channel_congr hc d).trans (s.channel_setChannel c d y)
  have running : ∀ d ∈ s.pool.rotation, (s.channel d).running = true := fun d mem => (h.rotation.2.1 d mem).2
  refine ⟨fun d => ?_, h.rotation.of_claims (fun d => ?_) ?_ fun d mem => ?_, burst⟩
  · rw [e]; split <;> [exact ok; exact h.contexts d]
  · rw [e]; split <;> [(next hd => exact hd ▸ claims); exact ChannelContext.claimsNoTag_refl _]
  · obtain ⟨l, -⟩ | l := list <;> rw [l]
    exact List.filter_sublist
  · rw [e]
    obtain ⟨l, keep⟩ | l := list <;> rw [l] at mem
    · split
      · next hd => exact keep (hd ▸ running d mem)
      · exact running d mem
    · obtain ⟨mem, ne⟩ := List.mem_filter.mp mem
      rw [if_neg (by simpa using ne)]
      exact running d mem

/-- One context changed, and the burst counts on no byte that it lost. -/
theorem State.ChannelLaws.setChannel {s t : State} (h : s.ChannelLaws) {c : Channel} {y : ChannelContext}
    (hc : t.channels = (s.setChannel c y).channels) (hb : t.pool.txBurst = s.pool.txBurst)
    (list : t.pool.rotation = s.pool.rotation ∧ ((s.channel c).running = true → y.running = true) ∨
      t.pool.rotation = s.pool.rotation.filter (· ≠ c))
    (ok : y.Ok) (claims : (s.channel c).ClaimsNoTag y)
    (bytes : c ∈ s.pool.txBurst.granted → (s.channel c).KeepsBytes y) : t.ChannelLaws := by
  refine h.setChannel_of_burst hc list ok claims (h.burst.of_bytes hb fun d hd => ?_)
  rw [State.channel_congr hc, State.channel_setChannel]
  split <;> [(next hc => exact hc ▸ bytes (hc ▸ hd)); exact ChannelContext.keepsBytes_refl _]

/-! ### Shortfalls and bytes -/

theorem State.ChannelLaws.shortfall {s : State} (h : s.ChannelLaws) (c : Channel) : (s.shortfall c).ChannelLaws := by
  rw [State.shortfall_eq]
  exact h.setChannel (c := c) rfl rfl (.inl ⟨rfl, id⟩) (h.contexts c).afterShortfall
    ((s.channel c).samePlan_afterShortfall.claimsNoTag id id) fun _ => (s.channel c).keepsBytes_refl

/-- A running channel that a byte was moved for runs on or is in DONE. -/
theorem ChannelContext.state_afterByte (x : ChannelContext) : x.afterByte.state = x.state ∨ x.afterByte.state = .done := by
  have owner : ∀ (g : Segment) (o : Owner), (x.setOwner g o).state = x.state := fun g o => by cases g <;> rfl
  unfold ChannelContext.afterByte
  split
  · dsimp only; split <;> simp
  · dsimp only; split <;> simp
  · split
    · split <;> simp [owner]
    · simp

theorem ChannelContext.claimsNoTag_afterByte {x : ChannelContext} (run : x.running = true) : x.ClaimsNoTag x.afterByte := by
  obtain e | e := x.state_afterByte
  · exact x.samePlan_afterByte.claimsNoTag (fun _ => not_atRest_of_running run) fun a => e ▸ a
  · exact x.claimsNoTag_of_atRest (atRest_of_done e)

/-- A byte moved keeps the contexts and the list good. -/
theorem State.ChannelLaws.withByte_of_burst {s : State} (h : s.ChannelLaws) {c : Channel}
    (run : (s.channel c).running = true) (room : (s.channel c).canMove = true) {posts : List Post}
    (burst : (s.withByte c (s.channel c).afterByte posts).BurstLaw) :
    (s.withByte c (s.channel c).afterByte posts).ChannelLaws := by
  refine h.setChannel_of_burst (c := c) rfl ?_ ((h.contexts c).afterByte run room)
    (ChannelContext.claimsNoTag_afterByte run) burst
  simp only [State.withByte, leftIfDone]
  obtain e | e := (s.channel c).state_afterByte
  · refine .inl ⟨if_neg fun done => ?_, fun _ => ?_⟩
    · rw [e] at done; rw [ChannelContext.running_iff, done] at run; simp at run
    · rw [ChannelContext.running_iff] at run ⊢; rwa [e]
  · exact .inr (if_pos e)

/-- A byte moved for a channel whose bytes no burst counts on. -/
theorem State.ChannelLaws.withByte {s : State} (h : s.ChannelLaws) {c : Channel} (run : (s.channel c).running = true)
    (room : (s.channel c).canMove = true) {posts : List Post}
    (bytes : c ∈ s.pool.txBurst.granted → (s.channel c).KeepsBytes (s.channel c).afterByte) :
    (s.withByte c (s.channel c).afterByte posts).ChannelLaws := by
  refine h.withByte_of_burst run room (h.burst.of_bytes rfl fun d hd => ?_)
  rw [show (s.withByte c (s.channel c).afterByte posts).channel d = (s.setChannel c (s.channel c).afterByte).channel d from rfl,
    State.channel_setChannel]
  split <;> [(next hc => exact hc ▸ bytes (hc ▸ hd)); exact ChannelContext.keepsBytes_refl _]

/-- A byte arrival leaves a good channel side: the channel receives, and a burst is granted to senders (R90, R122). -/
theorem State.ChannelLaws.byteArrival {s t : State} (h : s.ChannelLaws) {c : Channel} {b : Byte}
    (ht : s.byteArrival c b = .next t) : t.ChannelLaws := by
  rw [State.byteArrival_eq] at ht
  split at ht
  · cases ht; exact h
  · next takes =>
    have takes : (s.channel c).takesArrivals = true := by simpa using takes
    split at ht
    · cases ht; rw [← State.shortfall_eq]; exact h.shortfall c
    · next room =>
      split at ht <;> cases ht
      have receive : (s.channel c).afterByte.direction = .receive := by
        rw [(s.channel c).samePlan_afterByte.direction]
        simp only [ChannelContext.takesArrivals, Bool.and_eq_true, decide_eq_true_eq] at takes
        exact takes.1
      exact (h.withByte (ChannelContext.running_of_takesArrivals takes) (by simpa using room)
        (posts := s.bytePosts c) fun _ => (s.channel c).keepsBytes_of_receive receive).of_eq rfl rfl rfl

/-- A CHANNEL slot's demand leaves a good channel side: the channel is not in pool mode, so no burst counts on its bytes. -/
theorem State.ChannelLaws.byteDemand {s : State} (h : s.ChannelLaws) {c : Channel} {a : State × Byte}
    (ha : s.byteDemand c false = .next a) : a.1.ChannelLaws := by
  rw [State.byteDemand_eq] at ha
  split at ha
  · cases ha; exact h
  · next answers =>
    obtain ⟨answers, plain⟩ := not_or.mp answers
    have answers : (s.channel c).answersDemands = true := by simpa using answers
    have plain : (s.channel c).poolMode = false := by simpa using plain
    split at ha
    · cases ha; rw [← State.shortfall_eq]; exact h.shortfall c
    · next room =>
      split at ha <;> cases ha
      refine h.withByte (ChannelContext.running_of_answersDemands answers) (by simpa using room) fun granted => ?_
      have pool := (h.burst.2.2 c granted answers).1
      rw [plain] at pool; cases pool

/-! ### Data slots of a burst (R123, R124) -/

theorem ChannelContext.canMove_of_available {x : ChannelContext} (send : x.direction = .transmit)
    (h : 0 < x.available) : x.canMove = true := by
  cases mode : x.mode with
  | single => simp [canMove, mode]
  | ring => simpa [canMove, available, mode, send] using h
  | alternating => cases stalled : x.stalled <;> simp_all [canMove, available]

/-- A byte sent takes one of the bytes available, unless the channel does not answer demands any more. -/
theorem ChannelContext.available_afterByte {x : ChannelContext} (send : x.direction = .transmit) (h : 0 < x.available) :
    x.available ≤ x.afterByte.available + 1 := by
  cases mode : x.mode with
  | single =>
    rw [afterByte_single mode]
    simp only [available, mode] at h ⊢
    omega
  | ring =>
    rw [afterByte_ring mode]
    simp only [available, mode, fillAfterByte, send] at h ⊢
    omega
  | alternating =>
    have moving : x.stalled = false := by cases e : x.stalled <;> simp_all [available]
    have left : x.available = x.length x.active - x.position := by simp [available, mode, moving]
    by_cases last : x.position + 1 = x.length x.active
    · omega
    · have after : x.afterByte.available = x.length x.active - (x.position + 1) := by
        rw [afterByte_within mode last]
        simp only [available, mode, moving]
        rfl
      omega

/-- A data slot of a burst: the channel is sent a demand, and a running one has a byte for it (section 7.4). -/
theorem State.ChannelLaws.answerDataSlot {s : State} (h : s.ChannelLaws) {a : State × Byte}
    (ha : s.answerDataSlot = .next a) : a.1.ChannelLaws := by
  unfold State.answerDataSlot at ha
  split at ha
  · cases ha; exact h
  · next c granted =>
    split at ha
    · next more =>
      generalize hu : ({ s with pool := { s.pool with txBurst :=
        { s.pool.txBurst with answered := s.pool.txBurst.answered + 1 } } } : State) = u at ha
      have channel : u.channel = s.channel := by rw [← hu]; rfl
      have burst : u.pool.txBurst = { s.pool.txBurst with answered := s.pool.txBurst.answered + 1 } := by rw [← hu]
      obtain ⟨contexts, rotation, capacity, -, available⟩ := h
      have laws : u.ChannelLaws := by
        subst hu
        refine ⟨contexts, rotation, capacity, more, fun d hd answers => ?_⟩
        obtain ⟨pool, left⟩ := available d hd answers
        exact ⟨pool, (Nat.sub_le_sub_left (Nat.le_succ _) _).trans left⟩
      rw [State.byteDemand_eq] at ha
      split at ha
      · cases ha; exact laws
      · next answers =>
        have answers : (u.channel c).answersDemands = true := by simpa using answers
        split at ha
        · cases ha; rw [← State.shortfall_eq]; exact laws.shortfall c
        · next room =>
          split at ha <;> cases ha
          have send : (u.channel c).direction = .transmit := by
            simp only [ChannelContext.answersDemands, Bool.and_eq_true, decide_eq_true_eq] at answers
            exact answers.1
          obtain ⟨pool, left⟩ := available c granted (channel ▸ answers)
          rw [← channel] at pool left
          refine laws.withByte_of_burst (ChannelContext.running_of_answersDemands answers) (by simpa using room)
            ⟨laws.burst.1, laws.burst.2.1, fun d hd _ => ?_⟩
          obtain rfl : c = d := by
            have hd : d ∈ u.pool.txBurst.granted := hd
            rw [burst] at hd
            exact Option.some.inj (granted.symm.trans hd)
          have after : (u.withByte c (u.channel c).afterByte (u.bytePosts c)).channel c = (u.channel c).afterByte :=
            u.channel_setChannel_self c _
          have count : (u.withByte c (u.channel c).afterByte (u.bytePosts c)).pool.txBurst = u.pool.txBurst := rfl
          rw [after, count, burst, (u.channel c).samePlan_afterByte.poolMode]
          have one := ChannelContext.available_afterByte send (by omega)
          exact ⟨pool, by show s.pool.txBurst.length - (s.pool.txBurst.answered + 1) ≤ _; omega⟩
    · cases ha; exact h

end Sys2Proof.Machine
end

