-- ==== Sys2Proof/Proofs/SoundCommands.lean ====
section
/-! SUPPORT. The laws of a good state that concern the trunk side and the channels, kept by every host access and every
command code: the link side is the transmitter, the aligner, the monitor, the pending switches and the parser. -/

namespace Sys2Proof.Machine

theorem lengthInRange_iff {n : Nat} : lengthInRange n = true ↔ 1 ≤ n ∧ n ≤ 4096 := by simp [lengthInRange]

/-- The counters and the threshold have no range of their own. -/
theorem LineMonitor.Ok.counted {m : LineMonitor} {receiving : Bool} (h : m.Ok receiving) (e t : Half) (l f d : Byte) :
    ({ m with markerErrors := e, alignmentLosses := l, formatErrors := f, poolDiscards := d
              threshold := t } : LineMonitor).Ok receiving := by
  obtain ⟨zeroRun, position, zeros, low, full, window, off⟩ := h
  refine ⟨zeroRun, position, zeros, low, full, window, fun n => ?_⟩
  have idle := off n
  rw [idle]
  rfl

/-- The laws of the link side. -/
structure State.LinkLaws (s : State) : Prop where
  transmitter : s.transmitter.Ok
  aligner : s.aligner.Ok s.transmitter.frameLength
  monitor : s.monitor.Ok s.aligner.receiving
  pending : s.PendingLaw
  parser : s.ParserLaw

/-- The laws of the link side and of the channel side. -/
structure State.Sound (s : State) : Prop where
  link : s.LinkLaws
  side : s.ChannelLaws

theorem State.Good.sound {s : State} (h : s.Good) : s.Sound :=
  ⟨⟨h.transmitter, h.aligner, h.monitor, h.pending, h.parser⟩, h.channelLaws⟩

@[simp] theorem SlotMaps.setBank_rxPending (m : SlotMaps) (b : Bank) (x : BankMaps) :
    (m.setBank b x).rxPending = m.rxPending := by cases b <;> rfl

@[simp] theorem SlotMaps.setBank_txPending (m : SlotMaps) (b : Bank) (x : BankMaps) :
    (m.setBank b x).txPending = m.txPending := by cases b <;> rfl

namespace State

variable {s t : State}

/-! ### Blocks that the laws do not speak of -/

theorem LinkLaws.of_eq (h : s.LinkLaws) (ht : t.transmitter = s.transmitter) (ha : t.aligner = s.aligner)
    (hm : t.monitor = s.monitor) (hrx : t.maps.rxPending = s.maps.rxPending) (htx : t.maps.txPending = s.maps.txPending)
    (hp : t.pool.rxBurst = s.pool.rxBurst) : t.LinkLaws := by
  obtain ⟨transmitter, aligner, monitor, pending, parser⟩ := h
  refine ⟨ht ▸ transmitter, ?_, ?_, ?_, ?_⟩
  · rw [ht, ha]; exact aligner
  · rw [hm, ha]; exact monitor
  · simpa only [PendingLaw, hrx, htx, ha, ht] using pending
  · simpa only [ParserLaw, hp, ha] using parser

/-- The port, the memory, the queue, the commands waiting and the model's own counters carry no law of either side. -/
theorem Sound.unseen (h : s.Sound) (port : HostPort) (memory : Memory) (n : Notifications) (pending : List Instr)
    (draws powerOns : Nat) :
    ({ s with port := port, memory := memory, notifications := n, pending := pending, draws := draws
              powerOns := powerOns } : State).Sound :=
  ⟨h.link.of_eq rfl rfl rfl rfl rfl rfl, h.side.of_eq rfl rfl rfl⟩

/-- The monitor's counters and conditions, in their ranges. -/
theorem Sound.setMonitor (h : s.Sound) {m : LineMonitor} (ok : m.Ok s.aligner.receiving) :
    ({ s with monitor := m } : State).Sound :=
  ⟨⟨h.link.transmitter, h.link.aligner, ok, h.link.pending, h.link.parser⟩, h.side.of_eq rfl rfl rfl⟩

theorem Sound.post (h : s.Sound) (p : Post) : (s.post p).Sound := h.unseen ..

theorem Sound.refuseWrite (h : s.Sound) : s.refuseWrite.Sound := h.unseen ..

theorem Sound.emptyWriteHolder (h : s.Sound) : s.emptyWriteHolder.Sound := h.unseen ..

theorem Sound.postInAnyOrder (h : s.Sound) (posts : List Post) : (s.postInAnyOrder posts).Sound := by
  obtain ⟨order, draws, -, e⟩ := s.postInAnyOrder_cases posts
  rw [e]
  exact h.unseen ..

/-! ### The gates -/

theorem Sound.hostWrite (h : s.Sound) {page : Fin 6} {act : State → State} (ht : (act s).Sound) :
    (s.hostWrite page act).Sound := by
  obtain e | ⟨-, -, e⟩ := s.hostWrite_cases page act <;> rw [e]
  · exact h
  · exact ht

theorem Sound.hostRead (h : s.Sound) {page : Fin 6} {act : State → State} (ht : (act s).Sound) :
    (s.hostRead page act).Sound := by
  obtain e | e | ⟨-, -, e⟩ := s.hostRead_cases page act <;> rw [e]
  · exact h.unseen ..
  · exact h
  · exact ht

theorem Sound.command (h : s.Sound) {act : State → State × ResultCode} (ht : (act s).1.Sound) : (s.command act).Sound := by
  obtain e | ⟨-, e⟩ | ⟨-, e⟩ := s.command_cases act <;> rw [e]
  · exact h
  · exact h.unseen ..
  · exact ht.unseen ..

theorem Sound.onChannel (h : s.Sound) {act : Channel → State × ResultCode} (ht : ∀ c, (act c).1.Sound) :
    (s.onChannel act).1.Sound := by
  unfold State.onChannel
  split
  · exact ht _
  · exact h

/-! ### One context changed by the host -/

/-- A change of one context that keeps the list and claims no tag. -/
theorem Sound.setChannel (h : s.Sound) {c : Channel} {y : ChannelContext} (ok : y.Ok)
    (run : (s.channel c).running = true → y.running = true) (claims : (s.channel c).ClaimsNoTag y)
    (bytes : (s.channel c).KeepsBytes y) : (s.setChannel c y).Sound :=
  ⟨h.link.of_eq rfl rfl rfl rfl rfl rfl, h.side.setChannel rfl rfl (.inl ⟨rfl, run⟩) ok claims fun _ => bytes⟩

/-- A change of a context that was at rest and stays so. -/
theorem Sound.setChannel_resting (h : s.Sound) {c : Channel} {y : ChannelContext} (before : (s.channel c).atRest = true)
    (ok : y.Ok) (rest : y.atRest = true) : (s.setChannel c y).Sound :=
  h.setChannel ok (fun run => (by rw [ChannelContext.not_atRest_of_running run] at before; cases before))
    (ChannelContext.claimsNoTag_of_atRest _ rest) (ChannelContext.keepsBytes_of_atRest _ rest)

/-- A channel comes to rest and leaves the list. -/
theorem Sound.toRest (h : s.Sound) {c : Channel} {y : ChannelContext} (ok : y.Ok) (rest : y.atRest = true)
    (link : t.LinkLaws) (hc : t.channels = (s.setChannel c y).channels) (hb : t.pool.txBurst = s.pool.txBurst)
    (hl : t.pool.rotation = s.pool.rotation.filter (· ≠ c)) : t.Sound :=
  ⟨link, h.side.setChannel hc hb (.inr hl) ok (ChannelContext.claimsNoTag_of_atRest _ rest)
    fun _ => ChannelContext.keepsBytes_of_atRest _ rest⟩

theorem Sound.enterDone (h : s.Sound) (c : Channel) (d : Detail) : (s.enterDone c d).Sound :=
  h.toRest (h.side.contexts c).done rfl (h.link.of_eq rfl rfl rfl rfl rfl rfl) rfl rfl rfl

/-! ### START -/

theorem tagInUse_eq_false_iff (s : State) (c : Channel) :
    s.tagInUse c = false ↔
      ∀ d, d ≠ c → (s.channel d).tag = (s.channel c).tag → ¬s.holdsTag d := by
  simp only [tagInUse, List.any_eq_false, List.mem_finRange, true_imp_iff, Bool.and_eq_true, Bool.or_eq_true,
    decide_eq_true_eq, List.contains_iff_mem, holdsTag, ChannelContext.poolSender]
  exact forall_congr' fun d => by tauto

/-- A channel that arms itself under a tag nobody else holds keeps the law of the list (R77, check 5). -/
theorem RotationLaw.arm (h : s.RotationLaw) {c : Channel} {y : ChannelContext} (rest : (s.channel c).atRest = true)
    (free : y.poolSender → ∀ d, d ≠ c → (s.channel d).tag = y.tag → ¬s.holdsTag d) : (s.setChannel c y).RotationLaw := by
  obtain ⟨nodup, members, tags⟩ := h
  have off : c ∉ s.pool.rotation := fun mem => by
    rw [ChannelContext.not_atRest_of_running (members c mem).2] at rest; cases rest
  have held : ∀ d, (s.setChannel c y).holdsTag d → if d = c then y.poolSender else s.holdsTag d := fun d hold => by
    split
    · next e =>
      subst e
      rcases hold with mem | ⟨sender, -⟩
      · exact absurd mem off
      · simpa using sender
    · next e => simpa only [holdsTag, s.channel_setChannel_ne e, setChannel_pool] using hold
  refine ⟨nodup, fun d mem => ?_, fun d e hd he same => ?_⟩
  · have ne : d ≠ c := fun e => off (e ▸ mem)
    rw [s.channel_setChannel_ne ne]
    exact members d mem
  · have hd := held d hd
    have he := held e he
    by_cases dc : d = c <;> by_cases ec : e = c <;>
      simp only [dc, ec, if_true, if_false, channel_setChannel_self, channel_setChannel_ne, ne_eq, not_false_eq_true]
        at hd he same ⊢
    · exact absurd he (free hd e ec same.symm)
    · exact absurd hd (free he d dc same)
    · exact tags d e hd he same

theorem Sound.start (h : s.Sound) {c : Channel} (hc : s.startCheck c = .ok) :
    (s.setChannel c ((s.channel c).started s.port.amount)).Sound := by
  obtain ⟨rest, fits, free, enough⟩ : (s.channel c).atRest = true ∧
      ((s.channel c).fits .segA = true ∧ ((s.channel c).mode = .alternating → (s.channel c).fits .segB = true)) ∧
      ((s.channel c).poolSender → s.tagInUse c = false) ∧
      ((s.channel c).direction = .transmit → (s.channel c).mode = .ring → s.port.amount ≤ (s.channel c).lengthA) := by
    revert hc
    unfold startCheck
    dsimp only
    split_ifs with rest fits tag amount <;> intro hc <;> try cases hc
    simp only [Bool.not_eq_true', Bool.not_eq_false, Bool.or_eq_true, Bool.and_eq_true, decide_eq_true_eq, not_or, not_and,
      Bool.not_eq_true, not_lt] at rest fits tag amount
    exact ⟨rest, fits, tag, fun d m => amount ⟨d, m⟩⟩
  have ok := (h.side.contexts c).started fits.1 fits.2 enough
  refine ⟨h.link.of_eq rfl rfl rfl rfl rfl rfl, fun d => ?_, h.side.rotation.arm rest fun sender => ?_,
    h.side.burst.of_bytes rfl fun d _ => ?_⟩
  · rw [channel_setChannel]
    split
    · exact ok
    · exact h.side.contexts d
  · exact (tagInUse_eq_false_iff s c).mp (free sender)
  · rw [channel_setChannel]
    split
    · intro answers
      simp [ChannelContext.answersDemands, ChannelContext.running, ChannelContext.started] at answers
    · exact ChannelContext.keepsBytes_refl _

/-! ### STOP and FINISH -/

theorem Sound.stop (h : s.Sound) (c : Channel) : ((s.setChannel c (s.channel c).stopped).leaveRotation c).Sound :=
  h.toRest (h.side.contexts c).stopped rfl (h.link.of_eq rfl rfl rfl rfl rfl rfl) rfl rfl rfl

theorem Sound.finish (h : s.Sound) {c : Channel} (active : (s.channel c).state = .active)
    (mode : (s.channel c).mode ≠ .single) : (s.finish c).Sound := by
  have ok := h.side.contexts c
  have rest := ChannelContext.not_atRest_of_active active
  have ending : ((s.channel c).mode = .alternating → (s.channel c).stalled = false) →
      ((s.channel c).mode = .ring → (s.channel c).direction = .transmit → 0 < (s.channel c).fill) →
      (s.setChannel c { s.channel c with state := .ending }).Sound := fun moving bytes =>
    h.setChannel (ok.ending active mode moving bytes) (fun _ => rfl)
      ((ChannelContext.samePlan_running ..).claimsNoTag (fun _ => rest) nofun) fun answers => by
        simp only [ChannelContext.answersDemands, Bool.and_eq_true] at answers
        exact ⟨by simpa [ChannelContext.answersDemands, ChannelContext.running, active] using answers.1, rfl, le_rfl⟩
  unfold State.finish
  dsimp only
  split
  · next m =>
    split
    · rw [s.enterDone_setChannel c { s.channel c with position := 0 } .finished rfl]
      exact h.toRest (ok.atStart rest).done rfl (h.link.of_eq rfl rfl rfl rfl rfl rfl) rfl rfl rfl
    · next moving => exact ending (fun _ => by simpa using moving) fun r => by rw [m] at r; cases r
  · next m d =>
    split
    · exact ending (fun a => by rw [m] at a; cases a) fun _ t => by rw [d] at t; cases t
    · exact h.enterDone c _
  · next m d =>
    split
    · exact h.enterDone c _
    · next bytes => exact ending (fun a => by rw [m] at a; cases a) fun _ _ => Nat.pos_of_ne_zero bytes
  · next m => exact absurd m mode

end State

/-! ### GIVE, ADVANCE and the segment writes at a channel that is not at rest -/

namespace ChannelContext

variable {x y : ChannelContext}

/-- A change that leaves the state, the direction, the pool mode and no fewer bytes. -/
theorem keepsBytes_of_available (hs : y.state = x.state) (hd : y.direction = x.direction) (hp : y.poolMode = x.poolMode)
    (more : x.available ≤ y.available) : x.KeepsBytes y := fun answers =>
  ⟨by simpa only [answersDemands, running, hs, hd] using answers, hp, more⟩

/-- GIVE leaves the bytes of the active segment, and makes them available if it was the host's (R110). -/
theorem keepsBytes_given (x : ChannelContext) (g : Segment) : x.KeepsBytes (x.given g) := by
  have same : x.given g = { x with
      ownerA := (x.given g).ownerA, ownerB := (x.given g).ownerB, stalled := x.stalled && x.active ≠ g } := by
    cases g <;> rfl
  rw [same]
  refine keepsBytes_of_available rfl rfl rfl ?_
  cases mode : x.mode with
  | single => simp only [available, mode, le_refl]
  | ring => simp only [available, mode, le_refl]
  | alternating =>
    cases stalled : x.stalled with
    | true => simp only [available, mode, stalled, if_true, Nat.zero_le]
    | false => simp only [available, mode, stalled, Bool.false_and]; exact le_rfl

/-- ADVANCE gives a transmit channel more bytes (R113). -/
theorem keepsBytes_advanced (mode : x.mode = .ring) (n : Nat) : x.KeepsBytes (x.advanced n) := by
  cases direction : x.direction with
  | receive =>
    refine x.keepsBytes_of_receive ?_
    simp only [advanced, direction]
  | transmit =>
    simp only [advanced, direction]
    exact keepsBytes_of_available rfl direction.symm rfl (by simp only [available, mode]; exact Nat.le_add_right _ _)

/-- A write of the host's segment leaves the bytes available: there are none while it is the active one (R74, R107). -/
theorem keepsBytes_of_writable (ok : x.Ok) {g : Segment} (rest : x.atRest = false) (writable : x.segmentWritable g = true)
    (plan : y.state = x.state ∧ y.direction = x.direction ∧ y.poolMode = x.poolMode ∧ y.mode = x.mode ∧
      y.stalled = x.stalled ∧ y.active = x.active ∧ y.position = x.position)
    (other : ∀ d, d ≠ g → y.length d = x.length d) : x.KeepsBytes y := by
  obtain ⟨hs, hd, hp, hm, hst, ha, hpos⟩ := plan
  obtain ⟨mode, -, held⟩ := ok.writable_running rest writable
  refine keepsBytes_of_available hs hd hp ?_
  simp only [available, hm, mode, hst, ha, hpos]
  by_cases e : x.active = g
  · simp only [(held e).1, if_true, le_refl]
  · rw [other _ e]

end ChannelContext

namespace State

variable {s t : State}

theorem Sound.give (h : s.Sound) {c : Channel} {g : Segment} (rest : (s.channel c).atRest = false)
    (mode : (s.channel c).mode = .alternating) (fits : (s.channel c).fits g = true) :
    (s.setChannel c ((s.channel c).given g)).Sound := by
  have state : ((s.channel c).given g).state = (s.channel c).state := by cases g <;> rfl
  refine h.setChannel ((h.side.contexts c).given rest mode fits) (fun run => ?_)
    ((((s.channel c).samePlan_setOwner _ _).trans (ChannelContext.samePlan_running ..)).claimsNoTag (fun _ => rest)
      fun armed => state ▸ armed)
    ((s.channel c).keepsBytes_given g)
  rw [ChannelContext.running_iff] at run ⊢
  rwa [state]

theorem Sound.advance (h : s.Sound) {c : Channel} {n : Nat} (mode : (s.channel c).mode = .ring)
    (fits : (s.channel c).advanceFits n = true) : (s.setChannel c ((s.channel c).advanced n)).Sound := by
  have state : ((s.channel c).advanced n).state = (s.channel c).state := by
    unfold ChannelContext.advanced; split <;> rfl
  have plan : (s.channel c).SamePlan ((s.channel c).advanced n) := by
    unfold ChannelContext.advanced; split <;> exact ChannelContext.samePlan_running ..
  refine h.setChannel ((h.side.contexts c).advanced mode fits) (fun run => ?_)
    (plan.claimsNoTag (fun busy => ?_) fun armed => state ▸ armed) (ChannelContext.keepsBytes_advanced mode n)
  · rw [ChannelContext.running_iff] at run ⊢
    rwa [state]
  · rwa [ChannelContext.atRest, state] at busy

/-! ### Writes of the programmed fields -/

theorem Sound.setSelected_resting (h : s.Sound) {y : ChannelContext} (before : s.selected.atRest = true) (ok : y.Ok)
    (rest : y.atRest = true) : (s.setSelected y).Sound := h.setChannel_resting before ok rest

/-- A write of the selected channel's segment, at rest or not (R73 to R75). -/
theorem Sound.writeSegment (h : s.Sound) {g : Segment} {y : ChannelContext} (writable : s.selected.segmentWritable g = true)
    (ok : y.Ok) (state : y.state = s.selected.state)
    (plan : y.direction = s.selected.direction ∧ y.mode = s.selected.mode ∧ y.poolMode = s.selected.poolMode ∧
      y.tag = s.selected.tag)
    (busy : s.selected.atRest = false → y.stalled = s.selected.stalled ∧ y.active = s.selected.active ∧
      y.position = s.selected.position ∧ ∀ d, d ≠ g → y.length d = s.selected.length d) : (s.setSelected y).Sound := by
  have same : y.atRest = s.selected.atRest := by rw [ChannelContext.atRest, state]; rfl
  cases rest : s.selected.atRest with
  | true => exact h.setSelected_resting rest ok (same.trans rest)
  | false =>
    obtain ⟨direction, mode, pool, tag⟩ := plan
    obtain ⟨stalled, active, position, other⟩ := busy rest
    refine h.setChannel ok (fun run => ?_)
      ⟨fun _ => rest, fun _ => direction, fun _ => pool, fun _ => tag, fun armed => state ▸ armed⟩
      (ChannelContext.keepsBytes_of_writable (h.side.contexts _) rest writable
        ⟨state, direction, pool, mode, stalled, active, position⟩ other)
    rw [ChannelContext.running_iff] at run ⊢
    rwa [state]

/-- A write of segment B of the selected channel (R73 to R75). -/
theorem Sound.writeSegmentB (h : s.Sound) (writable : s.selected.segmentWritable .segB = true) {b l : Nat}
    (ok : ({ s.selected.replannedB with baseB := b, lengthB := l } : ChannelContext).Ok) :
    (s.setSelected { s.selected.replannedB with baseB := b, lengthB := l }).Sound := by
  obtain ⟨direction, mode, pool, tag, other⟩ := s.selected.replannedB_other b l
  refine h.writeSegment writable ok ?_ ⟨direction, mode, pool, tag⟩ fun rest => ?_
  · unfold ChannelContext.replannedB
    split <;> rfl
  · have same : s.selected.replannedB = s.selected := if_neg fun e => by rw [rest] at e; cases e.1
    exact ⟨by rw [same], by rw [same], by rw [same], fun d hd => (other d hd).2⟩

theorem commit13_lt (s : State) (i : WideItem) (v : Byte) : (s.commit13 i v).toNat < 8192 := (s.commit13 i v).isLt

/-- A commit that its owner's checks let through (R152; R48, R73, R74, R154). -/
theorem Sound.commitItem (h : s.Sound) {i : WideItem} {v : Byte} (ht : s.commitItem i v = some t) : t.Sound := by
  have ok : s.selected.Ok := h.side.contexts _
  obtain ⟨-, baseA, baseB, lengthA, lengthB, -⟩ := ok.1
  have inside := s.commit13_lt i v
  cases i <;> simp only [State.commitItem, reduceCtorEq, Option.ite_none_right_eq_some, Option.some.injEq,
    Bool.and_eq_true] at ht
  case markerThreshold =>
    subst ht
    exact h.setMonitor (h.link.monitor.counted ..)
  case segABase =>
    obtain ⟨writable, rfl⟩ := ht
    unfold ChannelContext.withBaseA
    split
    · next rest => exact h.setSelected_resting rest (ok.replanned rest _ _ _ inside lengthA) rest
    · next rest =>
      have rest : s.selected.atRest = false := by simpa using rest
      exact h.writeSegment writable (ok.withSegA rest writable inside lengthA) rfl ⟨rfl, rfl, rfl, rfl⟩
        fun _ => ⟨rfl, rfl, rfl, fun d _ => by cases d <;> rfl⟩
  case segALength =>
    obtain ⟨⟨writable, range⟩, rfl⟩ := ht
    have range := lengthInRange_iff.mp range
    unfold ChannelContext.withLengthA
    split
    · next rest => exact h.setSelected_resting rest (ok.replanned rest _ _ _ baseA range) rest
    · next rest =>
      have rest : s.selected.atRest = false := by simpa using rest
      exact h.writeSegment writable (ok.withSegA rest writable baseA range) rfl ⟨rfl, rfl, rfl, rfl⟩
        fun _ => ⟨rfl, rfl, rfl, fun d hd => by cases d <;> [exact absurd rfl hd; rfl]⟩
  case segBBase =>
    obtain ⟨writable, rfl⟩ := ht
    have length : s.selected.replannedB.lengthB = s.selected.lengthB := s.selected.samePlan_replannedB.lengthB
    exact h.writeSegmentB writable (ok.withSegB writable inside (length ▸ lengthB))
  case segBLength =>
    obtain ⟨⟨writable, range⟩, rfl⟩ := ht
    have range := lengthInRange_iff.mp range
    have base : s.selected.replannedB.baseB = s.selected.baseB := s.selected.samePlan_replannedB.baseB
    exact h.writeSegmentB writable (ok.withSegB writable (base ▸ baseB) range)
  case watermark =>
    obtain ⟨range, rfl⟩ := ht
    exact h.setChannel (ok.withWatermark range) id ⟨id, fun _ => rfl, fun _ => rfl, fun _ => rfl, id⟩
      (ChannelContext.keepsBytes_of_available rfl rfl rfl le_rfl)
  case bufferAddress =>
    subst ht
    exact h.unseen ..

/-! ### The host's accesses and commands -/

theorem Sound.setTransmitter (h : s.Sound) {x : Transmitter} (ok : x.Ok) (length : x.frameLength = s.transmitter.frameLength)
    (keep : x.state = .stopped → s.transmitter.state = .stopped) : ({ s with transmitter := x } : State).Sound :=
  ⟨⟨ok, by show s.aligner.Ok x.frameLength; rw [length]; exact h.link.aligner, h.link.monitor,
    ⟨h.link.pending.1, fun e => mt keep (h.link.pending.2 e)⟩, h.link.parser⟩, h.side.of_eq rfl rfl rfl⟩

theorem Sound.writePlain (h : s.Sound) (l : Nat) (v : Byte) : (s.writePlain l v).Sound := by
  obtain e | ⟨x, e, rfl | rfl⟩ | ⟨_, _, _, _, _, _, _, e⟩ := s.writePlain_cases l v <;> rw [e]
  · exact h.refuseWrite
  · exact h.setTransmitter h.link.transmitter rfl id
  · exact h.setTransmitter h.link.transmitter rfl id
  · exact h.unseen ..

/-- An edited bank. -/
theorem Sound.setSelectedBank (h : s.Sound) (x : BankMaps) : (s.setSelectedBank x).Sound :=
  ⟨h.link.of_eq rfl rfl rfl (s.maps.setBank_rxPending _ x) (s.maps.setBank_txPending _ x) rfl, h.side.of_eq rfl rfl rfl⟩

/-- The aligner and the monitor in their ranges; receive stays enabled or disabled, and a leaving of ALIGNED is not among
the changes. -/
theorem Sound.setReceive (h : s.Sound) {a : Aligner} {m : LineMonitor} (oka : a.Ok s.transmitter.frameLength)
    (okm : m.Ok a.receiving) (keep : s.aligner.state = .aligned → a.state = .aligned) :
    ({ s with aligner := a, monitor := m } : State).Sound :=
  ⟨⟨h.link.transmitter, oka, okm, ⟨fun e => keep (h.link.pending.1 e), h.link.pending.2⟩,
    ⟨h.link.parser.1, h.link.parser.2.1, fun e => h.link.parser.2.2 (mt keep e)⟩⟩, h.side.of_eq rfl rfl rfl⟩

end State

/-! ### Host accesses -/

variable {s t : State} {v : Byte}

theorem execPowerOnClearingEnd_sound (h : s.Sound) (ht : execPowerOnClearingEnd s = .next t) : t.Sound := by
  unfold execPowerOnClearingEnd at ht
  split at ht <;> cases ht
  · exact h.unseen ..
  · exact h

theorem execPinResetRelease_sound (h : s.Sound) (ht : execPinResetRelease s = .next t) : t.Sound := by
  cases ht
  exact h.unseen ..

theorem execPageRegisterWrite_sound (h : s.Sound) (ht : execPageRegisterWrite v s = .next t) : t.Sound := by
  obtain rfl := Host.Outcome.next.inj ht
  split
  · exact h
  · split
    · unfold State.turnPage
      split
      · exact h
      · exact h.unseen ..
    · exact h.refuseWrite

theorem execSuspendFlagWrite_sound (h : s.Sound) (ht : execSuspendFlagWrite v s = .next t) : t.Sound := by
  obtain rfl := Host.Outcome.next.inj ht
  exact h.hostWrite (h.unseen ..)

theorem execKindEnableWrite_sound {w : KindByte} (h : s.Sound) (ht : execKindEnableWrite w v s = .next t) : t.Sound := by
  obtain rfl := Host.Outcome.next.inj ht
  exact h.hostWrite (h.unseen ..)

theorem execSlotMapEntryWrite_sound {f : EntryField} (h : s.Sound) (ht : execSlotMapEntryWrite f v s = .next t) :
    t.Sound := by
  obtain rfl := Host.Outcome.next.inj ht
  refine h.hostWrite ?_
  split
  · exact h.refuseWrite
  · split
    · exact h.refuseWrite
    · split
      · unfold State.writeRxEntry
        split
        · exact h.setSelectedBank _
        · exact h.refuseWrite
      · unfold State.writeTxEntry
        dsimp only
        split
        · exact h.setSelectedBank _
        · exact h.refuseWrite
      · exact h.setSelectedBank _

theorem execModeByteWrite_sound (h : s.Sound) (ht : execModeByteWrite v s = .next t) : t.Sound := by
  obtain rfl := Host.Outcome.next.inj ht
  refine h.hostWrite ?_
  dsimp only
  split
  · exact h.refuseWrite
  · next rest =>
    have rest : s.selected.atRest = true := by simpa using rest
    have ok : s.selected.Ok := h.side.contexts _
    obtain ⟨-, baseA, -, lengthA, -⟩ := ok.1
    split
    · exact h.refuseWrite
    · exact h.setSelected_resting rest (ok.replanned rest _ _ _ baseA lengthA) rest

theorem execTagWrite_sound (h : s.Sound) (ht : execTagWrite v s = .next t) : t.Sound := by
  obtain rfl := Host.Outcome.next.inj ht
  refine h.hostWrite ?_
  dsimp only
  split
  · exact h.refuseWrite
  · next rest =>
    have rest : s.selected.atRest = true := by simpa using rest
    split
    · next range => exact h.setSelected_resting rest ((h.side.contexts _).withTag range) rest
    · exact h.refuseWrite

theorem execTagTableEntryWrite_sound (h : s.Sound) (ht : execTagTableEntryWrite v s = .next t) : t.Sound := by
  obtain rfl := Host.Outcome.next.inj ht
  have entry : ∀ e, (s.setTagEntry e).Sound := fun e => ⟨h.link.of_eq rfl rfl rfl rfl rfl rfl, h.side.of_eq rfl rfl rfl⟩
  refine h.hostWrite ?_
  split
  · exact h.refuseWrite
  · split
    · exact entry _
    · split
      · exact entry _
      · exact h.refuseWrite

theorem execWideLowByteWrite_sound {i : WideItem} (h : s.Sound) (ht : execWideLowByteWrite i v s = .next t) : t.Sound := by
  obtain rfl := Host.Outcome.next.inj ht
  refine h.hostWrite ?_
  split
  · exact h.unseen ..
  · exact h.refuseWrite

theorem execWideHighByteCommit_sound {i : WideItem} (h : s.Sound) (ht : execWideHighByteCommit i v s = .next t) :
    t.Sound := by
  obtain rfl := Host.Outcome.next.inj ht
  refine h.hostWrite ?_
  split
  · exact h.refuseWrite
  · split
    · next taken =>
      split
      · exact (h.commitItem taken).emptyWriteHolder
      · exact h.commitItem taken
    · exact h.refuseWrite.emptyWriteHolder

theorem execWideLowByteRead_sound {i : WideItem} (h : s.Sound) (ht : execWideLowByteRead i s = .next t) : t.Sound := by
  obtain rfl := Host.Outcome.next.inj ht
  exact h.hostRead (h.unseen ..)

theorem execWideHighByteRead_sound {i : WideItem} (h : s.Sound) (ht : execWideHighByteRead i s = .next t) : t.Sound := by
  obtain rfl := Host.Outcome.next.inj ht
  refine h.hostRead ?_
  dsimp only
  split
  · exact h.unseen ..
  · exact h.unseen ..

theorem execBufferDataRead_sound (h : s.Sound) (ht : execBufferDataRead s = .next t) : t.Sound := by
  obtain rfl := Host.Outcome.next.inj ht
  exact h.hostRead (h.unseen ..)

theorem execBufferDataWrite_sound (h : s.Sound) (ht : execBufferDataWrite v s = .next t) : t.Sound := by
  obtain rfl := Host.Outcome.next.inj ht
  exact h.hostWrite (h.unseen ..)

theorem execPortStatusRead_sound (h : s.Sound) (ht : execPortStatusRead s = .next t) : t.Sound := by
  obtain rfl := Host.Outcome.next.inj ht
  split_ifs
  · exact h.unseen ..
  · exact h.unseen ..
  · exact h.unseen ..
  · exact h

theorem execMissedSetThirdByteRead_sound (h : s.Sound) (ht : execMissedSetThirdByteRead s = .next t) : t.Sound := by
  obtain rfl := Host.Outcome.next.inj ht
  exact h.hostRead (h.unseen ..)

theorem execRegisterWrite_sound {l : BitVec 6} (h : s.Sound) (ht : execRegisterWrite l v s = .next t) : t.Sound := by
  obtain rfl := Host.Outcome.next.inj ht
  refine h.hostWrite ?_
  split
  · exact h
  · exact h.writePlain _ v

/-! ### Link controls -/

/-- A write of transmit enable keeps the transmitter's ranges (R5). -/
theorem Transmitter.Ok.writeEnable {x : Transmitter} (h : x.Ok) (on : Bool) : (x.writeEnable on).Ok := by
  obtain ⟨length, frame, slot, bit, next, begun, stopped, running⟩ := h
  cases state : x.state <;> cases on <;> simp only [Transmitter.writeEnable, state]
  case stopped.true =>
    refine ⟨length, Nat.zero_le _, ?_, Nat.zero_le _, fun n => ?_, fun _ => ⟨rfl, rfl, rfl, ?_⟩, nofun, by simp⟩
    · show 0 < x.frameLength
      omega
    · exact absurd (begun (stopped state)).2.2.2 n
    · exact (begun (stopped state)).2.2.2
  all_goals
    exact ⟨length, frame, slot, bit, next, begun, by simp_all, by simp_all⟩

theorem execTransmitEnableWrite_sound (h : s.Sound) (ht : execTransmitEnableWrite v s = .next t) : t.Sound := by
  obtain rfl := Host.Outcome.next.inj ht
  refine h.hostWrite (h.setTransmitter (h.link.transmitter.writeEnable _) ?_ fun e => ?_)
  · unfold Transmitter.writeEnable
    split <;> rfl
  · revert e
    unfold Transmitter.writeEnable
    split
    · nofun
    · nofun
    · nofun
    · exact id

theorem execFrameLengthWrite_sound (h : s.Sound) (ht : execFrameLengthWrite v s = .next t) : t.Sound := by
  obtain rfl := Host.Outcome.next.inj ht
  refine h.hostWrite ?_
  split
  · next taken =>
    obtain ⟨stopped, off, range⟩ := taken
    obtain ⟨-, frame, -, bit, -, begun, rest⟩ := h.link.transmitter
    obtain ⟨enable, none, position, -, -, -, -, due, bad, run, quiet⟩ := h.link.aligner
    obtain ⟨-, slot, -, next⟩ := begun (rest.1 stopped)
    refine ⟨⟨⟨range, frame, ?_, bit, fun n => absurd next n, begun, rest⟩, ⟨enable, none, position, ?_, ?_, ?_, ?_,
      fun e => ?_, bad, run, quiet⟩, h.link.monitor, h.link.pending, h.link.parser⟩, h.side.of_eq rfl rfl rfl⟩
    · show s.transmitter.slotIndex < v.toNat
      omega
    all_goals simp only [off, reduceCtorEq, or_self, false_imp_iff]
    have := (due e).1
    rw [off] at this
    cases this
  · exact h.refuseWrite

theorem execLocalLoopWrite_sound (h : s.Sound) (ht : execLocalLoopWrite v s = .next t) : t.Sound := by
  obtain rfl := Host.Outcome.next.inj ht
  refine h.hostWrite ?_
  dsimp only
  split
  · exact h
  · refine h.setReceive h.link.aligner ?_ id
    show LineMonitor.Ok _ s.aligner.receiving
    obtain ⟨zeroRun, position, zeros, low, full, window, off⟩ := h.link.monitor
    split
    · next on => exact ⟨zeroRun, position, zeros, low, full, window, fun n => by rw [on] at n; cases n⟩
    · exact h.link.monitor

/-! ### Commands -/

theorem execStart_sound (h : s.Sound) (ht : execStart s = .next t) : t.Sound := by
  obtain rfl := Host.Outcome.next.inj ht
  refine h.command (h.onChannel fun c => ?_)
  split
  · next taken => exact h.start taken
  · exact h

theorem execStop_sound (h : s.Sound) (ht : execStop s = .next t) : t.Sound := by
  obtain rfl := Host.Outcome.next.inj ht
  refine h.command (h.onChannel fun c => ?_)
  split
  · exact h
  · exact h.stop c

theorem execFinish_sound (h : s.Sound) (ht : execFinish s = .next t) : t.Sound := by
  obtain rfl := Host.Outcome.next.inj ht
  refine h.command (h.onChannel fun c => ?_)
  split_ifs with active mode
  · exact h
  · exact h
  · exact h.finish (not_not.mp active) mode

theorem execGive_sound (h : s.Sound) (ht : execGive s = .next t) : t.Sound := by
  obtain rfl := Host.Outcome.next.inj ht
  refine h.command (h.onChannel fun c => ?_)
  dsimp only
  split
  · exact h
  · next rest =>
    split
    · exact h
    · next mode =>
      split
      · exact h
      · split_ifs with owner fits
        · exact h
        · exact h
        · exact h.give (by simpa using rest) (not_not.mp mode) (by simpa using fits)

theorem execAdvance_sound (h : s.Sound) (ht : execAdvance s = .next t) : t.Sound := by
  obtain rfl := Host.Outcome.next.inj ht
  refine h.command (h.onChannel fun c => ?_)
  dsimp only
  split
  · exact h
  · split
    · exact h
    · next mode =>
      have taken : ∀ y, (s.channel c).advanceFits s.port.amount = true → (s.channel c).advanced s.port.amount = y →
          (s.setChannel c y).Sound := fun y fits e => e ▸ h.advance (not_not.mp mode) fits
      split
      · exact h
      · split
        · next direction =>
          split
          · exact h
          · next fits =>
            exact taken _ (by simpa [ChannelContext.advanceFits, direction] using fits)
              (by simp only [ChannelContext.advanced, direction])
        · next direction =>
          split
          · exact h
          · next fits =>
            exact taken _ (by simpa [ChannelContext.advanceFits, direction] using fits)
              (by simp only [ChannelContext.advanced, direction])

theorem State.Sound.requestRxSwitch (h : s.Sound) : s.requestRxSwitch.Sound := by
  obtain ⟨⟨transmitter, aligner, monitor, pending, parser⟩, side⟩ := h
  unfold State.requestRxSwitch
  split
  · next aligned => exact ⟨⟨transmitter, aligner, monitor, ⟨fun _ => aligned, pending.2⟩, parser⟩, side.of_eq rfl rfl rfl⟩
  · exact ⟨⟨transmitter, aligner, monitor, ⟨nofun, pending.2⟩, parser⟩, side.of_eq rfl rfl rfl⟩

theorem State.Sound.requestTxSwitch (h : s.Sound) : s.requestTxSwitch.Sound := by
  obtain ⟨⟨transmitter, aligner, monitor, pending, parser⟩, side⟩ := h
  unfold State.requestTxSwitch
  split
  · exact ⟨⟨transmitter, aligner, monitor, ⟨pending.1, nofun⟩, parser⟩, side.of_eq rfl rfl rfl⟩
  · next traffic =>
    exact ⟨⟨transmitter, aligner, monitor, ⟨pending.1, fun _ => traffic⟩, parser⟩, side.of_eq rfl rfl rfl⟩

theorem execSwitch_sound (h : s.Sound) (ht : execSwitch s = .next t) : t.Sound := by
  obtain rfl := Host.Outcome.next.inj ht
  refine h.command ?_
  dsimp only
  split
  · exact h
  · split
    · exact h
    · have rx : (if s.port.operand0.getLsbD 0 = true then s.requestRxSwitch else s).Sound := by
        split
        · exact h.requestRxSwitch
        · exact h
      dsimp only
      split
      · exact rx.requestTxSwitch
      · exact rx

theorem execRemove_sound (h : s.Sound) (ht : execRemove s = .next t) : t.Sound := by
  obtain rfl := Host.Outcome.next.inj ht
  refine h.command ?_
  split
  · exact h
  · exact h.unseen ..

theorem execFlush_sound (h : s.Sound) (ht : execFlush s = .next t) : t.Sound := by
  obtain rfl := Host.Outcome.next.inj ht
  exact h.command (h.unseen ..)

theorem execBadCommand_sound {k : Byte} (h : s.Sound) (ht : execBadCommand k s = .next t) : t.Sound := by
  obtain rfl := Host.Outcome.next.inj ht
  split
  · exact h
  · exact h.command h

/-- The contexts after CLEAR_COUNTERS keep all but the shortfall counts (R51). -/
theorem State.Sound.clearShortfalls (h : s.Sound) : s.clearShortfalls.Sound := by
  unfold State.clearShortfalls
  have contexts := fun c => (s.channel_mapChannels (fun _ x => { x with shortfalls := 0 }) c)
  refine ⟨h.link.of_eq (by simp) (by simp) (by simp) (by simp) (by simp) (by simp),
    h.side.of_changes (fun c => ?_) (fun c => ?_) (by simp) (fun c mem => ?_) (by simp) fun c _ => ?_⟩
  all_goals rw [contexts]
  · exact h.side.contexts c
  · exact (ChannelContext.samePlan_running ..).claimsNoTag id id
  · rw [State.mapChannels_pool] at mem
    exact (h.side.rotation.2.1 c mem).2
  · exact ChannelContext.keepsBytes_of_available rfl rfl rfl le_rfl

theorem execClearCounters_sound (h : s.Sound) (ht : execClearCounters s = .next t) : t.Sound := by
  obtain rfl := Host.Outcome.next.inj ht
  refine h.command ?_
  have link : (if s.port.operand0.getLsbD 0 = true then { s with monitor := s.monitor.clearCounters } else s).Sound := by
    split
    · exact h.setMonitor (h.link.monitor.counted ..)
    · exact h
  dsimp only
  split
  · exact h
  · dsimp only
    split
    · exact link.clearShortfalls
    · exact link

theorem State.Sound.engineReset (h : s.Sound) : s.engineReset.Sound := by
  obtain ⟨⟨transmitter, aligner, monitor, pending, parser⟩, side⟩ := h
  refine ⟨⟨?_, ?_, ?_, ?_, ?_⟩, side.of_changes (fun c => ?_) (fun c => ?_) (by simp) (by simp) (by simp) fun c _ => ?_⟩
  · simpa only [State.engineReset_transmitter] using transmitter
  · simpa only [State.engineReset_transmitter, State.engineReset_aligner] using aligner
  · simpa only [State.engineReset_monitor, State.engineReset_aligner] using monitor
  · rw [State.PendingLaw, State.engineReset_maps]
    exact ⟨nofun, nofun⟩
  · simpa only [State.ParserLaw, State.engineReset_pool, State.engineReset_aligner] using parser
  all_goals rw [State.channel_engineReset]
  · exact (side.contexts c).engineReset
  · exact ChannelContext.claimsNoTag_of_atRest _ rfl
  · exact ChannelContext.keepsBytes_of_atRest _ rfl

theorem execEngineReset_sound (h : s.Sound) (ht : execEngineReset s = .next t) : t.Sound := by
  obtain rfl := Host.Outcome.next.inj ht
  exact h.command h.engineReset

end Sys2Proof.Machine
end

