-- ==== Sys2Proof/Proofs/SoundTransmit.lean ====
section
/-! SUPPORT. The laws of the link side and of the channel side, kept by the bit positions and the events of the transmit
side. -/

namespace Sys2Proof.Machine

/-! ### Changes that leave the link side -/

/-- The two states have the same transmitter, aligner, monitor, maps and parser. -/
structure State.SameLink (s t : State) : Prop where
  transmitter : t.transmitter = s.transmitter
  aligner : t.aligner = s.aligner
  monitor : t.monitor = s.monitor
  maps : t.maps = s.maps
  rxBurst : t.pool.rxBurst = s.pool.rxBurst

theorem State.SameLink.refl (s : State) : s.SameLink s := ⟨rfl, rfl, rfl, rfl, rfl⟩

theorem State.LinkLaws.of_same {s t : State} (h : s.LinkLaws) (e : s.SameLink t) : t.LinkLaws :=
  h.of_eq e.transmitter e.aligner e.monitor (by rw [e.maps]) (by rw [e.maps]) e.rxBurst

theorem State.sameLink_shortfall (s : State) (c : Channel) : s.SameLink (s.shortfall c) := by
  rw [State.shortfall_eq]
  exact ⟨rfl, rfl, rfl, rfl, rfl⟩

theorem State.sameLink_withByte (s : State) (c : Channel) (x : ChannelContext) (posts : List Post) :
    s.SameLink (s.withByte c x posts) := ⟨rfl, rfl, rfl, rfl, rfl⟩

theorem State.byteDemand_sameLink {s : State} {c : Channel} {pooled : Bool} {a : State × Byte}
    (h : s.byteDemand c pooled = .next a) : s.SameLink a.1 := by
  rw [State.byteDemand_eq] at h
  split at h
  · cases h; exact .refl s
  · split at h
    · cases h; rw [← State.shortfall_eq]; exact s.sameLink_shortfall c
    · split at h <;> cases h
      exact s.sameLink_withByte c _ _

theorem State.byteArrival_sameLink {s t : State} {c : Channel} {b : Byte} (h : s.byteArrival c b = .next t) :
    s.SameLink t := by
  rw [State.byteArrival_eq] at h
  split at h
  · cases h; exact .refl s
  · split at h
    · cases h; rw [← State.shortfall_eq]; exact s.sameLink_shortfall c
    · split at h <;> cases h
      exact ⟨rfl, rfl, rfl, rfl, rfl⟩

/-! ### One bit received -/

/-- A bit taken where no event of the monitor is due keeps its ranges (R38 to R41). -/
theorem LineMonitor.Ok.takeBit {m : LineMonitor} {receiving : Bool} (h : m.Ok receiving) (none_due : m.eventDue = false)
    (bit : Bool) : (m.takeBit bit).Ok true := by
  obtain ⟨zeroRun, position, zeros, low, -, window, -⟩ := h
  have first : m.atFirstBit.holdPosition ≤ 1023 ∧ m.atFirstBit.holdZeros ≤ 3 ∧ m.atFirstBit.lowWindows ≤ 2 := by
    unfold LineMonitor.atFirstBit
    split
    · exact ⟨Nat.zero_le _, Nat.zero_le _, Nat.zero_le _⟩
    · exact ⟨position, zeros, low⟩
  have silence : (m.takeBit bit).silence = m.silence := by
    simp only [LineMonitor.takeBit, LineMonitor.countHold, LineMonitor.atFirstBit]
    split <;> rfl
  simp only [LineMonitor.eventDue, Bool.or_eq_false_iff] at none_due
  obtain ⟨⟨⟨-, clear⟩, failure⟩, -⟩ := none_due
  refine ⟨?_, ?_, ?_, first.2.2, fun full => ?_, fun w hw => ?_, nofun⟩
  · show m.nextZeroRun bit ≤ 160
    unfold LineMonitor.nextZeroRun
    split <;> omega
  · show (if m.atFirstBit.holdPosition = 1023 then 1023 else m.atFirstBit.holdPosition + 1) ≤ 1023
    split <;> omega
  · show (if bit then m.atFirstBit.holdZeros else min 3 (m.atFirstBit.holdZeros + 1)) ≤ 3
    split <;> omega
  · have full : decide (m.atFirstBit.holdPosition = 1023) = true := full
    exact if_pos (by simpa using full)
  · rw [silence]
    have hw : w ∈ m.nextWindow bit := hw
    unfold LineMonitor.nextWindow at hw
    split at hw
    · next off =>
      rw [(window w hw).1] at off
      cases off
    · next on =>
      have on : m.silence = true := by simpa using on
      split at hw
      · cases hw
      · cases hw
        exact ⟨on, by decide, by decide, by decide, by decide⟩
      all_goals
        next u e _ =>
        obtain rfl := Option.some.inj hw
        obtain ⟨-, low, high, inside, last⟩ := window u e
        simp only [LineMonitor.silenceClearDue, LineMonitor.windowFailureDue, e, on, Bool.true_and,
          Bool.and_eq_false_iff, decide_eq_false_iff_not] at clear failure
        exact ⟨on, by dsimp only; omega, by dsimp only; omega, by dsimp only; omega, by dsimp only; omega⟩

namespace State

variable {s t : State}

theorem Sound.takeBit (h : s.Sound) (on : s.aligner.receiving = true) (held : s.bitHeld = false) (bit : Bool) :
    (s.takeBit bit).Sound := by
  simp only [State.bitHeld, Bool.or_eq_false_iff] at held
  refine h.setReceive (Aligner.ok_takeBit h.link.aligner on held.2 bit _) ?_ id
  show LineMonitor.Ok _ s.aligner.receiving
  rw [on]
  exact h.link.monitor.takeBit held.1 bit

/-- Under local loop a bit is taken where the receive side is ready for it (R16). -/
theorem Sound.takeLooped (h : s.Sound) (held : s.loopHeld = false) : s.takeLooped.Sound := by
  unfold State.takeLooped
  split
  · next looped =>
    rw [State.loopHeld, looped, Bool.true_and] at held
    simp only [State.looped, Bool.and_eq_true] at looped
    exact h.takeBit looped.2 held _
  · exact h

end State

/-! ### The transmitter's place -/

/-- A TXCLK bit position keeps the transmitter's ranges, its frame length and its state (R1, R7, R8). -/
theorem Transmitter.Ok.advance {x y : Transmitter} (h : x.Ok) (hy : x.advance = some y) :
    y.Ok ∧ y.frameLength = x.frameLength ∧ y.state = x.state := by
  obtain ⟨-, rfl⟩ | ⟨moving, begun, bit, rfl⟩ | ⟨moving, begun, -, b, hb, rfl⟩ := Transmitter.advance_cases hy
  · exact ⟨h, rfl, rfl⟩
  · obtain ⟨length, frame, slot, -, next, -, stopped, running⟩ := h
    exact ⟨⟨length, frame, slot, bit, next, (fun n => by rw [begun] at n; cases n), fun e => absurd e moving, running⟩, rfl, rfl⟩
  · obtain ⟨length, frame, slot, -, next, -, stopped, running⟩ := h
    exact ⟨⟨length, frame, next (by rw [hb]; nofun), Nat.zero_le _, fun n => absurd rfl n,
      (fun n => by rw [begun] at n; cases n), fun e => absurd e moving, running⟩, rfl, rfl⟩

namespace State

variable {s t : State}

theorem Sound.txBitPosition (h : s.Sound) : s.txBitPosition.Sound := by
  obtain e | ⟨x, held, hx, e⟩ := s.txBitPosition_cases
  · rw [e]; exact h
  · obtain ⟨ok, length, state⟩ := h.link.transmitter.advance hx
    rw [e]
    refine (h.setTransmitter ok length fun e => state ▸ e).takeLooped ?_
    simpa only [State.loopHeld, State.looped, State.bitHeld, length] using held

/-! ### The grant (R119 to R122) -/

/-- The grant gives the burst to a member of the list, which goes to the tail, or leaves an empty burst. -/
theorem grant_cases (s : State) :
    (∃ k, s.grant = { s with pool := { s.pool with txBurst := { TxBurst.cleared with poolSlots := k } } }) ∨
    ∃ k c, c ∈ s.pool.rotation ∧ s.grant = { s with pool := { s.pool with
      txBurst :=
        { poolSlots := k, granted := some c, tag := (s.channel c).tag
          length := min (poolCapacity k) (s.channel c).available, answered := 0 }
      rotation := s.pool.rotation.filter (· ≠ c) ++ [c] } } := by
  unfold State.grant
  dsimp only
  split
  · exact .inl ⟨_, rfl⟩
  · next c found =>
    refine .inr ⟨_, c, ?_, rfl⟩
    split at found
    · exact List.mem_of_find?_eq_some found
    · cases found

theorem sameLink_grant (s : State) : s.SameLink s.grant := by
  obtain ⟨k, e⟩ | ⟨k, c, -, e⟩ := s.grant_cases <;> rw [e] <;> exact ⟨rfl, rfl, rfl, rfl, rfl⟩

/-- The grant makes a burst that its channel has the bytes for, whatever the burst before it. -/
theorem channelLaws_grant (contexts : ∀ c, (s.channel c).Ok) (rotation : s.RotationLaw) : s.grant.ChannelLaws := by
  obtain ⟨k, e⟩ | ⟨k, c, mem, e⟩ := s.grant_cases <;> rw [e]
  · exact ⟨contexts, rotation, Nat.zero_le _, le_rfl, nofun⟩
  · obtain ⟨nodup, members, tags⟩ := rotation
    have same : ∀ d, d ∈ s.pool.rotation.filter (· ≠ c) ++ [c] ↔ d ∈ s.pool.rotation := fun d => by
      by_cases e : d = c <;> simp [e, mem]
    refine ⟨contexts, ⟨?_, fun d hd => members d ((same d).mp hd), fun d f hd hf => tags d f ?_ ?_⟩,
      Nat.min_le_left _ _, Nat.zero_le _, fun d hd _ => ?_⟩
    · simpa [List.nodup_append] using nodup.filter _
    · exact hd.imp_left (same d).mp
    · exact hf.imp_left (same f).mp
    · obtain rfl := Option.some.inj hd
      exact ⟨(members c mem).1.2, (Nat.sub_le _ _).trans (Nat.min_le_right _ _)⟩

theorem Sound.grant (h : s.Sound) : s.grant.Sound :=
  ⟨h.link.of_same s.sameLink_grant, channelLaws_grant h.side.contexts h.side.rotation⟩

/-! ### Transmit cycle start (R80) -/

theorem channel_activateTransmit (s : State) (c : Channel) :
    s.activateTransmit.channel c =
      if (s.channel c).direction = .transmit ∧ (s.channel c).state = .armed then
        { s.channel c with state := .active } else s.channel c := by
  rw [← s.channel_mapChannels fun _ x =>
    if x.direction = .transmit ∧ x.state = .armed then { x with state := .active } else x]
  exact State.channel_congr (by simp only [State.activateTransmit]) c

theorem activateTransmit_pool (s : State) :
    s.activateTransmit.pool = { s.pool with rotation := s.pool.rotation ++ s.poolJoiners } := by
  simp only [State.activateTransmit, State.mapChannels_pool]

theorem sameLink_activateTransmit (s : State) : s.SameLink s.activateTransmit := by
  constructor <;> simp [State.activateTransmit]

theorem mem_poolJoiners (s : State) (c : Channel) :
    c ∈ s.poolJoiners ↔ (s.channel c).poolSender ∧ (s.channel c).state = .armed := by
  simp only [State.poolJoiners, List.mem_filter, List.mem_finRange, true_and, Bool.and_eq_true, decide_eq_true_eq,
    ChannelContext.poolSender]
  tauto

/-- The channels that join the list are those that held their tags in ARMED. -/
theorem RotationLaw.activateTransmit (h : s.RotationLaw) : s.activateTransmit.RotationLaw := by
  obtain ⟨nodup, members, tags⟩ := h
  have runs : ∀ c, (s.channel c).running = true → s.activateTransmit.channel c = s.channel c := fun c run => by
    rw [channel_activateTransmit, if_neg fun e => by
      rw [ChannelContext.running_iff, e.2] at run
      simp at run]
  have plan : ∀ c, (s.channel c).SamePlan (s.activateTransmit.channel c) := fun c => by
    rw [channel_activateTransmit]
    split
    · exact ChannelContext.samePlan_running ..
    · exact .refl _
  have held : ∀ c, s.activateTransmit.holdsTag c → s.holdsTag c := fun c hold => by
    rcases hold with mem | ⟨⟨send, pool⟩, armed⟩
    · rw [activateTransmit_pool] at mem
      exact (List.mem_append.mp mem).imp_right (s.mem_poolJoiners c).mp
    · rw [(plan c).direction] at send
      rw [channel_activateTransmit] at armed
      split at armed
      · cases armed
      · next other => exact absurd ⟨send, armed⟩ other
  rw [State.RotationLaw, activateTransmit_pool]
  refine ⟨?_, fun c mem => ?_, fun c d hc hd e => tags c d (held c hc) (held d hd) ?_⟩
  · refine List.nodup_append.mpr ⟨nodup, (List.nodup_finRange 20).filter _, fun c hc d hd e => ?_⟩
    subst e
    have run := (members c hc).2
    rw [ChannelContext.running_iff, ((s.mem_poolJoiners c).mp hd).2] at run
    simp at run
  · rcases List.mem_append.mp mem with mem | mem
    · rw [runs c (members c mem).2]
      exact members c mem
    · obtain ⟨sender, armed⟩ := (s.mem_poolJoiners c).mp mem
      rw [channel_activateTransmit, if_pos ⟨sender.1, armed⟩]
      exact ⟨sender, rfl⟩
  · rwa [(plan c).tag, (plan d).tag] at e

theorem contexts_activateTransmit (h : ∀ c, (s.channel c).Ok) (c : Channel) : (s.activateTransmit.channel c).Ok := by
  rw [channel_activateTransmit]
  split
  · next e => exact (h c).activated e.2
  · exact h c

theorem Sound.activateThenGrant (h : s.Sound) : s.activateTransmit.grant.Sound :=
  ⟨(h.link.of_same s.sameLink_activateTransmit).of_same (State.sameLink_grant _),
    channelLaws_grant (contexts_activateTransmit h.side.contexts) h.side.rotation.activateTransmit⟩

/-- The channel just granted runs, so the entry to ACTIVE leaves it. -/
theorem Sound.grantThenActivate (h : s.Sound) : s.grant.activateTransmit.Sound := by
  have laws := h.grant
  refine ⟨laws.link.of_same (State.sameLink_activateTransmit _), contexts_activateTransmit laws.side.contexts,
    laws.side.rotation.activateTransmit, laws.side.burst.of_bytes (by rw [activateTransmit_pool]) fun c granted => ?_⟩
  have run : (s.grant.channel c).running = true := by
    obtain ⟨k, e⟩ | ⟨k, d, mem, e⟩ := s.grant_cases <;> rw [e] at granted ⊢
    · cases granted
    · obtain rfl := Option.some.inj granted
      exact (h.side.rotation.2.1 d mem).2
  rw [channel_activateTransmit, if_neg fun e => by
    rw [ChannelContext.running_iff, e.2] at run
    simp at run]
  exact ChannelContext.keepsBytes_refl _

theorem Sound.enterAndGrant (h : s.Sound) : s.enterAndGrant.Sound := by
  unfold State.enterAndGrant
  have drawn : ({ s with draws := s.draws + 1 } : State).Sound := h.unseen ..
  split
  · exact h.activateThenGrant
  · dsimp only
    split
    · exact drawn.grantThenActivate
    · exact drawn.activateThenGrant

theorem Sound.txSwitchEvent (h : s.Sound) : s.txSwitchEvent.Sound := by
  unfold State.txSwitchEvent
  split
  · exact ⟨⟨h.link.transmitter, h.link.aligner, h.link.monitor, ⟨h.link.pending.1, nofun⟩, h.link.parser⟩,
      h.side.of_eq rfl rfl rfl⟩
  · exact h

theorem Sound.frameStartEvents (h : s.Sound) : s.frameStartEvents.Sound := by
  unfold State.frameStartEvents
  split
  · exact h.txSwitchEvent.enterAndGrant
  · exact h.grant

end State

/-! ### The transmitter's events -/

/-- What the events of a frame start leave of the link side but for a pending transmit switch. -/
theorem State.loopHeld_frameStartEvents (s : State) : s.frameStartEvents.loopHeld = s.loopHeld := by
  have held : ∀ u v : State, v.aligner = u.aligner → v.monitor = u.monitor → v.transmitter = u.transmitter →
      v.loopHeld = u.loopHeld := fun u v ha hm ht => by
    simp only [State.loopHeld, State.looped, State.bitHeld, ha, hm, ht]
  have same : ∀ u v : State, u.SameLink v → v.loopHeld = u.loopHeld := fun u v e =>
    held u v e.aligner e.monitor e.transmitter
  have switch : s.txSwitchEvent.loopHeld = s.loopHeld := by
    unfold State.txSwitchEvent
    split <;> rfl
  unfold State.frameStartEvents
  split
  · rw [← switch]
    unfold State.enterAndGrant
    split
    · rw [same _ _ (State.sameLink_grant _), same _ _ (State.sameLink_activateTransmit _)]
    · dsimp only
      split
      · rw [same _ _ (State.sameLink_activateTransmit _), same _ _ (State.sameLink_grant _)]
        rfl
      · rw [same _ _ (State.sameLink_grant _), same _ _ (State.sameLink_activateTransmit _)]
        rfl
  · exact same _ _ s.sameLink_grant

variable {s t : State}

theorem execTransmitFrameStart_sound (h : s.Sound) (ht : execTransmitFrameStart s = .next t) : t.Sound := by
  obtain rfl := Host.Outcome.next.inj ht
  split
  · next ready =>
    simp only [State.frameStartReady, Bool.and_eq_true, Bool.not_eq_true'] at ready
    obtain ⟨due, held⟩ := ready
    obtain ⟨length, frame, slot, bit, next, -, -, running⟩ := h.link.transmitter
    have moving : s.transmitter.state ≠ .stopped := fun e => by
      simp [Transmitter.frameStartDue, Transmitter.sending, e] at due
    have index : s.transmitter.nextFrame ≤ 11 := by
      unfold Transmitter.nextFrame
      split <;> omega
    have begun : s.beginFrame.Sound := by
      refine h.setTransmitter ⟨length, index, ?_, Nat.zero_le _, fun n => absurd rfl n, nofun, fun e => absurd e moving,
        running⟩ rfl fun e => absurd e moving
      show 0 < s.transmitter.frameLength
      omega
    refine begun.frameStartEvents.takeLooped ?_
    rw [State.loopHeld_frameStartEvents]
    exact held
  · exact h

theorem State.Sound.answerPoolSlot (h : s.Sound) {n : Nat} {a : State × Byte} (ha : s.answerPoolSlot n = .next a) :
    a.1.Sound ∧ s.SameLink a.1 := by
  unfold State.answerPoolSlot at ha
  split at ha
  · cases ha; exact ⟨h, .refl s⟩
  · split at ha
    · cases ha
      unfold State.answerTagSlot
      split
      · exact ⟨h, .refl s⟩
      · split
        · exact ⟨h, .refl s⟩
        · exact ⟨⟨h.link.of_eq rfl rfl rfl rfl rfl rfl, h.side.contexts, h.side.rotation, Nat.zero_le _, le_rfl, nofun⟩,
            ⟨rfl, rfl, rfl, rfl, rfl⟩⟩
    · split at ha
      · cases ha; exact ⟨h, .refl s⟩
      · have same : s.SameLink a.1 := by
          unfold State.answerDataSlot at ha
          split at ha
          · cases ha; exact .refl s
          · split at ha
            · obtain ⟨tx, al, mo, ma, rx⟩ := State.byteDemand_sameLink ha
              exact ⟨tx, al, mo, ma, rx⟩
            · cases ha; exact .refl s
        exact ⟨⟨h.link.of_same same, h.side.answerDataSlot ha⟩, same⟩

theorem State.Sound.resolveDemand (h : s.Sound) {n : Nat} {a : State × Byte} (ha : s.resolveDemand n = .next a) :
    a.1.Sound ∧ s.SameLink a.1 := by
  unfold State.resolveDemand at ha
  dsimp only at ha
  split at ha
  · cases ha; exact ⟨h, .refl s⟩
  · cases ha; exact ⟨h, .refl s⟩
  · have same := State.byteDemand_sameLink ha
    exact ⟨⟨h.link.of_same same, h.side.byteDemand ha⟩, same⟩
  · exact h.answerPoolSlot ha

theorem execSlotDemand_sound (h : s.Sound) (ht : execSlotDemand s = .next t) : t.Sound := by
  unfold execSlotDemand at ht
  split at ht
  · next due =>
    obtain ⟨⟨u, b⟩, hu, rfl⟩ := thenNext_eq_next ht
    obtain ⟨sound, same⟩ := h.resolveDemand hu
    simp only [Transmitter.demandDue, Bool.and_eq_true, decide_eq_true_eq] at due
    obtain ⟨⟨⟨-, begun⟩, -⟩, last⟩ := due
    have ok := sound.link.transmitter
    have tx : u.transmitter = s.transmitter := same.transmitter
    rw [← tx] at begun last
    obtain ⟨length, frame, slot, bit, -, -, stopped, running⟩ := ok
    exact sound.setTransmitter ⟨length, frame, slot, bit, fun _ => last, (fun n => by rw [begun] at n; cases n), stopped,
      running⟩ rfl id
  · cases ht; exact h

theorem execEntryToStopped_sound (h : s.Sound) (ht : execEntryToStopped s = .next t) : t.Sound := by
  unfold execEntryToStopped at ht
  split at ht
  · next due =>
    cases ht
    obtain ⟨⟨⟨length, -, -, -, -, -, -, running⟩, aligner, monitor, pending, parser⟩, side⟩ := h
    simp only [Transmitter.stopDue, Bool.and_eq_true, decide_eq_true_eq] at due
    obtain ⟨⟨stopping, -⟩, -⟩ := due
    have off : s.transmitter.enable = false := by
      rw [stopping] at running
      simpa using running
    have halted : s.transmitter.halted.Ok := by
      refine ⟨length, Nat.zero_le _, ?_, Nat.zero_le _, fun n => absurd rfl n, fun _ => ⟨rfl, rfl, rfl, rfl⟩, fun _ => rfl,
        nofun, fun e => ?_⟩
      · show 0 < s.transmitter.frameLength
        omega
      · rw [show s.transmitter.halted.enable = s.transmitter.enable from rfl, off] at e
        cases e
    unfold State.txSwitchEvent
    split
    · exact ⟨⟨halted, aligner, monitor, ⟨pending.1, nofun⟩, parser⟩, side.of_eq rfl rfl rfl⟩
    · next none => exact ⟨⟨halted, aligner, monitor, ⟨pending.1, fun e => absurd e none⟩, parser⟩, side.of_eq rfl rfl rfl⟩
  · cases ht; exact h

end Sys2Proof.Machine
end

