-- ==== Sys2Proof/Proofs/SoundReceive.lean ====
section
/-! SUPPORT. The laws of the link side and of the channel side, kept by the events of the aligner and of the monitor, by
REALIGN and by receive enable. -/

namespace Sys2Proof.Machine

/-! ### The channels at a leaving, a frame end and a receive frame start -/

/-- Every RING receive channel in ENDING goes to DONE and off the list (R86). -/
theorem State.ChannelLaws.endRings {s t : State} (h : s.ChannelLaws)
    (contexts : ∀ c, t.channel c = (s.channel c).afterFrameEnd)
    (list : t.pool.rotation = s.pool.rotation.filter fun c => c ∉ s.endingRings)
    (burst : t.pool.txBurst = s.pool.txBurst) : t.ChannelLaws := by
  have stays : ∀ c, c ∉ s.endingRings → t.channel c = s.channel c := fun c off => by
    rw [contexts, ChannelContext.afterFrameEnd, if_neg (mt (s.mem_endingRings c).mpr off)]
  have ends : ∀ c, c ∈ s.endingRings → (t.channel c).atRest = true := fun c on => by
    rw [contexts, ChannelContext.afterFrameEnd, if_pos ((s.mem_endingRings c).mp on)]
    rfl
  refine h.of_changes (fun c => contexts c ▸ (h.contexts c).afterFrameEnd) (fun c => ?_)
    (list ▸ List.filter_sublist) (fun c mem => ?_) burst fun c _ => ?_
  · by_cases on : c ∈ s.endingRings
    · exact ChannelContext.claimsNoTag_of_atRest _ (ends c on)
    · rw [stays c on]; exact ChannelContext.claimsNoTag_refl _
  · rw [list] at mem
    obtain ⟨mem, off⟩ := List.mem_filter.mp mem
    rw [stays c (by simpa using off)]
    exact (h.rotation.2.1 c mem).2
  · by_cases on : c ∈ s.endingRings
    · exact ChannelContext.keepsBytes_of_atRest _ (ends c on)
    · rw [stays c on]; exact ChannelContext.keepsBytes_refl _

/-- The receive channels in ARMED enter ACTIVE, if the frame start is a cycle start (R79). -/
theorem State.ChannelLaws.activateReceive {s t : State} (h : s.ChannelLaws) {cycle : Prop} [Decidable cycle]
    (contexts : ∀ c, t.channel c =
      if cycle ∧ (s.channel c).direction = .receive ∧ (s.channel c).state = .armed then
        { s.channel c with state := .active } else s.channel c)
    (list : t.pool.rotation = s.pool.rotation) (burst : t.pool.txBurst = s.pool.txBurst) : t.ChannelLaws := by
  refine h.of_changes (fun c => ?_) (fun c => ?_) (list ▸ List.Sublist.refl _) (fun c mem => ?_) burst fun c _ => ?_
  all_goals rw [contexts]
  · split
    · next e => exact (h.contexts c).activated e.2.2
    · exact h.contexts c
  · split
    · next e =>
      exact (ChannelContext.samePlan_running ..).claimsNoTag (fun _ => by simp [ChannelContext.atRest, e.2.2]) nofun
    · exact ChannelContext.claimsNoTag_refl _
  · rw [list] at mem
    have run := (h.rotation.2.1 c mem).2
    split
    · rfl
    · exact run
  · split
    · next e => exact ChannelContext.keepsBytes_of_receive _ e.2.1
    · exact ChannelContext.keepsBytes_refl _

/-! ### The aligner's ranges -/

/-- A fresh search of an enabled aligner that is not ALIGNED (R21). -/
theorem Aligner.ok_freshSearch {a : Aligner} {f : Nat} (on : a.enable = true) (due : a.frameEndDue = false)
    (quiet : a.badMarkers = 0 ∧ a.remoteFault = false ∧ a.faultRun = 0) : a.freshSearch.Ok f := by
  obtain ⟨bad, fault, run⟩ := quiet
  simp [Aligner.freshSearch, Aligner.Ok, on, due, bad, fault, run]

theorem Aligner.Ok.frameEndDue_eq_false {a : Aligner} {f : Nat} (h : a.Ok f) (search : a.state ≠ .aligned) :
    a.frameEndDue = false := by
  obtain ⟨-, -, -, -, -, -, -, due, -⟩ := h
  exact Bool.eq_false_iff.mpr fun e => search (due e).1

theorem Aligner.Ok.quiet {a : Aligner} {f : Nat} (h : a.Ok f) (search : a.state ≠ .aligned) :
    a.badMarkers = 0 ∧ a.remoteFault = false ∧ a.faultRun = 0 := by
  obtain ⟨-, -, -, -, -, -, -, -, -, -, quiet⟩ := h
  exact quiet search

theorem Aligner.Ok.enable_eq_true {a : Aligner} {f : Nat} (h : a.Ok f) (on : a.state ≠ .off) : a.enable = true := by
  obtain ⟨enable, -⟩ := h
  exact Bool.eq_true_of_not_eq_false (mt enable.mpr on)

theorem Aligner.Ok.freshSearch {a : Aligner} {f : Nat} (h : a.Ok f) (on : a.state ≠ .off) (search : a.state ≠ .aligned) :
    a.freshSearch.Ok f :=
  Aligner.ok_freshSearch (h.enable_eq_true on) (h.frameEndDue_eq_false search) (h.quiet search)

/-- A loss of alignment begins a fresh search (R30). -/
theorem Aligner.Ok.left {a : Aligner} {f : Nat} (h : a.Ok f) (on : a.state ≠ .off) : (a.left .hunt).Ok f := by
  simp [Aligner.left, Aligner.Ok, h.enable_eq_true on]

/-- The aligner in OFF (R20). -/
theorem Aligner.ok_off {a : Aligner} {f : Nat} (off : a.enable = false) :
    ({ a.left .off with confirmations := 0 } : Aligner).Ok f := by
  simp [Aligner.left, Aligner.Ok, off]

/-- A byte handed on leaves no bits in ALIGNED, where at most eight are held (R23). -/
theorem Aligner.Ok.takeByte_bits {a : Aligner} {f : Nat} (h : a.Ok f) (aligned : a.state = .aligned) :
    a.takeByte.bits = [] := by
  obtain ⟨-, -, -, -, room, -⟩ := h
  exact List.drop_eq_nil_of_le (room aligned)

/-- A slot byte handed on (R27, R28). -/
theorem Aligner.Ok.handOnSlot {a : Aligner} {f : Nat} (h : a.Ok f) (aligned : a.state = .aligned) :
    a.handOnSlot.Ok f := by
  have empty := h.takeByte_bits aligned
  obtain ⟨enable, -, position, -, -, -, place, -, bad, run, -⟩ := h
  obtain ⟨high, slots⟩ := place aligned
  refine ⟨enable, fun e => ?_, position, fun e => ?_, fun _ => ?_, fun e => ?_, fun _ => ?_, fun e => ?_, bad, run,
    fun e => absurd aligned e⟩
  · rw [show a.handOnSlot.state = a.state from rfl, aligned] at e; cases e
  · rw [show a.handOnSlot.state = a.state from rfl, aligned] at e; simp at e
  · show a.takeByte.bits.length ≤ 8
    rw [empty]; exact Nat.zero_le _
  · rw [show a.handOnSlot.state = a.state from rfl, aligned] at e; cases e
  · show a.expectedPlace - 8 ≤ _ ∧ (a.expectedPlace - 8) % 8 = 0
    omega
  · have e : decide (a.expectedPlace - 8 = 0) = true := e
    exact ⟨aligned, of_decide_eq_true e, empty⟩

/-- The bytes of a marker taken, and the count of bad markers set (R29). -/
theorem Aligner.Ok.markerTaken {a : Aligner} {f : Nat} (h : a.Ok f) (aligned : a.state = .aligned)
    (due : a.frameEndDue = false) {n : Nat} (hn : n ≤ 3) : ({ a.takeByte with badMarkers := n, expectedPlace := 0 } : Aligner).Ok f := by
  have empty := h.takeByte_bits aligned
  obtain ⟨enable, -, position, -, -, -, place, -, bad, run, -⟩ := h
  simp only [Aligner.takeByte] at empty
  simp [Aligner.Ok, Aligner.takeByte, aligned, due, position, hn, run, empty]
  simpa [aligned] using enable

/-- Behind a frame start the aligner has its next place, and the detector has read the flag (R29, R34 to R36). -/
theorem State.alignerAtFrame_eq (s : State) (flag : Option Bool) (run : s.aligner.faultRun ≤ 2) :
    ∃ fault n, n ≤ 2 ∧ s.alignerAtFrame flag = { s.aligner with
      remoteFault := fault
      faultRun := n
      expectedPlace := (s.transmitter.frameLength - 1) * 8
      expectedPosition := (s.aligner.expectedPosition + 1) % 12
      cycleCount := s.countAtFrame
      cycleOffset := if s.aligner.expectedPosition = 0 then s.transmitter.offset else s.aligner.cycleOffset } := by
  cases flag with
  | none => exact ⟨_, _, run, rfl⟩
  | some f =>
    simp only [State.alignerAtFrame, Aligner.readFlag]
    split
    · exact ⟨_, 0, Nat.zero_le _, rfl⟩
    · split
      · exact ⟨_, 0, Nat.zero_le _, rfl⟩
      · exact ⟨_, s.aligner.faultRun + 1, by omega, rfl⟩

/-- The aligner behind a frame start, if the one at the marker place is in its ranges (R29, R36). -/
theorem State.alignerAtFrame_ok {s : State} (flag : Option Bool)
    (h : ({ s.aligner with expectedPlace := 0 } : Aligner).Ok s.transmitter.frameLength)
    (aligned : s.aligner.state = .aligned) (due : s.aligner.frameEndDue = false) :
    (s.alignerAtFrame flag).state = .aligned ∧ (s.alignerAtFrame flag).Ok s.transmitter.frameLength := by
  have on : s.aligner.enable = true := h.enable_eq_true (by dsimp only; rw [aligned]; nofun)
  obtain ⟨-, -, -, -, room, -, -, -, bad, run, -⟩ := h
  obtain ⟨fault, n, hn, e⟩ := s.alignerAtFrame_eq flag run
  have next : (s.aligner.expectedPosition + 1) % 12 < 12 := Nat.mod_lt _ (by decide)
  have bits : s.aligner.bits.length ≤ 8 := room aligned
  have bad : s.aligner.badMarkers ≤ 3 := bad
  rw [e]
  exact ⟨aligned, by simp [Aligner.Ok, aligned, due, bad, hn, next, bits, on]⟩

/-! ### Frame starts and leavings -/

namespace State

variable {s t : State}

/-- A receive frame start, from an aligner that stands at a marker place (R28, R29, R34 to R36). -/
theorem Sound.frameStart (h : ({ s with aligner := { s.aligner with expectedPlace := 0 } } : State).Sound)
    (aligned : s.aligner.state = .aligned) (due : s.aligner.frameEndDue = false) (flag : Option Bool) :
    (s.frameStart flag).Sound := by
  obtain ⟨⟨transmitter, aligner, monitor, pending, parser⟩, side⟩ := h
  obtain ⟨posts, draws, -, e, contexts⟩ := s.frameStart_eq flag
  obtain ⟨state, behind⟩ := State.alignerAtFrame_ok flag aligner aligned due
  have side : s.ChannelLaws := side.of_eq rfl rfl rfl
  refine ⟨?_, side.activateReceive contexts (by rw [e]) (by rw [e])⟩
  rw [e]
  refine ⟨transmitter, behind, ?_, ⟨fun _ => state, fun tx => ?_⟩,
    fun p => ?_, fun _ => rfl, fun n => absurd state n⟩
  · show s.monitor.Ok (s.alignerAtFrame flag).receiving
    rw [Aligner.receiving, state]
    have monitor : s.monitor.Ok (s.aligner.state != .off) := monitor
    rwa [aligned] at monitor
  · have tx : s.mapsAtFrame.txPending = true := tx
    refine pending.2 ?_
    rw [← tx, State.mapsAtFrame]
    split <;> rfl
  · dsimp only at p
    split at p <;> cases p

/-- The reports of a leaving, and an aligner and a monitor behind it that are in their ranges (R30). -/
theorem Sound.reportLeaving (transmitter : s.transmitter.Ok) (side : s.ChannelLaws) (tx : s.PendingLaw) {a : Aligner}
    {m : LineMonitor} (aligner : a.Ok s.transmitter.frameLength) (monitor : m.Ok a.receiving) :
    ({ s.reportLeaving with aligner := a, monitor := m } : State).Sound := by
  obtain ⟨posts, -, e, contexts⟩ := s.reportLeaving_eq
  have laws : s.reportLeaving.ChannelLaws := side.endRings contexts (by rw [e]) (by rw [e])
  refine ⟨?_, laws.of_eq rfl rfl rfl⟩
  have none : s.maps.afterLeaving.rxPending = false ∧ s.maps.afterLeaving.txPending = s.maps.txPending := by
    unfold SlotMaps.afterLeaving
    split
    · exact ⟨rfl, rfl⟩
    · next off => exact ⟨by simpa using off, rfl⟩
  rw [e]
  refine ⟨transmitter, aligner, monitor, ⟨fun p => ?_, fun p => tx.2 (none.2 ▸ p)⟩, nofun, fun _ => rfl, fun _ => rfl⟩
  have p : s.maps.afterLeaving.rxPending = true := p
  rw [none.1] at p
  cases p

theorem Sound.loseAlignment (h : s.Sound) (aligned : s.aligner.state = .aligned) (cause : LossCause) :
    (s.loseAlignment cause).Sound := by
  have counted : (s.countLoss cause).Sound := (h.setMonitor (h.link.monitor.counted ..)).post _
  have on : s.aligner.state ≠ .off := by rw [aligned]; nofun
  obtain ⟨posts, -, e, -⟩ := (s.countLoss cause).reportLeaving_eq
  have al : (s.countLoss cause).reportLeaving.aligner = s.aligner := by rw [e]; rfl
  have mo : (s.countLoss cause).reportLeaving.monitor = (s.countLoss cause).monitor := by rw [e]
  have lost := Sound.reportLeaving counted.link.transmitter counted.side counted.link.pending
    (a := s.aligner.left .hunt) (m := (s.countLoss cause).monitor) (h.link.aligner.left on) (by
      have ok := counted.link.monitor
      rw [show (s.countLoss cause).aligner.receiving = true from bne_iff_ne.mpr on] at ok
      exact ok)
  rw [← mo, ← al] at lost
  exact lost

theorem Sound.requestHunt (h : s.Sound) (cause : LossCause) : (s.requestHunt cause).Sound := by
  unfold State.requestHunt
  split
  · exact h
  · exact h
  · next confirm =>
    refine h.setReceive (h.link.aligner.freshSearch (by rw [confirm]; nofun) (by rw [confirm]; nofun)) ?_
      fun e => by rw [confirm] at e; cases e
    have monitor := h.link.monitor
    rwa [Aligner.receiving, confirm] at monitor
  · next aligned => exact h.loseAlignment aligned cause

end State

/-! ### Search and confirmation -/

variable {s t : State}

/-- A change of the aligner within its search, while receive stays enabled (R22 to R25). -/
theorem State.Sound.setSearch (h : s.Sound) {a : Aligner} (ok : a.Ok s.transmitter.frameLength)
    (before : s.aligner.state = .hunt ∨ s.aligner.state = .confirm) (on : a.state ≠ .off) :
    ({ s with aligner := a } : State).Sound := by
  refine h.setReceive (m := s.monitor) ok ?_ fun e => by rw [e] at before; simp at before
  have monitor := h.link.monitor
  rw [show s.aligner.receiving = true from by rcases before with e | e <;> simp [Aligner.receiving, e]] at monitor
  rwa [show a.receiving = true from bne_iff_ne.mpr on]

theorem execSearchByteExamination_sound (h : s.Sound) (ht : execSearchByteExamination s = .next t) : t.Sound := by
  unfold execSearchByteExamination at ht
  split at ht
  · next due =>
    simp only [Aligner.examinationDue, Bool.and_eq_true, decide_eq_true_eq] at due
    obtain ⟨hunt, -⟩ := due
    have ok := h.link.aligner
    have ready := ok.frameEndDue_eq_false (by rw [hunt]; nofun)
    obtain ⟨bad, fault, run⟩ := ok.quiet (by rw [hunt]; nofun)
    have on := ok.enable_eq_true (by rw [hunt]; nofun)
    obtain ⟨-, -, position, room, -⟩ := ok
    have room := room (.inl hunt)
    dsimp only at ht
    split at ht <;> cases ht
    · refine h.setSearch ?_ (.inl hunt) nofun
      have next := Nat.mod_lt (markerPosition (byteOfBits s.aligner.bits) + 1) (show 0 < 12 by decide)
      simp [Aligner.Ok, ready, bad, fault, run, on, room, next]
    · refine h.setSearch ?_ (.inl hunt) (by rw [hunt]; nofun)
      simp [Aligner.Ok, ready, bad, fault, run, on, hunt, position]
      omega
  · cases ht; exact h

theorem execConfirmMarkerCheck_sound (h : s.Sound) (ht : execConfirmMarkerCheck s = .next t) : t.Sound := by
  unfold execConfirmMarkerCheck at ht
  split at ht
  · next due =>
    simp only [Aligner.confirmCheckDue, Bool.and_eq_true, decide_eq_true_eq] at due
    obtain ⟨confirm, -⟩ := due
    have ok := h.link.aligner
    have ready := ok.frameEndDue_eq_false (by rw [confirm]; nofun)
    obtain ⟨bad, fault, run⟩ := ok.quiet (by rw [confirm]; nofun)
    have on := ok.enable_eq_true (by rw [confirm]; nofun)
    obtain ⟨-, -, position, room, -, place, -⟩ := ok
    have room := room (.inr confirm)
    obtain ⟨-, place⟩ := place confirm
    have next := Nat.mod_lt (s.aligner.expectedPosition + 1) (show 0 < 12 by decide)
    dsimp only at ht
    split at ht
    · split at ht <;> cases ht
      · next first =>
        refine h.setSearch ?_ (.inr confirm) (by rw [Aligner.confirmOnce, confirm]; nofun)
        rw [first] at place
        simp [Aligner.confirmOnce, Aligner.Ok, ready, bad, fault, run, on, confirm, room, next]
        omega
      · refine State.Sound.post (State.Sound.frameStart (s := { s with aligner := s.aligner.aligning })
          (h.setSearch ?_ (.inr confirm) nofun) rfl rfl _) _
        simp [Aligner.aligning, Aligner.Ok, on, position]
    · cases ht
      refine h.setSearch ?_ (.inr confirm) nofun
      simp [Aligner.rejectCandidate, Aligner.Ok, ready, bad, fault, run, on]
      omega
  · cases ht; exact h

/-! ### ALIGNED -/

theorem State.Sound.countMarkerError (h : s.Sound) : s.countMarkerError.Sound := by
  have counted : ({ s with monitor := { s.monitor with markerErrors := saturatingInc s.monitor.markerErrors } } : State).Sound :=
    h.setMonitor (h.link.monitor.counted ..)
  unfold State.countMarkerError
  dsimp only
  split
  · exact counted.post _
  · exact counted

/-- The marker-error counter leaves the aligner. -/
theorem State.countMarkerError_aligner (s : State) : s.countMarkerError.aligner = s.aligner := by
  unfold State.countMarkerError
  dsimp only
  split <;> rfl

theorem State.countMarkerError_transmitter (s : State) : s.countMarkerError.transmitter = s.transmitter := by
  unfold State.countMarkerError
  dsimp only
  split <;> rfl

theorem execAlignedMarkerCheck_sound (h : s.Sound) (ht : execAlignedMarkerCheck s = .next t) : t.Sound := by
  unfold execAlignedMarkerCheck at ht
  split at ht
  · next due =>
    simp only [Aligner.markerCheckDue, Bool.and_eq_true, decide_eq_true_eq, Bool.not_eq_true'] at due
    obtain ⟨⟨⟨aligned, place⟩, ended⟩, -⟩ := due
    obtain ⟨-, -, -, -, -, -, -, -, bad, -⟩ := h.link.aligner
    have taken : ∀ n, n ≤ 3 → ({ s.aligner.takeByte with badMarkers := n, expectedPlace := 0 } : Aligner).Ok
        s.transmitter.frameLength := fun n hn => h.link.aligner.markerTaken aligned ended hn
    dsimp only at ht
    split at ht <;> cases ht
    · exact State.Sound.frameStart (s := { s with aligner := { s.aligner.takeByte with badMarkers := 0 } })
        (h.setReceive (m := s.monitor) (taken 0 (by decide)) h.link.monitor id) aligned ended _
    · have byte : ({ s with aligner := s.aligner.takeByte } : State).Sound := by
        refine h.setReceive (m := s.monitor) ?_ h.link.monitor id
        have ok := taken s.aligner.badMarkers bad
        rw [← place] at ok
        exact ok
      have counted := byte.countMarkerError
      unfold State.badMarker
      dsimp only
      generalize hu : State.countMarkerError { s with aligner := s.aligner.takeByte } = u at counted ⊢
      have al : u.aligner = s.aligner.takeByte := by rw [← hu, State.countMarkerError_aligner]
      have tx : u.transmitter = s.transmitter := by rw [← hu, State.countMarkerError_transmitter]
      split
      · exact counted.loseAlignment (by rw [al]; exact aligned) _
      · next more =>
        refine State.Sound.frameStart
          (s := { u with aligner := { u.aligner with badMarkers := u.aligner.badMarkers + 1 } })
          (counted.setReceive (m := u.monitor) ?_ counted.link.monitor id) ?_ ?_ _
        · dsimp only
          rw [al, tx]
          rw [al] at more
          exact taken _ (by have more : ¬s.aligner.badMarkers + 1 = 4 := more; show s.aligner.badMarkers + 1 ≤ 3; omega)
        · rw [al]; exact aligned
        · rw [al]; exact ended
  · cases ht; exact h

theorem State.Sound.setRxBurst (h : s.Sound) (aligned : s.aligner.state = .aligned) {b : RxBurst}
    (data : b.phase = .data → b.target ≠ none ∧ b.received < b.length)
    (none_yet : b.phase = .awaitTag ∨ b.phase = .awaitLength → b.received = 0) : (s.setRxBurst b).Sound :=
  ⟨⟨h.link.transmitter, h.link.aligner, h.link.monitor, h.link.pending, data, none_yet, fun n => absurd aligned n⟩,
    h.side.of_eq rfl rfl rfl⟩

theorem State.Sound.byteArrival (h : s.Sound) {c : Channel} {b : Byte} (ht : s.byteArrival c b = .next t) : t.Sound :=
  ⟨h.link.of_same (State.byteArrival_sameLink ht), h.side.byteArrival ht⟩

theorem State.Sound.parsePoolByte (h : s.Sound) (aligned : s.aligner.state = .aligned) {b : Byte}
    (ht : s.parsePoolByte b = .next t) : t.Sound := by
  obtain ⟨data, none_yet, -⟩ := h.link.parser
  have skip : (s.setRxBurst { s.pool.rxBurst with phase := .skip }).Sound := h.setRxBurst aligned nofun (by simp)
  unfold State.parsePoolByte at ht
  split at ht
  · cases ht; exact h
  · cases ht; exact h
  · next phase =>
    cases ht
    unfold State.parseTag
    split
    · exact skip
    · exact h.setRxBurst aligned nofun fun _ => none_yet (.inl phase)
  · next phase =>
    cases ht
    have zero := none_yet (.inr phase)
    unfold State.parseLength
    dsimp only
    split_ifs with long empty target
    · exact skip.setMonitor (h.link.monitor.counted ..)
    · exact skip
    · exact skip.setMonitor (h.link.monitor.counted ..)
    · refine h.setRxBurst aligned (fun _ => ⟨target, ?_⟩) (by simp)
      show s.pool.rxBurst.received < b.toNat
      rw [zero]
      exact Nat.pos_of_ne_zero fun e => empty (BitVec.eq_of_toNat_eq (by simpa using e))
  · next phase =>
    obtain ⟨target, more⟩ := data phase
    unfold State.parseData at ht
    dsimp only at ht
    have counted : (s.setRxBurst { s.pool.rxBurst with
        received := s.pool.rxBurst.received + 1
        phase := if s.pool.rxBurst.received + 1 = s.pool.rxBurst.length then .skip else .data }).Sound := by
      refine h.setRxBurst aligned (fun p => ⟨target, ?_⟩) fun p => ?_
      · dsimp only at p ⊢
        split at p
        · cases p
        · omega
      · dsimp only at p
        split at p <;> simp at p
    split at ht
    · exact counted.byteArrival ht
    · cases ht; exact counted

theorem execSlotArrival_sound (h : s.Sound) (ht : execSlotArrival s = .next t) : t.Sound := by
  unfold execSlotArrival at ht
  split at ht
  · next due =>
    simp only [Aligner.arrivalDue, Bool.and_eq_true, decide_eq_true_eq] at due
    obtain ⟨⟨aligned, -⟩, -⟩ := due
    have taken : ({ s with aligner := s.aligner.handOnSlot } : State).Sound :=
      h.setReceive (m := s.monitor) (h.link.aligner.handOnSlot aligned) h.link.monitor id
    unfold State.resolveArrival at ht
    dsimp only at ht
    split at ht
    · cases ht; exact taken
    · exact taken.byteArrival ht
    · exact taken.parsePoolByte aligned ht
  · cases ht; exact h

theorem execFrameEnd_sound (h : s.Sound) (ht : execFrameEnd s = .next t) : t.Sound := by
  unfold execFrameEnd at ht
  split at ht
  · next due =>
    simp only [Aligner.frameEndReady, Bool.and_eq_true, decide_eq_true_eq] at due
    cases ht
    have ended : ({ s with aligner := { s.aligner with frameEndDue := false } } : State).Sound := by
      obtain ⟨enable, none, position, search, room, confirm, place, -, rest⟩ := h.link.aligner
      exact h.setReceive (m := s.monitor) ⟨enable, none, position, search, room, confirm, place, nofun, rest⟩
        h.link.monitor id
    obtain ⟨e, contexts⟩ := State.endRings_eq { s with aligner := { s.aligner with frameEndDue := false } }
    refine State.Sound.postInAnyOrder ⟨?_, ended.side.endRings contexts (by rw [e]) (by rw [e])⟩ _
    exact ended.link.of_eq (by rw [e]) (by rw [e]) (by rw [e]) (by rw [e]) (by rw [e]) (by rw [e])
  · cases ht; exact h

/-! ### The monitor's events -/

theorem execReceivedBitPosition_sound {b : Bool} (h : s.Sound) (ht : execReceivedBitPosition b s = .next t) : t.Sound := by
  obtain rfl := Host.Outcome.next.inj ht
  split
  · exact h.txBitPosition
  · split
    · next e =>
      simp only [Bool.and_eq_true, Bool.not_eq_true'] at e
      exact h.takeBit e.1 e.2 b
    · exact h

/-- The SILENCE condition set and the window closed (R39, R40). -/
theorem LineMonitor.Ok.closeWindow {m : LineMonitor} (h : m.Ok true) (b : Bool) :
    ({ m with silence := b, silenceWindow := none } : LineMonitor).Ok true := by
  obtain ⟨zeroRun, position, zeros, low, full, -, -⟩ := h
  exact ⟨zeroRun, position, zeros, low, full, fun w hw => (by cases hw), nofun⟩

theorem State.Sound.closeWindow (h : s.Sound) (on : s.aligner.receiving = true) (b : Bool) :
    ({ s with monitor := { s.monitor with silence := b, silenceWindow := none } } : State).Sound := by
  have monitor := h.link.monitor
  refine h.setMonitor ?_
  rw [on] at monitor ⊢
  exact monitor.closeWindow b

theorem execSilenceDeclaration_sound (h : s.Sound) (ht : execSilenceDeclaration s = .next t) : t.Sound := by
  unfold execSilenceDeclaration at ht
  split at ht
  · next due =>
    cases ht
    exact ((h.closeWindow (Bool.and_eq_true_iff.mp due).1 true).post _).requestHunt _
  · cases ht; exact h

theorem execSilenceClearing_sound (h : s.Sound) (ht : execSilenceClearing s = .next t) : t.Sound := by
  unfold execSilenceClearing at ht
  split at ht
  · next due =>
    cases ht
    exact (h.closeWindow (Bool.and_eq_true_iff.mp due).1 false).post _
  · cases ht; exact h

theorem execSilenceWindowFailure_sound (h : s.Sound) (ht : execSilenceWindowFailure s = .next t) : t.Sound := by
  unfold execSilenceWindowFailure at ht
  split at ht
  · next due =>
    cases ht
    exact h.closeWindow (Bool.and_eq_true_iff.mp due).1 s.monitor.silence
  · cases ht; exact h

/-- The next HOLD window, with the low-window count and the condition set (R41, R42). -/
theorem LineMonitor.Ok.nextHoldWindow {m : LineMonitor} (h : m.Ok true) {n : Nat} (hn : n ≤ 2) (b : Bool) :
    ({ m.nextHoldWindow with lowWindows := n, hold := b } : LineMonitor).Ok true := by
  obtain ⟨zeroRun, -, -, -, -, window, -⟩ := h
  exact ⟨zeroRun, Nat.zero_le _, Nat.zero_le _, hn, nofun, window, nofun⟩

theorem execHoldWindowEnd_sound (h : s.Sound) (ht : execHoldWindowEnd s = .next t) : t.Sound := by
  unfold execHoldWindowEnd at ht
  split at ht
  · next due =>
    simp only [Bool.and_eq_true] at due
    have monitor := h.link.monitor
    have next : ∀ n b, n ≤ 2 →
        ({ s with monitor := { s.monitor.nextHoldWindow with lowWindows := n, hold := b } } : State).Sound := fun n b hn => by
      refine h.setMonitor ?_
      rw [due.1] at monitor ⊢
      exact monitor.nextHoldWindow hn b
    split at ht <;> cases ht
    · unfold State.holdWindowLive
      dsimp only
      split
      · exact (next 0 false (by decide)).post _
      · exact next 0 false (by decide)
    · unfold State.holdWindowLow
      dsimp only
      split
      · exact ((next _ true (Nat.min_le_left _ _)).post _).requestHunt _
      · exact next _ _ (Nat.min_le_left _ _)
  · cases ht; exact h

/-! ### Receive enable and REALIGN -/

theorem execReceiveEnableWrite_sound {v : Byte} (h : s.Sound) (ht : execReceiveEnableWrite v s = .next t) : t.Sound := by
  obtain rfl := Host.Outcome.next.inj ht
  refine h.hostWrite ?_
  have ok := h.link.aligner
  have monitor := h.link.monitor
  dsimp only
  generalize v.getLsbD 0 = on
  cases on
  · rw [if_neg (by decide)]
    split
    · next off =>
      have disabled : s.aligner.enable = false := ok.1.mp off
      have same : ({ s.aligner with enable := false } : Aligner) = s.aligner := by rw [← disabled]
      rw [same]
      exact h
    · have idle : s.monitor.idle.Ok false := ⟨Nat.zero_le _, Nat.zero_le _, Nat.zero_le _, Nat.zero_le _, nofun, nofun,
        fun _ => rfl⟩
      unfold State.toOff
      dsimp only
      split
      · next aligned =>
        obtain ⟨posts, -, e, -⟩ := State.reportLeaving_eq { s with aligner := { s.aligner with enable := false } }
        have al := congrArg State.aligner e
        have mo := congrArg State.monitor e
        rw [al, mo]
        exact State.Sound.reportLeaving (s := { s with aligner := { s.aligner with enable := false } })
          h.link.transmitter (h.side.of_eq rfl rfl rfl) h.link.pending (Aligner.ok_off rfl) idle
      · next search =>
        have search : s.aligner.state ≠ .aligned := search
        exact h.setReceive (Aligner.ok_off rfl) idle fun e => absurd e search
  · rw [if_pos rfl]
    split
    · next off =>
      refine h.setReceive (m := s.monitor) (Aligner.ok_freshSearch rfl (ok.frameEndDue_eq_false (by rw [off]; nofun))
        (ok.quiet (by rw [off]; nofun))) ?_ fun e => by rw [off] at e; cases e
      obtain ⟨zeroRun, position, zeros, low, full, window, -⟩ := monitor
      exact ⟨zeroRun, position, zeros, low, full, window, nofun⟩
    · next on =>
      have enabled := ok.enable_eq_true on
      have same : ({ s.aligner with enable := true } : Aligner) = s.aligner := by rw [← enabled]
      rw [same]
      exact h

theorem execRealign_sound (h : s.Sound) (ht : execRealign s = .next t) : t.Sound := by
  obtain rfl := Host.Outcome.next.inj ht
  have fresh : s.aligner.state = .hunt ∨ s.aligner.state = .confirm →
      ({ s with aligner := s.aligner.freshSearch } : State).Sound := fun search => by
    refine h.setSearch (h.link.aligner.freshSearch ?_ ?_) search nofun <;> rcases search with e | e <;> rw [e] <;> nofun
  refine h.command ?_
  split
  · exact h
  · next e => exact fresh (.inl e)
  · next e => exact fresh (.inr e)
  · next aligned => exact h.loseAlignment aligned _

end Sys2Proof.Machine
end

