-- ==== Sys2Proof/Proofs/GoodSteps.lean ====
section
/-! SUPPORT. Good states: every command keeps them, none stops the part there, and a burst of a running channel has its
bytes. -/

namespace Sys2Proof.Machine

/-! ### The whole resets -/

/-- A state whose trunk side and channels are as a whole reset leaves them, with the link counters kept or cleared. -/
structure State.AsReset (s : State) : Prop where
  transmitter : s.transmitter = .reset
  aligner : s.aligner = .reset
  monitor : s.monitor.Ok false
  notifications : s.notifications = .reset
  maps : s.maps = .reset
  pool : s.pool = .reset
  channels : ∀ c, s.channel c = .reset

theorem State.channel_reset (c : Channel) : State.reset.channel c = .reset := by
  simp [State.channel, State.reset]

theorem State.AsReset.sound {s : State} (h : s.AsReset) : s.Sound := by
  obtain ⟨transmitter, aligner, monitor, notifications, maps, pool, channels⟩ := h
  refine ⟨⟨?_, ?_, ?_, ?_, ?_⟩, fun c => ?_, ?_, ?_⟩
  · rw [transmitter]; decide
  · rw [aligner, transmitter]; decide
  · rw [aligner]; exact monitor
  · rw [State.PendingLaw, maps]; exact ⟨nofun, nofun⟩
  · rw [State.ParserLaw, pool]; exact ⟨nofun, fun e => by simp [PoolUnit.reset, RxBurst.cleared], fun _ => rfl⟩
  · rw [channels]; exact ChannelContext.ok_reset
  · simp [State.RotationLaw, State.holdsTag, pool, PoolUnit.reset, channels, ChannelContext.reset]
  · rw [State.BurstLaw, pool]; exact ⟨Nat.zero_le _, le_rfl, nofun⟩

theorem State.AsReset.quiet {s : State} (h : s.AsReset) : s.QuietLaw := fun _ =>
  ⟨h.transmitter, h.aligner, h.notifications, h.maps, h.pool, h.channels⟩

theorem LineMonitor.ok_reset : LineMonitor.reset.Ok false := by decide

theorem execPowerOn_asReset {s t : State} (h : execPowerOn s = .next t) : t.AsReset := by
  cases h
  exact ⟨rfl, rfl, LineMonitor.ok_reset, rfl, rfl, rfl, State.channel_reset⟩

/-- A pin reset keeps the link counters, which have no range of their own (R52). -/
theorem execPinReset_asReset {s t : State} (h : execPinReset s = .next t) : t.AsReset := by
  cases h
  exact ⟨rfl, rfl, LineMonitor.ok_reset.counted .., rfl, rfl, rfl, State.channel_reset⟩

/-! ### Every command keeps the laws of both sides -/

theorem exec_sound {c : Instr} {s t : State} (hs : s.Sound) (h : exec c s = .next t) : t.Sound := by
  cases c with
  | powerOn => exact (execPowerOn_asReset h).sound
  | pinReset => exact (execPinReset_asReset h).sound
  | powerOnClearingEnd => exact execPowerOnClearingEnd_sound hs h
  | pinResetRelease => exact execPinResetRelease_sound hs h
  | transmitFrameStart => exact execTransmitFrameStart_sound hs h
  | slotDemand => exact execSlotDemand_sound hs h
  | entryToStopped => exact execEntryToStopped_sound hs h
  | searchByteExamination => exact execSearchByteExamination_sound hs h
  | confirmMarkerCheck => exact execConfirmMarkerCheck_sound hs h
  | alignedMarkerCheck => exact execAlignedMarkerCheck_sound hs h
  | slotArrival => exact execSlotArrival_sound hs h
  | frameEnd => exact execFrameEnd_sound hs h
  | silenceDeclaration => exact execSilenceDeclaration_sound hs h
  | silenceClearing => exact execSilenceClearing_sound hs h
  | silenceWindowFailure => exact execSilenceWindowFailure_sound hs h
  | holdWindowEnd => exact execHoldWindowEnd_sound hs h
  | transmitEnableWrite v => exact execTransmitEnableWrite_sound hs h
  | receiveEnableWrite v => exact execReceiveEnableWrite_sound hs h
  | frameLengthWrite v => exact execFrameLengthWrite_sound hs h
  | localLoopWrite v => exact execLocalLoopWrite_sound hs h
  | pageRegisterWrite v => exact execPageRegisterWrite_sound hs h
  | suspendFlagWrite v => exact execSuspendFlagWrite_sound hs h
  | kindEnableWrite w v => exact execKindEnableWrite_sound hs h
  | slotMapEntryWrite f v => exact execSlotMapEntryWrite_sound hs h
  | modeByteWrite v => exact execModeByteWrite_sound hs h
  | tagWrite v => exact execTagWrite_sound hs h
  | tagTableEntryWrite v => exact execTagTableEntryWrite_sound hs h
  | wideLowByteWrite i v => exact execWideLowByteWrite_sound hs h
  | wideHighByteCommit i v => exact execWideHighByteCommit_sound hs h
  | bufferDataRead => exact execBufferDataRead_sound hs h
  | bufferDataWrite v => exact execBufferDataWrite_sound hs h
  | wideLowByteRead i => exact execWideLowByteRead_sound hs h
  | wideHighByteRead i => exact execWideHighByteRead_sound hs h
  | portStatusRead => exact execPortStatusRead_sound hs h
  | missedSetThirdByteRead => exact execMissedSetThirdByteRead_sound hs h
  | registerWrite l v => exact execRegisterWrite_sound hs h
  | cmdStart => exact execStart_sound hs h
  | cmdStop => exact execStop_sound hs h
  | cmdFinish => exact execFinish_sound hs h
  | cmdGive => exact execGive_sound hs h
  | cmdAdvance => exact execAdvance_sound hs h
  | cmdSwitch => exact execSwitch_sound hs h
  | cmdRealign => exact execRealign_sound hs h
  | cmdClearCounters => exact execClearCounters_sound hs h
  | cmdRemove => exact execRemove_sound hs h
  | cmdFlush => exact execFlush_sound hs h
  | cmdEngineReset => exact execEngineReset_sound hs h
  | badCommand k => exact execBadCommand_sound hs h
  | receivedBitPosition b => exact execReceivedBitPosition_sound hs h

/-! ### The quiet of INIT and reset -/

/-- The part is under INIT or in reset, with its trunk side and its channels as the reset left them (R159, R161). -/
structure State.Quiet (s : State) : Prop where
  gate : s.port.init = true ∨ s.port.rstnLow = true
  transmitter : s.transmitter = .reset
  aligner : s.aligner = .reset
  rest : s.notifications = .reset ∧ s.maps = .reset ∧ s.pool = .reset ∧ ∀ c, s.channel c = .reset

/-- The two states differ in the port, the memory, the commands waiting and the model's own counters at most. -/
structure State.SameInside (s t : State) : Prop where
  transmitter : t.transmitter = s.transmitter
  aligner : t.aligner = s.aligner
  notifications : t.notifications = s.notifications
  maps : t.maps = s.maps
  pool : t.pool = s.pool
  channels : t.channels = s.channels

theorem State.SameInside.refl (s : State) : s.SameInside s := ⟨rfl, rfl, rfl, rfl, rfl, rfl⟩

namespace State.Quiet

variable {s t : State}

theorem not_hostReady (h : s.Quiet) : ¬s.hostReady := fun ready => by
  rcases h.gate with e | e
  · rw [ready.2] at e; cases e
  · rw [ready.1] at e; cases e

theorem hostWrite (h : s.Quiet) (page : Fin 6) (act : State → State) : s.SameInside (s.hostWrite page act) := by
  obtain e | ⟨ready, -⟩ := s.hostWrite_cases page act
  · rw [e]; exact .refl s
  · exact absurd ready h.not_hostReady

theorem hostRead (h : s.Quiet) (page : Fin 6) (act : State → State) : s.SameInside (s.hostRead page act) := by
  obtain e | e | ⟨ready, -⟩ := s.hostRead_cases page act
  · rw [e]; exact ⟨rfl, rfl, rfl, rfl, rfl, rfl⟩
  · rw [e]; exact .refl s
  · exact absurd ready h.not_hostReady

theorem command (h : s.Quiet) (act : State → State × ResultCode) : s.SameInside (s.command act) := by
  obtain e | ⟨-, e⟩ | ⟨ready, -⟩ := s.command_cases act
  · rw [e]; exact .refl s
  · rw [e]; exact ⟨rfl, rfl, rfl, rfl, rfl, rfl⟩
  · exact absurd ready.1 h.not_hostReady

theorem not_looped (h : s.Quiet) : s.looped = false := by rw [State.looped, h.aligner]; rfl

theorem txBitPosition (h : s.Quiet) : s.txBitPosition = s := by
  obtain e | ⟨x, -, hx, e⟩ := s.txBitPosition_cases
  · exact e
  · have stays : s.transmitter.advance = some s.transmitter := by rw [h.transmitter]; rfl
    obtain rfl := Option.some.inj (stays.symm.trans hx)
    rw [e, State.takeLooped_of_not_looped _ h.not_looped]

/-- No event of the trunk side is due. -/
theorem not_due (h : s.Quiet) :
    s.frameStartReady = false ∧ s.transmitter.demandDue = false ∧ s.transmitter.stopDue = false ∧
    s.aligner.examinationDue = false ∧ s.aligner.confirmCheckDue = false ∧ s.aligner.markerCheckDue = false ∧
    s.aligner.arrivalDue = false ∧ s.aligner.frameEndReady = false ∧ s.aligner.receiving = false := by
  have start : s.transmitter.frameStartDue = false := by rw [h.transmitter]; rfl
  rw [State.frameStartReady, start, Bool.false_and, h.transmitter, h.aligner]
  decide

/-- Nothing but the port, the memory and the model's own counters changes under INIT or in reset, but by a whole reset. -/
theorem exec_same (h : s.Quiet) {c : Instr} (hc : c.isWholeReset = false) (ht : exec c s = .next t) : s.SameInside t := by
  obtain ⟨start, demand, stop, search, confirm, marker, arrival, ended, receiving⟩ := h.not_due
  have nothing : ∀ {o : Host.Outcome State Fault Refusal}, o = .next t → o = .next s → s.SameInside t := fun e n => by
    cases e.symm.trans n; exact .refl s
  cases c with
  | powerOn => cases hc
  | pinReset => cases hc
  | powerOnClearingEnd =>
    have ht : execPowerOnClearingEnd s = .next t := ht
    unfold execPowerOnClearingEnd at ht
    split at ht <;> cases ht <;> exact ⟨rfl, rfl, rfl, rfl, rfl, rfl⟩
  | pinResetRelease => cases ht; exact ⟨rfl, rfl, rfl, rfl, rfl, rfl⟩
  | transmitFrameStart =>
    exact nothing ht (by show execTransmitFrameStart s = _; rw [execTransmitFrameStart, start]; rfl)
  | slotDemand => exact nothing ht (by show execSlotDemand s = _; rw [execSlotDemand, demand]; rfl)
  | entryToStopped => exact nothing ht (by show execEntryToStopped s = _; rw [execEntryToStopped, stop]; rfl)
  | searchByteExamination =>
    exact nothing ht (by show execSearchByteExamination s = _; rw [execSearchByteExamination, search]; rfl)
  | confirmMarkerCheck =>
    exact nothing ht (by show execConfirmMarkerCheck s = _; rw [execConfirmMarkerCheck, confirm]; rfl)
  | alignedMarkerCheck =>
    exact nothing ht (by show execAlignedMarkerCheck s = _; rw [execAlignedMarkerCheck, marker]; rfl)
  | slotArrival => exact nothing ht (by show execSlotArrival s = _; rw [execSlotArrival, arrival]; rfl)
  | frameEnd => exact nothing ht (by show execFrameEnd s = _; rw [execFrameEnd, ended]; rfl)
  | silenceDeclaration =>
    exact nothing ht (by show execSilenceDeclaration s = _; rw [execSilenceDeclaration, receiving]; rfl)
  | silenceClearing => exact nothing ht (by show execSilenceClearing s = _; rw [execSilenceClearing, receiving]; rfl)
  | silenceWindowFailure =>
    exact nothing ht (by show execSilenceWindowFailure s = _; rw [execSilenceWindowFailure, receiving]; rfl)
  | holdWindowEnd => exact nothing ht (by show execHoldWindowEnd s = _; rw [execHoldWindowEnd, receiving]; rfl)
  | receivedBitPosition b =>
    refine nothing ht ?_
    show execReceivedBitPosition b s = _
    rw [execReceivedBitPosition, h.not_looped, receiving]
    rfl
  | pageRegisterWrite v =>
    obtain rfl := Host.Outcome.next.inj ht
    split
    · exact .refl s
    · split
      · unfold State.turnPage
        split <;> exact ⟨rfl, rfl, rfl, rfl, rfl, rfl⟩
      · exact ⟨rfl, rfl, rfl, rfl, rfl, rfl⟩
  | portStatusRead =>
    obtain rfl := Host.Outcome.next.inj ht
    split_ifs <;> exact ⟨rfl, rfl, rfl, rfl, rfl, rfl⟩
  | badCommand k =>
    obtain rfl := Host.Outcome.next.inj ht
    split
    · exact .refl s
    · exact h.command _
  | transmitEnableWrite v | receiveEnableWrite v | frameLengthWrite v | localLoopWrite v | suspendFlagWrite v
  | kindEnableWrite w v | slotMapEntryWrite f v | modeByteWrite v | tagWrite v | tagTableEntryWrite v
  | wideLowByteWrite i v | wideHighByteCommit i v | bufferDataWrite v | registerWrite l v =>
    obtain rfl := Host.Outcome.next.inj ht
    exact h.hostWrite _ _
  | bufferDataRead | wideLowByteRead i | wideHighByteRead i | missedSetThirdByteRead =>
    obtain rfl := Host.Outcome.next.inj ht
    exact h.hostRead _ _
  | cmdStart | cmdStop | cmdFinish | cmdGive | cmdAdvance | cmdSwitch | cmdRealign | cmdClearCounters | cmdRemove | cmdFlush
  | cmdEngineReset =>
    obtain rfl := Host.Outcome.next.inj ht
    exact h.command _

end State.Quiet

theorem State.Good.quietState {s : State} (h : s.Good) (gate : s.port.init = true ∨ s.port.rstnLow = true) : s.Quiet := by
  obtain ⟨transmitter, aligner, rest⟩ := h.quiet gate
  exact ⟨gate, transmitter, aligner, rest⟩

/-- The quiet of a state that has not left it. -/
theorem State.Quiet.quietLaw {s t : State} (h : s.Quiet) (e : s.SameInside t) : t.QuietLaw := fun _ => by
  obtain ⟨-, transmitter, aligner, notifications, maps, pool, channels⟩ := h
  exact ⟨e.transmitter.trans transmitter, e.aligner.trans aligner, e.notifications.trans notifications, e.maps.trans maps,
    e.pool.trans pool, fun c => (State.channel_congr e.channels c).trans (channels c)⟩

/-! ### Good states -/

theorem State.Sound.good {s : State} (h : s.Sound) (memory : s.memory.wf) (queue : s.notifications.Ok) (quiet : s.QuietLaw) :
    s.Good :=
  ⟨memory, h.link.transmitter, h.link.aligner, h.link.monitor, h.link.pending, queue, h.side.contexts, h.side.rotation,
    h.side.burst, h.link.parser, quiet⟩

/-- The commands that wait are outside the part. -/
theorem State.Good.withPending {s : State} (h : s.Good) (l : List Instr) : ({ s with pending := l } : State).Good :=
  ⟨h.memory, h.transmitter, h.aligner, h.monitor, h.pending, h.queue, h.channels, h.rotation, h.burst, h.parser, h.quiet⟩

/-- Every command keeps a good state good. INIT and a low RSTN come with a whole reset alone, so a state that is quiet
afterwards was so before or has just been reset. -/
theorem exec_good {c : Instr} {s t : State} (h : s.Good) (ht : exec c s = .next t) : t.Good := by
  have memory := exec_keeps_memory_wf h.memory ht
  have queue := everyCommandKeepsTheQueueLaw c s t h.queue ht
  refine (exec_sound h.sound ht).good memory queue ?_
  cases hc : c.isWholeReset with
  | true =>
    obtain rfl | rfl := Instr.isWholeReset_iff.mp hc
    · exact (execPowerOn_asReset ht).quiet
    · exact (execPinReset_asReset ht).quiet
  | false =>
    intro gate
    have port := (exec_kept hc ht).port
    have before := h.quietState (gate.imp port.initFalls port.rstnFalls)
    exact before.quietLaw (before.exec_same hc ht) gate

/-- With no command waiting one TXCLK bit position goes by, and none in the quiet. -/
theorem State.Good.txBitPosition {s : State} (h : s.Good) : s.txBitPosition.Good := by
  have k := State.Evolves.txBitPosition s
  have queue : s.txBitPosition.notifications.Ok := by
    obtain ⟨posts, e⟩ := k.posts
    exact e ▸ h.queue.foldl_take posts
  refine h.sound.txBitPosition.good (k.memory ▸ h.memory) queue fun gate => ?_
  rw [k.port] at gate
  have quiet := h.quietState gate
  rw [quiet.txBitPosition]
  exact h.quiet gate

/-- Settles O59: the command at the front of the queue keeps the state good by exec_good, and a bit position does too. -/
theorem stepKeepsGood : Obligations.StepKeepsGood := by
  intro s t good h
  obtain ⟨-, rfl⟩ | ⟨c, rest, -, h⟩ := step_cases h
  · exact good.txBitPosition
  · exact exec_good (good.withPending rest) h

/-- Settles O58. -/
theorem resetStateIsGood : Obligations.ResetStateIsGood :=
  have reset : State.reset.AsReset := ⟨rfl, rfl, LineMonitor.ok_reset, rfl, rfl, rfl, State.channel_reset⟩
  reset.sound.good Memory.wf_nil (Notifications.ok_of_empty rfl) reset.quiet

/-! ### The address of a byte moved -/

/-- A running channel that can move a byte moves it inside the memory (R95). -/
theorem ChannelContext.Ok.address_lt {x : ChannelContext} (h : x.Ok) (run : x.running = true) (room : x.canMove = true) :
    x.address < 8192 := by
  have rest := not_atRest_of_running run
  have before := h.position_lt rest
  obtain ⟨-, ⟨-, -, one⟩, -, owners, segments⟩ := h
  obtain ⟨alternating, -⟩ := owners rest
  obtain ⟨plain, both⟩ := segments rest
  have inside : ∀ g, x.fits g = true → x.base g + x.length g ≤ 8192 := fun g fits => of_decide_eq_true fits
  by_cases mode : x.mode = .alternating
  · have moving : x.stalled = false := by simpa [canMove, mode] using room
    have device : x.owner x.active = .device := by
      cases own : x.owner x.active with
      | device => rfl
      | host => rw [(alternating mode).mpr own] at moving; cases moving
    have fits := inside x.active (both mode x.active (by cases x.active <;> simp) device)
    have use : x.segmentInUse = x.active := by rw [segmentInUse, mode]
    rw [address, use]
    omega
  · have fits := inside .segA (plain mode)
    have use : x.segmentInUse = .segA := by cases e : x.mode <;> simp_all [segmentInUse]
    rw [one mode] at before
    rw [address, use]
    omega

/-- The contexts are in their laws, so no byte arrival stops the part. -/
theorem State.byteArrival_next {s : State} (h : ∀ c, (s.channel c).Ok) (c : Channel) (b : Byte) :
    ∃ t, s.byteArrival c b = .next t := by
  rw [State.byteArrival_eq]
  split
  · exact ⟨_, rfl⟩
  · next takes =>
    split
    · exact ⟨_, rfl⟩
    · next room =>
      have inside := (h c).address_lt (ChannelContext.running_of_takesArrivals (by simpa using takes)) (by simpa using room)
      rw [if_neg (by omega)]
      exact ⟨_, rfl⟩

/-- No byte demand stops the part. -/
theorem State.byteDemand_next {s : State} (h : ∀ c, (s.channel c).Ok) (c : Channel) (pooled : Bool) :
    ∃ a, s.byteDemand c pooled = .next a := by
  rw [State.byteDemand_eq]
  split
  · exact ⟨_, rfl⟩
  · next answers =>
    split
    · exact ⟨_, rfl⟩
    · next room =>
      have answers := (not_or.mp answers).1
      have inside := (h c).address_lt (ChannelContext.running_of_answersDemands (by simpa using answers)) (by simpa using room)
      rw [if_neg (by omega)]
      exact ⟨_, rfl⟩

theorem execSlotDemand_next {s : State} (h : ∀ c, (s.channel c).Ok) : ∃ t, execSlotDemand s = .next t := by
  have answer : ∃ a, s.resolveDemand (s.transmitter.slotIndex + 1) = .next a := by
    unfold State.resolveDemand
    dsimp only
    split
    · exact ⟨_, rfl⟩
    · exact ⟨_, rfl⟩
    · exact State.byteDemand_next h _ _
    · unfold State.answerPoolSlot
      split
      · exact ⟨_, rfl⟩
      · split
        · exact ⟨_, rfl⟩
        · split
          · exact ⟨_, rfl⟩
          · unfold State.answerDataSlot
            split
            · exact ⟨_, rfl⟩
            · split
              · refine State.byteDemand_next ?_ _ _
                exact h
              · exact ⟨_, rfl⟩
  unfold execSlotDemand
  split
  · obtain ⟨a, e⟩ := answer
    rw [e]
    exact ⟨_, rfl⟩
  · exact ⟨_, rfl⟩

theorem execSlotArrival_next {s : State} (h : ∀ c, (s.channel c).Ok) : ∃ t, execSlotArrival s = .next t := by
  unfold execSlotArrival
  split
  · unfold State.resolveArrival
    dsimp only
    split
    · exact ⟨_, rfl⟩
    · refine State.byteArrival_next ?_ _ _
      exact h
    · unfold State.parsePoolByte
      split
      · exact ⟨_, rfl⟩
      · exact ⟨_, rfl⟩
      · exact ⟨_, rfl⟩
      · exact ⟨_, rfl⟩
      · unfold State.parseData
        dsimp only
        split
        · refine State.byteArrival_next ?_ _ _
          exact h
        · exact ⟨_, rfl⟩
  · exact ⟨_, rfl⟩

/-- Settles O60: only slot arrivals and slot demands move bytes, and those stay inside the memory by
ChannelContext.Ok.address_lt. -/
theorem goodStateNeverStops : Obligations.GoodStateNeverStops := by
  have either : ∀ {p : Prop} [Decidable p] (a b : State),
      ∃ t, (if p then Host.Outcome.next (φ := Fault) (ρ := Refusal) a else .next b) = .next t := by
    intro p _ a b
    split <;> exact ⟨_, rfl⟩
  intro c s good
  cases c with
  | slotDemand => exact execSlotDemand_next good.channels
  | slotArrival => exact execSlotArrival_next good.channels
  | powerOnClearingEnd => exact either _ _
  | entryToStopped => exact either _ _
  | frameEnd => exact either _ _
  | silenceDeclaration => exact either _ _
  | silenceClearing => exact either _ _
  | silenceWindowFailure => exact either _ _
  | searchByteExamination =>
    show ∃ t, execSearchByteExamination s = .next t
    unfold execSearchByteExamination
    split
    · exact either _ _
    · exact ⟨_, rfl⟩
  | confirmMarkerCheck =>
    show ∃ t, execConfirmMarkerCheck s = .next t
    unfold execConfirmMarkerCheck
    split
    · dsimp only
      split
      · exact either _ _
      · exact ⟨_, rfl⟩
    · exact ⟨_, rfl⟩
  | alignedMarkerCheck =>
    show ∃ t, execAlignedMarkerCheck s = .next t
    unfold execAlignedMarkerCheck
    split
    · exact either _ _
    · exact ⟨_, rfl⟩
  | holdWindowEnd =>
    show ∃ t, execHoldWindowEnd s = .next t
    unfold execHoldWindowEnd
    split
    · exact either _ _
    · exact ⟨_, rfl⟩
  | _ => exact ⟨_, rfl⟩

/-! ### A burst of a running channel -/

/-- The third and every later pool slot of a frame with a burst is a data slot while data is to come (R123). -/
theorem State.answerPoolSlot_data {s : State} {n : Nat} {c : Channel} (pool : 3 ≤ s.pool.txBurst.poolSlots) (third : 3 ≤ n)
    (granted : s.pool.txBurst.granted = some c) (more : s.pool.txBurst.answered < s.pool.txBurst.length) :
    s.answerPoolSlot n =
      ({ s with pool := { s.pool with
          txBurst := { s.pool.txBurst with answered := s.pool.txBurst.answered + 1 } } } : State).byteDemand c true := by
  unfold State.answerPoolSlot
  rw [if_neg (by omega), if_neg (by omega), if_neg (by omega)]
  unfold State.answerDataSlot
  rw [granted]
  exact if_pos more

theorem ChannelContext.shortfalls_afterByte (x : ChannelContext) : x.afterByte.shortfalls = x.shortfalls := by
  have owner : ∀ (g : Segment) (o : Owner), (x.setOwner g o).shortfalls = x.shortfalls := fun g o => by cases g <;> rfl
  unfold ChannelContext.afterByte
  split
  · rfl
  · rfl
  · split
    · split
      · exact owner _ _
      · exact owner _ _
    · rfl

/-- Settles O37: the burst law leaves the channel a byte (State.BurstLaw), so it can move one, and ChannelContext.Ok keeps
its address inside the memory. INIT is clear, since the transmitter is sending. -/
theorem runningBurstHasNoShortfall : Obligations.RunningBurstHasNoShortfall := by
  intro s c good due pool slots third granted more answers
  have send : (s.channel c).direction = .transmit := by
    simp only [ChannelContext.answersDemands, Bool.and_eq_true, decide_eq_true_eq] at answers
    exact answers.1
  have run := ChannelContext.running_of_answersDemands answers
  obtain ⟨-, left⟩ := good.burst.2.2 c granted answers
  have room : (s.channel c).canMove = true := ChannelContext.canMove_of_available send (by omega)
  have inside := (good.channels c).address_lt run room
  have cleared : s.port.init = false := by
    refine Bool.eq_false_iff.mpr fun init => ?_
    rw [(good.quiet (.inl init)).1] at due
    cases due
  generalize hu : ({ s with pool := { s.pool with
    txBurst := { s.pool.txBurst with answered := s.pool.txBurst.answered + 1 } } } : State) = u
  have channel : u.channel = s.channel := by rw [← hu]; rfl
  have demand : u.byteDemand c true =
      .next (u.withByte c (s.channel c).afterByte (u.bytePosts c), u.byteAt (s.channel c).address) := by
    rw [State.byteDemand_eq, channel, if_neg (by simp [answers]), if_neg (by simp [room]), if_neg (by omega)]
  have byte : u.byteAt (s.channel c).address = s.memory.read (s.channel c).address := by
    rw [← hu]; exact State.byteAt_of_ready cleared _
  have exec : execSlotDemand s = .next ((u.withByte c (s.channel c).afterByte (u.bytePosts c)).fixNextByte
      (s.memory.read (s.channel c).address)) := by
    unfold execSlotDemand
    rw [if_pos due]
    unfold State.resolveDemand
    simp only [pool]
    rw [State.answerPoolSlot_data slots third granted more, hu, demand, byte]
    rfl
  refine ⟨_, exec, ?_, ?_, ?_, fun d hd => ?_⟩
  · subst hu; rfl
  · exact u.channel_setChannel_self c _
  · refine (congrArg ChannelContext.shortfalls (u.channel_setChannel_self c _)).trans ?_
    exact ChannelContext.shortfalls_afterByte _
  · rw [← channel]
    exact u.channel_setChannel_ne hd _

end Sys2Proof.Machine
end

