-- ==== Sys2Proof/Proofs/PortStatements.lean ====
section
/-! SUPPORT. The gates of the host port, the table of wide items, and the statements over all commands that follow from what
each command keeps. -/

namespace Sys2Proof.Machine

/-! ### What the host's accesses are -/

/-- A write of an item is a host write at the item's page (R159, R161). -/
theorem exec_itemWrite {c : Instr} (hc : c.isItemWrite = true) (s : State) :
    ∃ page act, exec c s = .next (s.hostWrite page act) := by
  cases c <;> cases hc <;> exact ⟨_, _, rfl⟩

/-- A read of an item is a host read at the item's page (R159, R161). -/
theorem exec_itemRead {c : Instr} (hc : c.isItemRead = true) (s : State) :
    ∃ page act, exec c s = .next (s.hostRead page act) := by
  cases c <;> cases hc <;> exact ⟨_, _, rfl⟩

/-- A code of the command location is a command, or names another row's (R156). -/
theorem exec_commandCode {c : Instr} (hc : c.isCommandCode = true) (s : State) :
    (∃ act, exec c s = .next (s.command act)) ∨ (c.wellFormed = false ∧ exec c s = .next s) := by
  cases c
  case badCommand k =>
    by_cases named : codeNamesCommand k = true
    · refine .inr ⟨?_, ?_⟩
      · show (!namesCommand k) = false
        rw [← codeNamesCommand_eq, named]; rfl
      · show execBadCommand k s = _
        rw [execBadCommand, if_pos named]
    · refine .inl ⟨fun s => (s, .badCommand), ?_⟩
      show execBadCommand k s = _
      rw [execBadCommand, if_neg named]
  all_goals cases hc <;> exact .inl ⟨_, rfl⟩

theorem State.hostRead_rstnLow {s : State} (h : s.port.rstnLow = true) (page : Fin 6) (act : State → State) :
    s.hostRead page act = s.returnByte 0 := by
  simp [State.hostRead, h]

theorem State.hostRead_init {s : State} (h : s.port.init = true) (page : Fin 6) (act : State → State) :
    s.hostRead page act = s.returnByte 0 := by
  simp [State.hostRead, h]

theorem State.hostRead_otherPage {s : State} {page : Fin 6} (h : s.hostReady) (hp : s.port.page ≠ page)
    (act : State → State) : s.hostRead page act = s := by
  simp [State.hostRead, h.1, h.2, hp]

theorem State.command_rstnLow {s : State} (h : s.port.rstnLow = true) (act : State → State × ResultCode) :
    s.command act = s := by
  simp [State.command, h]

theorem State.command_otherPage {s : State} (h : s.port.page ≠ 0) (act : State → State × ResultCode) :
    s.command act = s := by
  simp [State.command, h]

theorem State.command_init {s : State} (hrstn : s.port.rstnLow = false) (hpage : s.port.page = 0) (h : s.port.init = true)
    (act : State → State × ResultCode) : s.command act = s.setResult .notReady := by
  simp [State.command, hrstn, hpage, h]

/-! ### The table of wide items -/

/-- The table of section 9.3 gives each wide item the page, the location and the value that the model gives it. -/
theorem State.mem_wideTable {s : State} {i : WideItem} {p : Fin 6} {l : BitVec 6} {v : Half} :
    (i, p, l, v) ∈ s.wideTable ↔ p = widePage i ∧ l = BitVec.ofNat 6 (wideLocation i) ∧ v = s.wideValue i := by
  have stamp : (s.notifications.queue.head?.map fun r => r.post.stamp).getD 0 = s.wideValue .headStamp := by
    simp only [State.wideValue]
    cases s.notifications.queue <;> rfl
  simp only [State.wideTable, List.mem_cons, Prod.mk.injEq, List.not_mem_nil, or_false, stamp]
  cases i <;> simp [widePage, wideLocation, State.wideValue, State.selected]

/-! ### The gates -/

/-- Settles O5: each access is a host write, a host read or a command, whose gates are those of State.hostWrite,
State.hostRead and State.command. -/
theorem gatesHoldHostAccessesBack : Obligations.GatesHoldHostAccessesBack := by
  refine ⟨fun c s low => ⟨?_, ?_, fun l => by simp [State.busRead, low]⟩, fun c s high init => ⟨?_, ?_, ?_, ?_⟩,
    fun s b => rfl, fun s ready => ⟨?_, ?_, ?_⟩⟩
  case refine_1 =>
    rintro (h | h | ⟨v, rfl⟩)
    · obtain ⟨page, act, e⟩ := exec_itemWrite h s
      rw [e, s.hostWrite_rstnLow low]
    · obtain ⟨act, e⟩ | ⟨-, e⟩ := exec_commandCode h s <;> rw [e]
      rw [s.command_rstnLow low]
    · exact congrArg _ (if_pos low)
  case refine_2 =>
    rintro (h | rfl)
    · obtain ⟨page, act, e⟩ := exec_itemRead h s
      rw [e, s.hostRead_rstnLow low]
    · exact congrArg _ (if_pos low)
  case refine_3 =>
    intro h
    obtain ⟨page, act, e⟩ := exec_itemWrite h s
    rw [e, s.hostWrite_init init]
  case refine_4 =>
    intro h
    obtain ⟨page, act, e⟩ := exec_itemRead h s
    rw [e, s.hostRead_init init]
  case refine_5 =>
    intro h wf page
    obtain ⟨act, e⟩ | ⟨bad, -⟩ := exec_commandCode h s
    · rw [e, s.command_init high page init]
    · rw [wf] at bad; cases bad
  case refine_6 =>
    intro l other
    simp only [State.busRead, high, init, Bool.false_eq_true, if_false, if_true, if_neg other]
  case refine_7 =>
    rintro page c (h | rfl)
    · obtain ⟨act, e⟩ | ⟨-, e⟩ := exec_commandCode h s <;> rw [e]
      rw [s.command_otherPage page]
    · show execPortStatusRead s = _
      simp [execPortStatusRead, ready.1, ready.2, page]
  case refine_8 =>
    intro v w f c p mem other
    simp only [List.mem_cons, Prod.mk.injEq, List.not_mem_nil, or_false] at mem
    rcases mem with ⟨rfl, rfl⟩ | ⟨rfl, rfl⟩ | ⟨rfl, rfl⟩ | ⟨rfl, rfl⟩ | ⟨rfl, rfl⟩ | ⟨rfl, rfl⟩ | ⟨rfl, rfl⟩ | ⟨rfl, rfl⟩ |
      ⟨rfl, rfl⟩ | ⟨rfl, rfl⟩ | ⟨rfl, rfl⟩ | ⟨rfl, rfl⟩ | ⟨rfl, rfl⟩
    case inr.inr.inr.inr.inr.inr.inr.inr.inr.inr.inl => exact congrArg _ (s.hostRead_otherPage ready other _)
    case inr.inr.inr.inr.inr.inr.inr.inr.inr.inr.inr.inr => exact congrArg _ (s.hostRead_otherPage ready other _)
    all_goals exact congrArg _ (s.hostWrite_otherPage other _)
  case refine_9 =>
    intro i p l x v mem other c hc
    obtain ⟨rfl, -⟩ := State.mem_wideTable.mp mem
    simp only [List.mem_cons, List.not_mem_nil, or_false] at hc
    rcases hc with rfl | rfl | rfl | rfl
    · exact congrArg _ (s.hostRead_otherPage ready other _)
    · exact congrArg _ (s.hostRead_otherPage ready other _)
    · exact congrArg _ (s.hostWrite_otherPage other _)
    · exact congrArg _ (s.hostWrite_otherPage other _)

/-! ### ACCESS_ERROR, the result code and the link counters -/

/-- Settles O6. -/
theorem accessErrorIsSticky : Obligations.AccessErrorIsSticky := by
  refine ⟨fun c s t read hc h => (exec_kept hc h).port.accessError read, fun s => rfl, fun s high page =>
    ⟨s.port.statusByte, ?_, ?_⟩⟩
  · show execPortStatusRead s = _
    simp [execPortStatusRead, high, page]
  · simp only [HostPort.statusByte]
    cases s.port.init <;> cases s.port.accessError <;> rfl

/-- Settles O7. -/
theorem commandsWriteTheResultCodeAlone : Obligations.CommandsWriteTheResultCodeAlone := by
  refine ⟨fun c s t hc h => ?_, fun c s t hc hw h => (exec_kept hw h).port.result hc, fun k s ready hk => ?_, fun s r => rfl⟩
  · have hw : c.isWholeReset = false := by cases c <;> cases hc <;> rfl
    have k := (exec_kept hw h).port
    exact ⟨k.command hc, k.holders hc⟩
  · have unnamed : codeNamesCommand k = false := by
      rcases hk with rfl | hk
      · rfl
      · have : ¬k.toNat ≤ 11 := by omega
        simp [codeNamesCommand, this]
    show execBadCommand k s = _
    rw [execBadCommand, unnamed, State.command_ready ready]
    rfl

theorem State.clearShortfalls_setResult (s : State) (r : ResultCode) :
    s.clearShortfalls.setResult r =
      { s with port := { s.port with result := r }, channels := s.clearShortfalls.channels } := by
  simp only [State.clearShortfalls, State.mapChannels, State.setResult]

theorem State.channel_clearShortfalls (s : State) (c : Channel) :
    s.clearShortfalls.channel c = { s.channel c with shortfalls := 0 } := s.channel_mapChannels _ c

/-- CLEAR_COUNTERS once a gate lets it through (R50, R51). -/
theorem exec_cmdClearCounters {s : State} (h : s.commandReady) {link chan : Bool}
    (hl : s.port.operand0.getLsbD 0 = link) (hc : s.port.operand0.getLsbD 1 = chan) :
    exec .cmdClearCounters s = .next (
      if !link && !chan then s.setResult .badAmount
      else
        let t := if link then { s with monitor := s.monitor.clearCounters } else s
        (if chan then t.clearShortfalls else t).setResult .ok) := by
  subst hl hc
  refine congrArg _ ((State.command_ready h _).trans ?_)
  dsimp only
  split <;> rfl

/-- Settles O56: the clearing by its flags, and the rise through every other command by what Kept says of the counters. -/
theorem countersRiseUntilCleared : Obligations.CountersRiseUntilCleared := by
  refine ⟨fun s ready => ⟨fun link chan => ?_, fun flags => ?_⟩, fun c s t power clear h => ?_⟩
  · rw [exec_cmdClearCounters ready link chan]; rfl
  · have exec := exec_cmdClearCounters ready rfl rfl
    refine ⟨_, exec, ?_⟩
    generalize s.port.operand0.getLsbD 0 = link at flags
    generalize s.port.operand0.getLsbD 1 = chan at flags
    cases chan
    · cases link
      · simp at flags
      · exact ⟨rfl, fun c => rfl⟩
    · cases link
      · exact ⟨by simp [State.clearShortfalls_setResult], fun c => by simp [State.channel_clearShortfalls]⟩
      · refine ⟨by simp [State.clearShortfalls_setResult, LineMonitor.clearCounters], fun c => ?_⟩
        simp only [Bool.not_true, Bool.and_self, Bool.false_eq_true, if_false, if_true, State.channel_setResult,
          State.channel_clearShortfalls]
        rfl
  · cases hc : c.isWholeReset with
    | false =>
      obtain ⟨errors, losses, formats, discards⟩ := (exec_kept hc h).counters clear
      exact ⟨errors, losses, formats, discards⟩
    | true =>
      obtain rfl | rfl := Instr.isWholeReset_iff.mp hc
      · exact absurd rfl power
      · cases h; exact ⟨le_rfl, le_rfl, le_rfl, le_rfl⟩

/-! ### The pair of reads of a wide value -/

theorem exec_wideLowByteRead {s : State} {i : WideItem} (h : s.hostReady) (hp : s.port.page = widePage i) :
    exec (.wideLowByteRead i) s = .next { s with port := { s.port with
      dataOut := s.wideLow i, readHolder := some ⟨s.wideKey i, s.wideHigh i⟩ } } :=
  congrArg _ (State.hostRead_ready h hp _)

theorem exec_wideHighByteRead {s : State} {i : WideItem} (h : s.hostReady) (hp : s.port.page = widePage i) :
    exec (.wideHighByteRead i) s = .next { s with port := { s.port with
      dataOut := s.readHigh i
      readHolder := if s.readHeld i then none else s.port.readHolder } } := by
  refine congrArg _ ((State.hostRead_ready h hp _).trans ?_)
  dsimp only
  split <;> rfl

/-- The holder's byte is what a high-byte read of its item returns (R151). -/
theorem State.readHigh_of_held {s : State} {i : WideItem} {b : Byte} (h : s.port.readHolder = some ⟨s.wideKey i, b⟩) :
    s.readHigh i = b := by
  simp [State.readHigh, h]

/-- Settles O12: the holder keeps the high byte of the moment of the low-byte read through the command in between, and its tag
still names the item. -/
theorem wideReadPairBelongsToOneMoment : Obligations.WideReadPairBelongsToOneMoment := by
  intro i p l v c s t u w mem ready page low high turn whole engine ht hu select hw
  obtain ⟨rfl, -, rfl⟩ := State.mem_wideTable.mp mem
  rw [exec_wideLowByteRead ready page] at ht
  obtain rfl := Host.Outcome.next.inj ht
  have k := (exec_kept whole hu).port
  have uready : u.hostReady := by
    constructor
    · exact Bool.eq_false_iff.mpr fun e => by have := k.rstnFalls e; rw [ready.1] at this; cases this
    · exact Bool.eq_false_iff.mpr fun e => by have := k.initFalls e; rw [ready.2] at this; cases this
  have held : u.port.readHolder = some ⟨u.wideKey i, s.wideHigh i⟩ := by
    have key : u.wideKey i = s.wideKey i := by simp only [State.wideKey, select]
    rw [k.readHolder low high turn engine, key]
  rw [exec_wideHighByteRead uready ((k.page turn).trans page)] at hw
  obtain rfl := Host.Outcome.next.inj hw
  exact ⟨rfl, State.readHigh_of_held held⟩

end Sys2Proof.Machine
end

