-- ==== Sys2Proof/Proofs/BytesMoved.lean ====
section
/-! SUPPORT. The bytes that CHANNEL slots move, and the host position of a RING channel. -/

namespace Sys2Proof.Machine

/-! ### The slots of a CHANNEL entry -/

/-- The arrival of a CHANNEL slot is a byte arrival at its channel (R68, R90). -/
theorem execSlotArrival_channel {s : State} {c : Channel} (due : s.aligner.arrivalDue = true)
    (entry : (s.maps.bank s.maps.rxActive).rxEntry (s.aligner.nextSlot s.transmitter.frameLength) = ⟨.channel, c⟩) :
    exec .slotArrival s =
      ({ s with aligner := s.aligner.handOnSlot } : State).byteArrival c (byteOfBits s.aligner.bits) := by
  refine (if_pos due).trans ?_
  unfold State.resolveArrival
  simp only [entry]

/-- The demand of a CHANNEL slot is a byte demand at its channel, whose answer fixes the byte (R70, R90). -/
theorem execSlotDemand_channel {s : State} {c : Channel} (due : s.transmitter.demandDue = true)
    (kind : ((s.maps.bank s.maps.txActive).txEntry (s.transmitter.slotIndex + 1)).kind = .channel)
    (channel : ((s.maps.bank s.maps.txActive).txEntry (s.transmitter.slotIndex + 1)).channel = c) :
    exec .slotDemand s = thenNext (s.byteDemand c false) fun (t, b) => t.fixNextByte b := by
  refine (if_pos due).trans ?_
  unfold State.resolveDemand
  simp only [kind, channel]

/-! The cases of a byte arrival and of a byte demand at a channel that answers it (R90, R95, R115). -/

namespace State

variable {s : State} {c : Channel} {b : Byte} {pooled : Bool}

theorem byteArrival_dropped (takes : (s.channel c).takesArrivals = false) : s.byteArrival c b = .next s := by
  rw [State.byteArrival_eq, if_pos takes]

theorem byteArrival_shortfall (takes : (s.channel c).takesArrivals = true) (full : (s.channel c).canMove = false) :
    s.byteArrival c b = .next { s.setChannel c (s.channel c).afterShortfall with
      notifications := (s.shortfallPosts c).foldl Notifications.take s.notifications } := by
  rw [State.byteArrival_eq, if_neg (by simp [takes]), if_pos full]

theorem byteArrival_moved (takes : (s.channel c).takesArrivals = true) (room : (s.channel c).canMove = true)
    (inside : (s.channel c).address < 8192) :
    s.byteArrival c b = .next { s.withByte c (s.channel c).afterByte (s.bytePosts c) with
      memory := s.memory.write (s.channel c).address b } := by
  rw [State.byteArrival_eq, if_neg (by simp [takes]), if_neg (by simp [room]), if_neg (by omega)]

theorem byteArrival_outside (takes : (s.channel c).takesArrivals = true) (room : (s.channel c).canMove = true)
    (outside : 8192 ≤ (s.channel c).address) : s.byteArrival c b = .fault .addressOutsideMemory := by
  rw [State.byteArrival_eq, if_neg (by simp [takes]), if_neg (by simp [room]), if_pos outside]

theorem byteDemand_idle (other : (s.channel c).answersDemands = false ∨ (s.channel c).poolMode = true ∧ pooled = false) :
    s.byteDemand c pooled = .next (s, s.transmitter.idleByte) := by
  rw [State.byteDemand_eq, if_pos other]

theorem byteDemand_shortfall (answers : (s.channel c).answersDemands = true) (plain : (s.channel c).poolMode = pooled)
    (empty : (s.channel c).canMove = false) :
    s.byteDemand c pooled = .next ({ s.setChannel c (s.channel c).afterShortfall with
      notifications := (s.shortfallPosts c).foldl Notifications.take s.notifications }, s.transmitter.idleByte) := by
  rw [State.byteDemand_eq, if_neg (by simp [answers, plain]), if_pos empty]

theorem byteDemand_moved (answers : (s.channel c).answersDemands = true) (plain : (s.channel c).poolMode = pooled)
    (room : (s.channel c).canMove = true) (inside : (s.channel c).address < 8192) :
    s.byteDemand c pooled =
      .next (s.withByte c (s.channel c).afterByte (s.bytePosts c), s.byteAt (s.channel c).address) := by
  rw [State.byteDemand_eq, if_neg (by simp [answers, plain]), if_neg (by simp [room]), if_neg (by omega)]

theorem byteDemand_outside (answers : (s.channel c).answersDemands = true) (plain : (s.channel c).poolMode = pooled)
    (room : (s.channel c).canMove = true) (outside : 8192 ≤ (s.channel c).address) :
    s.byteDemand c pooled = .fault .addressOutsideMemory := by
  rw [State.byteDemand_eq, if_neg (by simp [answers, plain]), if_neg (by simp [room]), if_pos outside]

end State

/-! ### The context and the records of a byte moved -/

namespace ChannelContext

variable (x : ChannelContext)

theorem fillAfterByte_eq : x.fillAfterByte = if x.direction = .receive then x.fill + 1 else x.fill - 1 := by
  unfold fillAfterByte
  cases x.direction <;> rfl

theorem emptiesEnding_iff :
    x.emptiesEnding = true ↔ x.direction = .transmit ∧ x.state = .ending ∧ x.fillAfterByte = 0 := by
  simp [emptiesEnding, and_assoc]

theorem byteRecords_single (mode : x.mode = .single) :
    x.byteRecords = if x.position + 1 = x.lengthA then [(.channelEnded, .completed)] else [] := by
  simp [byteRecords, mode, completesSegment, segmentInUse, length]

theorem byteRecords_ring (mode : x.mode = .ring) :
    x.byteRecords = (if x.watermark ≠ 0 ∧ x.fillAfterByte = x.watermark then [(.watermark, .none)] else []) ++
      (if x.direction = .transmit ∧ x.state = .ending ∧ x.fillAfterByte = 0 then [(.channelEnded, .finished)] else []) := by
  simp only [byteRecords, mode, emptiesEnding_iff]

theorem byteRecords_within (mode : x.mode = .alternating) (more : x.position + 1 ≠ x.length x.active) :
    x.byteRecords = [] := by
  simp [byteRecords, mode, completesSegment, segmentInUse, more]

theorem byteRecords_handOver (mode : x.mode = .alternating) (last : x.position + 1 = x.length x.active) :
    x.byteRecords = (.segmentDone, if x.active = .segA then .segmentA else .segmentB) ::
      if x.state = .ending then [(.channelEnded, .finished)] else [] := by
  simp [byteRecords, mode, completesSegment, segmentInUse, last]

theorem address_eq :
    x.address = (if x.mode = .alternating ∧ x.active = .segB then x.baseB else x.baseA) + x.position := by
  unfold address segmentInUse
  cases x.mode <;> cases x.active <;> rfl

theorem canMove_iff :
    x.canMove = true ↔ x.mode = .single ∨ (x.mode = .ring ∧ x.direction = .receive ∧ x.fill < x.lengthA) ∨
      (x.mode = .ring ∧ x.direction = .transmit ∧ 0 < x.fill) ∨ (x.mode = .alternating ∧ x.stalled = false) := by
  unfold canMove
  cases mode : x.mode <;> cases direction : x.direction <;> simp

theorem takesArrivals_iff :
    x.takesArrivals = true ↔ x.direction = .receive ∧ (x.state = .active ∨ x.state = .ending) := by
  simp [takesArrivals, running]

theorem answersDemands_iff :
    x.answersDemands = true ↔ x.direction = .transmit ∧ (x.state = .active ∨ x.state = .ending) := by
  simp [answersDemands, running]

/-- The hand-over of segment A or B, with the end of a run in ENDING (R105, R106). -/
theorem afterByte_lastOf {g : Segment} (mode : x.mode = .alternating) (active : x.active = g)
    (last : x.position + 1 = x.length g) :
    x.afterByte = { x.setOwner g .host with
      shortRun := false, position := 0
      state := if x.state = .ending then .done else x.state
      active := if x.state = .ending then g else g.other
      stalled := if x.state = .ending then x.stalled else x.owner g.other = .host } := by
  have last : x.position + 1 = x.length x.active := active ▸ last
  by_cases ends : x.state = .ending
  · rw [afterByte_lastEnding mode last ends]
    cases g <;> simp [ends, active, setOwner]
  · rw [afterByte_handOver mode last ends]
    cases g <;> simp [ends, active, setOwner]

end ChannelContext

/-! ### The bytes of CHANNEL slots -/

/-- Settles O31: a byte moved by State.byteArrival_eq and State.byteDemand_eq, and the context it leaves mode by mode. -/
theorem bytesMoveAtBasePlusPosition : Obligations.BytesMoveAtBasePlusPosition := by
  refine ⟨fun s c due cleared wf entry takes room inside => ?_, fun s c due kind channel answers plain room inside => ?_,
    fun s c due entry takes room outside => ?_, fun s c due kind channel answers plain room outside => ?_,
    fun x => ⟨fun mode => ?_, fun mode fill hfill => ?_, fun mode more => ?_, fun mode active last => ?_,
      fun mode active last => ?_⟩,
    fun x => ⟨x.address_eq, x.takesArrivals_iff, x.answersDemands_iff, x.canMove_iff⟩⟩
  case refine_1 =>
    have moved := State.byteArrival_moved (s := { s with aligner := s.aligner.handOnSlot }) (b := byteOfBits s.aligner.bits)
      takes room inside
    refine ⟨_, (execSlotArrival_channel due entry).trans moved, rfl, fun a => ?_,
      s.channel_setChannel_self c _, fun d hd => s.channel_setChannel_ne hd _⟩
    rw [State.byteAt_of_ready (s := s) cleared]
    refine (State.byteAt_of_ready (by exact cleared) a).trans ?_
    exact Memory.read_write wf _ _ a
  case refine_2 =>
    have moved := State.byteDemand_moved answers plain room inside
    exact ⟨_, (execSlotDemand_channel due kind channel).trans (congrArg (thenNext · _) moved), rfl,
      s.channel_setChannel_self c _, fun d hd => s.channel_setChannel_ne hd _⟩
  case refine_3 => exact (execSlotArrival_channel due entry).trans (State.byteArrival_outside takes room outside)
  case refine_4 =>
    exact (execSlotDemand_channel due kind channel).trans
      (congrArg (thenNext · _) (State.byteDemand_outside answers plain room outside))
  case refine_5 => exact ⟨ChannelContext.afterByte_single mode, x.byteRecords_single mode⟩
  case refine_6 =>
    rw [← x.fillAfterByte_eq] at hfill
    subst hfill
    exact ⟨ChannelContext.afterByte_ring mode, x.byteRecords_ring mode⟩
  case refine_7 =>
    have more : x.position + 1 ≠ x.length x.active := by
      cases active : x.active <;> simpa [active, ChannelContext.length] using more
    exact ⟨ChannelContext.afterByte_within mode more, x.byteRecords_within mode more⟩
  case refine_8 =>
    refine ⟨x.afterByte_lastOf (g := .segA) mode active last, ?_⟩
    rw [x.byteRecords_handOver mode (by rw [active]; exact last), active]
    rfl
  case refine_9 =>
    refine ⟨x.afterByte_lastOf (g := .segB) mode active last, ?_⟩
    rw [x.byteRecords_handOver mode (by rw [active]; exact last), active]
    rfl

/-! ### The host position (section 6.10) -/

namespace ChannelContext

variable {x : ChannelContext}

/-- A byte moved takes the position on and the fill the other way or along with it, so the host's side stays (R118). -/
theorem hostPosition_afterByte (mode : x.mode = .ring) (room : x.canMove = true) :
    x.afterByte.hostPosition = x.hostPosition := by
  rw [afterByte_ring mode]
  cases direction : x.direction with
  | receive =>
    simp only [hostPosition, direction, fillAfterByte]
    push_cast
    rw [sub_eq_add_neg, Int.emod_add_emod]
    congr 1
    omega
  | transmit =>
    have bytes : 0 < x.fill := by simpa [canMove, mode, direction] using room
    simp only [hostPosition, direction, fillAfterByte]
    rw [Int.natCast_mod, Int.emod_add_emod]
    congr 1
    omega

/-- At position 0 with nothing filled the host stands at 0. -/
theorem hostPosition_of_empty (position : x.position = 0) (fill : x.fill = 0) : x.hostPosition = 0 := by
  unfold hostPosition
  split <;> simp [position, fill]

theorem hostPosition_advanced {n : Nat} (fits : x.advanceFits n = true) :
    (x.advanced n).hostPosition = (x.hostPosition + n) % (x.lengthA : Int) := by
  cases direction : x.direction with
  | receive =>
    have enough : n ≤ x.fill := by simpa [advanceFits, direction] using fits
    simp only [hostPosition, advanced, direction]
    rw [Int.emod_add_emod]
    congr 1
    omega
  | transmit =>
    simp only [hostPosition, advanced, direction]
    rw [Int.emod_add_emod]
    congr 1
    omega

theorem hostPosition_started (mode : x.mode = .ring) (n : Nat) :
    (x.started n).hostPosition = if x.direction = .receive then 0 else (n : Int) % (x.lengthA : Int) := by
  cases direction : x.direction <;> simp [hostPosition, started, direction, mode]

end ChannelContext

/-- A command at the channel that operand 0 names. -/
theorem State.command_onChannel {s : State} {c : Channel} (h : s.commandReady) (hc : s.port.operand0.toNat = c.val)
    (act : State → Channel → State × ResultCode) :
    s.command (fun s => s.onChannel (act s)) = (act s c).1.setResult (act s c).2 := by
  rw [State.command_ready h]
  simp only [State.onChannel, HostPort.operandChannel_eq hc]

/-- A command with an operand that names no channel. -/
theorem State.command_badChannel {s : State} (h : s.commandReady) (hc : 20 ≤ s.port.operand0.toNat)
    (act : State → Channel → State × ResultCode) :
    s.command (fun s => s.onChannel (act s)) = s.setResult .badChannel := by
  rw [State.command_ready h]
  simp only [State.onChannel, HostPort.operandChannel_none hc]

theorem exec_cmdStart_onChannel {s : State} {c : Channel} (h : s.commandReady) (hc : s.port.operand0.toNat = c.val) :
    exec .cmdStart s = .next (
      if s.startCheck c = .ok then (s.setChannel c ((s.channel c).started s.port.amount)).setResult .ok
      else s.setResult (s.startCheck c)) := by
  refine congrArg _ ((State.command_onChannel h hc fun s c => match s.startCheck c with
    | .ok => (s.setChannel c ((s.channel c).started s.port.amount), .ok)
    | r => (s, r)).trans ?_)
  cases s.startCheck c <;> rfl

/-! ### Writes that begin the selected channel's segment anew -/

/-- A commit of a writable item that its owner's checks let through (R152). -/
theorem exec_commit_taken {s u : State} {i : WideItem} {v : Byte} (h : s.hostReady) (hp : s.port.page = widePage i)
    (hw : wideWritable i = true) (hu : s.commitItem i v = some u) :
    exec (.wideHighByteCommit i v) s = .next { u with port := { u.port with
      writeHolder := if s.writeHeld i then none else u.port.writeHolder } } := by
  refine congrArg _ ((State.hostWrite_ready h hp _).trans ?_)
  simp only [hw, hu, Bool.not_true, Bool.false_eq_true, if_false]
  split <;> rfl

/-- A commit that its owner's checks refuse (R152). -/
theorem exec_commit_refused {s : State} {i : WideItem} {v : Byte} (h : s.hostReady) (hp : s.port.page = widePage i)
    (hw : wideWritable i = true) (hn : s.commitItem i v = none) :
    exec (.wideHighByteCommit i v) s = .next { s with port := { s.port with accessError := true, writeHolder := none } } := by
  refine congrArg _ ((State.hostWrite_ready h hp _).trans ?_)
  simp only [hw, hn, Bool.not_true, Bool.false_eq_true, if_false]
  rfl

/-- A commit of segment A at rest puts position and fill at 0 (R75). -/
theorem State.commitItem_segA_resting {s u : State} {i : WideItem} {v : Byte} (hi : i = .segABase ∨ i = .segALength)
    (rest : s.selected.atRest = true) (hu : s.commitItem i v = some u) :
    ∃ y : ChannelContext, y.position = 0 ∧ y.fill = 0 ∧ u = s.setSelected y := by
  rcases hi with rfl | rfl <;>
    simp only [State.commitItem, Option.ite_none_right_eq_some, Option.some.injEq] at hu <;>
    obtain ⟨-, rfl⟩ := hu
  · exact ⟨_, by simp [ChannelContext.withBaseA, rest, ChannelContext.replanned],
      by simp [ChannelContext.withBaseA, rest, ChannelContext.replanned], rfl⟩
  · exact ⟨_, by simp [ChannelContext.withLengthA, rest, ChannelContext.replanned],
      by simp [ChannelContext.withLengthA, rest, ChannelContext.replanned], rfl⟩

/-- A mode byte write at rest is refused, or puts position and fill at 0 (R73, R75). -/
theorem exec_modeByteWrite_resting {s : State} {v : Byte} (h : s.hostReady) (hp : s.port.page = 2)
    (rest : s.selected.atRest = true) :
    exec (.modeByteWrite v) s = .next s.refuseWrite ∨
    ∃ y : ChannelContext, y.position = 0 ∧ y.fill = 0 ∧ exec (.modeByteWrite v) s = .next (s.setSelected y) := by
  have taken : execModeByteWrite v s = _ := congrArg Host.Outcome.next (State.hostWrite_ready h hp _)
  rw [show exec (.modeByteWrite v) s = execModeByteWrite v s from rfl, taken]
  simp only [rest, Bool.not_true, Bool.false_eq_true, if_false]
  cases Mode.ofCode (v.extractLsb' 1 2) with
  | none => exact .inl rfl
  | some m => exact .inr ⟨_, rfl, rfl, rfl⟩

/-- ENGINE_RESET once the gates let it through (R162). -/
theorem exec_cmdEngineReset {s : State} (h : s.commandReady) :
    exec .cmdEngineReset s = .next (s.engineReset.setResult .ok) :=
  congrArg Host.Outcome.next (State.command_ready h _)

/-- Settles O33. -/
theorem hostPositionFollowsStartAndAdvance : Obligations.HostPositionFollowsStartAndAdvance := by
  refine ⟨fun x mode _ room => ChannelContext.hostPosition_afterByte mode room, fun x => rfl,
    fun s t c ready hc h ok => ?_, fun s t c ready hc mode h ok => ?_, fun s t v c ready page hc rest clear h taken => ?_,
    fun s t c ready h => ?_⟩
  case refine_1 =>
    rw [exec_cmdAdvance_onChannel ready hc] at h
    obtain rfl := Host.Outcome.next.inj h
    revert ok
    split_ifs with _ _ _ fits <;> intro ok
    case pos => cases ok
    case pos => cases ok
    case pos => cases ok
    case pos =>
      rw [State.channel_setResult, State.channel_setChannel_self]
      exact ChannelContext.hostPosition_advanced fits
    case neg => cases ok
  case refine_2 =>
    rw [exec_cmdStart_onChannel ready hc] at h
    obtain rfl := Host.Outcome.next.inj h
    revert ok
    split <;> intro ok
    · rw [State.channel_setResult, State.channel_setChannel_self]
      exact ChannelContext.hostPosition_started mode _
    · next refused => exact absurd ok refused
  case refine_3 =>
    have rest : s.selected.atRest = true := rest
    have commit : ∀ i, i = .segABase ∨ i = .segALength → exec (.wideHighByteCommit i v) s = .next t →
        (t.channel s.port.channelSelect).hostPosition = 0 := fun i hi h => by
      have page : s.port.page = widePage i := by rcases hi with rfl | rfl <;> exact page
      have writable : wideWritable i = true := by rcases hi with rfl | rfl <;> rfl
      cases hu : s.commitItem i v with
      | none =>
        rw [exec_commit_refused ready page writable hu] at h
        obtain rfl := Host.Outcome.next.inj h
        cases taken
      | some u =>
        rw [exec_commit_taken ready page writable hu] at h
        obtain rfl := Host.Outcome.next.inj h
        obtain ⟨y, position, fill, rfl⟩ := State.commitItem_segA_resting hi rest hu
        exact (congrArg ChannelContext.hostPosition (s.channel_setChannel_self _ y)).trans
          (ChannelContext.hostPosition_of_empty position fill)
    simp only [List.mem_cons, List.not_mem_nil, or_false] at hc
    rcases hc with rfl | rfl | rfl
    · obtain e | ⟨y, position, fill, e⟩ := exec_modeByteWrite_resting (v := v) ready page rest <;>
        (rw [e] at h; obtain rfl := Host.Outcome.next.inj h)
      · cases taken
      · exact (congrArg ChannelContext.hostPosition (s.channel_setChannel_self _ y)).trans
          (ChannelContext.hostPosition_of_empty position fill)
    · exact commit _ (.inl rfl) h
    · exact commit _ (.inr rfl) h
  case refine_4 =>
    rw [exec_cmdEngineReset ready] at h
    obtain rfl := Host.Outcome.next.inj h
    rw [State.channel_setResult, State.channel_engineReset]
    exact ChannelContext.hostPosition_of_empty rfl rfl

end Sys2Proof.Machine
end

