-- ==== Sys2Proof/Proofs/FramesAndLeavings.lean ====
section
/-! SUPPORT. Transmit cycle starts, receive frame starts, losses of alignment, REALIGN and frame ends. -/

namespace Sys2Proof.Machine

/-! ### Counters that stay at their maximum -/

theorem saturatingInc_eq {w : Nat} (x : BitVec w) : saturatingInc x = BitVec.ofNat w (min (2 ^ w - 1) (x.toNat + 1)) := by
  have hx := x.isLt
  refine BitVec.eq_of_toNat_eq ?_
  rw [toNat_saturatingInc, BitVec.toNat_ofNat, Nat.mod_eq_of_lt (by omega)]

/-- A counter steps onto a value exactly when that value is one more (R49). -/
theorem saturatingInc_steps_onto {w : Nat} (x y : BitVec w) :
    saturatingInc x ≠ x ∧ saturatingInc x = y ↔ x.toNat + 1 = y.toNat := by
  have hx := x.isLt
  have hy := y.isLt
  simp only [ne_eq, ← BitVec.toNat_inj, toNat_saturatingInc]
  omega

/-! ### Transmit cycle start (sections 4.3, 5.5 and 7.4) -/

namespace State

theorem activateTransmit_eq (s : State) :
    s.activateTransmit = { s with
      channels := s.activateTransmit.channels
      pool := { s.pool with rotation := s.pool.rotation ++ s.poolJoiners } } := by
  simp only [State.activateTransmit, State.mapChannels]

theorem channels_grant (s : State) : s.grant.channels = s.channels := by
  obtain ⟨k, e⟩ | ⟨k, c, -, e⟩ := s.grant_cases <;> rw [e]

/-- The entry to ACTIVE changes no byte available and no tag. -/
theorem activateTransmit_bytes (s : State) (c : Channel) :
    (s.activateTransmit.channel c).available = (s.channel c).available ∧
      (s.activateTransmit.channel c).tag = (s.channel c).tag := by
  rw [channel_activateTransmit]
  split <;> exact ⟨rfl, rfl⟩

/-- The number of pool slots that a grant in the state counts. -/
def grantSlots (s : State) : Nat := (s.maps.txPoolSlots (s.transmitter.frameLength - 1)).length

/-- What the entry to ACTIVE and the grant leave at a transmit cycle start, in either order (R80, R121; assumption 6). -/
structure CycleLeaves (s t : State) : Prop where
  frame : t = { s with
    channels := t.channels
    draws := t.draws
    pool := { s.pool with rotation := t.pool.rotation, txBurst := t.pool.txBurst } }
  channel : ∀ c, t.channel c =
    if (s.channel c).direction = .transmit ∧ (s.channel c).state = .armed then
      { s.channel c with state := .active } else s.channel c
  grant : s.GrantLeaves s.grantSlots (s.pool.rotation ++ s.poolJoiners) t.pool.rotation t.pool.txBurst ∨
    ∃ list, s.GrantLeaves s.grantSlots s.pool.rotation list t.pool.txBurst ∧ t.pool.rotation = list ++ s.poolJoiners

theorem cycleLeaves_activateThenGrant {s : State} (h : s.RotationLaw) : s.CycleLeaves s.activateTransmit.grant := by
  obtain ⟨leaves, e⟩ := s.grant_leaves s.activateTransmit h.activateTransmit.1 (fun c => (s.activateTransmit_bytes c).1)
    fun c => (s.activateTransmit_bytes c).2
  have slots : (s.activateTransmit.maps.txPoolSlots (s.activateTransmit.transmitter.frameLength - 1)).length =
      s.grantSlots := by
    rw [s.sameLink_activateTransmit.maps, s.sameLink_activateTransmit.transmitter]
    rfl
  rw [slots, activateTransmit_pool] at leaves
  refine ⟨?_, fun c => ?_, .inl leaves⟩
  · rw [e, activateTransmit_eq]
  · rw [State.channel_congr (channels_grant _), channel_activateTransmit]

theorem cycleLeaves_grantThenActivate {s : State} (h : s.RotationLaw) : s.CycleLeaves s.grant.activateTransmit := by
  obtain ⟨leaves, e⟩ := s.grant_leaves s h.1 (fun _ => rfl) fun _ => rfl
  have contexts : s.grant.channel = s.channel := funext fun c => State.channel_congr s.channels_grant c
  have joiners : s.grant.poolJoiners = s.poolJoiners := by simp only [State.poolJoiners, contexts]
  have pool : s.grant.activateTransmit.pool = { s.grant.pool with rotation := s.grant.pool.rotation ++ s.poolJoiners } := by
    rw [activateTransmit_pool, joiners]
  refine ⟨?_, fun c => ?_, .inr ⟨s.grant.pool.rotation, ?_, by rw [pool]⟩⟩
  · rw [activateTransmit_eq, joiners, e]
  · rw [channel_activateTransmit, contexts]
  · rw [pool]
    exact leaves

theorem cycleLeaves_enterAndGrant {s : State} (h : s.RotationLaw) : s.CycleLeaves s.enterAndGrant := by
  have drawn : ∀ t, ({ s with draws := s.draws + 1 } : State).CycleLeaves t → s.CycleLeaves t := fun t leaves =>
    ⟨leaves.frame, leaves.channel, leaves.grant.imp (fun g => ⟨g.empty, g.granted⟩)
      fun ⟨list, g, e⟩ => ⟨list, ⟨g.empty, g.granted⟩, e⟩⟩
  unfold State.enterAndGrant
  split
  · exact cycleLeaves_activateThenGrant h
  · dsimp only
    split
    · exact drawn _ (cycleLeaves_grantThenActivate h)
    · exact drawn _ (cycleLeaves_activateThenGrant h)

end State

theorem State.txSwitchEvent_eq (s : State) :
    s.txSwitchEvent = { s with
      maps := if s.maps.txPending then { s.maps with txActive := s.maps.txActive.other, txPending := false } else s.maps
      notifications := if s.maps.txPending then s.notifications.take s.txSwitchedPost else s.notifications } := by
  unfold State.txSwitchEvent
  split <;> rfl

/-- Settles O42: the frame's first bit is taken last, and before it the switch, the entry to ACTIVE and the grant act as
State.CycleLeaves says. -/
theorem transmitCycleStartActivatesAndSwitches : Obligations.TransmitCycleStartActivatesAndSwitches := by
  intro s law ready first
  obtain ⟨u, hu⟩ : ∃ u, u = s.beginFrame.txSwitchEvent := ⟨_, rfl⟩
  have e : u = _ := hu.trans s.beginFrame.txSwitchEvent_eq
  have contexts : u.channel = s.channel := by rw [e]; rfl
  have rotation : u.pool.rotation = s.pool.rotation := by rw [e]; rfl
  have joiners : u.poolJoiners = s.poolJoiners := by simp only [State.poolJoiners, contexts]
  have leaves := State.cycleLeaves_enterAndGrant (s := u) (by
    simpa only [State.RotationLaw, State.holdsTag, contexts, rotation] using law)
  have events : s.beginFrame.frameStartEvents = u.enterAndGrant := by
    rw [hu]
    exact if_pos first
  obtain ⟨frame, channel, grant⟩ := leaves
  refine ⟨u.enterAndGrant, ?_, ?_, fun c => ?_, ?_⟩
  · rw [← events]
    exact congrArg Host.Outcome.next (if_pos ready)
  · rw [frame, e]
    simp only [State.beginFrame, first, if_true, State.txSwitchedPost]
  · rw [channel, contexts]
  · rw [joiners, rotation] at grant
    have slots : u.grantSlots = _ := congrArg State.grantSlots e
    rw [slots] at grant
    have told : ∀ k l a b, u.GrantLeaves k l a b → s.GrantLeaves k l a b := fun _ _ _ _ g =>
      ⟨by simpa only [contexts] using g.empty, by simpa only [contexts] using g.granted⟩
    exact grant.imp (told _ _ _ _) fun ⟨list, g, h⟩ => ⟨list, told _ _ _ _ g, h⟩

/-! ### Receive frame starts (sections 2.4, 2.6 and 2.7) -/

/-- The detector changes its condition at the third differing flag in a row (R36). -/
theorem State.alignerAtFrame_some (s : State) (f : Bool) :
    s.alignerAtFrame (some f) = { s.aligner with
      expectedPlace := (s.transmitter.frameLength - 1) * 8
      expectedPosition := (s.aligner.expectedPosition + 1) % 12
      remoteFault := if f ≠ s.aligner.remoteFault ∧ s.aligner.faultRun = 2 then f else s.aligner.remoteFault
      faultRun := if f ≠ s.aligner.remoteFault ∧ s.aligner.faultRun ≠ 2 then s.aligner.faultRun + 1 else 0
      cycleCount := s.countAtFrame
      cycleOffset := if s.aligner.expectedPosition = 0 then s.transmitter.offset else s.aligner.cycleOffset } := by
  simp only [State.alignerAtFrame, Aligner.readFlag]
  by_cases same : f = s.aligner.remoteFault
  · simp [same]
  · by_cases third : s.aligner.faultRun = 2 <;> simp [same, third]

theorem State.postsAtFrame_some (s : State) (f : Bool) :
    s.postsAtFrame (some f) =
      (if s.aligner.expectedPosition = 0 ∧ s.maps.rxPending = true then
        [(⟨.rxMapSwitched, .link, .none, s.countAtFrame⟩ : Post)] else []) ++
      (if f ≠ s.aligner.remoteFault ∧ s.aligner.faultRun = 2 then
        [(⟨if f then .remoteFaultOn else .remoteFaultOff, .link, .none, s.countAtFrame⟩ : Post)] else []) := by
  simp only [State.postsAtFrame, State.alignerAtFrame_some]
  by_cases changes : f ≠ s.aligner.remoteFault ∧ s.aligner.faultRun = 2
  · rw [if_pos changes, if_pos changes.1, if_pos changes]
    rfl
  · simp only [if_neg changes, ne_eq, not_true_eq_false, if_false]

theorem State.postsAtFrame_none (s : State) :
    s.postsAtFrame none =
      if s.aligner.expectedPosition = 0 ∧ s.maps.rxPending = true then
        [(⟨.rxMapSwitched, .link, .none, s.countAtFrame⟩ : Post)] else [] := by
  simp only [State.postsAtFrame, State.alignerAtFrame, ne_eq, not_true_eq_false, if_false, List.append_nil]

theorem Aligner.goodMarker_iff (a : Aligner) (b : Byte) :
    a.goodMarker b = true ↔ wellFormedMarker b = true ∧ markerPosition b = a.expectedPosition := by
  simp [Aligner.goodMarker]

theorem Aligner.markerCheckDue_iff (a : Aligner) :
    a.markerCheckDue = true ↔
      a.state = .aligned ∧ a.expectedPlace = 0 ∧ a.frameEndDue = false ∧ 8 ≤ a.bits.length := by
  simp [Aligner.markerCheckDue, and_assoc]

/-- A place in the cycle is below 96 F, so it fits the cycle offset (R1, R35). -/
theorem Transmitter.Ok.cycleBit_lt {x : Transmitter} (h : x.Ok) : x.cycleBit < 96 * x.frameLength ∧ x.cycleBit < 65536 := by
  obtain ⟨length, frame, slot, bit, -⟩ := h
  have frames := Nat.mul_le_mul_right x.frameLength frame
  unfold Transmitter.cycleBit
  omega

theorem exec_alignedMarkerCheck {s : State} (due : s.aligner.markerCheckDue = true) :
    exec .alignedMarkerCheck s =
      if s.aligner.goodMarker (byteOfBits s.aligner.bits) then
        .next (({ s with aligner := { s.aligner.takeByte with badMarkers := 0 } } : State).frameStart
          (some (markerFlag (byteOfBits s.aligner.bits))))
      else .next ({ s with aligner := s.aligner.takeByte } : State).badMarker := if_pos due

/-- Settles O49: a good marker is the frame start of State.frameStart_eq. -/
theorem goodMarkerStartsAFrame : Obligations.GoodMarkerStartsAFrame := by
  refine ⟨fun s due => ?_, fun s => ⟨s.aligner.markerCheckDue_iff, fun not_due => ?_⟩, fun x => ⟨fun h => ?_, fun h b => ?_⟩⟩
  case refine_1 =>
    intro b cycle count switches maps k differs changes form position
    obtain ⟨u, hu⟩ : ∃ u : State, u = { s with aligner := { s.aligner.takeByte with badMarkers := 0 } } := ⟨_, rfl⟩
    obtain ⟨posts, draws, perm, e, contexts⟩ := u.frameStart_eq (some (markerFlag b))
    have exec : exec .alignedMarkerCheck s = .next (u.frameStart (some (markerFlag b))) := by
      rw [exec_alignedMarkerCheck due, if_pos ((s.aligner.goodMarker_iff b).mpr ⟨form, position⟩), hu]
    rw [State.postsAtFrame_some] at perm
    rw [State.alignerAtFrame_some] at e
    subst hu
    exact ⟨_, posts, exec, perm, e.trans (by rw [e]; rfl), contexts⟩
  case refine_2 =>
    show execAlignedMarkerCheck s = _
    rw [execAlignedMarkerCheck, not_due]
    rfl
  case refine_3 => exact if_pos (h.imp_right fun e => by simp [e])
  case refine_4 =>
    have moving : ¬(x.state = .stopped ∨ (!x.begun) = true) := by simp [h, b]
    have offset : x.offset = BitVec.ofNat 16 x.cycleBit := if_neg moving
    refine ⟨offset, fun ok => ?_⟩
    obtain ⟨below, fits⟩ := ok.cycleBit_lt
    have value : x.offset.toNat = x.cycleBit := by
      rw [offset, BitVec.toNat_ofNat]
      exact Nat.mod_eq_of_lt fits
    exact ⟨value, value ▸ below⟩

/-! ### Bad markers (sections 2.5 and 3.7) -/

theorem State.countMarkerError_eq (s : State) :
    s.countMarkerError = { s with
      monitor := { s.monitor with markerErrors := BitVec.ofNat 16 (min 65535 (s.monitor.markerErrors.toNat + 1)) }
      notifications := (if s.monitor.markerErrors.toNat + 1 = s.monitor.threshold.toNat then
        [(⟨.markerThreshold, .link, .none, s.aligner.cycleCount⟩ : Post)] else []).foldl
          Notifications.take s.notifications } := by
  have counted : saturatingInc s.monitor.markerErrors =
      BitVec.ofNat 16 (min 65535 (s.monitor.markerErrors.toNat + 1)) := saturatingInc_eq _
  have onto := saturatingInc_steps_onto s.monitor.markerErrors s.monitor.threshold
  unfold State.countMarkerError
  rw [← counted]
  dsimp only
  by_cases steps : s.monitor.markerErrors.toNat + 1 = s.monitor.threshold.toNat
  · rw [if_pos (onto.mpr steps), if_pos steps]
    rfl
  · rw [if_neg (mt onto.mp steps), if_neg steps]
    rfl

/-- State.loseAlignment_eq with the count of losses as the rules give it (R30, R47). -/
theorem State.loseAlignment_counts (s : State) (cause : LossCause) :
    ∃ posts : List Post, posts.Perm s.leavingPosts ∧
      s.loseAlignment cause = { s with
        monitor := { s.monitor with
          alignmentLosses := BitVec.ofNat 8 (min 255 (s.monitor.alignmentLosses.toNat + 1)) }
        aligner := s.aligner.left .hunt
        maps := s.maps.afterLeaving
        channels := (s.loseAlignment cause).channels
        draws := (s.loseAlignment cause).draws
        pool := { s.pool with
          rotation := s.pool.rotation.filter fun c => c ∉ s.endingRings
          rxBurst := { RxBurst.cleared with poolSlots := s.pool.rxBurst.poolSlots } }
        notifications :=
          (s.rxLinkPost .alignLost cause.detail :: posts).foldl Notifications.take s.notifications } ∧
      ∀ c, (s.loseAlignment cause).channel c = (s.channel c).afterFrameEnd := by
  obtain ⟨posts, perm, e, contexts⟩ := s.loseAlignment_eq cause
  rw [saturatingInc_eq] at e
  exact ⟨posts, perm, e, contexts⟩

/-- Settles O50: the marker is counted by State.countMarkerError_eq, and then it is a frame start or a loss of alignment. -/
theorem fourthBadMarkerLosesAlignment : Obligations.FourthBadMarkerLosesAlignment := by
  intro s due b counted first cycle count switches maps k bad
  obtain ⟨u, hu⟩ : ∃ u : State, u = ({ s with aligner := s.aligner.takeByte } : State).countMarkerError := ⟨_, rfl⟩
  have eu : u = _ := hu.trans (State.countMarkerError_eq _)
  have exec : exec .alignedMarkerCheck s = .next ({ s with aligner := s.aligner.takeByte } : State).badMarker := by
    rw [exec_alignedMarkerCheck due, if_neg (mt (s.aligner.goodMarker_iff b).mp bad)]
  have marker : ({ s with aligner := s.aligner.takeByte } : State).badMarker =
      if u.aligner.badMarkers + 1 = 4 then u.loseAlignment .markers
      else ({ u with aligner := { u.aligner with badMarkers := u.aligner.badMarkers + 1 } } : State).frameStart none := by
    rw [hu]; rfl
  have before : u.aligner.badMarkers = s.aligner.badMarkers := by rw [eu]; rfl
  refine ⟨fun more => ?_, fun fourth => ?_⟩
  · rw [marker, if_neg (by omega)] at exec
    obtain ⟨v, hv⟩ : ∃ v : State, v = { u with aligner := { u.aligner with badMarkers := u.aligner.badMarkers + 1 } } :=
      ⟨_, rfl⟩
    rw [← hv] at exec
    obtain ⟨posts, draws, perm, e, contexts⟩ := v.frameStart_eq none
    rw [State.postsAtFrame_none] at perm
    subst eu hv
    have order : posts = if switches then [(⟨.rxMapSwitched, .link, .none, count⟩ : Post)] else [] := by
      by_cases sw : switches
      · rw [if_pos sw]
        exact List.perm_singleton.mp (perm.trans (List.Perm.of_eq (if_pos sw)))
      · rw [if_neg sw]
        exact (perm.trans (List.Perm.of_eq (if_neg sw))).eq_nil
    refine ⟨_, exec, e.trans ?_, contexts⟩
    rw [e, order, List.foldl_append]
    rfl
  · rw [marker, if_pos (by omega)] at exec
    obtain ⟨posts, perm, e, contexts⟩ := u.loseAlignment_counts .markers
    subst eu
    refine ⟨_, posts, exec, perm, e.trans ?_, contexts⟩
    rw [e, List.foldl_append]
    rfl

/-! ### REALIGN and frame ends -/

/-- Settles O51. -/
theorem realignLeavesAlignment : Obligations.RealignLeavesAlignment := by
  intro s ready
  have exec : exec .cmdRealign s = .next (s.command _) := rfl
  rw [State.command_ready ready] at exec
  refine ⟨fun off => ?_, fun search => ?_, fun aligned => ?_⟩
  · rw [exec, off]
  · rw [exec]
    rcases search with e | e <;> rw [e] <;> rfl
  · rw [aligned] at exec
    obtain ⟨posts, perm, e, contexts⟩ := s.loseAlignment_counts .command
    refine ⟨_, posts, exec, perm, ?_, contexts⟩
    dsimp only
    rw [e]
    rfl

theorem execFrameEnd_due {s : State} (due : s.aligner.frameEndReady = true) :
    exec .frameEnd s = .next
      (({ s with aligner := { s.aligner with frameEndDue := false } } : State).endRings.postInAnyOrder s.endingPosts) :=
  if_pos due

/-- Settles O52. -/
theorem frameEndFinishesEndingRings : Obligations.FrameEndFinishesEndingRings := by
  refine ⟨fun s due => ?_, fun s => ⟨by simp [Aligner.frameEndReady], fun not_due => ?_, ?_, ?_, rfl⟩⟩
  case refine_1 =>
    obtain ⟨u, hu⟩ : ∃ u : State, u = { s with aligner := { s.aligner with frameEndDue := false } } := ⟨_, rfl⟩
    obtain ⟨e, contexts⟩ := u.endRings_eq
    obtain ⟨posts, draws, perm, ep⟩ := u.endRings.postInAnyOrder_cases s.endingPosts
    have exec := execFrameEnd_due due
    rw [← hu] at exec
    subst hu
    refine ⟨_, posts, exec, perm, ?_, fun c => ?_⟩
    · rw [ep, e]
      rfl
    · rw [ep]
      exact contexts c
  case refine_2 =>
    show execFrameEnd s = _
    rw [execFrameEnd, not_due]
    rfl
  case refine_3 =>
    refine List.filter_congr fun c _ => ?_
    simp [Bool.and_assoc]
  case refine_4 =>
    refine List.map_congr_left fun c mem => ?_
    obtain ⟨receive, -⟩ := (s.mem_endingRings c).mp mem
    simp only [State.channelPost, State.channelStamp, receive]

end Sys2Proof.Machine
end

