-- ==== Sys2Proof/Proofs/Lines.lean ====
section
/-! SUPPORT. The line conditions SILENCE and HOLD, and the obligations about their events (sections 3.2 to 3.4). -/

namespace Sys2Proof.Machine

theorem Aligner.receiving_eq_true {a : Aligner} : a.receiving = true ↔ a.state ≠ .off := bne_iff_ne

theorem Aligner.receiving_eq_false {a : Aligner} : a.receiving = false ↔ a.state = .off := by
  simp [Aligner.receiving]

/-! ### The request to go to HUNT (R43) -/

theorem State.requestHunt_hunt {s : State} (h : s.aligner.state = .hunt) (cause : LossCause) :
    s.requestHunt cause = s := by
  rw [State.requestHunt, h]

theorem State.requestHunt_confirm {s : State} (h : s.aligner.state = .confirm) (cause : LossCause) :
    s.requestHunt cause = { s with aligner := s.aligner.freshSearch } := by
  rw [State.requestHunt, h]

theorem State.requestHunt_aligned {s : State} (h : s.aligner.state = .aligned) (cause : LossCause) :
    s.requestHunt cause = s.loseAlignment cause := by
  rw [State.requestHunt, h]

/-! ### When the SILENCE events are due -/

theorem LineMonitor.silenceDue_iff {m : LineMonitor} : m.silenceDue = true ↔ m.silence = false ∧ m.zeroRun = 160 := by
  simp [LineMonitor.silenceDue]

theorem LineMonitor.silenceClearDue_iff {m : LineMonitor} :
    m.silenceClearDue = true ↔ m.silence = true ∧ ∃ w, m.silenceWindow = some w ∧ w.ones = 16 := by
  unfold LineMonitor.silenceClearDue
  cases m.silenceWindow <;> simp

theorem LineMonitor.windowFailureDue_iff {m : LineMonitor} :
    m.windowFailureDue = true ↔
      m.silence = true ∧ ∃ w, m.silenceWindow = some w ∧ w.position = 128 ∧ w.ones < 16 := by
  unfold LineMonitor.windowFailureDue
  cases m.silenceWindow <;> simp [and_assoc]

theorem execSilenceDeclaration_due {s : State} (on : s.aligner.state ≠ .off) (clear : s.monitor.silence = false)
    (run : s.monitor.zeroRun = 160) :
    exec .silenceDeclaration s = .next
      ((({ s with monitor := { s.monitor with silence := true, silenceWindow := none } } : State).post
        (s.rxLinkPost .silenceOn .none)).requestHunt .silence) :=
  if_pos (Bool.and_eq_true_iff.mpr ⟨Aligner.receiving_eq_true.mpr on, LineMonitor.silenceDue_iff.mpr ⟨clear, run⟩⟩)

theorem execSilenceDeclaration_not_due {s : State} (h : ¬(s.aligner.state ≠ .off ∧ s.monitor.silenceDue = true)) :
    exec .silenceDeclaration s = .next s :=
  if_neg (mt (fun due => (Bool.and_eq_true_iff.mp due).imp_left Aligner.receiving_eq_true.mp) h)

theorem execSilenceClearing_due {s : State} (on : s.aligner.state ≠ .off) (due : s.monitor.silenceClearDue = true) :
    exec .silenceClearing s = .next
      (({ s with monitor := { s.monitor with silence := false, silenceWindow := none } } : State).post
        (s.rxLinkPost .silenceOff .none)) :=
  if_pos (Bool.and_eq_true_iff.mpr ⟨Aligner.receiving_eq_true.mpr on, due⟩)

theorem execSilenceClearing_not_due {s : State} (h : ¬(s.aligner.state ≠ .off ∧ s.monitor.silenceClearDue = true)) :
    exec .silenceClearing s = .next s :=
  if_neg (mt (fun due => (Bool.and_eq_true_iff.mp due).imp_left Aligner.receiving_eq_true.mp) h)

theorem execSilenceWindowFailure_due {s : State} (on : s.aligner.state ≠ .off)
    (due : s.monitor.windowFailureDue = true) :
    exec .silenceWindowFailure s = .next { s with monitor := { s.monitor with silenceWindow := none } } :=
  if_pos (Bool.and_eq_true_iff.mpr ⟨Aligner.receiving_eq_true.mpr on, due⟩)

theorem execSilenceWindowFailure_not_due {s : State}
    (h : ¬(s.aligner.state ≠ .off ∧ s.monitor.windowFailureDue = true)) :
    exec .silenceWindowFailure s = .next s :=
  if_neg (mt (fun due => (Bool.and_eq_true_iff.mp due).imp_left Aligner.receiving_eq_true.mp) h)

/-- Settles O54. -/
theorem silenceIsDeclaredAndCleared : Obligations.SilenceIsDeclaredAndCleared := by
  refine ⟨fun s clear run => ⟨fun hunt => ?_, fun confirm => ?_, fun aligned => ?_⟩,
    fun s w on declared window => ⟨fun sixteen => ⟨?_, ?_⟩, fun fewer ended => ⟨?_, ?_⟩⟩,
    fun s => ⟨fun h => ?_, fun h => ?_, fun h => ?_⟩⟩
  case refine_1 =>
    exact (execSilenceDeclaration_due (by simp [hunt]) clear run).trans
      (congrArg Host.Outcome.next (State.requestHunt_hunt (by exact hunt) _))
  case refine_2 =>
    exact (execSilenceDeclaration_due (by simp [confirm]) clear run).trans
      (congrArg Host.Outcome.next (State.requestHunt_confirm (by exact confirm) _))
  case refine_3 =>
    obtain ⟨u, hu⟩ : ∃ u : State, u =
        ({ s with monitor := { s.monitor with silence := true, silenceWindow := none } } : State).post
          (s.rxLinkPost .silenceOn .none) := ⟨_, rfl⟩
    have exec := execSilenceDeclaration_due (by simp [aligned]) clear run
    rw [← hu, State.requestHunt_aligned (by rw [hu]; exact aligned)] at exec
    obtain ⟨posts, perm, e, contexts⟩ := u.loseAlignment_counts .silence
    subst hu
    exact ⟨_, posts, exec, perm, e.trans (by rw [e]; rfl), contexts⟩
  case refine_4 => exact execSilenceClearing_due on (LineMonitor.silenceClearDue_iff.mpr ⟨declared, w, window, sixteen⟩)
  case refine_5 =>
    refine execSilenceWindowFailure_not_due ?_
    rintro ⟨-, due⟩
    obtain ⟨-, w', e, -, few⟩ := LineMonitor.windowFailureDue_iff.mp due
    cases window.symm.trans e
    omega
  case refine_6 =>
    exact execSilenceWindowFailure_due on (LineMonitor.windowFailureDue_iff.mpr ⟨declared, w, window, ended, fewer⟩)
  case refine_7 =>
    refine execSilenceClearing_not_due ?_
    rintro ⟨-, due⟩
    obtain ⟨-, w', e, sixteen⟩ := LineMonitor.silenceClearDue_iff.mp due
    cases window.symm.trans e
    omega
  case refine_8 =>
    refine execSilenceDeclaration_not_due ?_
    rintro ⟨on, due⟩
    obtain ⟨clear, run⟩ := LineMonitor.silenceDue_iff.mp due
    simp [on, clear, run] at h
  case refine_9 =>
    refine execSilenceClearing_not_due ?_
    rintro ⟨on, due⟩
    obtain ⟨declared, w, e, sixteen⟩ := LineMonitor.silenceClearDue_iff.mp due
    simp [on, declared, e, sixteen] at h
  case refine_10 =>
    refine execSilenceWindowFailure_not_due ?_
    rintro ⟨on, due⟩
    obtain ⟨declared, w, e, ended, few⟩ := LineMonitor.windowFailureDue_iff.mp due
    simp [on, declared, e, ended] at h
    omega

/-! ### HOLD windows -/

theorem execHoldWindowEnd_due {s : State} (on : s.aligner.state ≠ .off) (done : s.monitor.holdWindowDone = true) :
    exec .holdWindowEnd s = if s.monitor.holdZeros = 3 then .next s.holdWindowLive else .next s.holdWindowLow :=
  if_pos (Bool.and_eq_true_iff.mpr ⟨Aligner.receiving_eq_true.mpr on, done⟩)

/-- The second low window in a row, with HOLD clear. -/
theorem State.holdWindowLow_declares {s : State} (clear : s.monitor.hold = false) (low : 1 ≤ s.monitor.lowWindows) :
    s.holdWindowLow = (({ s with monitor :=
      { s.monitor.nextHoldWindow with lowWindows := 2, hold := true } } : State).post
        (s.rxLinkPost .holdOn .none)).requestHunt .hold := by
  have two : min 2 (s.monitor.lowWindows + 1) = 2 := by omega
  rw [State.holdWindowLow]
  dsimp only
  rw [two, if_pos (by simp [clear])]

theorem State.holdWindowLow_counts {s : State} (h : s.monitor.hold = true ∨ s.monitor.lowWindows = 0) :
    s.holdWindowLow = { s with monitor :=
      { s.monitor.nextHoldWindow with lowWindows := min 2 (s.monitor.lowWindows + 1) } } := by
  refine if_neg ?_
  rintro ⟨clear, two⟩
  rcases h with h | h
  · simp [h] at clear
  · rw [h] at two; contradiction

/-- Settles O55. -/
theorem holdWindowDeclaresAndClears : Obligations.HoldWindowDeclaresAndClears := by
  refine ⟨fun s on done => ⟨fun three => ?_, fun low counts => ?_, fun low clear one => ⟨fun hunt => ?_, fun confirm => ?_,
    fun aligned => ?_⟩⟩, fun s h => if_neg ?_⟩
  case refine_1 =>
    rw [execHoldWindowEnd_due on done, if_pos three, State.holdWindowLive]
    by_cases hold : s.monitor.hold = true
    · simp only [hold, if_true]; rfl
    · simp only [hold]; rfl
  case refine_2 =>
    rw [execHoldWindowEnd_due on done, if_neg low, State.holdWindowLow_counts counts]
    rfl
  case refine_3 =>
    rw [execHoldWindowEnd_due on done, if_neg low, State.holdWindowLow_declares clear one]
    exact congrArg Host.Outcome.next (State.requestHunt_hunt (by exact hunt) _)
  case refine_4 =>
    rw [execHoldWindowEnd_due on done, if_neg low, State.holdWindowLow_declares clear one]
    exact congrArg Host.Outcome.next (State.requestHunt_confirm (by exact confirm) _)
  case refine_5 =>
    obtain ⟨u, hu⟩ : ∃ u : State, u = ({ s with monitor :=
      { s.monitor.nextHoldWindow with lowWindows := 2, hold := true } } : State).post
        (s.rxLinkPost .holdOn .none) := ⟨_, rfl⟩
    have exec := execHoldWindowEnd_due on done
    rw [if_neg low, State.holdWindowLow_declares clear one, ← hu,
      State.requestHunt_aligned (by rw [hu]; exact aligned)] at exec
    obtain ⟨posts, perm, e, contexts⟩ := u.loseAlignment_counts .hold
    subst hu
    exact ⟨_, posts, exec, perm, e.trans (by rw [e]; rfl), contexts⟩
  case refine_6 =>
    intro due
    obtain ⟨receiving, done⟩ := Bool.and_eq_true_iff.mp due
    simp [Aligner.receiving_eq_true.mp receiving, done] at h

end Sys2Proof.Machine
end

