-- ==== Sys2Proof/Proofs/ResetStatements.lean ====
section
/-! SUPPORT. One step, the three reset kinds, the interrupt, the queue's own accesses, the page register and the buffer
port. -/

namespace Sys2Proof.Machine

/-- Settles O1: the queue is taken from the front. -/
theorem stepRunsFrontCommand : Obligations.StepRunsFrontCommand := fun _ _ _ => rfl

/-! ### Whole resets (R158, R160) -/

theorem BankMaps.bank_reset (b : Bank) : SlotMaps.reset.bank b = .reset := by
  cases b <;> rfl

/-- The blocks that a whole reset sets but for the monitor and the Host Port's own levels have the values of the tables. -/
theorem State.resetValues_of {s : State} (h : s.AsReset) {init low : Bool}
    (port : s.port = { HostPort.reset with init := init, rstnLow := low })
    (monitor : ∃ m : LineMonitor, s.monitor = m.pinReset) : s.ResetValues := by
  obtain ⟨m, monitor⟩ := monitor
  obtain ⟨transmitter, aligner, -, notifications, maps, pool, channels⟩ := h
  constructor
  case entries => rw [maps]; exact fun b => by rw [BankMaps.bank_reset]; exact ⟨rfl, rfl⟩
  case channels => exact channels
  case interrupt => rw [State.intnActive, notifications]; rfl
  case line => rw [transmitter]; rfl
  all_goals simp [port, transmitter, aligner, monitor, notifications, maps, pool, HostPort.reset, Transmitter.reset,
    Aligner.reset, LineMonitor.pinReset, LineMonitor.reset, Notifications.reset, SlotMaps.reset, PoolUnit.reset,
    TxBurst.cleared, RxBurst.cleared]

theorem State.reset_asReset : State.reset.AsReset :=
  ⟨rfl, rfl, LineMonitor.ok_reset, rfl, rfl, rfl, State.channel_reset⟩

/-- A whole reset leaves the values of the reset tables. -/
theorem resetValues_of_wholeReset {s t : State} (h : exec .powerOn s = .next t ∨ exec .pinReset s = .next t) :
    t.ResetValues := by
  rcases h with h | h
  · have as := execPowerOn_asReset h
    cases h
    exact State.resetValues_of as (init := true) rfl ⟨.reset, rfl⟩
  · have as := execPinReset_asReset h
    cases h
    exact State.resetValues_of as (low := true) rfl ⟨s.monitor, rfl⟩

/-- Settles O2. -/
theorem powerOnSetsValuesAndItsClearingEnds : Obligations.PowerOnSetsValuesAndItsClearingEnds := by
  refine ⟨⟨⟨?_, by decide, rfl, rfl⟩, fun s => ?_⟩, fun s => ⟨fun init => ?_, fun init => ?_⟩⟩
  · exact State.resetValues_of State.reset_asReset (init := true) (low := false) rfl ⟨.reset, rfl⟩
  · obtain ⟨t, h⟩ : ∃ t, exec .powerOn s = .next t := ⟨_, rfl⟩
    refine ⟨t, h, resetValues_of_wholeReset (.inl h), ?_⟩
    cases h
    exact ⟨⟨rfl, rfl, rfl, rfl⟩, rfl, rfl, rfl⟩
  · exact ⟨_, if_pos init, rfl, fun a => rfl, rfl⟩
  · exact if_neg (by simp [init])

/-- Settles O3. -/
theorem pinResetKeepsMemoryCountersAndInit : Obligations.PinResetKeepsMemoryCountersAndInit := by
  refine ⟨fun s => ?_, fun s => rfl⟩
  obtain ⟨t, h⟩ : ∃ t, exec .pinReset s = .next t := ⟨_, rfl⟩
  refine ⟨t, h, resetValues_of_wholeReset (.inr h), ?_⟩
  cases h
  exact ⟨rfl, rfl, rfl, fun a => rfl, rfl, rfl, rfl, rfl⟩

/-! ### The interrupt and engine reset (R146, R162) -/

/-- With suspend set INTN stays inactive, whatever is posted (R145, R146). -/
theorem State.intnActive_of_suspend {s : State} (h : s.notifications.suspend = true) : s.intnActive = false := by
  simp [State.intnActive, Notifications.interrupt, h]

theorem Notifications.foldl_take_suspend (posts : List Post) (n : Notifications) :
    (posts.foldl Notifications.take n).suspend = n.suspend := by
  induction posts generalizing n with
  | nil => rfl
  | cons p rest ih => rw [List.foldl_cons, ih, Notifications.take_suspend]

/-- Settles O4. -/
theorem engineResetActsOnChannelSide : Obligations.EngineResetActsOnChannelSide := by
  refine ⟨fun s ready => ⟨_, exec_cmdEngineReset ready, ?_, fun c => ?_, fun a => ?_, fun posts => ?_⟩,
    fun s high page init => congrArg Host.Outcome.next (State.command_init high page init _)⟩
  · apply State.ext_fields <;> simp
  · rw [State.channel_setResult, State.channel_engineReset]
    rfl
  · simp [State.byteAt]
  · refine State.intnActive_of_suspend ?_
    rw [State.foldl_post]
    simp [Notifications.foldl_take_suspend]

/-- Settles O19. -/
theorem interruptFollowsQueueMissedAndSuspend : Obligations.InterruptFollowsQueueMissedAndSuspend := by
  refine ⟨fun s => ?_, fun s t h => (resetValues_of_wholeReset h).interrupt, fun s ready t h => ?_⟩
  · have bits : s.notifications.missed ≠ 0 ↔ ∃ i < 21, s.notifications.missed.getLsbD i = true := by
      rw [ne_eq, BitVec.eq_of_getLsbD_eq_iff]
      simp
    rw [← bits]
    simp [State.intnActive, Notifications.interrupt]
  · rw [exec_cmdEngineReset ready] at h
    obtain rfl := Host.Outcome.next.inj h
    exact State.intnActive_of_suspend (by simp)

/-- Settles O21. -/
theorem queueAccessesActOnTheirOwnField : Obligations.QueueAccessesActOnTheirOwnField := by
  refine ⟨fun s ready => ?_, fun v s ready page => ⟨⟨(s.notifications.writeEnables .kinds1to8 v).enabled, ?_, fun i below => ?_⟩,
      ⟨(s.notifications.writeEnables .kinds9to15 v).enabled, ?_, fun i below => ?_⟩⟩,
    fun v s ready page => ?_, fun s ready page => ⟨s.readPage5 0x0A, ?_, fun i => ?_⟩⟩
  case refine_1 => exact congrArg Host.Outcome.next (State.command_ready ready _)
  case refine_2 => exact congrArg Host.Outcome.next (State.hostWrite_ready ready page _)
  case refine_3 =>
    rw [Notifications.writeEnables, BitVec.getLsbD_append]
    split
    · rfl
    · simp [show i - 8 < 7 by omega, show 8 + (i - 8) = i by omega]
  case refine_4 => exact congrArg Host.Outcome.next (State.hostWrite_ready ready page _)
  case refine_5 =>
    rw [Notifications.writeEnables, BitVec.getLsbD_append]
    split
    · next low => simp [low]
    · simp [show i - 8 < 7 by omega]
  case refine_6 => exact congrArg Host.Outcome.next (State.hostWrite_ready ready page _)
  case refine_7 => exact congrArg Host.Outcome.next (State.hostRead_ready ready page _)
  case refine_8 =>
    show ((s.notifications.missed.extractLsb' 16 5).setWidth 8).getLsbD i = _
    by_cases five : i < 5
    · simp [five, show i < 8 by omega]
    · simp [five]

/-! ### The page register (R148) -/

theorem exec_pageRegisterWrite {s : State} (h : s.port.rstnLow = false) {v : Byte} {p : Fin 6} (e : v.toNat = p.val) :
    exec (.pageRegisterWrite v) s = .next (s.turnPage p) := by
  have below : v.toNat < 6 := e ▸ p.isLt
  have same : (⟨v.toNat, below⟩ : Fin 6) = p := Fin.ext e
  show execPageRegisterWrite v s = _
  rw [execPageRegisterWrite, if_neg (by simp [h]), dif_pos below, same]

/-- Settles O8. -/
theorem pageRegisterWriteTurnsThePage : Obligations.PageRegisterWriteTurnsThePage := by
  refine ⟨fun v s high => ⟨fun p e turn => ?_, fun e => ?_, fun above => ?_⟩, fun s ready => ?_,
    fun s t h => (resetValues_of_wholeReset h).page, fun s t h => ?_⟩
  · rw [exec_pageRegisterWrite high e, State.turnPage, if_neg turn]
  · rw [exec_pageRegisterWrite high e, State.turnPage, if_pos rfl]
  · show execPageRegisterWrite v s = _
    rw [execPageRegisterWrite, if_neg (by simp [high]), dif_neg (by omega)]
    rfl
  · simp [State.busRead, ready.1, ready.2, State.windowByte]
  · exact (exec_kept rfl h).port.page fun v e => by cases e

/-! ### The buffer port (R154) -/

/-- A listed byte of a memory in canonical form is the byte read. -/
theorem Memory.read_of_mem {m : Memory} (h : m.wf) {a : Nat} {b : Byte} (mem : (a, b) ∈ m) : m.read a = b := by
  obtain ⟨sorted, -⟩ := h
  induction m with
  | nil => cases mem
  | cons d rest ih =>
    obtain ⟨first, sorted⟩ := List.pairwise_cons.mp sorted
    rcases List.mem_cons.mp mem with rfl | mem
    · simp [Memory.read]
    · have rises : d.1 < a := first (a, b) mem
      simp only [Memory.read, if_neg (show ¬d.1 = a by omega)]
      exact ih mem sorted

/-- A byte that the list does not hold reads 00H. -/
theorem Memory.read_of_not_mem {m : Memory} {a : Nat} (h : ∀ b, (a, b) ∉ m) : m.read a = 0 := by
  induction m with
  | nil => rfl
  | cons d rest ih =>
    have other : ¬d.1 = a := fun e => h d.2 (by simp [← e])
    simp only [Memory.read, if_neg other]
    exact ih fun b mem => h b (List.mem_cons_of_mem _ mem)

/-- Settles O15. -/
theorem bufferPortMovesOneByte : Obligations.BufferPortMovesOneByte := by
  refine ⟨fun s ready page => ?_, fun s a init => State.byteAt_of_ready init a,
    fun m a wf => ⟨fun b mem => Memory.read_of_mem wf mem, Memory.read_of_not_mem⟩, fun v s ready page wf => ?_⟩
  · exact congrArg Host.Outcome.next (State.hostRead_ready ready page _)
  · have exec : exec (.bufferDataWrite v) s = .next
        ({ s with memory := s.memory.write s.port.bufferAddress.toNat v } : State).advanceBuffer :=
      congrArg Host.Outcome.next (State.hostWrite_ready ready page _)
    refine ⟨_, exec, rfl, fun a => ?_⟩
    rw [State.byteAt_of_ready (by exact ready.2), State.byteAt_of_ready ready.2]
    exact Memory.read_write wf _ v a

end Sys2Proof.Machine
end

