-- ==== Sys2Proof/Proofs/Window.lean ====
section
/-! SUPPORT. The register window: plain writes (section 9.1), what a read of each location returns (chapter 10) and the wide
values (section 9.3). -/

namespace Sys2Proof.Machine

/-! ### Plain writes (R149) -/

theorem exec_registerWrite {s : State} (h : s.hostReady) {p : Fin 6} (page : s.port.page = p) (l : BitVec 6) (v : Byte) :
    exec (.registerWrite l v) s = .next (if locationHasOwnRow p l.toNat then s else s.writePlain l.toNat v) := by
  subst page
  exact congrArg Host.Outcome.next (State.hostWrite_ready h rfl _)

theorem State.writePlain_page0 {s : State} (h : s.port.page = 0) (n : Nat) (v : Byte) :
    s.writePlain n v = s.writePage0 n v := by
  rw [State.writePlain, h]; rfl

theorem State.writePlain_page2 {s : State} (h : s.port.page = 2) (n : Nat) (v : Byte) :
    s.writePlain n v = s.writePage2 n v := by
  rw [State.writePlain, h]; rfl

theorem State.writePlain_page3 {s : State} (h : s.port.page = 3) (n : Nat) (v : Byte) :
    s.writePlain n v = s.writePage3 n v := by
  rw [State.writePlain, h]; rfl

theorem State.writePlain_page4 {s : State} (h : s.port.page = 4) (n : Nat) (v : Byte) :
    s.writePlain n v = s.writePage4 n v := by
  rw [State.writePlain, h]; rfl

/-- A write on page 0 outside its five plain items. -/
theorem State.writePage0_refused (s : State) {n : Nat} (h : n ∉ [0x04, 0x05, 0x09, 0x0A, 0x0B]) (v : Byte) :
    s.writePage0 n v = s.refuseWrite := by
  simp only [List.mem_cons, List.not_mem_nil, or_false, not_or] at h
  unfold State.writePage0
  split
  case h_6 => rfl
  all_goals omega

theorem State.writePage2_refused (s : State) {n : Nat} (h : n ≠ 0) (v : Byte) : s.writePage2 n v = s.refuseWrite := by
  unfold State.writePage2
  split
  case h_2 => rfl
  omega

theorem State.writePage3_refused (s : State) {n : Nat} (h : 2 ≤ n) (v : Byte) : s.writePage3 n v = s.refuseWrite := by
  unfold State.writePage3
  split
  case h_3 => rfl
  all_goals omega

theorem State.writePage4_refused (s : State) {n : Nat} (h : n ≠ 4) (v : Byte) : s.writePage4 n v = s.refuseWrite := by
  unfold State.writePage4
  split
  case h_2 => rfl
  omega

/-- The pages without a plain writable item. -/
theorem State.writePlain_otherPages {s : State} (h : s.port.page = 1 ∨ s.port.page = 5) (n : Nat) (v : Byte) :
    s.writePlain n v = s.refuseWrite := by
  rcases h with h | h <;> rw [State.writePlain, h] <;> rfl

/-- A location that no row of its own covers and no page writes refuses the write. -/
theorem exec_registerWrite_refused {s : State} (h : s.hostReady) {p : Fin 6} (page : s.port.page = p) {l : BitVec 6}
    {v : Byte} (plain : locationHasOwnRow p l.toNat = false) (refused : s.writePlain l.toNat v = s.refuseWrite) :
    exec (.registerWrite l v) s = .next s.refuseWrite := by
  rw [exec_registerWrite h page, plain, refused]
  rfl

theorem State.writePage2_select (s : State) {v : Byte} {c : Channel} (e : v.toNat = c.val) :
    s.writePage2 0x00 v = { s with port := { s.port with channelSelect := c } } := by
  have below : v.toNat < 20 := e ▸ c.isLt
  have same : (⟨v.toNat, below⟩ : Channel) = c := Fin.ext e
  refine (dif_pos below).trans ?_
  rw [same]

theorem State.writePage3_noBank (s : State) {v : Byte} (h : 2 ≤ v.toNat) : s.writePage3 0x00 v = s.refuseWrite := by
  simp only [State.writePage3]
  split
  case h_3 => rfl
  all_goals omega

theorem State.writePage4_select (s : State) {v : Byte} {t : Fin 32} (positive : t ≠ 0) (e : v.toNat = t.val) :
    s.writePage4 0x04 v = { s with port := { s.port with tagSelect := t } } := by
  have one : 1 ≤ v.toNat := by
    have : t.val ≠ 0 := fun z => positive (Fin.ext z)
    omega
  have range : 1 ≤ v.toNat ∧ v.toNat < 32 := ⟨one, e ▸ t.isLt⟩
  have same : (⟨v.toNat, range.2⟩ : Fin 32) = t := Fin.ext e
  refine (dif_pos range).trans ?_
  rw [same]

/-- The read-only and the unassigned locations of each page belong to no other row and are not written (chapter 10). -/
theorem exec_registerWrite_noItem {l : BitVec 6} {v : Byte} {s : State} (ready : s.hostReady)
    (h : s.port.page = 0 ∧
          (l.toNat ∈ [0x00, 0x07, 0x0C, 0x0D, 0x0F] ∨ (0x12 ≤ l.toNat ∧ l.toNat ≤ 0x3E)) ∨
      s.port.page = 1 ∧ l.toNat ≠ 0x10 ∧ l.toNat ≠ 0x11 ∧ l.toNat ≤ 0x3E ∨
      s.port.page = 2 ∧ (l.toNat = 0x03 ∨ (0x0E ≤ l.toNat ∧ l.toNat ≤ 0x3E)) ∨
      s.port.page = 3 ∧ 0x05 ≤ l.toNat ∧ l.toNat ≤ 0x3E ∨
      s.port.page = 4 ∧ (l.toNat = 0x03 ∨ (0x06 ≤ l.toNat ∧ l.toNat ≤ 0x3E)) ∨
      s.port.page = 5 ∧ l.toNat ≤ 0x3E) :
    exec (.registerWrite l v) s = .next s.refuseWrite := by
  simp only [List.mem_cons, List.not_mem_nil, or_false] at h
  rcases h with ⟨page, range⟩ | ⟨page, range⟩ | ⟨page, range⟩ | ⟨page, range⟩ | ⟨page, range⟩ | ⟨page, range⟩
  · refine exec_registerWrite_refused ready page (by simp [locationHasOwnRow]; omega) ?_
    rw [State.writePlain_page0 page, s.writePage0_refused (by simp; omega)]
  · refine exec_registerWrite_refused ready page (by simp [locationHasOwnRow]; omega) ?_
    rw [State.writePlain_otherPages (.inl page)]
  · refine exec_registerWrite_refused ready page (by simp [locationHasOwnRow]; omega) ?_
    rw [State.writePlain_page2 page, s.writePage2_refused (by omega)]
  · refine exec_registerWrite_refused ready page (by simp [locationHasOwnRow]; omega) ?_
    rw [State.writePlain_page3 page, s.writePage3_refused (by omega)]
  · refine exec_registerWrite_refused ready page (by simp [locationHasOwnRow]; omega) ?_
    rw [State.writePlain_page4 page, s.writePage4_refused (by omega)]
  · refine exec_registerWrite_refused ready page (by simp [locationHasOwnRow]; omega) ?_
    rw [State.writePlain_otherPages (.inr page)]

/-- Settles O9. -/
theorem registerWriteReachesItsItemOrIsRefused : Obligations.RegisterWriteReachesItsItemOrIsRefused := by
  refine ⟨fun v s ready => ⟨fun page => ?_, fun page => ?_, fun page => ?_, fun page => ?_⟩,
    fun l v s ready h => exec_registerWrite_noItem ready h⟩
  · have item (l : BitVec 6) (own : locationHasOwnRow 0 l.toNat = false) :
        exec (.registerWrite l v) s = .next (s.writePage0 l.toNat v) := by
      rw [exec_registerWrite ready page, own, State.writePlain_page0 page]; rfl
    exact ⟨item 0x04 rfl, item 0x05 rfl, item 0x09 rfl, item 0x0A rfl, item 0x0B rfl⟩
  · have item : exec (.registerWrite 0x00 v) s = .next (s.writePage2 0x00 v) := by
      rw [exec_registerWrite ready page, State.writePlain_page2 page]; rfl
    exact ⟨fun c e => item.trans (congrArg Host.Outcome.next (s.writePage2_select e)),
      fun above => item.trans (congrArg Host.Outcome.next (dif_neg (by omega)))⟩
  · have item (l : BitVec 6) (own : locationHasOwnRow 3 l.toNat = false) :
        exec (.registerWrite l v) s = .next (s.writePage3 l.toNat v) := by
      rw [exec_registerWrite ready page, own, State.writePlain_page3 page]; rfl
    refine ⟨?_, ?_, fun above => ?_, item 0x01 rfl⟩
    · rintro rfl; exact item 0x00 rfl
    · rintro rfl; exact item 0x00 rfl
    · exact (item 0x00 rfl).trans (congrArg Host.Outcome.next (s.writePage3_noBank above))
  · have item : exec (.registerWrite 0x04 v) s = .next (s.writePage4 0x04 v) := by
      rw [exec_registerWrite ready page, State.writePlain_page4 page]; rfl
    refine ⟨fun t positive e => item.trans (congrArg Host.Outcome.next (s.writePage4_select positive e)),
      fun bad => item.trans (congrArg Host.Outcome.next (dif_neg ?_))⟩
    rcases bad with rfl | above
    · simp
    · omega

/-! ### Wide values (R151 to R153) -/

/-- A read capture holder that holds another item, or nothing, leaves the live high byte (R151). -/
theorem State.readHeld_eq_false {s : State} {i : WideItem}
    (h : ∀ b : Byte, s.port.readHolder ≠ some ⟨s.wideKey i, b⟩) : s.readHeld i = false ∧ s.readHigh i = s.wideHigh i := by
  unfold State.readHeld State.readHigh
  cases e : s.port.readHolder with
  | none => exact ⟨rfl, rfl⟩
  | some d =>
    have other : d.key ≠ s.wideKey i := fun k => h d.byte (by rw [e, ← k])
    exact ⟨decide_eq_false other, if_neg other⟩

theorem State.readHeld_eq_true {s : State} {i : WideItem} {b : Byte} (h : s.port.readHolder = some ⟨s.wideKey i, b⟩) :
    s.readHeld i = true := by
  simp [State.readHeld, h]

/-- Settles O11. -/
theorem wideReadCapturesTheHighByte : Obligations.WideReadCapturesTheHighByte := by
  refine ⟨fun s i => ⟨_, _, _, State.mem_wideTable.mpr ⟨rfl, rfl, rfl⟩⟩, fun s i p l v mem ready page => ?_⟩
  obtain ⟨rfl, -, rfl⟩ := State.mem_wideTable.mp mem
  refine ⟨exec_wideLowByteRead ready page, fun b held => ?_, fun other => ?_⟩
  · rw [exec_wideHighByteRead ready page, State.readHigh_of_held held, State.readHeld_eq_true held]
    rfl
  · obtain ⟨held, live⟩ := State.readHeld_eq_false other
    rw [exec_wideHighByteRead ready page, held, live]
    rfl

theorem exec_wideLowByteWrite {s : State} {i : WideItem} (h : s.hostReady) (page : s.port.page = widePage i) (v : Byte) :
    exec (.wideLowByteWrite i v) s = .next (
      if wideWritable i then { s with port := { s.port with writeHolder := some ⟨s.wideKey i, v⟩ } }
      else s.refuseWrite) :=
  congrArg Host.Outcome.next (State.hostWrite_ready h page _)

theorem exec_wideHighByteCommit_readOnly {s : State} {i : WideItem} (h : s.hostReady) (page : s.port.page = widePage i)
    (readOnly : wideWritable i = false) (v : Byte) : exec (.wideHighByteCommit i v) s = .next s.refuseWrite :=
  (congrArg Host.Outcome.next (State.hostWrite_ready h page _)).trans (by rw [readOnly]; rfl)

/-- The low byte a commit takes from a write holder that holds the item, and from one that does not (R152). -/
theorem State.commitLow_held {s : State} {i : WideItem} {b : Byte} (h : s.port.writeHolder = some ⟨s.wideKey i, b⟩) :
    s.writeHeld i = true ∧ s.commitLow i = b := by
  simp [State.writeHeld, State.commitLow, h]

theorem State.commitLow_live {s : State} {i : WideItem} (h : ∀ b : Byte, s.port.writeHolder ≠ some ⟨s.wideKey i, b⟩) :
    s.writeHeld i = false ∧ s.commitLow i = s.wideLow i := by
  unfold State.writeHeld State.commitLow
  cases e : s.port.writeHolder with
  | none => exact ⟨rfl, rfl⟩
  | some d =>
    have other : d.key ≠ s.wideKey i := fun k => h d.byte (by rw [e, ← k])
    exact ⟨decide_eq_false other, if_neg other⟩

/-- The upper three bits of a 13-bit commit are ignored (section 9.3). -/
theorem commit13_eq (high low : Byte) : (high ++ low : Half).setWidth 13 = (high.extractLsb' 0 5 ++ low : BitVec 13) := by
  refine BitVec.eq_of_getLsbD_eq fun i below => ?_
  simp only [BitVec.getLsbD_setWidth, BitVec.getLsbD_append, BitVec.getLsbD_extractLsb', below, decide_true, Bool.true_and,
    Nat.zero_add]
  by_cases low : i < 8
  · simp [low]
  · simp [low, show i - 8 < 5 by omega]

theorem exec_commit_markerThreshold {s : State} (h : s.hostReady) (page : s.port.page = 1) (v : Byte) :
    exec (.wideHighByteCommit .markerThreshold v) s = .next { s with
      monitor := { s.monitor with threshold := v ++ s.commitLow .markerThreshold }
      port := { s.port with
        writeHolder := if s.writeHeld .markerThreshold then none else s.port.writeHolder } } :=
  exec_commit_taken (i := .markerThreshold) h page rfl rfl

theorem exec_commit_bufferAddress {s : State} (h : s.hostReady) (page : s.port.page = 4) (v : Byte) :
    exec (.wideHighByteCommit .bufferAddress v) s = .next { s with
      port := { s.port with
        bufferAddress := v.extractLsb' 0 5 ++ s.commitLow .bufferAddress
        writeHolder := if s.writeHeld .bufferAddress then none else s.port.writeHolder } } := by
  rw [← commit13_eq]
  exact exec_commit_taken (i := .bufferAddress) h page rfl rfl

theorem wideWritable_of_mem {i : WideItem}
    (h : i ∈ [.markerThreshold, .segABase, .segALength, .segBBase, .segBLength, .watermark, .bufferAddress]) :
    wideWritable i = true := by
  revert i; decide

theorem wideWritable_of_readOnly {i : WideItem}
    (h : i ∈ [.rxCycleCount, .txCycleCount, .cycleOffset, .markerErrors, .position, .fill, .headStamp]) :
    wideWritable i = false := by
  revert i; decide

/-- Settles O13. -/
theorem commitTakesHeldOrLiveLowByte : Obligations.CommitTakesHeldOrLiveLowByte := by
  refine ⟨fun s i p l live v mem ready page => ?_, fun v s ready => ⟨fun page => ⟨fun low held => ?_, fun other => ?_⟩,
    fun page => ⟨fun low held => ?_, fun other => ?_⟩⟩⟩
  case refine_1 =>
    obtain ⟨rfl, -, -⟩ := State.mem_wideTable.mp mem
    refine ⟨fun writable => ?_, fun readOnly => ⟨?_, ?_⟩⟩
    · rw [exec_wideLowByteWrite ready page, wideWritable_of_mem writable]; rfl
    · rw [exec_wideLowByteWrite ready page, wideWritable_of_readOnly readOnly]; rfl
    · exact exec_wideHighByteCommit_readOnly ready page (wideWritable_of_readOnly readOnly) v
  case refine_2 =>
    obtain ⟨uses, byte⟩ := State.commitLow_held (i := .markerThreshold) held
    rw [exec_commit_markerThreshold ready page, uses, byte]; rfl
  case refine_3 =>
    obtain ⟨uses, byte⟩ := State.commitLow_live (i := .markerThreshold) other
    rw [exec_commit_markerThreshold ready page, uses, byte]; rfl
  case refine_4 =>
    obtain ⟨uses, byte⟩ := State.commitLow_held (i := .bufferAddress) held
    rw [exec_commit_bufferAddress ready page, uses, byte]; rfl
  case refine_5 =>
    obtain ⟨uses, byte⟩ := State.commitLow_live (i := .bufferAddress) other
    have live : s.wideLow .bufferAddress = s.port.bufferAddress.extractLsb' 0 8 := by
      simp only [State.wideLow, State.wideValue]
      refine BitVec.eq_of_getLsbD_eq fun i below => ?_
      simp [below, show i < 16 by omega]
    rw [exec_commit_bufferAddress ready page, uses, byte, live]; rfl

/-! ### Programmed fields (R73 to R75) -/

theorem ChannelContext.segmentWritable_iff {x : ChannelContext} {g : Segment} :
    x.segmentWritable g = true ↔ x.atRest = true ∨ (x.mode = .alternating ∧ x.owner g = .host) := by
  simp [ChannelContext.segmentWritable]

/-- The write holder holds an item of page 2 when its tag is the item with the channel select in force (R153). -/
theorem State.writeHeld_iff {s : State} {i : WideItem} (hi : widePage i = 2) :
    s.writeHeld i = true ↔ s.port.writeHolder.map (·.key) = some ⟨i, some s.port.channelSelect⟩ := by
  have key : s.wideKey i = ⟨i, some s.port.channelSelect⟩ := by simp [State.wideKey, hi]
  unfold State.writeHeld
  rw [key]
  cases s.port.writeHolder <;> simp

/-- The value a commit of a field of the selected channel carries (R152). -/
theorem State.commit13_field {s : State} {i : WideItem} (hi : widePage i = 2) {live : Nat}
    (value : s.wideValue i = BitVec.ofNat 16 live) (v : Byte) :
    s.commit13 i v = (v.extractLsb' 0 5 ++
      (if s.port.writeHolder.map (·.key) = some ⟨i, some s.port.channelSelect⟩ then
        (s.port.writeHolder.map (·.byte)).getD 0 else BitVec.ofNat 8 live : Byte) : BitVec 13) := by
  have low : s.wideLow i = BitVec.ofNat 8 live := by
    rw [State.wideLow, value]
    refine BitVec.eq_of_toNat_eq ?_
    simp only [BitVec.extractLsb'_toNat, BitVec.toNat_ofNat, Nat.shiftRight_zero]
    omega
  rw [State.commit13, State.commitHalf, commit13_eq]
  congr 1
  by_cases held : s.writeHeld i = true
  · rw [if_pos ((State.writeHeld_iff hi).mp held)]
    unfold State.writeHeld at held
    unfold State.commitLow
    split at held
    · next d e => simp_all
    · cases held
  · rw [if_neg (mt (State.writeHeld_iff hi).mpr held), ← low]
    refine (State.commitLow_live fun b e => held ?_).2
    simp [State.writeHeld, e]

/-- A commit of a field of the selected channel: taken where its checks hold, and refused otherwise (R73, R152). -/
theorem exec_commit_field {s : State} {i : WideItem} (h : s.hostReady) (page : s.port.page = 2) (hi : widePage i = 2)
    (hw : wideWritable i = true) {v : Byte} {permitted : Prop} [Decidable permitted] {y : ChannelContext}
    (item : s.commitItem i v = if permitted then some (s.setSelected y) else none) :
    exec (.wideHighByteCommit i v) s = .next (
      if permitted then
        if s.port.writeHolder.map (·.key) = some ⟨i, some s.port.channelSelect⟩ then
          { s.setSelected y with port := { s.port with writeHolder := none } }
        else s.setSelected y
      else { s with port := { s.port with accessError := true, writeHolder := none } }) := by
  by_cases ok : permitted
  · rw [if_pos ok] at item ⊢
    rw [exec_commit_taken h (page.trans hi.symm) hw item]
    by_cases held : s.writeHeld i = true
    · rw [if_pos held, if_pos ((State.writeHeld_iff hi).mp held)]; rfl
    · rw [if_neg held, if_neg (mt (State.writeHeld_iff hi).mpr held)]
  · rw [if_neg ok] at item ⊢
    exact exec_commit_refused h (page.trans hi.symm) hw item

/-- The selected channel's mode byte and tag, once the gates let the write through (R73, R75). -/
theorem exec_modeByteWrite_taken {s : State} (h : s.hostReady) (page : s.port.page = 2) {v : Byte} {m : Mode}
    (rest : s.selected.atRest = true) (mode : Mode.ofCode (v.extractLsb' 1 2) = some m) :
    exec (.modeByteWrite v) s = .next (s.setSelected { s.selected.replanned with
      direction := if v.getLsbD 0 then .transmit else .receive, mode := m, poolMode := v.getLsbD 3 }) := by
  refine congrArg Host.Outcome.next ((State.hostWrite_ready h page _).trans ?_)
  simp only [rest, mode, Bool.not_true, Bool.false_eq_true, if_false]

theorem exec_modeByteWrite_refused {s : State} (h : s.hostReady) (page : s.port.page = 2) {v : Byte}
    (bad : s.selected.atRest = false ∨ Mode.ofCode (v.extractLsb' 1 2) = none) :
    exec (.modeByteWrite v) s = .next s.refuseWrite := by
  refine congrArg Host.Outcome.next ((State.hostWrite_ready h page _).trans ?_)
  rcases bad with rest | mode
  · simp [rest]
  · simp [mode]

theorem exec_tagWrite {s : State} (h : s.hostReady) (page : s.port.page = 2) (v : Byte) :
    exec (.tagWrite v) s = .next (
      if s.selected.atRest = true ∧ 1 ≤ v.toNat ∧ v.toNat ≤ 31 then s.setSelected { s.selected with tag := v }
      else s.refuseWrite) := by
  refine congrArg Host.Outcome.next ((State.hostWrite_ready h page _).trans ?_)
  by_cases rest : s.selected.atRest = true <;> simp [rest]

/-- The code of a mode (section 10.4). -/
theorem Mode.ofCode_of_mem {m : Mode} {b : BitVec 2}
    (h : (m, b.toNat) ∈ [(Mode.single, 0), (.ring, 1), (.alternating, 2)]) : Mode.ofCode b = some m := by
  simp only [List.mem_cons, Prod.mk.injEq, List.not_mem_nil, or_false] at h
  rcases h with ⟨rfl, e⟩ | ⟨rfl, e⟩ | ⟨rfl, e⟩ <;> rw [Mode.ofCode, e] <;> rfl

/-- Settles O14. -/
theorem programmedFieldWritesCheckPermissionAndRange : Obligations.ProgrammedFieldWritesCheckPermissionAndRange := by
  refine ⟨fun v s ready page => ?_, fun v s ready page => ⟨fun moving => ?_, fun rest => ?_⟩⟩
  · intro x held value put taken refused permitted
    have carried {i : WideItem} (hi : widePage i = 2) {live : Nat} (e : s.wideValue i = BitVec.ofNat 16 live) :
        (s.commit13 i v).toNat = value i live := congrArg BitVec.toNat (State.commit13_field hi e v)
    refine ⟨?_, ?_, ?_, ?_, ?_⟩
    · rw [exec_commit_field (permitted := permitted .segA) (y := x.withBaseA (value .segABase x.baseA)) ready page rfl rfl
        (by rw [← carried rfl rfl]; exact if_congr ChannelContext.segmentWritable_iff rfl rfl)]
      by_cases rest : x.atRest = true
      · simp only [ChannelContext.withBaseA, rest, if_true]; rfl
      · simp only [ChannelContext.withBaseA, rest]; rfl
    · rw [exec_commit_field (permitted := permitted .segA ∧ 1 ≤ value .segALength x.lengthA ∧ value .segALength x.lengthA ≤ 4096)
        (y := x.withLengthA (value .segALength x.lengthA)) ready page rfl rfl
        (by
          rw [← carried rfl rfl]
          refine if_congr (Bool.and_eq_true_iff.trans ?_) rfl rfl
          exact and_congr ChannelContext.segmentWritable_iff lengthInRange_iff)]
      by_cases rest : x.atRest = true
      · simp only [ChannelContext.withLengthA, rest, if_true]; rfl
      · simp only [ChannelContext.withLengthA, rest]; rfl
    · rw [exec_commit_field (permitted := permitted .segB) (y := { x.replannedB with baseB := value .segBBase x.baseB })
        ready page rfl rfl
        (by rw [← carried rfl rfl]; exact if_congr ChannelContext.segmentWritable_iff rfl rfl)]
      by_cases rest : x.atRest ∧ x.active = .segB
      · simp only [ChannelContext.replannedB, if_pos rest]; rfl
      · simp only [ChannelContext.replannedB, if_neg rest]; rfl
    · rw [exec_commit_field (permitted := permitted .segB ∧ 1 ≤ value .segBLength x.lengthB ∧ value .segBLength x.lengthB ≤ 4096)
        (y := { x.replannedB with lengthB := value .segBLength x.lengthB }) ready page rfl rfl
        (by
          rw [← carried rfl rfl]
          refine if_congr (Bool.and_eq_true_iff.trans ?_) rfl rfl
          exact and_congr ChannelContext.segmentWritable_iff lengthInRange_iff)]
      by_cases rest : x.atRest ∧ x.active = .segB
      · simp only [ChannelContext.replannedB, if_pos rest]; rfl
      · simp only [ChannelContext.replannedB, if_neg rest]; rfl
    · rw [exec_commit_field (permitted := value .watermark x.watermark ≤ 4096)
        (y := { x with watermark := value .watermark x.watermark }) ready page rfl rfl (by rw [← carried rfl rfl]; rfl)]
      rfl
  · have rest : s.selected.atRest = false := Bool.eq_false_iff.mpr (mt s.selected.atRest_iff_idle_or_done.mp moving)
    refine ⟨exec_modeByteWrite_refused ready page (.inl rest), ?_⟩
    rw [exec_tagWrite ready page, if_neg (by simp [rest])]
  · have rest : s.selected.atRest = true := s.selected.atRest_iff_idle_or_done.mpr rest
    refine ⟨fun bad => ?_, fun m mode => ?_, fun range => ?_, fun bad => ?_⟩
    · exact exec_modeByteWrite_refused ready page (.inr (by rw [bad]; rfl))
    · exact exec_modeByteWrite_taken ready page rest (Mode.ofCode_of_mem mode)
    · rw [exec_tagWrite ready page, if_pos ⟨rest, range⟩]; rfl
    · rw [exec_tagWrite ready page, if_neg (by omega)]

end Sys2Proof.Machine
end

