-- ==== Sys2Proof/Proofs/WindowReads.lean ====
section
/-! SUPPORT. What a read of each location of the window returns (chapter 10). -/

namespace Sys2Proof.Machine

/-! ### Bytes of several fields and codes (sections 10.2 to 10.9) -/

theorem toNat_flagByte (b : Bool) : (flagByte b).toNat = b.toNat := by
  cases b <;> rfl

/-- A bit put below the bits of a byte. -/
theorem getLsbD_putBelow (b : Bool) (x : Byte) {i : Nat} (h : i < 8) :
    (flagByte b + x * 2).getLsbD i = if i = 0 then b else x.getLsbD (i - 1) := by
  have value : (flagByte b + x * 2).toNat = (b.toNat + x.toNat * 2) % 2 ^ 8 := by
    simp [toNat_flagByte]
  have bit : b.toNat < 2 := Bool.toNat_lt b
  rw [BitVec.getLsbD, value, Nat.testBit_mod_two_pow, decide_eq_true h, Bool.true_and]
  cases i with
  | zero =>
    have low : (b.toNat + x.toNat * 2) % 2 = b.toNat := by omega
    rw [Nat.testBit_zero, low]
    cases b <;> rfl
  | succ i =>
    have high : (b.toNat + x.toNat * 2) / 2 = x.toNat := by omega
    rw [Nat.testBit_succ, high]
    rfl

/-- Bit `i` of a byte of several fields is field `i` (R163). -/
theorem getLsbD_bitsToByte (l : List Bool) {i : Nat} (h : i < 8) : (bitsToByte l).getLsbD i = l.getD i false := by
  induction l generalizing i with
  | nil => simp [bitsToByte]
  | cons b rest ih =>
    rw [bitsToByte, getLsbD_putBelow b _ h]
    cases i with
    | zero => rfl
    | succ i => exact ih (by omega)

theorem getLsbD_fields {l : List Bool} (short : l.length ≤ 8) (i : Nat) :
    (bitsToByte l).getLsbD i = l.getD i false := by
  by_cases h : i < 8
  · exact getLsbD_bitsToByte l h
  · rw [BitVec.getLsbD_of_ge _ _ (by omega), List.getD_eq_default _ _ (by omega)]

theorem getLsbD_flagByte (b : Bool) (i : Nat) : (flagByte b).getLsbD i = [b].getD i false := by
  have one : flagByte b = bitsToByte [b] := by cases b <;> rfl
  rw [one]
  exact getLsbD_fields (by simp) i

theorem ChannelContext.modeByte_eq (x : ChannelContext) : x.modeByte =
    bitsToByte [x.direction = .transmit, x.mode = .ring, x.mode = .alternating, x.poolMode] := by
  unfold ChannelContext.modeByte
  cases x.direction <;> cases x.mode <;> rfl

theorem ChannelContext.flagsByte_eq (x : ChannelContext) : x.flagsByte =
    bitsToByte [x.active = .segB, x.ownerA = .host, x.ownerB = .host, x.stalled, x.shortRun] := by
  unfold ChannelContext.flagsByte
  cases x.active <;> cases x.ownerA <;> cases x.ownerB <;> rfl

theorem Bank.bit_eq (b : Bank) : b.bit = decide (b = .bankB) := by
  cases b <;> rfl

/-- The table of result codes names each once (section 10.2). -/
theorem ResultCode.mem_codes (q k : ResultCode) :
    (k, q.code.toNat) ∈ [(ResultCode.none, 0), (.ok, 1), (.busy, 2), (.badChannel, 3), (.badState, 4),
      (.badSegment, 5), (.badAmount, 6), (.badTag, 7), (.badCommand, 8), (.notReady, 9)] ↔ k = q := by
  cases q <;> simp [ResultCode.code]

theorem TxState.mem_codes (q k : TxState) :
    (k, q.code.toNat) ∈ [(TxState.stopped, 0), (.running, 1), (.stopping, 2)] ↔ k = q := by
  cases q <;> simp [TxState.code]

theorem AlignerState.mem_codes (q k : AlignerState) :
    (k, q.code.toNat) ∈ [(AlignerState.off, 0), (.hunt, 1), (.confirm, 2), (.aligned, 3)] ↔ k = q := by
  cases q <;> simp [AlignerState.code]

theorem ChannelState.mem_codes (q k : ChannelState) :
    (k, q.code.toNat) ∈ [(ChannelState.idle, 0), (.armed, 1), (.active, 2), (.ending, 3), (.done, 4)] ↔ k = q := by
  cases q <;> simp [ChannelState.code]

/-- A kind and channel byte (section 10.5). -/
theorem toNat_kindAndChannel (k : BitVec 3) (c : Channel) :
    (k ++ BitVec.ofNat 5 c.val : Byte).toNat = 32 * k.toNat + c.val := by
  have below : c.val < 2 ^ 5 := by omega
  rw [BitVec.toNat_append, BitVec.toNat_ofNat, Nat.mod_eq_of_lt below, ← Nat.shiftLeft_add_eq_or_of_lt below,
    Nat.shiftLeft_eq]
  omega

theorem RxKind.mem_codes (k : RxKind) : (k, k.code.toNat) ∈ [(RxKind.discard, 0), (.channel, 1), (.pool, 2)] := by
  cases k <;> simp [RxKind.code]

theorem TxKind.mem_codes (k : TxKind) :
    (k, k.code.toNat) ∈ [(TxKind.idle, 0), (.constant, 1), (.channel, 2), (.pool, 3)] := by
  cases k <;> simp [TxKind.code]

theorem Kind.mem_numbers (k : Kind) :
    (k, (BitVec.ofNat 8 k.number).toNat) ∈ [(Kind.segmentDone, 1), (.channelEnded, 2), (.shortfall, 3), (.watermark, 4),
      (.alignGained, 5), (.alignLost, 6), (.remoteFaultOn, 7), (.remoteFaultOff, 8), (.silenceOn, 9), (.silenceOff, 10),
      (.holdOn, 11), (.holdOff, 12), (.rxMapSwitched, 13), (.txMapSwitched, 14), (.markerThreshold, 15)] := by
  cases k <;> simp [Kind.number]

theorem Detail.mem_codes (d : Detail) :
    (d, d.code.toNat) ∈ [(Detail.none, 0), (.segmentA, 1), (.segmentB, 2), (.completed, 1), (.finished, 2),
      (.markers, 1), (.silence, 2), (.hold, 3), (.command, 4)] := by
  cases d <;> simp [Detail.code]

/-- A number below 256 as a byte. -/
theorem toNat_byte {n : Nat} (h : n < 256) : (BitVec.ofNat 8 n).toNat = n := by
  rw [BitVec.toNat_ofNat]
  exact Nat.mod_eq_of_lt h

/-! ### The page held decides the reading (R148, R149) -/

theorem ne_pageRegister {l : BitVec 6} (below : l.toNat ≤ 0x3E) : l ≠ 0x3F := fun e => by
  simp [e] at below

section
variable {s : State} (ready : s.hostReady) {l : BitVec 6}
include ready

theorem State.busRead_window : s.busRead l = s.windowByte l := by
  simp [State.busRead, ready.1, ready.2]

theorem State.busRead_page0 (below : l.toNat ≤ 0x3E) (page : s.port.page = 0) :
    s.busRead l = s.readPage0 l.toNat := by
  rw [State.busRead_window ready, State.windowByte, if_neg (ne_pageRegister below), page]; rfl

theorem State.busRead_page1 (below : l.toNat ≤ 0x3E) (page : s.port.page = 1) :
    s.busRead l = s.readPage1 l.toNat := by
  rw [State.busRead_window ready, State.windowByte, if_neg (ne_pageRegister below), page]; rfl

theorem State.busRead_page2 (below : l.toNat ≤ 0x3E) (page : s.port.page = 2) :
    s.busRead l = s.readPage2 l.toNat := by
  rw [State.busRead_window ready, State.windowByte, if_neg (ne_pageRegister below), page]; rfl

theorem State.busRead_page3 (below : l.toNat ≤ 0x3E) (page : s.port.page = 3) :
    s.busRead l = s.readPage3 l.toNat := by
  rw [State.busRead_window ready, State.windowByte, if_neg (ne_pageRegister below), page]; rfl

theorem State.busRead_page4 (below : l.toNat ≤ 0x3E) (page : s.port.page = 4) :
    s.busRead l = s.readPage4 l.toNat := by
  rw [State.busRead_window ready, State.windowByte, if_neg (ne_pageRegister below), page]; rfl

theorem State.busRead_page5 (below : l.toNat ≤ 0x3E) (page : s.port.page = 5) :
    s.busRead l = s.readPage5 l.toNat := by
  rw [State.busRead_window ready, State.windowByte, if_neg (ne_pageRegister below), page]; rfl

end

/-- A wide item reads its live low byte, and its high byte as the read capture holder has it (R151). -/
theorem State.busRead_wide {s : State} (ready : s.hostReady) (i : WideItem) (page : s.port.page = widePage i) :
    s.busRead (BitVec.ofNat 6 (wideLocation i)) = s.wideLow i ∧
      s.busRead (BitVec.ofNat 6 (wideLocation i) + 1) = s.readHigh i := by
  cases i
  case rxCycleCount | txCycleCount | cycleOffset | markerErrors | markerThreshold =>
    exact ⟨s.busRead_page1 ready (by decide) page, s.busRead_page1 ready (by decide) page⟩
  case segABase | segALength | segBBase | segBLength | watermark | position | fill =>
    exact ⟨s.busRead_page2 ready (by decide) page, s.busRead_page2 ready (by decide) page⟩
  case bufferAddress => exact ⟨s.busRead_page4 ready (by decide) page, s.busRead_page4 ready (by decide) page⟩
  case headStamp => exact ⟨s.busRead_page5 ready (by decide) page, s.busRead_page5 ready (by decide) page⟩

/-! ### Locations with no item -/

theorem State.readPage0_unassigned (s : State) {n : Nat} (h : n ∈ [0x07, 0x08, 0x0F] ∨ 0x12 ≤ n) : s.readPage0 n = 0 := by
  simp only [List.mem_cons, List.not_mem_nil, or_false] at h
  unfold State.readPage0
  split
  case h_16 => rfl
  all_goals omega

theorem State.readPage1_unassigned (s : State) {n : Nat} (h : n = 0x0F ∨ 0x12 ≤ n) : s.readPage1 n = 0 := by
  unfold State.readPage1
  split
  case h_18 => rfl
  all_goals omega

theorem State.readPage2_unassigned (s : State) {n : Nat} (h : n ∈ [0x03, 0x0E, 0x0F] ∨ 0x17 ≤ n) :
    s.readPage2 n = 0 := by
  simp only [List.mem_cons, List.not_mem_nil, or_false] at h
  unfold State.readPage2
  split
  case h_21 => rfl
  all_goals omega

theorem State.readPage3_unassigned (s : State) {n : Nat} (h : 0x05 ≤ n) : s.readPage3 n = 0 := by
  unfold State.readPage3
  split
  case h_6 => rfl
  all_goals omega

theorem State.readPage4_unassigned (s : State) {n : Nat} (h : n = 0x03 ∨ 0x06 ≤ n) : s.readPage4 n = 0 := by
  unfold State.readPage4
  split
  case h_6 => rfl
  all_goals omega

theorem State.readPage5_unassigned (s : State) {n : Nat} (h : n = 0x07 ∨ 0x0B ≤ n) : s.readPage5 n = 0 := by
  unfold State.readPage5
  split
  case h_11 => rfl
  all_goals omega

/-! ### The obligation -/

theorem BankMaps.rxEntry_succ (m : BankMaps) (e : Fin 63) : m.rxEntry (e.val + 1) = m.rx[e] := by
  simp [BankMaps.rxEntry]

theorem BankMaps.txEntry_succ (m : BankMaps) (e : Fin 63) : m.txEntry (e.val + 1) = m.tx[e] := by
  simp [BankMaps.txEntry]

/-- Settles O10: the page held decides which table a read goes to, and each location is then its own item. -/
theorem windowShowsThePagesItems : Obligations.WindowShowsThePagesItems := by
  intro s ready r x bits bank n
  refine ⟨?_, fun i p l v mem page => ?_, fun page => ?_, fun page => ?_, fun page => ?_, fun page => ?_, fun page => ?_,
    fun page => ?_⟩
  · have shown : r 0x3F = BitVec.ofNat 8 s.port.page.val := by
      simp [r, State.busRead, ready.1, ready.2, State.windowByte]
    rw [shown, toNat_byte (by omega)]
  · obtain ⟨rfl, rfl, rfl⟩ := State.mem_wideTable.mp mem
    obtain ⟨low, high⟩ := State.busRead_wide ready i page
    exact ⟨low, fun b held => high.trans (State.readHigh_of_held held),
      fun other => high.trans (State.readHeld_eq_false other).2⟩
  · have shown {l : BitVec 6} (below : l.toNat ≤ 0x3E) : r l = s.readPage0 l.toNat := State.busRead_page0 ready below page
    refine ⟨shown (by decide), fun i => ?_, fun i => ?_, shown (by decide), shown (by decide), fun i => ?_, fun i => ?_,
      shown (by decide), shown (by decide), shown (by decide), fun k => ?_, fun i => ?_, fun i => ?_, fun i below => ?_,
      fun i below => ?_, fun l unassigned => ?_⟩
    case refine_1 | refine_2 | refine_3 | refine_4 | refine_7 => rw [shown (by decide)]; exact getLsbD_flagByte _ i
    case refine_5 => rw [shown (by decide)]; exact ResultCode.mem_codes s.port.result k
    case refine_6 => rw [shown (by decide)]; exact getLsbD_fields (by simp) i
    case refine_8 =>
      rw [shown (by decide)]
      show (s.notifications.enabled.extractLsb' 0 8).getLsbD i = _
      simp [below, n]
    case refine_9 =>
      rw [shown (by decide)]
      show ((s.notifications.enabled.extractLsb' 8 7).setWidth 8).getLsbD i = _
      by_cases seven : i < 7
      · simp [below, seven, n]
      · simp [seven, n, BitVec.getLsbD_of_ge _ _ (show 15 ≤ 8 + i by omega)]
    case refine_10 =>
      have below : l.toNat ≤ 0x3E := by
        rcases unassigned with named | range
        · simp only [List.mem_cons, List.not_mem_nil, or_false] at named; omega
        · exact range.2
      exact (shown below).trans (s.readPage0_unassigned (unassigned.imp_right And.left))
  · have shown {l : BitVec 6} (below : l.toNat ≤ 0x3E) : r l = s.readPage1 l.toNat := State.busRead_page1 ready below page
    refine ⟨fun k => ?_, fun k => ?_, fun i => ?_, fun i => ?_, shown (by decide), shown (by decide), shown (by decide),
      fun l unassigned => ?_⟩
    · rw [shown (by decide)]; exact TxState.mem_codes _ k
    · rw [shown (by decide)]; exact AlignerState.mem_codes _ k
    · rw [shown (by decide)]; exact getLsbD_fields (by simp) i
    · rw [shown (by decide), ← Bank.bit_eq, ← Bank.bit_eq]; exact getLsbD_fields (by simp) i
    · exact (shown (by omega)).trans (s.readPage1_unassigned (by omega))
  · have shown {l : BitVec 6} (below : l.toNat ≤ 0x3E) : r l = s.readPage2 l.toNat := State.busRead_page2 ready below page
    refine ⟨?_, fun i => ?_, shown (by decide), fun k => ?_, fun i => ?_, shown (by decide), fun l unassigned => ?_⟩
    · rw [shown (by decide)]; exact toNat_byte (by omega)
    · rw [shown (by decide)]
      refine (congrArg (BitVec.getLsbD · i) x.modeByte_eq).trans (getLsbD_fields (by simp) i)
    · rw [shown (by decide)]; exact ChannelState.mem_codes x.state k
    · rw [shown (by decide)]
      refine (congrArg (BitVec.getLsbD · i) x.flagsByte_eq).trans (getLsbD_fields (by simp) i)
    · have below : l.toNat ≤ 0x3E := by
        rcases unassigned with named | range
        · simp only [List.mem_cons, List.not_mem_nil, or_false] at named; omega
        · exact range.2
      exact (shown below).trans (s.readPage2_unassigned (unassigned.imp_right And.left))
  · have shown {l : BitVec 6} (below : l.toNat ≤ 0x3E) : r l = s.readPage3 l.toNat := State.busRead_page3 ready below page
    have same : s.maps.bank s.port.bankSelect = bank := s.maps.bank_eq_ite s.port.bankSelect
    refine ⟨fun i => ?_, shown (by decide), fun out => ?_, fun e index => ?_, fun l low high => ?_⟩
    · rw [shown (by decide), ← Bank.bit_eq]; exact getLsbD_flagByte _ i
    · have invalid : ¬s.port.entryIndexValid = true := by
        simp only [HostPort.entryIndexValid, Bool.and_eq_true, decide_eq_true_eq]
        rcases out with zero | above
        · simp [zero]
        · omega
      exact ⟨(shown (by decide)).trans (if_neg invalid), (shown (by decide)).trans (if_neg invalid),
        (shown (by decide)).trans (if_neg invalid)⟩
    · have valid : s.port.entryIndexValid = true := by
        simp only [HostPort.entryIndexValid, Bool.and_eq_true, decide_eq_true_eq]
        omega
      refine ⟨⟨_, RxKind.mem_codes _, ?_⟩, ⟨_, TxKind.mem_codes _, ?_⟩, ?_⟩
      · rw [shown (by decide)]
        refine (congrArg BitVec.toNat (if_pos valid)).trans ?_
        rw [same, index, BankMaps.rxEntry_succ]
        exact toNat_kindAndChannel _ _
      · rw [shown (by decide)]
        refine (congrArg BitVec.toNat (if_pos valid)).trans ?_
        rw [same, index, BankMaps.txEntry_succ]
        exact toNat_kindAndChannel _ _
      · refine (shown (by decide)).trans ((if_pos valid).trans ?_)
        rw [same, index, BankMaps.txEntry_succ]
    · exact (shown high).trans (s.readPage3_unassigned low)
  · have shown {l : BitVec 6} (below : l.toNat ≤ 0x3E) : r l = s.readPage4 l.toNat := State.busRead_page4 ready below page
    refine ⟨shown (by decide), ?_, fun l unassigned => ?_⟩
    · rw [shown (by decide)]; exact toNat_byte (by omega)
    · exact (shown (by omega)).trans (s.readPage4_unassigned (by omega))
  · have shown {l : BitVec 6} (below : l.toNat ≤ 0x3E) : r l = s.readPage5 l.toNat := State.busRead_page5 ready below page
    refine ⟨shown (by decide), fun empty => ?_, fun q rest queue => ?_, fun i below => ?_, fun l unassigned => ?_⟩
    · have head (f : QueueRecord → Byte) : s.notifications.head f = 0 := by rw [Notifications.head, empty]
      exact ⟨(shown (by decide)).trans (head _), (shown (by decide)).trans (head _), (shown (by decide)).trans (head _),
        (shown (by decide)).trans (head _)⟩
    · have head (f : QueueRecord → Byte) : s.notifications.head f = f q := by rw [Notifications.head, queue]
      have kind : r 0x01 = BitVec.ofNat 8 q.post.kind.number := (shown (by decide)).trans (head _)
      have channel : r 0x02 = q.post.channel.code := (shown (by decide)).trans (head _)
      have detail : r 0x04 = q.post.detail.code := (shown (by decide)).trans (head _)
      refine ⟨kind ▸ Kind.mem_numbers _, fun c e => ?_, fun e => ?_, (shown (by decide)).trans (head _),
        detail ▸ Detail.mem_codes _⟩
      · rw [channel, e]; exact toNat_byte (by omega)
      · rw [channel, e]; rfl
    · refine ⟨?_, ?_, ?_⟩
      · rw [shown (by decide)]
        show (s.notifications.missed.extractLsb' 0 8).getLsbD i = _
        simp [below, n]
      · rw [shown (by decide)]
        show (s.notifications.missed.extractLsb' 8 8).getLsbD i = _
        simp [below, n]
      · rw [shown (by decide)]
        show ((s.notifications.missed.extractLsb' 16 5).setWidth 8).getLsbD i = _
        by_cases five : i < 5
        · simp [below, five, n]
        · simp [five, n, BitVec.getLsbD_of_ge _ _ (show 21 ≤ 16 + i by omega)]
    · exact (shown (by omega)).trans (s.readPage5_unassigned (by omega))

end Sys2Proof.Machine
end

