-- ==== Sys2Proof/Proofs/Commands.lean ====
section
/-! SUPPORT. The commands SWITCH, START, STOP, FINISH and GIVE (sections 4.3, 5.4, 5.6, 5.7 and 6.6). -/

namespace Sys2Proof.Machine

/-! ### SWITCH (R58) -/

/-- The receive half of a taken SWITCH, named or not. -/
theorem State.requestRxSwitch_eq (s : State) (rx : Bool) :
    (if rx then s.requestRxSwitch else s) =
      let now := rx = true ∧ s.aligner.state ≠ .aligned
      { s with
        maps := { s.maps with
          rxActive := if now then s.maps.rxActive.other else s.maps.rxActive
          rxPending := if now then false else (s.maps.rxPending || rx) }
        notifications := (if now then [(⟨.rxMapSwitched, .link, .none, s.aligner.cycleCount⟩ : Post)] else []).foldl
          Notifications.take s.notifications } := by
  cases rx
  · simp
  · by_cases aligned : s.aligner.state = .aligned
    · simp [State.requestRxSwitch, aligned]
    · simp [State.requestRxSwitch, aligned]
      rfl

/-- The transmit half of a taken SWITCH, named or not. -/
theorem State.requestTxSwitch_eq (s : State) (tx : Bool) :
    (if tx then s.requestTxSwitch else s) =
      let now := tx = true ∧ s.transmitter.state = .stopped
      { s with
        maps := { s.maps with
          txActive := if now then s.maps.txActive.other else s.maps.txActive
          txPending := if now then false else (s.maps.txPending || tx) }
        notifications := (if now then [(⟨.txMapSwitched, .link, .none, s.transmitter.cycleCount⟩ : Post)] else []).foldl
          Notifications.take s.notifications } := by
  cases tx
  · simp
  · by_cases stopped : s.transmitter.state = .stopped
    · simp [State.requestTxSwitch, stopped]
      rfl
    · simp [State.requestTxSwitch, stopped]

/-- SWITCH once the gates let it through, by the directions operand 0 names (R58). -/
theorem exec_cmdSwitch {s : State} (h : s.commandReady) {rx tx : Bool} (hr : s.port.operand0.getLsbD 0 = rx)
    (ht : s.port.operand0.getLsbD 1 = tx) :
    exec .cmdSwitch s = .next (
      if rx = false ∧ tx = false then s.setResult .badAmount
      else if (rx = true ∧ s.maps.rxPending = true) ∨ (tx = true ∧ s.maps.txPending = true) then s.setResult .busy
      else
        let t := if rx then s.requestRxSwitch else s
        (if tx then t.requestTxSwitch else t).setResult .ok) := by
  subst hr ht
  refine congrArg Host.Outcome.next ((State.command_ready h _).trans ?_)
  dsimp only
  by_cases none : s.port.operand0.getLsbD 0 = false ∧ s.port.operand0.getLsbD 1 = false
  · rw [if_pos none, if_pos (by rw [none.1, none.2]; rfl)]
  · rw [if_neg none, if_neg (by simpa using none)]
    by_cases busy : (s.port.operand0.getLsbD 0 = true ∧ s.maps.rxPending = true) ∨
        (s.port.operand0.getLsbD 1 = true ∧ s.maps.txPending = true)
    · rw [if_pos busy, if_pos (by simpa using busy)]
    · rw [if_neg busy, if_neg (by simpa using busy)]

/-- Settles O22. -/
theorem switchPendsOrCompletes : Obligations.SwitchPendsOrCompletes := by
  refine ⟨fun s ready => ?_, rfl, rfl, fun m => ⟨rfl, rfl⟩⟩
  have exec := exec_cmdSwitch ready rfl rfl
  intro rx tx m rxNow txNow
  refine ⟨fun neither => by rw [exec, if_pos neither], fun busy => ?_, fun named norx notx => ?_⟩
  · have named : ¬(rx = false ∧ tx = false) := by
      rintro ⟨norx, notx⟩
      simp [norx, notx] at busy
    rw [exec, if_neg named, if_pos busy]
  · have some_named : ¬(rx = false ∧ tx = false) := by
      rintro ⟨norx, notx⟩
      simp [norx, notx] at named
    have free : ¬((rx = true ∧ s.maps.rxPending = true) ∨ (tx = true ∧ s.maps.txPending = true)) := by
      rintro (⟨h, busy⟩ | ⟨h, busy⟩)
      · exact Bool.noConfusion (busy.symm.trans (norx h))
      · exact Bool.noConfusion (busy.symm.trans (notx h))
    rw [exec, if_neg some_named, if_neg free, List.foldl_append]
    dsimp only
    rw [State.requestRxSwitch_eq, State.requestTxSwitch_eq]
    rfl

/-! ### START (R77) -/

theorem ChannelContext.not_fits_iff {x : ChannelContext} {g : Segment} :
    x.fits g = false ↔ 8192 < x.base g + x.length g := by
  exact decide_eq_false_iff_not.trans Nat.not_le

theorem State.tagInUse_iff (s : State) (c : Channel) :
    s.tagInUse c = true ↔ ∃ d : Channel, d ≠ c ∧ (s.channel d).tag = (s.channel c).tag ∧ s.holdsTag d := by
  rw [← Bool.not_eq_false, s.tagInUse_eq_false_iff]
  simp only [not_forall, not_not, exists_prop]

/-- The five checks of START in their order (R77). -/
theorem State.startCheck_eq (s : State) (c : Channel) :
    s.startCheck c =
      let x := s.channel c
      if ¬(x.state = .idle ∨ x.state = .done) then .badState
      else if 8192 < x.baseA + x.lengthA ∨ (x.mode = .alternating ∧ 8192 < x.baseB + x.lengthB) then .badSegment
      else if x.poolSender ∧ ∃ d : Channel, d ≠ c ∧ (s.channel d).tag = x.tag ∧ s.holdsTag d then .badTag
      else if x.direction = .transmit ∧ x.mode = .ring ∧ x.lengthA < s.port.amount then .badAmount
      else .ok := by
  refine if_congr ?_ rfl (if_congr ?_ rfl (if_congr ?_ rfl (if_congr ?_ rfl rfl)))
  · rw [← ChannelContext.atRest_iff_idle_or_done]; simp
  · have a : (s.channel c).fits .segA = false ↔ _ := ChannelContext.not_fits_iff
    have b : (s.channel c).fits .segB = false ↔ _ := ChannelContext.not_fits_iff
    simp only [Bool.or_eq_true, Bool.not_eq_true', Bool.and_eq_true, decide_eq_true_eq, a, b]
    exact Iff.rfl
  · simp [State.tagInUse_iff, and_assoc]
  · simp [and_assoc]

/-! ### STOP (R83) -/

theorem exec_cmdStop_onChannel {s : State} {c : Channel} (h : s.commandReady) (hc : s.port.operand0.toNat = c.val) :
    exec .cmdStop s = .next (
      if (s.channel c).state = .idle then s.setResult .badState
      else ((s.setChannel c (s.channel c).stopped).leaveRotation c).setResult .ok) := by
  refine congrArg Host.Outcome.next ((State.command_onChannel h hc _).trans ?_)
  split <;> rfl

/-- Settles O25. -/
theorem startArmsAndStopEntersIdle : Obligations.StartArmsAndStopEntersIdle := by
  refine ⟨fun s ready => ⟨fun bad => ?_, fun c hc => ?_⟩, fun s ready => ⟨fun bad => ?_, fun c hc => ⟨fun idle => ?_,
    fun moving => ?_⟩⟩, fun s c x => ⟨rfl, s.channel_setChannel_self c x, fun d => ⟨rfl, fun hd =>
      s.channel_setChannel_ne hd x⟩⟩⟩
  case refine_1 => exact congrArg Host.Outcome.next (State.command_badChannel ready bad _)
  case refine_2 =>
    have check := s.startCheck_eq c
    have refused {r : ResultCode} (e : s.startCheck c = r) (bad : r ≠ .ok) :
        exec .cmdStart s = .next (s.setResult r) := by
      rw [exec_cmdStart_onChannel ready hc, e, if_neg bad]
    dsimp only at check ⊢
    split at check
    case isTrue moving => rw [refused check nofun, if_pos moving]
    split at check
    case isTrue rest past => rw [refused check nofun, if_neg rest, if_pos past]
    split at check
    case isTrue rest fits used => rw [refused check nofun, if_neg rest, if_neg fits, if_pos used]
    split at check
    case isTrue rest fits free more =>
      rw [refused check nofun, if_neg rest, if_neg fits, if_neg free, if_pos more]
    case isFalse rest fits free amount =>
      rw [exec_cmdStart_onChannel ready hc, if_pos check, if_neg rest, if_neg fits, if_neg free, if_neg amount]
      rfl
  case refine_3 => exact congrArg Host.Outcome.next (State.command_badChannel ready bad _)
  case refine_4 => rw [exec_cmdStop_onChannel ready hc, if_pos idle]
  case refine_5 =>
    have exec := exec_cmdStop_onChannel ready hc
    rw [if_neg moving] at exec
    exact ⟨_, exec, rfl, s.channel_setChannel_self c _, fun d hd => s.channel_setChannel_ne hd _⟩

/-! ### FINISH (R85 to R88) -/

theorem exec_cmdFinish_onChannel {s : State} {c : Channel} (h : s.commandReady) (hc : s.port.operand0.toNat = c.val) :
    exec .cmdFinish s = .next (
      if (s.channel c).state ≠ .active ∨ (s.channel c).mode = .single then s.setResult .badState
      else (s.finish c).setResult .ok) := by
  refine congrArg Host.Outcome.next ((State.command_onChannel h hc _).trans ?_)
  by_cases active : (s.channel c).state = .active
  · by_cases single : (s.channel c).mode = .single <;> simp [active, single]
  · simp [active]

/-- The context with which FINISH ends a channel at once (R86 to R88): the stalled ALTERNATING channel's position goes to 0
(assumption 21). -/
def ChannelContext.finished (x : ChannelContext) : ChannelContext :=
  { x with position := if x.mode = .alternating then 0 else x.position }

theorem State.setChannel_channel (s : State) (c : Channel) : s.setChannel c (s.channel c) = s := by
  simp [State.setChannel, State.channel]

/-- Where FINISH waits it goes to ENDING, and elsewhere the channel enters DONE. -/
theorem State.finish_eq (s : State) (c : Channel) (mode : (s.channel c).mode ≠ .single) :
    s.finish c =
      let x := s.channel c
      if (x.mode = .ring ∧ x.direction = .receive ∧ s.aligner.state = .aligned) ∨
        (x.mode = .ring ∧ x.direction = .transmit ∧ 0 < x.fill) ∨ (x.mode = .alternating ∧ x.stalled = false) then
        s.setChannel c { x with state := .ending }
      else (s.setChannel c x.finished).enterDone c .finished := by
  have kept (h : (s.channel c).mode = .ring) : s.setChannel c (s.channel c).finished = s := by
    have same : (s.channel c).finished = s.channel c := by
      rw [ChannelContext.finished, if_neg (by rw [h]; nofun)]
    rw [same, State.setChannel_channel]
  unfold State.finish
  cases m : (s.channel c).mode with
  | single => exact absurd m mode
  | ring =>
    cases d : (s.channel c).direction with
    | receive =>
      by_cases aligned : s.aligner.state = .aligned <;> simp [m, d, aligned, kept m]
    | transmit =>
      by_cases empty : (s.channel c).fill = 0
      · simp [m, d, empty, kept m]
      · simp [m, d, empty, Nat.pos_of_ne_zero empty]
  | alternating =>
    by_cases stalled : (s.channel c).stalled = true <;> simp [m, stalled, ChannelContext.finished]

/-- Settles O26. -/
theorem finishEndsOrGoesToEnding : Obligations.FinishEndsOrGoesToEnding := by
  refine ⟨fun s ready => ⟨fun bad => ?_, fun c hc => ?_⟩, fun s c k d => ⟨fun receive => ?_, fun transmit => ?_⟩⟩
  · exact congrArg Host.Outcome.next (State.command_badChannel ready bad _)
  · intro x waits
    have exec := exec_cmdFinish_onChannel ready hc
    refine ⟨fun refused => by rw [exec, if_pos refused], fun active mode waiting => ?_, fun active mode waiting => ?_⟩
    · rw [exec, if_neg (by simp [show (s.channel c).state = _ from active, show (s.channel c).mode ≠ _ from mode]),
        s.finish_eq c mode, if_pos waiting]
    · have ends := s.enterDone_setChannel c x.finished .finished rfl
      rw [if_neg (by simp [show (s.channel c).state = _ from active, show (s.channel c).mode ≠ _ from mode]),
        s.finish_eq c mode, if_neg waiting, ends] at exec
      refine ⟨_, exec, rfl, s.channel_setChannel_self c _, fun d hd => s.channel_setChannel_ne hd _⟩
  · simp only [State.channelPost, State.channelStamp, receive]
  · simp only [State.channelPost, State.channelStamp, transmit]

/-! ### GIVE (R109, R110) -/

theorem ChannelContext.owner_ne_host_iff {x : ChannelContext} {g : Segment} : x.owner g ≠ .host ↔ x.owner g = .device := by
  cases x.owner g <;> simp

/-- GIVE of a segment of a channel that may take it (R109, R110). -/
theorem exec_cmdGive_segment {s : State} {c : Channel} {g : Segment} (h : s.commandReady)
    (hc : s.port.operand0.toNat = c.val) (moving : (s.channel c).atRest = false)
    (mode : (s.channel c).mode = .alternating) (amount : segmentOfAmount s.port.amount = some g) :
    exec .cmdGive s = .next (
      if (s.channel c).owner g = .device then s.setResult .badState
      else if 8192 < (s.channel c).base g + (s.channel c).length g then s.setResult .badSegment
      else (s.setChannel c ((s.channel c).given g)).setResult .ok) := by
  refine congrArg Host.Outcome.next ((State.command_onChannel h hc _).trans ?_)
  dsimp only
  rw [if_neg (by simp [moving]), if_neg (by simp [mode]), amount]
  dsimp only
  by_cases own : (s.channel c).owner g = .device
  · rw [if_pos (ChannelContext.owner_ne_host_iff.mpr own), if_pos own]
  · rw [if_neg (mt ChannelContext.owner_ne_host_iff.mp own), if_neg own]
    by_cases past : 8192 < (s.channel c).base g + (s.channel c).length g
    · rw [if_pos past, ChannelContext.not_fits_iff.mpr past]; rfl
    · rw [if_neg past, Bool.eq_true_of_not_eq_false (mt ChannelContext.not_fits_iff.mp past)]; rfl

/-- GIVE's checks of the state, the mode and the amount (R109). -/
theorem exec_cmdGive_refused {s : State} {c : Channel} (h : s.commandReady) (hc : s.port.operand0.toNat = c.val) :
    ((s.channel c).atRest = true ∨ (s.channel c).mode ≠ .alternating → exec .cmdGive s = .next (s.setResult .badState)) ∧
    ((s.channel c).atRest = false → (s.channel c).mode = .alternating → segmentOfAmount s.port.amount = none →
      exec .cmdGive s = .next (s.setResult .badAmount)) := by
  refine ⟨fun bad => ?_, fun moving mode amount => ?_⟩
  · refine congrArg Host.Outcome.next ((State.command_onChannel h hc _).trans ?_)
    by_cases rest : (s.channel c).atRest = true
    · simp [rest]
    · simp [rest, bad.resolve_left rest]
  · refine congrArg Host.Outcome.next ((State.command_onChannel h hc _).trans ?_)
    simp [moving, mode, amount]

theorem segmentOfAmount_none {n : Nat} (h : 2 ≤ n) : segmentOfAmount n = none := by
  obtain ⟨k, rfl⟩ := Nat.exists_eq_add_of_le' h
  rfl

/-- Settles O27. -/
theorem giveReturnsASegment : Obligations.GiveReturnsASegment := by
  refine fun s ready => ⟨fun bad => congrArg Host.Outcome.next (State.command_badChannel ready bad _), fun c hc => ?_⟩
  obtain ⟨refused, noSegment⟩ := exec_cmdGive_refused ready hc
  intro x
  have rest : x.atRest = true ↔ x.state = .idle ∨ x.state = .done := x.atRest_iff_idle_or_done
  refine ⟨fun bad => refused ?_, fun idle done mode => ?_⟩
  · rw [show (s.channel c).atRest = true ↔ _ from rest]
    exact or_assoc.mpr bad
  · have moving : (s.channel c).atRest = false := Bool.eq_false_iff.mpr (mt rest.mp (not_or.mpr ⟨idle, done⟩))
    exact ⟨fun above => noSegment moving mode (segmentOfAmount_none above),
      fun amount => exec_cmdGive_segment (g := .segA) ready hc moving mode (by rw [amount]; rfl),
      fun amount => exec_cmdGive_segment (g := .segB) ready hc moving mode (by rw [amount]; rfl)⟩

end Sys2Proof.Machine
end

