-- ==== Sys2Proof/Proofs/Slots.lean ====
section
/-! SUPPORT. Slot arrivals and slot demands that move no byte of a channel, the answers to pool slots, and the grant of a frame
that is no cycle start (sections 1.4, 4.4, 6.8, 7.2 and 7.4). -/

namespace Sys2Proof.Machine

/-! ### Bits of a byte received (R1) -/

/-- Eight or fewer bits received behind a byte push its own bits up. -/
theorem getLsbD_foldl_bits (l : List Bool) (acc : Byte) {j : Nat} (h : j < 8) :
    (l.foldl (fun acc b => acc * 2 + (if b then 1 else 0)) acc).getLsbD j =
      if j < l.length then l.getD (l.length - 1 - j) false else acc.getLsbD (j - l.length) := by
  induction l generalizing acc with
  | nil => simp
  | cons b rest ih =>
    have put : acc * 2 + (if b then 1 else 0) = flagByte b + acc * 2 := BitVec.add_comm _ _
    rw [List.foldl_cons, ih, put, List.length_cons]
    by_cases early : j < rest.length
    · rw [if_pos early, if_pos (by omega), show rest.length + 1 - 1 - j = (rest.length - 1 - j) + 1 by omega,
        List.getD_cons_succ]
    · rw [if_neg early, getLsbD_putBelow b acc (by omega)]
      by_cases last : j = rest.length
      · rw [if_pos (by omega), if_pos (by omega), last, show rest.length + 1 - 1 - rest.length = 0 by omega,
          List.getD_cons_zero]
      · rw [if_neg (by omega), if_neg (by omega), show j - rest.length - 1 = j - (rest.length + 1) by omega]

/-- The first of eight received bits is the most significant (R1). -/
theorem getLsbD_byteOfBits {bits : List Bool} (enough : 8 ≤ bits.length) {i : Nat} (h : i < 8) :
    (byteOfBits bits).getLsbD (7 - i) = bits.getD i false := by
  have eight : (bits.take 8).length = 8 := by simp [enough]
  rw [byteOfBits, getLsbD_foldl_bits _ _ (by omega), eight, if_pos (by omega), show 8 - 1 - (7 - i) = i by omega]
  simp [List.getD_eq_getElem?_getD, h]

/-! ### Slots that no running channel answers (R67 to R70) -/

theorem Aligner.handOnSlot_eq {a : Aligner} (h : 8 ≤ a.expectedPlace) : a.handOnSlot = { a with
    bits := a.bits.drop 8, expectedPlace := a.expectedPlace - 8, frameEndDue := a.expectedPlace = 8 } := by
  have ends : (a.expectedPlace - 8 = 0) = (a.expectedPlace = 8) := propext ⟨fun _ => by omega, fun _ => by omega⟩
  simp only [Aligner.handOnSlot, Aligner.takeByte, ends]

theorem Aligner.arrivalDue_iff {a : Aligner} :
    a.arrivalDue = true ↔ a.state = .aligned ∧ 8 ≤ a.expectedPlace ∧ 8 ≤ a.bits.length := by
  simp [Aligner.arrivalDue, and_assoc]

theorem Transmitter.sending_iff {x : Transmitter} : x.sending = true ↔ x.state ≠ .stopped := by
  unfold Transmitter.sending
  cases x.state <;> simp

theorem Transmitter.demandDue_iff {x : Transmitter} :
    x.demandDue = true ↔ x.state ≠ .stopped ∧ x.begun = true ∧ x.nextByte = none ∧ x.slotIndex + 1 < x.frameLength := by
  simp [Transmitter.demandDue, Transmitter.sending_iff, and_assoc]

theorem execSlotArrival_discard {s : State} (due : s.aligner.arrivalDue = true)
    (kind : ((s.maps.bank s.maps.rxActive).rxEntry (s.aligner.nextSlot s.transmitter.frameLength)).kind = .discard) :
    exec .slotArrival s = .next { s with aligner := s.aligner.handOnSlot } := by
  refine (if_pos due).trans ?_
  unfold State.resolveArrival
  simp only [kind]

theorem execSlotDemand_idle {s : State} (due : s.transmitter.demandDue = true)
    (kind : ((s.maps.bank s.maps.txActive).txEntry (s.transmitter.slotIndex + 1)).kind = .idle) :
    exec .slotDemand s = .next (s.fixNextByte s.transmitter.idleByte) := by
  refine (if_pos due).trans ?_
  unfold State.resolveDemand
  simp only [kind]
  rfl

theorem execSlotDemand_constant {s : State} (due : s.transmitter.demandDue = true)
    (kind : ((s.maps.bank s.maps.txActive).txEntry (s.transmitter.slotIndex + 1)).kind = .constant) :
    exec .slotDemand s = .next (s.fixNextByte
      ((s.maps.bank s.maps.txActive).txEntry (s.transmitter.slotIndex + 1)).constant) := by
  refine (if_pos due).trans ?_
  unfold State.resolveDemand
  simp only [kind]
  rfl

/-- Settles O30. -/
theorem slotsOfNoRunningChannel : Obligations.SlotsOfNoRunningChannel := by
  refine ⟨fun s due => ?_, fun s due => ?_, fun s => ⟨Aligner.arrivalDue_iff, fun wait => ?_,
    Transmitter.demandDue_iff, fun wait => ?_⟩, fun a h => Aligner.handOnSlot_eq h,
    fun bits enough i h => getLsbD_byteOfBits enough h, fun a f j one below place => ?_,
    fun m i => ⟨rfl, rfl, fun b => ⟨BankMaps.rxEntry_succ _ i, BankMaps.txEntry_succ _ i⟩⟩⟩
  · intro e dropped
    obtain ⟨-, place, -⟩ := Aligner.arrivalDue_iff.mp due
    rw [← Aligner.handOnSlot_eq place]
    rcases dropped with discard | ⟨channel, resting⟩
    · exact execSlotArrival_discard due discard
    · have entry : e = ⟨.channel, e.channel⟩ := by rw [← channel]
      rw [execSlotArrival_channel due entry]
      refine State.byteArrival_dropped (Bool.eq_false_iff.mpr fun takes => resting ?_)
      exact (s.channel e.channel).takesArrivals_iff.mp takes
  · intro e x fixed
    refine ⟨fun kind => execSlotDemand_idle due kind, fun kind => execSlotDemand_constant due kind, fun kind other => ?_⟩
    have idle : s.byteDemand e.channel false = .next (s, s.transmitter.idleByte) := by
      refine State.byteDemand_idle ?_
      by_cases answers : x.answersDemands = true
      · obtain ⟨transmit, runs⟩ := x.answersDemands_iff.mp answers
        refine .inr ⟨Bool.eq_true_of_not_eq_false fun plain => other ⟨transmit, runs, plain⟩, rfl⟩
      · exact .inl (Bool.eq_false_iff.mpr answers)
    rw [execSlotDemand_channel due kind rfl, idle]
    rfl
  · refine if_neg fun due => ?_
    obtain ⟨aligned, place, bits⟩ := Aligner.arrivalDue_iff.mp due
    rcases wait with h | h | h
    · exact h aligned
    · omega
    · omega
  · refine if_neg fun due => ?_
    obtain ⟨sending, begun, free, slot⟩ := Transmitter.demandDue_iff.mp due
    rcases wait with h | h | h | h
    · exact sending h
    · exact Bool.noConfusion (begun.symm.trans h)
    · exact h free
    · omega
  · rw [Aligner.nextSlot, place]
    omega

/-! ### Shortfalls (R100, R102, R107, R115) -/

theorem saturatingInc_byte (x : Byte) : saturatingInc x = BitVec.ofNat 8 (min 255 (x.toNat + 1)) := saturatingInc_eq x

theorem ChannelContext.afterShortfall_eq (x : ChannelContext) : x.afterShortfall =
    { x with shortRun := true, shortfalls := BitVec.ofNat 8 (min 255 (x.shortfalls.toNat + 1)) } := by
  rw [ChannelContext.afterShortfall, saturatingInc_byte]

/-- Settles O32. -/
theorem shortfallIsCountedAndPostedOnce : Obligations.ShortfallIsCountedAndPostedOnce := by
  refine ⟨fun s c due entry takes full => ?_, fun s c due kind channel answers plain empty => ?_⟩
  · have stuck : (s.channel c).canMove = false := Bool.eq_false_iff.mpr fun room => by
      obtain ⟨receive, -⟩ := (s.channel c).takesArrivals_iff.mp takes
      rcases full with ⟨mode, fill⟩ | ⟨mode, stalled⟩ <;>
        simp [(s.channel c).canMove_iff, mode, receive] at room
      · omega
      · simp [stalled] at room
    have exec := (execSlotArrival_channel due entry).trans
      (State.byteArrival_shortfall (s := { s with aligner := s.aligner.handOnSlot }) takes stuck)
    refine ⟨_, exec, rfl, ?_, fun d hd => s.channel_setChannel_ne hd _⟩
    exact (s.channel_setChannel_self c _).trans (s.channel c).afterShortfall_eq
  · have stuck : (s.channel c).canMove = false := Bool.eq_false_iff.mpr fun room => by
      obtain ⟨transmit, -⟩ := (s.channel c).answersDemands_iff.mp answers
      rcases empty with ⟨mode, fill⟩ | ⟨mode, stalled⟩ <;>
        simp [(s.channel c).canMove_iff, mode, transmit] at room
      · omega
      · simp [stalled] at room
    have exec := execSlotDemand_channel due kind channel
    rw [State.byteDemand_shortfall answers plain stuck] at exec
    refine ⟨_, exec, rfl, ?_, fun d hd => s.channel_setChannel_ne hd _⟩
    exact (s.channel_setChannel_self c _).trans (s.channel c).afterShortfall_eq

/-! ### Pool slots (R71, R123, R124) -/

theorem execSlotDemand_pool {s : State} (due : s.transmitter.demandDue = true)
    (kind : ((s.maps.bank s.maps.txActive).txEntry (s.transmitter.slotIndex + 1)).kind = .pool) :
    exec .slotDemand s =
      thenNext (s.answerPoolSlot (s.maps.txPoolSlots (s.transmitter.slotIndex + 1)).length) fun (t, b) =>
        t.fixNextByte b := by
  refine (if_pos due).trans ?_
  unfold State.resolveDemand
  simp only [kind]

namespace State

variable {s : State} {n : Nat}

theorem answerPoolSlot_few (few : s.pool.txBurst.poolSlots < 3) :
    s.answerPoolSlot n = .next (s, s.transmitter.idleByte) := if_pos few

theorem answerPoolSlot_tag (slots : 3 ≤ s.pool.txBurst.poolSlots) : s.answerPoolSlot 1 = .next s.answerTagSlot :=
  (if_neg (by omega)).trans (if_pos rfl)

theorem answerPoolSlot_length (slots : 3 ≤ s.pool.txBurst.poolSlots) :
    s.answerPoolSlot 2 = .next (s, BitVec.ofNat 8 s.pool.txBurst.length) :=
  (if_neg (by omega)).trans ((if_neg (by omega)).trans (if_pos rfl))

theorem answerPoolSlot_behind (slots : 3 ≤ s.pool.txBurst.poolSlots) (third : 3 ≤ n)
    (sent : s.pool.txBurst.granted = none ∨ s.pool.txBurst.length ≤ s.pool.txBurst.answered) :
    s.answerPoolSlot n = .next (s, s.transmitter.idleByte) := by
  refine (if_neg (by omega)).trans ((if_neg (by omega)).trans ((if_neg (by omega)).trans ?_))
  unfold answerDataSlot
  cases granted : s.pool.txBurst.granted with
  | none => rfl
  | some c => exact if_neg (by simp [granted] at sent; omega)

end State

/-- Settles O36. -/
theorem poolSlotSendsTagLengthOrIdle : Obligations.PoolSlotSendsTagLengthOrIdle := by
  intro s due kind ordinal b fixed
  have exec := execSlotDemand_pool due kind
  refine ⟨fun few => ?_, fun slots first => ⟨fun none => ?_, fun c granted runs => ?_, fun c granted ended => ?_⟩,
    fun slots second => ?_, fun slots third sent => ?_, fun c slots third granted more ended => ?_⟩
  · rw [exec, State.answerPoolSlot_few few]; rfl
  · rw [exec, show (s.maps.txPoolSlots _).length = 1 from first, State.answerPoolSlot_tag slots]
    have answer : s.answerTagSlot = (s, 0) := by
      rw [State.answerTagSlot, show s.pool.txBurst.granted = _ from none]
    rw [answer]; rfl
  · rw [exec, show (s.maps.txPoolSlots _).length = 1 from first, State.answerPoolSlot_tag slots]
    have answer : s.answerTagSlot = (s, b.tag) := by
      rw [State.answerTagSlot, show s.pool.txBurst.granted = _ from granted]
      exact if_pos runs
    rw [answer]; rfl
  · rw [exec, show (s.maps.txPoolSlots _).length = 1 from first, State.answerPoolSlot_tag slots]
    have answer : s.answerTagSlot = ({ s with pool := { s.pool with txBurst := b.withdrawn } }, 0) := by
      rw [State.answerTagSlot, show s.pool.txBurst.granted = _ from granted]
      exact if_neg (by simp [ended])
    rw [answer]; rfl
  · rw [exec, show (s.maps.txPoolSlots _).length = 2 from second, State.answerPoolSlot_length slots]; rfl
  · rw [exec, State.answerPoolSlot_behind slots third sent]; rfl
  · rw [exec, State.answerPoolSlot_data slots third granted more, State.byteDemand_idle (.inl (by exact ended))]; rfl

/-! ### The parser of received bursts (section 7.6) -/

theorem execSlotArrival_pool {s : State} (due : s.aligner.arrivalDue = true)
    (kind : ((s.maps.bank s.maps.rxActive).rxEntry (s.aligner.nextSlot s.transmitter.frameLength)).kind = .pool) :
    exec .slotArrival s =
      ({ s with aligner := s.aligner.handOnSlot } : State).parsePoolByte (byteOfBits s.aligner.bits) := by
  refine (if_pos due).trans ?_
  unfold State.resolveArrival
  simp only [kind]

namespace State

variable {s : State} {b : Byte}

theorem parsePoolByte_outside (h : s.pool.rxBurst.phase = .noBurst ∨ s.pool.rxBurst.phase = .skip) :
    s.parsePoolByte b = .next s := by
  rcases h with h | h <;> rw [parsePoolByte, h]

theorem parsePoolByte_tag (h : s.pool.rxBurst.phase = .awaitTag) : s.parsePoolByte b = .next (s.parseTag b) := by
  rw [parsePoolByte, h]

theorem parsePoolByte_length (h : s.pool.rxBurst.phase = .awaitLength) :
    s.parsePoolByte b = .next (s.parseLength b) := by
  rw [parsePoolByte, h]

theorem parseLength_eq (s : State) (b : Byte) :
    s.parseLength b =
      let r := s.pool.rxBurst
      let parsed := fun (w : RxBurst) (m : LineMonitor) =>
        ({ s with pool := { s.pool with rxBurst := w }, monitor := m } : State)
      if r.poolSlots - 2 < b.toNat then
        parsed { r with phase := .skip } { s.monitor with
          formatErrors := BitVec.ofNat 8 (min 255 (s.monitor.formatErrors.toNat + 1)) }
      else if b = 0 then parsed { r with phase := .skip } s.monitor
      else if r.target = none then
        parsed { r with phase := .skip } { s.monitor with
          poolDiscards := BitVec.ofNat 8 (min 255 (s.monitor.poolDiscards.toNat + 1)) }
      else parsed { r with phase := .data, length := b.toNat } s.monitor := by
  rw [← saturatingInc_byte, ← saturatingInc_byte]
  rfl

theorem parseData_target {c : Channel} (h : s.pool.rxBurst.target = some c) :
    s.parseData b = (s.setRxBurst { s.pool.rxBurst with
      received := s.pool.rxBurst.received + 1
      phase := if s.pool.rxBurst.received + 1 = s.pool.rxBurst.length then .skip else .data }).byteArrival c b := by
  unfold parseData
  dsimp only
  split
  · next d e =>
    cases h.symm.trans e
    rfl
  · next e => cases h.symm.trans e

theorem parsePoolByte_data (h : s.pool.rxBurst.phase = .data) : s.parsePoolByte b = s.parseData b := by
  rw [parsePoolByte, h]

theorem parseTag_burst (h : b ≠ 0) :
    s.parseTag b = s.setRxBurst { s.pool.rxBurst with phase := .awaitLength, target := s.burstTarget b } := if_neg h

/-- The target of a tag is what its tag table entry holds, if that takes arrivals (R128). -/
theorem burstTarget_entry {i : Fin 31} (tag : b.toNat = i.val + 1) :
    s.burstTarget b = (s.pool.tagTable[i]).filter fun c => (s.channel c).takesArrivals := by
  have entry : (s.pool.tagTable[b.toNat - 1]?).getD none = s.pool.tagTable[i] := by simp [tag]
  unfold burstTarget
  rw [if_pos (by omega), entry]
  cases s.pool.tagTable[i] with
  | none => rfl
  | some c => simp [Option.filter]

theorem burstTarget_above (h : 32 ≤ b.toNat) : s.burstTarget b = none := if_neg (by omega)

end State

/-- Settles O38: each phase of the parser, and in the data the byte arrival at the target (State.byteArrival_moved and its
companions). -/
theorem parserReadsTagLengthAndData : Obligations.ParserReadsTagLengthAndData := by
  refine ⟨fun s due kind => ?_, fun s c due init wf kind data target => ?_⟩
  · intro b r parsed
    obtain ⟨u, hu⟩ : ∃ u : State, u = { s with aligner := s.aligner.handOnSlot } := ⟨_, rfl⟩
    have exec : exec .slotArrival s = u.parsePoolByte b := (execSlotArrival_pool due kind).trans (by rw [hu])
    have burst : u.pool.rxBurst = r := by rw [hu]
    have targets : u.burstTarget b = s.burstTarget b := by rw [hu]; rfl
    refine ⟨fun outside => ?_, fun tag => ?_, fun length => ?_⟩
    · rw [exec, State.parsePoolByte_outside (by rwa [burst]), hu]
    · have named {w : Option Channel} (nonzero : b ≠ 0) (e : s.burstTarget b = w) :
          Machine.exec .slotArrival s = .next (parsed { r with phase := .awaitLength, target := w } s.monitor) := by
        rw [exec, State.parsePoolByte_tag (by rwa [burst]), State.parseTag_burst nonzero, targets, e, hu]
        rfl
      have nonzero {n : Nat} (e : b.toNat = n + 1) : b ≠ 0 := fun z => by simp [z] at e
      refine ⟨fun zero => ?_, fun i c e entry takes => ?_, fun i c e entry takes => ?_, fun i e entry => ?_, fun above => ?_⟩
      · rw [exec, State.parsePoolByte_tag (by rwa [burst]), State.parseTag, if_pos zero, hu]
        rfl
      · exact named (nonzero e) (by rw [State.burstTarget_entry e, entry]; simp [takes])
      · exact named (nonzero e) (by rw [State.burstTarget_entry e, entry]; simp [takes])
      · exact named (nonzero e) (by rw [State.burstTarget_entry e, entry]; rfl)
      · exact named (fun z => by simp [z] at above) (State.burstTarget_above above)
    · rw [exec, State.parsePoolByte_length (by rwa [burst]), State.parseLength_eq, hu]
  · intro r w
    obtain ⟨u, hu⟩ : ∃ u : State, u =
      { s with aligner := s.aligner.handOnSlot, pool := { s.pool with rxBurst := w } } := ⟨_, rfl⟩
    have exec : exec .slotArrival s = u.byteArrival c (byteOfBits s.aligner.bits) := by
      refine (execSlotArrival_pool due kind).trans ((State.parsePoolByte_data (by exact data)).trans ?_)
      rw [State.parseData_target (by exact target), hu]
      rfl
    have context : u.channel c = s.channel c := by rw [hu]; rfl
    refine ⟨fun resting => ?_, fun takes room inside => ?_, fun takes full => ?_⟩
    · rw [exec, State.byteArrival_dropped (by rwa [context]), hu]
    · rw [State.byteArrival_moved (by rwa [context]) (by rwa [context]) (by rwa [context]), context] at exec
      subst hu
      refine ⟨_, exec, rfl, fun a => ?_, s.channel_setChannel_self c _, fun d hd => s.channel_setChannel_ne hd _⟩
      rw [State.byteAt_of_ready (by exact init), State.byteAt_of_ready init]
      exact Memory.read_write wf _ _ a
    · rw [State.byteArrival_shortfall (by rwa [context]) (by rwa [context]), context] at exec
      subst hu
      exact ⟨_, exec, rfl, s.channel_setChannel_self c _, fun d hd => s.channel_setChannel_ne hd _⟩

end Sys2Proof.Machine
end

