-- ==== Sys2Proof/Proofs/TransmitStatements.lean ====
section
/-! SUPPORT. The transmitter: its markers, its bits, the grant of a frame that is no cycle start, the write of transmit enable
and the entry to STOPPED (chapter 1, section 7.4). -/

namespace Sys2Proof.Machine

/-! ### When a frame starts and when the transmitter stops (R6, R7, R9) -/

theorem Transmitter.frameComplete_iff {x : Transmitter} :
    x.frameComplete = true ↔ x.begun = true ∧ x.frameLength ≤ x.slotIndex + 1 ∧ 7 ≤ x.bitIndex := by
  simp [Transmitter.frameComplete, and_assoc]

theorem Transmitter.stopDue_iff {x : Transmitter} :
    x.stopDue = true ↔ x.state = .stopping ∧ x.begun = true ∧ x.frameIndex = 11 ∧
      x.frameLength ≤ x.slotIndex + 1 ∧ 7 ≤ x.bitIndex := by
  simp only [Transmitter.stopDue, Bool.and_eq_true, decide_eq_true_eq, Transmitter.frameComplete_iff]
  tauto

theorem Transmitter.frameStartDue_iff {x : Transmitter} :
    x.frameStartDue = true ↔
      x.begun = false ∧ x.state ≠ .stopped ∨
        x.begun = true ∧ x.frameLength ≤ x.slotIndex + 1 ∧ 7 ≤ x.bitIndex ∧
          (x.state = .running ∨ x.state = .stopping ∧ x.frameIndex ≠ 11) := by
  simp only [Transmitter.frameStartDue, Bool.and_eq_true, Transmitter.sending_iff, Bool.or_eq_true, Bool.not_eq_true',
    Transmitter.frameComplete_iff, Bool.and_eq_false_iff, decide_eq_false_iff_not]
  cases x.begun <;> cases x.state <;> simp [and_assoc]

theorem State.looped_iff {s : State} : s.looped = true ↔ s.aligner.localLoop = true ∧ s.aligner.state ≠ .off := by
  simp [State.looped, Aligner.receiving]

theorem State.loopHeld_iff {s : State} :
    s.loopHeld = true ↔ s.aligner.localLoop = true ∧ s.aligner.state ≠ .off ∧ s.bitHeld = true := by
  rw [State.loopHeld, Bool.and_eq_true, State.looped_iff, and_assoc]

theorem State.frameStartReady_iff {s : State} :
    s.frameStartReady = true ↔ s.transmitter.frameStartDue = true ∧ s.loopHeld = false := by
  simp [State.frameStartReady]

theorem execTransmitFrameStart_ready {s : State} (h : s.frameStartReady = true) :
    exec .transmitFrameStart s = .next s.beginFrame.frameStartEvents.takeLooped :=
  congrArg Host.Outcome.next (if_pos h)

theorem execTransmitFrameStart_not_ready {s : State} (h : ¬s.frameStartReady = true) :
    exec .transmitFrameStart s = .next s :=
  congrArg Host.Outcome.next (if_neg h)

/-! ### Pool slots counted (R66) -/

/-- A filter of the numbers below `n` that accepts none from `m` on. -/
theorem filter_range_eq {n m : Nat} {p : Nat → Bool} (hn : ∀ i, p i = true → i < n) (hm : ∀ i, p i = true → i < m) :
    (List.range n).filter p = (List.range m).filter p := by
  have more (a b : Nat) (h : ∀ i, p i = true → i < a) : (List.range (a + b)).filter p = (List.range a).filter p := by
    have rest : ((List.range b).map (a + ·)).filter p = [] := by
      refine List.filter_eq_nil_iff.mpr fun i mem accepted => ?_
      obtain ⟨k, -, rfl⟩ := List.mem_map.mp mem
      have := h _ accepted
      omega
    rw [List.range_add, List.filter_append, rest, List.append_nil]
  rw [← more n m hn, ← more m n hm, Nat.add_comm]

/-- The pool slots of a map with 63 entries, in increasing order (R66). -/
theorem poolSlots_eq {pool : Nat → Bool} {entry : Fin 63 → Bool} (last : Nat) (named : ∀ i : Fin 63, pool i.val = entry i)
    (beyond : ∀ i, 63 ≤ i → pool i = false) :
    ((List.range last).filterMap fun i => if pool i = true then some (i + 1) else none) =
      ((List.finRange 63).filter fun i => i.val + 1 ≤ last ∧ entry i = true).map (·.val + 1) := by
  have counted : ((List.range last).filterMap fun i => if pool i = true then some (i + 1) else none) =
      ((List.range last).filter pool).map (· + 1) := by
    rw [← List.filterMap_filter (f := fun i => some (i + 1)), List.filterMap_eq_map']
  have entries : ((List.finRange 63).filter fun i => i.val + 1 ≤ last ∧ entry i = true).map (·.val + 1) =
      ((List.range 63).filter fun i => i + 1 ≤ last ∧ pool i = true).map (· + 1) := by
    rw [← List.map_coe_finRange_eq_range, List.filter_map, List.map_map]
    refine congrArg (List.map _) (List.filter_congr fun i _ => ?_)
    simp [named]
  have limited : (List.range last).filter pool = (List.range last).filter fun i => i + 1 ≤ last ∧ pool i = true := by
    refine List.filter_congr fun i mem => ?_
    have : i + 1 ≤ last := List.mem_range.mp mem
    simp [this]
  have inside : ∀ i, pool i = true → i < 63 := fun i p => Nat.lt_of_not_le fun out => by simp [beyond i out] at p
  rw [counted, entries, limited]
  refine congrArg (List.map _) (filter_range_eq (fun i p => ?_) fun i p => ?_) <;>
    simp only [decide_eq_true_eq] at p
  · exact p.1
  · exact inside i p.2

theorem BankMaps.rxEntry_beyond (m : BankMaps) {i : Nat} (h : 63 ≤ i) : m.rxEntry (i + 1) = ⟨.discard, 0⟩ := by
  simp [BankMaps.rxEntry, h]

theorem BankMaps.txEntry_beyond (m : BankMaps) {i : Nat} (h : 63 ≤ i) : m.txEntry (i + 1) = ⟨.idle, 0, 0⟩ := by
  simp [BankMaps.txEntry, h]

theorem SlotMaps.txPoolSlots_eq (m : SlotMaps) (last : Nat) :
    m.txPoolSlots last = ((List.finRange 63).filter fun i =>
      i.val + 1 ≤ last ∧ (m.bank m.txActive).tx[i].kind = .pool).map (·.val + 1) := by
  have slots := poolSlots_eq (pool := fun i => ((m.bank m.txActive).txEntry (i + 1)).kind = .pool)
    (entry := fun i => (m.bank m.txActive).tx[i].kind = .pool) last (fun i => by simp [BankMaps.txEntry_succ])
    fun i h => by simp [BankMaps.txEntry_beyond _ h]
  simpa [SlotMaps.txPoolSlots] using slots

theorem SlotMaps.rxPoolSlots_eq (m : SlotMaps) (last : Nat) :
    m.rxPoolSlots last = ((List.finRange 63).filter fun i =>
      i.val + 1 ≤ last ∧ (m.bank m.rxActive).rx[i].kind = .pool).map (·.val + 1) := by
  have slots := poolSlots_eq (pool := fun i => ((m.bank m.rxActive).rxEntry (i + 1)).kind = .pool)
    (entry := fun i => (m.bank m.rxActive).rx[i].kind = .pool) last (fun i => by simp [BankMaps.rxEntry_succ])
    fun i h => by simp [BankMaps.rxEntry_beyond _ h]
  simpa [SlotMaps.rxPoolSlots] using slots

/-! ### The grant (R119, R121, R122) -/

/-- A grant that finds no member with a byte available, or too few pool slots, leaves an empty burst. -/
theorem State.grant_empty {s : State}
    (h : s.grantSlots < 3 ∨ ∀ c ∈ s.pool.rotation, (s.channel c).available = 0) :
    s.grant = { s with pool := { s.pool with
      txBurst := { poolSlots := s.grantSlots, granted := none, tag := 0, length := 0, answered := 0 } } } := by
  have nobody : (if 3 ≤ s.grantSlots then s.firstEligible else none) = none := by
    split
    · next enough =>
      have empty := h.resolve_left (by omega)
      exact List.find?_eq_none.mpr fun c mem => by simp [empty c mem]
    · rfl
  unfold State.grant
  dsimp only
  rw [show (if 3 ≤ (s.maps.txPoolSlots (s.transmitter.frameLength - 1)).length then s.firstEligible else none) = none from
    nobody]
  rfl

theorem ChannelContext.available_eq (x : ChannelContext) : x.available =
    match x.mode with
    | .single => x.lengthA - x.position
    | .ring => x.fill
    | .alternating =>
      if x.stalled then 0
      else if x.active = .segA then x.lengthA - x.position
      else x.lengthB - x.position := by
  unfold ChannelContext.available ChannelContext.length
  cases x.mode <;> cases x.active <;> rfl

/-- Settles O35. -/
theorem frameStartGrantsTheFirstReadyMember : Obligations.FrameStartGrantsTheFirstReadyMember := by
  refine ⟨fun s ready other => ?_, fun x => ⟨fun fresh => if_neg (by simp [fresh]), fun begun => if_pos begun⟩,
    fun s => ⟨?_, fun wait => execTransmitFrameStart_not_ready (by simp [wait])⟩, ChannelContext.available_eq,
    fun m last => ⟨?_, ?_⟩⟩
  case refine_1 =>
    intro k sent
    obtain ⟨u, hu⟩ : ∃ u, u = s.beginFrame := ⟨_, rfl⟩
    have start : exec .transmitFrameStart s = .next u.grant.takeLooped := by
      rw [execTransmitFrameStart_ready ready, State.frameStartEvents, hu]
      exact congrArg Host.Outcome.next (congrArg State.takeLooped (if_neg other))
    have slots : u.grantSlots = k := by rw [hu]; rfl
    have contexts : u.channel = s.channel := by rw [hu]; rfl
    have rotation : u.pool.rotation = s.pool.rotation := by rw [hu]; rfl
    have begun (p : PoolUnit) : ({ u with pool := p } : State).takeLooped = sent p := by
      rw [hu]
      simp only [State.beginFrame, if_neg other]
      rfl
    refine ⟨fun none => ?_, fun front back c enough nodup list empty bytes => ?_⟩
    · rw [start, State.grant_empty (by rwa [slots, contexts, rotation]), begun, slots, hu]
      rfl
    · obtain ⟨leaves, e⟩ := s.grant_leaves u (by rwa [rotation]) (fun c => by rw [contexts]) fun c => by rw [contexts]
      obtain ⟨after, burst⟩ := leaves.granted front back c (enough.trans_eq slots.symm) (rotation.trans list) empty bytes
      rw [start, e, begun, after, burst, show (u.maps.txPoolSlots (u.transmitter.frameLength - 1)).length = k from slots, hu]
      rfl
  case refine_2 =>
    rw [State.frameStartReady_iff, Transmitter.frameStartDue_iff, ← State.loopHeld_iff, Bool.not_eq_true]
  case refine_3 =>
    rw [m.txPoolSlots_eq last, m.bank_eq_ite]
  case refine_4 =>
    rw [m.rxPoolSlots_eq last, m.bank_eq_ite]

/-! ### Markers (R2, R10) -/

theorem markerPosition_eq (b : Byte) : markerPosition b = b.toNat % 16 := by
  simp [markerPosition, BitVec.extractLsb'_toNat]

theorem wellFormedMarker_iff (b : Byte) : wellFormedMarker b = true ↔ b.toNat / 32 = 5 ∧ b.toNat % 16 < 12 := by
  have code : b.extractLsb' 5 3 = 5#3 ↔ b.toNat / 32 = 5 := by
    rw [← BitVec.toNat_inj, BitVec.extractLsb'_toNat, Nat.shiftRight_eq_div_pow]
    have := b.isLt
    simp only [BitVec.toNat_ofNat]
    omega
  rw [wellFormedMarker, Bool.and_eq_true, decide_eq_true_iff, decide_eq_true_iff, code, markerPosition_eq]

theorem toNat_composeMarker : ∀ (flag : Bool) (p : Fin 12),
    (composeMarker flag p.val).toNat = 160 + (if flag then 16 else 0) + p.val := by
  decide

theorem markerFlag_composeMarker : ∀ (flag : Bool) (p : Fin 12), markerFlag (composeMarker flag p.val) = flag := by
  decide

theorem Transmitter.nextFrame_lt (x : Transmitter) : x.nextFrame < 12 := by
  unfold Transmitter.nextFrame
  split <;> omega

/-- The events of a frame start leave the transmitter as the marker began it. -/
theorem State.transmitter_frameStartEvents (s : State) : s.frameStartEvents.transmitter = s.transmitter := by
  have switch : s.txSwitchEvent.transmitter = s.transmitter := by rw [State.txSwitchEvent_eq]
  unfold State.frameStartEvents
  split
  · unfold State.enterAndGrant
    split
    · rw [(State.sameLink_grant _).transmitter, (State.sameLink_activateTransmit _).transmitter, switch]
    · dsimp only
      split
      · rw [(State.sameLink_activateTransmit _).transmitter, (State.sameLink_grant _).transmitter]
        exact switch
      · rw [(State.sameLink_grant _).transmitter, (State.sameLink_activateTransmit _).transmitter]
        exact switch
  · exact s.sameLink_grant.transmitter

/-- Settles O40. -/
theorem markersSentAreWellFormed : Obligations.MarkersSentAreWellFormed := by
  refine ⟨fun b => ?_, fun b => ⟨markerPosition_eq b, rfl⟩, toNat_composeMarker, fun s t ready h => ?_⟩
  · rw [wellFormedMarker_iff]
    omega
  · rw [execTransmitFrameStart_ready ready] at h
    obtain rfl := Host.Outcome.next.inj h
    rw [State.takeLooped_transmitter, State.transmitter_frameStartEvents]
    have value := toNat_composeMarker s.markerFault ⟨_, s.transmitter.nextFrame_lt⟩
    have flag := markerFlag_composeMarker s.markerFault ⟨_, s.transmitter.nextFrame_lt⟩
    have below := s.transmitter.nextFrame_lt
    dsimp only at value flag
    have position : (composeMarker s.markerFault s.transmitter.nextFrame).toNat % 16 = s.transmitter.nextFrame ∧
        (composeMarker s.markerFault s.transmitter.nextFrame).toNat / 32 = 5 := by
      cases fault : s.markerFault <;> simp only [fault, if_true, Bool.false_eq_true, if_false] at value <;> omega
    refine ⟨?_, ?_, ?_⟩
    · exact (wellFormedMarker_iff (composeMarker s.markerFault s.transmitter.nextFrame)).mpr
        ⟨position.2, position.1.trans_lt below⟩
    · exact (markerPosition_eq _).trans position.1
    · rw [show markerFlag s.beginFrame.transmitter.slotByte = s.markerFault from flag]
      simp [State.markerFault, or_assoc]

end Sys2Proof.Machine
end

