-- ==== Sys2Proof/Proofs/TransmitBits.lean ====
section
/-! SUPPORT. The bits on TXD, the write of transmit enable, the entry to STOPPED and the link controls (sections 1.4, 1.5 and
1.7). -/

namespace Sys2Proof.Machine

/-! ### One TXCLK bit position (R1, R4, R7) -/

namespace State

variable {s : State}

theorem txBitPosition_held (h : s.loopHeld = true) : s.txBitPosition = s := if_pos h

theorem txBitPosition_moves (free : s.loopHeld = false) {x : Transmitter} (h : s.transmitter.advance = some x) :
    s.txBitPosition = ({ s with transmitter := x } : State).takeLooped := by
  rw [txBitPosition, free, h]
  rfl

theorem txBitPosition_waits (h : s.transmitter.advance = none) : s.txBitPosition = s := by
  rw [txBitPosition, h]
  exact ite_self s

/-- The waiting commands are outside the part: a bit position leaves them and does not depend on them. -/
theorem txBitPosition_pending (s : State) :
    s.txBitPosition = { ({ s with pending := [] } : State).txBitPosition with pending := s.pending } := by
  have looped (u : State) (l : List Instr) :
      ({ u with pending := l } : State).takeLooped = { u.takeLooped with pending := l } := by
    by_cases h : u.looped = true
    · rw [u.takeLooped_of_looped h, State.takeLooped_of_looped _ (by exact h)]
      rfl
    · have off : u.looped = false := by simpa using h
      rw [u.takeLooped_of_not_looped off, State.takeLooped_of_not_looped _ (by exact off)]
  by_cases held : s.loopHeld = true
  · rw [txBitPosition_held held, txBitPosition_held (by exact held)]
  · have free : s.loopHeld = false := by simpa using held
    cases h : s.transmitter.advance with
    | none => rw [txBitPosition_waits h, txBitPosition_waits (by exact h)]
    | some x =>
      rw [txBitPosition_moves free h, txBitPosition_moves (by exact free) (by exact h)]
      exact (looped { s with transmitter := x, pending := [] } s.pending)

theorem step_idle (h : s.pending = []) : step s = .next s.txBitPosition := by
  rw [step, h]

end State

namespace Transmitter

variable {x : Transmitter}

theorem advance_stopped (h : x.state = .stopped) : x.advance = some x := if_pos h

theorem advance_unbegun (moving : x.state ≠ .stopped) (h : x.begun = false) : x.advance = none :=
  (if_neg moving).trans (if_pos (by simp [h]))

theorem advance_bit (moving : x.state ≠ .stopped) (begun : x.begun = true) (h : x.bitIndex < 7) :
    x.advance = some { x with bitIndex := x.bitIndex + 1 } :=
  (if_neg moving).trans ((if_neg (by simp [begun])).trans (if_pos h))

theorem advance_slot (moving : x.state ≠ .stopped) (begun : x.begun = true) (h : 7 ≤ x.bitIndex) {b : Byte}
    (next : x.nextByte = some b) : x.advance =
      some { x with slotIndex := x.slotIndex + 1, bitIndex := 0, slotByte := b, nextByte := none } := by
  rw [advance, if_neg moving, if_neg (by simp [begun]), if_neg (by omega), next]

theorem advance_unanswered (moving : x.state ≠ .stopped) (begun : x.begun = true) (h : 7 ≤ x.bitIndex)
    (next : x.nextByte = none) : x.advance = none := by
  rw [advance, if_neg moving, if_neg (by simp [begun]), if_neg (by omega), next]

end Transmitter

/-! ### The eight bits of a slot (R1) -/

/-- Off the loop, bit positions move the transmitter alone. -/
theorem State.txBitPosition_unlooped {s : State} (off : s.aligner.localLoop = false) {x : Transmitter}
    (h : s.transmitter.advance = some x) : s.txBitPosition = { s with transmitter := x } := by
  have unlooped : s.looped = false := by simp [State.looped, off]
  have free : s.loopHeld = false := by simp [State.loopHeld, unlooped]
  rw [State.txBitPosition_moves free h, State.takeLooped_of_not_looped _ (by exact unlooped)]

/-- Up to seven bit positions behind its first bit, the slot being sent is at that bit. -/
theorem State.iterate_txBitPosition {s : State} (off : s.aligner.localLoop = false)
    (moving : s.transmitter.state ≠ .stopped) (begun : s.transmitter.begun = true) (first : s.transmitter.bitIndex = 0)
    {n : Nat} (h : n < 8) :
    State.txBitPosition^[n] s = { s with transmitter := { s.transmitter with bitIndex := n } } := by
  induction n with
  | zero =>
    rw [← first]
    exact congrFun (congrArg _ first) s
  | succ n ih =>
    rw [Function.iterate_succ_apply', ih (by omega)]
    exact State.txBitPosition_unlooped (s := { s with transmitter := { s.transmitter with bitIndex := n } }) off
      (Transmitter.advance_bit moving begun (by show n < 7; omega))

/-- Settles O41. -/
theorem bitsGoOutMostSignificantFirst : Obligations.BitsGoOutMostSignificantFirst := by
  refine ⟨fun x fresh => by simp [Transmitter.line, fresh], fun x begun => by simp [Transmitter.line, begun, sentBit],
    fun s => if_congr State.looped_iff rfl rfl, fun s => State.loopHeld_iff,
    fun s => ⟨State.step_idle rfl, s.txBitPosition_pending⟩, fun s idle held => ?_, fun s idle free => ?_,
    fun s off moving begun first => ⟨fun n h => ?_, fun b next => ?_⟩, fun s begun more => ⟨?_, ?_⟩⟩
  · rw [State.step_idle idle, State.txBitPosition_held held]
  · intro moved
    rw [State.step_idle idle]
    refine ⟨fun stopped => ?_, fun moving fresh => ?_, fun moving begun => ⟨fun bit => ?_, fun last b next => ?_,
      fun last next => ?_⟩⟩
    · rw [State.txBitPosition_moves free (Transmitter.advance_stopped stopped)]
    · rw [State.txBitPosition_waits (Transmitter.advance_unbegun moving fresh)]
    · rw [State.txBitPosition_moves free (Transmitter.advance_bit moving begun bit)]
    · rw [State.txBitPosition_moves free (Transmitter.advance_slot moving begun last next)]
    · rw [State.txBitPosition_waits (Transmitter.advance_unanswered moving begun last next)]
  · rw [State.iterate_txBitPosition off moving begun first h]
    exact if_pos begun
  · rw [Function.iterate_succ_apply', State.iterate_txBitPosition off moving begun first (by omega)]
    refine Eq.trans ?_ (congrArg (fun n => ({ s with transmitter := { s.transmitter with
      slotIndex := s.transmitter.slotIndex + 1, bitIndex := n, slotByte := b, nextByte := none } } : State)) first.symm)
    exact State.txBitPosition_unlooped (s := { s with transmitter := { s.transmitter with bitIndex := 7 } }) off
      (Transmitter.advance_slot (x := { s.transmitter with bitIndex := 7 }) moving begun le_rfl next)
  · refine execTransmitFrameStart_not_ready fun ready => ?_
    obtain ⟨fresh, -⟩ | ⟨-, slot, bit, -⟩ := Transmitter.frameStartDue_iff.mp (State.frameStartReady_iff.mp ready).1
    · exact Bool.noConfusion (begun.symm.trans fresh)
    · omega
  · refine if_neg fun due => ?_
    obtain ⟨-, -, -, slot, bit⟩ := Transmitter.stopDue_iff.mp due
    omega

/-! ### Entry to STOPPED (R9) -/

/-- Settles O44. -/
theorem stoppingEndsAfterFrame11 : Obligations.StoppingEndsAfterFrame11 := by
  refine ⟨fun s due => ?_, fun s wait => if_neg fun due => ?_, fun s => ⟨Transmitter.stopDue_iff, fun due => ?_⟩⟩
  · obtain ⟨u, hu⟩ : ∃ u : State, u = { s with transmitter := s.transmitter.halted } := ⟨_, rfl⟩
    have exec : exec .entryToStopped s = .next u.txSwitchEvent := hu ▸ if_pos due
    rw [State.txSwitchEvent_eq] at exec
    subst hu
    exact ⟨_, exec, rfl, rfl, rfl, rfl, rfl, rfl, rfl, rfl, rfl, rfl, rfl⟩
  · obtain ⟨state, -, frame, slot, bit⟩ := Transmitter.stopDue_iff.mp due
    rcases wait with h | h | h | h
    · exact h state
    · exact h frame
    · omega
    · omega
  · obtain ⟨state, begun, frame, -, -⟩ := Transmitter.stopDue_iff.mp due
    refine execTransmitFrameStart_not_ready fun ready => ?_
    obtain ⟨fresh, -⟩ | ⟨-, -, -, running | ⟨-, other⟩⟩ :=
      Transmitter.frameStartDue_iff.mp (State.frameStartReady_iff.mp ready).1
    · exact Bool.noConfusion (begun.symm.trans fresh)
    · rw [state] at running; cases running
    · exact other frame

/-! ### Link controls (R5, R14, R16) -/

namespace Transmitter

variable {x : Transmitter} {on : Bool}

theorem writeEnable_starts (h : x.state = .stopped) : x.writeEnable true = { x with
    enable := true, state := .running, begun := false, frameIndex := 0, slotIndex := 0, bitIndex := 0 } := by
  unfold writeEnable
  simp [h]

theorem writeEnable_stops (h : x.state = .running) : x.writeEnable false = { x with enable := false, state := .stopping } := by
  unfold writeEnable
  simp [h]

theorem writeEnable_resumes (h : x.state = .stopping) : x.writeEnable true = { x with enable := true, state := .running } := by
  unfold writeEnable
  simp [h]

/-- The writes that change the control alone (R5). -/
theorem writeEnable_keeps (h : x.state = .stopped ∧ on = false ∨ x.state = .running ∧ on = true ∨
    x.state = .stopping ∧ on = false) : x.writeEnable on = { x with enable := on } := by
  unfold writeEnable
  rcases h with ⟨h, rfl⟩ | ⟨h, rfl⟩ | ⟨h, rfl⟩ <;> simp [h]

end Transmitter

/-- Settles O43. -/
theorem transmitEnableWriteActsByState : Obligations.TransmitEnableWriteActsByState := by
  intro v s ready page
  refine ⟨s.transmitter.writeEnable (v.getLsbD 0), congrArg Host.Outcome.next (State.hostWrite_ready ready page _), ?_,
    fun stopped on => on ▸ Transmitter.writeEnable_starts stopped, fun running off => off ▸ Transmitter.writeEnable_stops running,
    fun stopping on => on ▸ Transmitter.writeEnable_resumes stopping, Transmitter.writeEnable_keeps⟩
  unfold Transmitter.writeEnable
  split <;> rfl

theorem exec_localLoopWrite {s : State} (h : s.hostReady) (page : s.port.page = 0) (v : Byte) :
    exec (.localLoopWrite v) s = .next (
      if v.getLsbD 0 = s.aligner.localLoop then s
      else { s with
        aligner := { s.aligner with localLoop := v.getLsbD 0 }
        monitor := if s.aligner.receiving then s.monitor.loopChanged else s.monitor }) :=
  congrArg Host.Outcome.next (State.hostWrite_ready h page _)

/-- Settles O45. -/
theorem frameLengthAndLocalLoopWrites : Obligations.FrameLengthAndLocalLoopWrites := by
  refine ⟨fun v s ready page => congrArg Host.Outcome.next (State.hostWrite_ready ready page _), fun v s ready page =>
    ⟨fun same => ?_, fun change off => ?_, fun change on => ?_⟩⟩
  · rw [exec_localLoopWrite ready page, if_pos same]
  · rw [exec_localLoopWrite ready page, if_neg change, Aligner.receiving_eq_false.mpr off]
    rfl
  · rw [exec_localLoopWrite ready page, if_neg change, Aligner.receiving_eq_true.mpr on]
    rfl

end Sys2Proof.Machine
end

