-- ==== Sys2Proof/Proofs/ReceiveStatements.lean ====
section
/-! SUPPORT. The receive side: the search and its checks, the gain of alignment, the write of receive enable and the received
bit positions (sections 1.7, 2.1 to 2.7 and 3.1 to 3.4). -/

namespace Sys2Proof.Machine

/-! ### HUNT and CONFIRM (R22, R24, R25) -/

theorem Aligner.examinationDue_iff {a : Aligner} :
    a.examinationDue = true ↔ a.state = .hunt ∧ 8 ≤ a.bits.length := by
  simp [Aligner.examinationDue]

theorem Aligner.confirmCheckDue_iff {a : Aligner} :
    a.confirmCheckDue = true ↔ a.state = .confirm ∧ a.expectedPlace + 8 ≤ a.bits.length := by
  simp [Aligner.confirmCheckDue]

theorem exec_confirmMarkerCheck_good {s : State} (due : s.aligner.confirmCheckDue = true) {b : Byte}
    (hb : b = byteOfBits (s.aligner.bits.drop s.aligner.expectedPlace)) (form : wellFormedMarker b = true)
    (position : markerPosition b = s.aligner.expectedPosition) :
    exec .confirmMarkerCheck s =
      if s.aligner.confirmations = 0 then
        .next { s with aligner := s.aligner.confirmOnce s.transmitter.frameLength }
      else .next (s.enterAligned (markerFlag b)) := by
  subst hb
  exact (if_pos due).trans (if_pos ((s.aligner.goodMarker_iff _).mpr ⟨form, position⟩))

/-- Settles O47. -/
theorem candidateIsFoundThenCheckedAtItsPlaces : Obligations.CandidateIsFoundThenCheckedAtItsPlaces := by
  refine ⟨fun s due => ⟨fun form silence hold => ?_, fun passed => ?_⟩, fun s due => ⟨fun good first => ?_, fun bad => ?_⟩,
    fun s => ⟨Aligner.examinationDue_iff, Aligner.confirmCheckDue_iff, fun wait => if_neg (by simp [wait]),
      fun wait => if_neg (by simp [wait])⟩⟩
  · refine (if_pos due).trans (if_pos ⟨form, ?_⟩)
    simp [silence, hold]
  · refine (if_pos due).trans (if_neg ?_)
    rintro ⟨form, silence, hold⟩
    rcases passed with h | h | h
    · exact Bool.noConfusion (form.symm.trans h)
    · simp [h] at silence
    · simp [h] at hold
  · rw [exec_confirmMarkerCheck_good due rfl good.1 good.2, if_pos first]
    rfl
  · exact (if_pos due).trans (if_neg (mt (s.aligner.goodMarker_iff _).mp bad))

/-! ### The gain of alignment (R26) -/

theorem State.postInAnyOrder_draws {s : State} {posts : List Post} (h : posts.length ≤ 1) :
    (s.postInAnyOrder posts).draws = s.draws := by
  match posts, h with
  | [], _ => rfl
  | [p], _ => rfl

/-- A frame start with no switch pending has at most one post, so no order is drawn for it. -/
theorem State.frameStart_draws {s : State} (idle : s.maps.rxPending = false) (flag : Option Bool) :
    (s.frameStart flag).draws = s.draws := by
  have one (p : Prop) [Decidable p] (q : Post) : (if p then [q] else []).length ≤ 1 := by split <;> simp
  unfold State.frameStart
  refine (State.postInAnyOrder_draws ?_).trans ?_
  · rw [if_neg (by simp [idle]), List.nil_append]
    exact one _ _
  · show (if s.aligner.expectedPosition = 0 then s.rxCycleStart else s).draws = _
    split
    · rw [s.rxCycleStart_eq.1]
    · rfl

/-- The detector starts clear, so the confirming marker's flag is its first reading (R36, R37). -/
theorem State.alignerAtFrame_aligning (s : State) (flag : Bool) :
    ({ s with aligner := s.aligner.aligning } : State).alignerAtFrame (some flag) =
      { s.aligner.aligning with
        expectedPlace := (s.transmitter.frameLength - 1) * 8
        expectedPosition := (s.aligner.expectedPosition + 1) % 12
        faultRun := if flag then 1 else 0
        cycleCount := s.countAtFrame
        cycleOffset := if s.aligner.expectedPosition = 0 then s.transmitter.offset else s.aligner.cycleOffset } := by
  rw [State.alignerAtFrame_some]
  cases flag <;> rfl

/-- Settles O48: the entry to ALIGNED is a frame start (State.frameStart_eq), with no switch pending and a clear detector, so
that ALIGN_GAINED is its one post. -/
theorem secondConfirmingMarkerGainsAlignment : Obligations.SecondConfirmingMarkerGainsAlignment := by
  refine ⟨fun s due second law => ?_, fun s due second ok => ?_⟩
  · intro b cycle count k form position
    obtain ⟨confirm, -⟩ := Aligner.confirmCheckDue_iff.mp due
    have idle : s.maps.rxPending = false := Bool.eq_false_iff.mpr fun pending => by
      have := law.1 pending
      rw [confirm] at this
      cases this
    obtain ⟨u, hu⟩ : ∃ u : State, u = { s with aligner := s.aligner.aligning } := ⟨_, rfl⟩
    have idle' : u.maps.rxPending = false := by rw [hu]; exact idle
    have exec : exec .confirmMarkerCheck s = .next ((u.frameStart (some (markerFlag b))).post
        ((u.frameStart (some (markerFlag b))).rxLinkPost .alignGained .none)) := by
      rw [exec_confirmMarkerCheck_good due rfl form position, if_neg (by omega), hu]
      rfl
    obtain ⟨posts, draws, perm, e, contexts⟩ := u.frameStart_eq (some (markerFlag b))
    have kept : draws = u.draws := by
      have := State.frameStart_draws idle' (some (markerFlag b))
      rw [e] at this
      exact this
    have none_posted : posts = [] := by
      rw [State.postsAtFrame_some, if_neg (by simp [idle']), if_neg (by rw [hu]; simp [Aligner.aligning])] at perm
      exact perm.eq_nil
    have maps : u.mapsAtFrame = u.maps := if_neg (by simp [idle'])
    have aligner := s.alignerAtFrame_aligning (markerFlag b)
    rw [← hu] at aligner
    rw [kept, none_posted, maps, aligner] at e
    refine ⟨_, exec, ?_, fun c => ?_⟩
    · rw [e, hu]
      rfl
    · rw [State.channel_post, contexts, hu]
      rfl
  · obtain ⟨confirm, enough⟩ := Aligner.confirmCheckDue_iff.mp due
    obtain ⟨-, -, -, room, -, place, -⟩ := ok
    have := room (.inr confirm)
    obtain ⟨-, place⟩ := place confirm
    rw [second] at place
    omega

/-! ### Receive enable (R18, R20) -/

theorem exec_receiveEnableWrite {s : State} (h : s.hostReady) (page : s.port.page = 0) {v : Byte} {on : Bool}
    (e : v.getLsbD 0 = on) :
    exec (.receiveEnableWrite v) s = .next (
      let t : State := { s with aligner := { s.aligner with enable := on } }
      if on then if s.aligner.state = .off then { t with aligner := t.aligner.freshSearch } else t
      else if s.aligner.state = .off then t
      else t.toOff) := by
  subst e
  exact congrArg Host.Outcome.next (State.hostWrite_ready h page _)

/-- Settles O46. -/
theorem receiveEnableWriteActsByState : Obligations.ReceiveEnableWriteActsByState := by
  intro v s ready page
  refine ⟨fun off on => ?_, fun keeps => ?_, fun search off => ?_, fun aligned off => ?_⟩
  · rw [exec_receiveEnableWrite ready page on]
    exact congrArg Host.Outcome.next ((if_pos rfl).trans (if_pos off))
  · rcases keeps with ⟨searching, on⟩ | ⟨stopped, off⟩
    · rw [exec_receiveEnableWrite ready page on, on]
      exact congrArg Host.Outcome.next ((if_pos rfl).trans (if_neg searching))
    · rw [exec_receiveEnableWrite ready page off, off]
      exact congrArg Host.Outcome.next ((if_neg nofun).trans (if_pos stopped))
  · have on : s.aligner.state ≠ .off := by rcases search with h | h <;> rw [h] <;> nofun
    have unaligned : s.aligner.state ≠ .aligned := by rcases search with h | h <;> rw [h] <;> nofun
    obtain ⟨u, hu⟩ : ∃ u : State, u = { s with aligner := { s.aligner with enable := false } } := ⟨_, rfl⟩
    have exec : exec (.receiveEnableWrite v) s = .next u.toOff := by
      rw [exec_receiveEnableWrite ready page off, hu]
      exact congrArg Host.Outcome.next ((if_neg nofun).trans (if_neg on))
    rw [exec, State.toOff, if_neg (by rw [hu]; exact unaligned), hu]
    rfl
  · obtain ⟨u, hu⟩ : ∃ u : State, u = { s with aligner := { s.aligner with enable := false } } := ⟨_, rfl⟩
    have exec : exec (.receiveEnableWrite v) s = .next u.toOff := by
      rw [exec_receiveEnableWrite ready page off, hu]
      exact congrArg Host.Outcome.next ((if_neg nofun).trans (if_neg (by rw [aligned]; nofun)))
    rw [State.toOff, if_pos (by rw [hu]; exact aligned)] at exec
    obtain ⟨posts, perm, e, contexts⟩ := u.reportLeaving_eq
    subst hu
    refine ⟨_, posts, exec, perm, ?_, contexts⟩
    dsimp only
    rw [e]
    rfl

/-! ### Received bits (R16, R38 to R41) -/

theorem LineMonitor.takeBit_eq (m : LineMonitor) (bit : Bool) :
    m.takeBit bit =
      let place := if m.holdRestart then 0 else m.holdPosition
      let zeros := if m.holdRestart then 0 else m.holdZeros
      { m with
        zeroRun := if bit then 0 else min 160 (m.zeroRun + 1)
        silenceWindow := m.nextWindow bit
        holdZeros := if bit then zeros else min 3 (zeros + 1)
        holdPosition := if place = 1023 then 1023 else place + 1
        holdWindowDone := place = 1023
        lowWindows := if m.holdRestart then 0 else m.lowWindows
        holdRestart := false } := by
  cases h : m.holdRestart <;>
    simp [LineMonitor.takeBit, LineMonitor.countHold, LineMonitor.atFirstBit, LineMonitor.nextZeroRun, h]

theorem Aligner.behind_iff {a : Aligner} :
    a.behind = true ↔ (a.state = .hunt ∧ 8 < a.bits.length) ∨
      (a.state = .confirm ∧ a.expectedPlace + 8 < a.bits.length) := by
  simp [Aligner.behind]

/-- An event of the monitor is due at the present bit position (R39 to R41). -/
theorem LineMonitor.eventDue_iff {m : LineMonitor} :
    m.eventDue = true ↔ (m.silence = false ∧ m.zeroRun = 160) ∨
      (∃ w, m.silenceWindow = some w ∧ m.silence = true ∧ (w.ones = 16 ∨ (w.position = 128 ∧ w.ones < 16))) ∨
      m.holdWindowDone = true := by
  simp only [LineMonitor.eventDue, Bool.or_eq_true, LineMonitor.silenceDue_iff, LineMonitor.silenceClearDue_iff,
    LineMonitor.windowFailureDue_iff]
  constructor
  · rintro (((h | ⟨on, w, e, h⟩) | ⟨on, w, e, h⟩) | h)
    · exact .inl h
    · exact .inr (.inl ⟨w, e, on, .inl h⟩)
    · exact .inr (.inl ⟨w, e, on, .inr h⟩)
    · exact .inr (.inr h)
  · rintro (h | ⟨w, e, on, h | h⟩ | h)
    · exact .inl (.inl (.inl h))
    · exact .inl (.inl (.inr ⟨on, w, e, h⟩))
    · exact .inl (.inr ⟨on, w, e, h⟩)
    · exact .inr h

/-- The next bit has not come as far as the aligner is concerned (R23; assumptions 4, 5 and 23), state by state. -/
theorem Aligner.bitHeld_iff {a : Aligner} {f : Nat} :
    a.bitHeld f = true ↔
      ((a.state = .hunt ∨ a.state = .confirm) ∧ 16 * f + 8 ≤ a.bits.length) ∨
      (a.state = .hunt ∧ 8 ≤ a.bits.length ∧ (a.bits.length = 8 ∨ a.lateBit = true)) ∨
      (a.state = .confirm ∧ a.expectedPlace + 8 ≤ a.bits.length ∧
        (a.bits.length = a.expectedPlace + 8 ∨ a.lateBit = true)) ∨
      (a.state = .aligned ∧
        (a.frameEndDue = true ∨ (8 ≤ a.bits.length ∧ (8 ≤ a.expectedPlace ∨ a.expectedPlace = 0)))) := by
  unfold Aligner.bitHeld Aligner.historyFull Aligner.eventDue Aligner.examinationDue Aligner.confirmCheckDue
    Aligner.markerCheckDue Aligner.arrivalDue Aligner.frameEndReady Aligner.behind
  cases state : a.state with
  | off => simp
  | hunt =>
    simp only [reduceCtorEq, decide_true, decide_false, Bool.true_and, Bool.false_and, Bool.or_false, Bool.or_eq_true,
      Bool.and_eq_true, decide_eq_true_eq, Bool.not_eq_true', decide_eq_false_iff_not, true_and, false_and, or_false]
    refine or_congr_right (and_congr_right fun enough => or_congr_left ?_)
    omega
  | confirm =>
    simp only [reduceCtorEq, decide_true, decide_false, Bool.true_and, Bool.false_and, Bool.or_false, Bool.false_or,
      Bool.or_eq_true, Bool.and_eq_true, decide_eq_true_eq, Bool.not_eq_true', decide_eq_false_iff_not, or_true, true_and,
      false_and, or_false, false_or]
    refine or_congr_right (and_congr_right fun enough => or_congr_left ?_)
    omega
  | aligned =>
    cases ended : a.frameEndDue <;> simp
    omega

/-- Settles O53. -/
theorem receivedBitReachesBothDetectors : Obligations.ReceivedBitReachesBothDetectors := by
  refine ⟨fun bit s => ?_, fun s => ?_, fun s ok search full => ?_, fun rxd s => ⟨fun off => ?_, fun on unlooped free => ?_,
    fun on unlooped held => ?_, fun on loop => ?_⟩⟩
  · intro m place zeros late
    have behind : s.aligner.behind = decide late := by
      rw [Bool.eq_iff_iff, decide_eq_true_iff]
      exact Aligner.behind_iff
    refine ⟨m.nextWindow bit, ?_, fun clear => ?_, fun on closed => ?_, fun x on window => ?_⟩
    · rw [State.takeBit, LineMonitor.takeBit_eq, behind]
    · simp [LineMonitor.nextWindow, clear]
    · cases bit <;> simp [LineMonitor.nextWindow, on, closed]
    · cases bit <;> simp [LineMonitor.nextWindow, on, window]
  · intro a m
    rw [State.bitHeld, Bool.or_eq_true, LineMonitor.eventDue_iff, Aligner.bitHeld_iff, or_assoc, or_assoc]
  · obtain ⟨-, -, -, -, -, place, -⟩ := ok
    rw [Aligner.examinationDue_iff, Aligner.confirmCheckDue_iff]
    rcases search with hunt | confirm
    · exact .inl ⟨hunt, by omega⟩
    · obtain ⟨count, place⟩ := place confirm
      have within : (s.aligner.confirmations + 1) * (s.transmitter.frameLength * 8) ≤
          2 * (s.transmitter.frameLength * 8) := Nat.mul_le_mul_right _ (by omega)
      exact .inr ⟨confirm, by omega⟩
  all_goals show execReceivedBitPosition rxd s = _; rw [execReceivedBitPosition]
  · simp [State.looped, Aligner.receiving_eq_false.mpr off]
  · simp [State.looped, unlooped, Aligner.receiving_eq_true.mpr on, free]
  · simp [State.looped, unlooped, held]
  · rw [if_pos (State.looped_iff.mpr ⟨loop, on⟩)]

end Sys2Proof.Machine
end
